-- ==== Sys2Proof/Word.lean ====
section
/-! DEFINITION. The word types of the panel driver (00_scope.md R10: all values are unsigned). -/

namespace Sys2Proof

/-- `u8`: a command byte, a data byte, an operation code. -/
abbrev Byte := BitVec 8

/-- `u16`: a pixel or a coordinate. -/
abbrev U16 := BitVec 16

/-- The 32-bit wire word of format W32 (30_encoding.md R70). -/
abbrev Word := BitVec 32

end Sys2Proof
end

