-- ==== Sys2Proof/Config.lean ====
section
/-! DEFINITION. What an implementation fixes: the parameters of 00_scope.md R6 as fields of `Config`, the constants the
document states, the free values, and the one configuration `State.reset` carries. -/

namespace Sys2Proof

/-- The thirteen states of the initialization state machine, in the document's order (10_state.md R24). An entry of the
table names the state that sends it (30_encoding.md R78). -/
inductive SeqState where
  | reset | powerWait | pageUnlock | registerBurst | gammaPageUnlock | gammaBurst | pageLock
  | displayModeConfig | sleepOut | settleDelay120 | displayOn | settleDelay10 | ready
  deriving DecidableEq, Repr

/-- The place of a state in the straight line of 41_init_sequencer.md R130. -/
def SeqState.rank : SeqState → Nat
  | .reset => 0
  | .powerWait => 1
  | .pageUnlock => 2
  | .registerBurst => 3
  | .gammaPageUnlock => 4
  | .gammaBurst => 5
  | .pageLock => 6
  | .displayModeConfig => 7
  | .sleepOut => 8
  | .settleDelay120 => 9
  | .displayOn => 10
  | .settleDelay10 => 11
  | .ready => 12

/-- One entry of the initialization table (30_encoding.md R78). -/
structure Entry where
  cmd     : Byte
  params  : List Byte
  delayMs : Nat
  phase   : SeqState
  deriving DecidableEq, Repr

/-- The transport profile (00_scope.md R7). -/
inductive Profile where
  | bridge
  | native
  deriving DecidableEq, Repr

/-- The Frame Writer variant (42_frame_writer.md R174). -/
inductive FwVariant where
  | singleWindow
  | rowBitmap
  deriving DecidableEq, Repr

/-- The native panel-IO configuration record (10_state.md R29, 40_transport.md R116). A pin identifier is a number; the
document gives none. -/
structure NativeRecord where
  csPin      : Nat
  dataPin0   : Nat
  dataPin1   : Nat
  dataPin2   : Nat
  dataPin3   : Nat
  clkPin     : Nat
  clockHz    : Nat
  cmdBits    : Nat
  paramBits  : Nat
  queueDepth : Nat
  deriving DecidableEq, Repr

/-- The parameters of 00_scope.md R6. A state carries its configuration, and no step changes it (10_state.md R29; log 1). -/
structure Config where
  /-- `OPC_WRCMD`. `Config.documentedOk` admits only the value the document states, for this and the next five, so the
  types and the constants of the model are the parameters (log 27). -/
  opcWrcmd     : Byte
  /-- `OPC_WRCOLOR`. -/
  opcWrcolor   : Byte
  /-- `WORD_BITS`. -/
  wordBits     : Nat
  /-- `F_SCLK_BRIDGE_MAX`, in hertz. -/
  sclkBridgeMaxHz : Nat
  /-- `COORD_BITS`. -/
  coordBits    : Nat
  /-- `PIXEL_BITS`. -/
  pixelBits    : Nat
  profile      : Profile
  fwVariant    : FwVariant
  fwBurst      : Bool
  native       : NativeRecord
  /-- The bus clock of the bridge profile, which `sclkBridgeMaxHz` bounds. -/
  sclkBridgeHz : Nat
  tQuietNs     : Nat
  tSlpoutMs    : Nat
  tDisponMs    : Nat
  tPowerWaitMs : Nat
  width        : Nat
  height       : Nat
  cmdCaset     : Byte
  cmdRaset     : Byte
  cmdRamwr     : Byte
  cmdSlpout    : Byte
  cmdDispon    : Byte
  /-- The fixed 7-bit I2C address of the GPIO expander (20_memory.md R57 (c), 60_exceptions.md R236). -/
  expAddr      : BitVec 7
  /-- The backlight's initial, steady-state brightness in percent: "a configuration constant, not a hard-coded contract"
  (60_exceptions.md R240). -/
  backlightPct : Fin 101
  /-- The dim end of the self-test ramp, in percent; no rule gives it (60_exceptions.md R240; log 25). -/
  rampDim      : Fin 101
  /-- The brightness levels in percent of the ramp on its way from full to dim, the two ends left out; "the ramp's step size
  and delays are not in the document" (60_exceptions.md R240; log 25). -/
  rampLevels   : List (Fin 101)
  /-- The fixed delay between two steps of the ramp (60_exceptions.md R240; log 25). -/
  rampDelayNs  : Nat
  /-- `INIT_TABLE`, the contents of the space ROM (20_memory.md R50). -/
  table        : List Entry
  deriving DecidableEq, Repr

namespace Config

/-- The opcode of a write-command word (30_encoding.md R71). -/
def wrcmdOpcode : Byte := 0x02#8

/-- The opcode of a write-color word (30_encoding.md R71). -/
def wrcolorOpcode : Byte := 0x32#8

/-- The width of a wire word (30_encoding.md R70). -/
def wireBits : Nat := 32

/-- Nanoseconds in a millisecond: `now` counts nanoseconds (10_state.md R27), the table's delays milliseconds. -/
def nsPerMs : Nat := 1000000

/-- A 16-bit value the spec leaves unspecified, one for each index: the receiver's window and write position after a
recovery (43_panel_receiver.md R204; log 7). No body: no proof can see a value. -/
opaque freeU16 : Nat → U16

/-- A byte the spec leaves unspecified, one for each index: an expander register after a BusError
(93_implementation_defined.md U14; log 25). -/
opaque freeByte : Nat → Byte

/-- A number the spec leaves unstated, one for each index: the duty after a `set_duty` outside the backlight's contract
(60_exceptions.md R239; log 25). -/
opaque freeNat : Nat → Nat

/-- The native record of the configuration at reset: the observed clock rate and the two bit widths are the document's
(10_state.md R29); the pins and the queue depth are OPEN and set to 0 (DESIGN CHOICE, log 1). -/
def observedNative : NativeRecord :=
  ⟨0, 0, 0, 0, 0, 0, 40000000, 32, 8, 0⟩

/-- The configuration `State.reset` carries (DESIGN CHOICE, log 1): every value 00_scope.md R6 states; the default
command bytes; the shortest table 41_init_sequencer.md R131 allows (its two compulsory entries and no other); the
expander's address "in the observed wiring" (20_memory.md R57); the backlight at 80 percent (92_eei_decisions.md D31), its
OPEN ramp straight to 0 and back; and for the OPEN `T_POWER_WAIT_MS` the figure of
95_test_vectors.md section 3.1. No statement rests on it. -/
def atReset : Config where
  opcWrcmd     := 0x02#8
  opcWrcolor   := 0x32#8
  wordBits     := 32
  sclkBridgeMaxHz := 5000000
  coordBits    := 16
  pixelBits    := 16
  profile      := .bridge
  fwVariant    := .singleWindow
  fwBurst      := false
  native       := observedNative
  sclkBridgeHz := 5000000
  tQuietNs     := 1000
  tSlpoutMs    := 120
  tDisponMs    := 10
  tPowerWaitMs := 5
  width        := 360
  height       := 360
  cmdCaset     := 0x2A#8
  cmdRaset     := 0x2B#8
  cmdRamwr     := 0x2C#8
  cmdSlpout    := 0x11#8
  cmdDispon    := 0x29#8
  expAddr      := 0x20#7
  backlightPct := 80
  rampDim      := 0
  rampLevels   := []
  rampDelayNs  := 0
  table        := [⟨0x11#8, [], 0, .sleepOut⟩, ⟨0x29#8, [], 0, .displayOn⟩]

end Config

end Sys2Proof
end

