-- ==== Sys2Proof/Syntax.lean ====
section
/-! DEFINITION. The instructions: one constructor per row of spec/opcode_table.json (30_encoding.md R87). -/

namespace Sys2Proof

/-- The thirteen rows of the opcode map, level by level. -/
inductive Instr where
  -- Level 2, wire words (30_encoding.md R71)
  /-- WRCMD: a wire word that carries a panel command byte (40_transport.md R104). -/
  | wrcmd (c : Byte)
  /-- WRCOLOR: a wire word that carries a raw data byte (40_transport.md R105). -/
  | wrcolor (d : Byte)
  -- Level 1, host operations (30_encoding.md R75)
  /-- SEND_COMMAND (40_transport.md R106). -/
  | sendCommand (cmd : Byte)
  /-- SEND_DATA (40_transport.md R107). -/
  | sendData (byte : Byte)
  /-- RUN_INIT (41_init_sequencer.md R130). -/
  | runInit
  /-- FILL_RECT: an inclusive rectangle and a pixel (42_frame_writer.md R160). -/
  | fillRect (x0 y0 x1 y1 pixel : U16)
  /-- FILL_SCREEN (42_frame_writer.md R168). -/
  | fillScreen (pixel : U16)
  -- Level 3, panel commands with their data bytes (30_encoding.md R77)
  /-- CASET: start and end column (42_frame_writer.md R169). -/
  | caset (first last : U16)
  /-- RASET: start and end row (42_frame_writer.md R170). -/
  | raset (first last : U16)
  /-- RAMWR: no parameters (42_frame_writer.md R171). -/
  | ramwr
  /-- SLPOUT: the parameters the table gives (41_init_sequencer.md R153). -/
  | slpout (params : List Byte)
  /-- DISPON: the parameters the table gives (41_init_sequencer.md R154). -/
  | dispon (params : List Byte)
  /-- VENDOR: any other command byte, with its parameters (41_init_sequencer.md R155). -/
  | vendor (cmd : Byte) (params : List Byte)
  deriving DecidableEq, Repr

end Sys2Proof
end

