-- ==== Sys2Proof/WellFormed.lean ====
section
/-! DEFINITION. Well-formed configurations (41_init_sequencer.md R131, 30_encoding.md R77, 70_reset_and_hazards.md R265,
R266, R274) and well-formed instructions. -/

namespace Sys2Proof

/-- The nine sending states of 41_init_sequencer.md R131 condition 1; the other four send nothing. -/
def SeqState.sends : SeqState → Bool
  | .powerWait | .settleDelay120 | .settleDelay10 | .ready => false
  | .reset | .pageUnlock | .registerBurst | .gammaPageUnlock | .gammaBurst | .pageLock
  | .displayModeConfig | .sleepOut | .displayOn => true

namespace Config

/-- The five named command bytes, in the order of 30_encoding.md R77. -/
def namedCmds (k : Config) : List Byte :=
  [k.cmdCaset, k.cmdRaset, k.cmdRamwr, k.cmdSlpout, k.cmdDispon]

/-- 30_encoding.md R77: "The five named parameters must be pairwise different". -/
def cmdsDistinct (k : Config) : Bool := decide k.namedCmds.Nodup

/-- 41_init_sequencer.md R131 condition 1. -/
def phasesSend (k : Config) : Bool := k.table.all fun e => e.phase.sends

/-- 41_init_sequencer.md R131 condition 2: phases are non-decreasing along the table. -/
def phasesOrdered (k : Config) : Bool :=
  decide ((k.table.map fun e => e.phase.rank).Pairwise (· ≤ ·))

/-- The command bytes of the entries of a phase. -/
def cmdsOf (k : Config) (p : SeqState) : List Byte :=
  (k.table.filter fun e => e.phase == p).map fun e => e.cmd

/-- 41_init_sequencer.md R131 condition 3, sleep-out. -/
def sleepOutOnce (k : Config) : Bool := k.cmdsOf .sleepOut == [k.cmdSlpout]

/-- 41_init_sequencer.md R131 condition 3, display-on. -/
def displayOnOnce (k : Config) : Bool := k.cmdsOf .displayOn == [k.cmdDispon]

/-- The documented minimums: 70_reset_and_hazards.md R265 (quiet interval), R266 (settle delays). -/
def waitsOk (k : Config) : Bool :=
  decide (1000 ≤ k.tQuietNs) && decide (120 ≤ k.tSlpoutMs) && decide (10 ≤ k.tDisponMs)

/-- 70_reset_and_hazards.md R274: in the bridge profile the clock is up to the documented limit. -/
def clockOk (k : Config) : Bool := decide (k.sclkBridgeHz ≤ k.sclkBridgeMaxHz)

/-- The parameters of 00_scope.md R6 for which the document states the one value (30_encoding.md R71, R72; log 27). -/
def documentedOk (k : Config) : Bool :=
  k.opcWrcmd == wrcmdOpcode && k.opcWrcolor == wrcolorOpcode && k.wordBits == wireBits && k.sclkBridgeMaxHz == 5000000
    && k.coordBits == 16 && k.pixelBits == 16

/-- 92_eei_decisions.md D33: any size up to 65536; a panel has at least one pixel (42_frame_writer.md R168). -/
def sizeOk (k : Config) : Bool :=
  decide (1 ≤ k.width) && decide (k.width ≤ 65536) && decide (1 ≤ k.height) && decide (k.height ≤ 65536)

/-- 10_state.md R29: the two bit widths of the native record. -/
def nativeOk (k : Config) : Bool := k.native.cmdBits == 32 && k.native.paramBits == 8

/-- A configuration a model accepts; any other is refused (93_implementation_defined.md U4, U17). The conditions on the table
are the four of 41_init_sequencer.md R131. They let an entry of another phase carry `CMD_SLPOUT` or `CMD_DISPON`, although R153
and R154 have these sent only in `SleepOut` and `DisplayOn`: such a table is accepted (DESIGN CHOICE, log 34). -/
def wf (k : Config) : Bool :=
  k.cmdsDistinct && k.phasesSend && k.phasesOrdered && k.sleepOutOnce && k.displayOnOnce
    && k.waitsOk && k.clockOk && k.sizeOk && k.nativeOk && k.documentedOk

end Config

/-- The check of VENDOR: its command byte is none of the five named ones (spec/opcode_table.json: "it matches any command
byte not matched by the five rows before it"). Every other instruction is well-formed by its types. -/
def Instr.wf (k : Config) : Instr → Bool
  | .wrcmd _ => true
  | .wrcolor _ => true
  | .sendCommand _ => true
  | .sendData _ => true
  | .runInit => true
  | .fillRect _ _ _ _ _ => true
  | .fillScreen _ => true
  | .caset _ _ => true
  | .raset _ _ => true
  | .ramwr => true
  | .slpout _ => true
  | .dispon _ => true
  | .vendor c _ => !k.namedCmds.contains c

end Sys2Proof
end

