-- ==== Sys2Proof/Decode.lean ====
section
/-! DEFINITION. Formats W32, REQ96 and CMD8 (30_encoding.md R70 to R77): the byte helpers, the decoder, the encoder, and
the table-word entry point. Codes are lists of bytes, the most significant byte first (20_memory.md R53; log 9). -/

namespace Sys2Proof

/-- `v[15:8]`, the byte sent first (30_encoding.md R79, R80). -/
def hiByte (v : U16) : Byte := v.extractLsb' 8 8

/-- `v[7:0]`, the byte sent second. -/
def loByte (v : U16) : Byte := v.extractLsb' 0 8

/-- `hi ‖ lo` (20_memory.md R53: "p = first ‖ second"). -/
def u16 (hi lo : Byte) : U16 := hi ++ lo

/-- The four data bytes of a window command: start then end, high byte first (30_encoding.md R79). -/
def coordBytes (s e : U16) : List Byte := [hiByte s, loByte s, hiByte e, loByte e]

/-- A word of format W32 (30_encoding.md R70): opcode in bits 31:24, payload in 23:16, zero in 15:0. -/
def w32 (opcode payload : Byte) : Word := opcode ++ payload ++ 0#16

/-- The WRCMD word (40_transport.md R104). -/
def cmdWord (c : Byte) : Word := w32 Config.wrcmdOpcode c

/-- The WRCOLOR word (40_transport.md R105). -/
def datWord (d : Byte) : Word := w32 Config.wrcolorOpcode d

/-- The three encoded forms (30_encoding.md R87). -/
inductive Format where
  | w32
  | req96
  | cmd8
  deriving DecidableEq, Repr

/-- Why a code is no instruction. -/
inductive DecodeError where
  /-- A W32 code is 4 bytes, a REQ96 code 12, a CMD8 code at least one (30_encoding.md R81). -/
  | wrongLength (f : Format) (got : Nat)
  /-- A wire opcode other than 0x02 and 0x32 (30_encoding.md R83). -/
  | undefinedOpcode (opcode : Byte)
  /-- A wire word whose bits 15:0 are not zero (30_encoding.md R83). -/
  | reservedNotZero (bits : U16)
  /-- A host operation code that is not assigned (30_encoding.md R83): answered with CONFIGURATION_ERROR. -/
  | unassignedOp (op : Byte)
  /-- CASET or RASET with other than four data bytes (30_encoding.md R77). -/
  | windowParameters (got : Nat)
  /-- RAMWR with parameters: it has none; what follows it is pixel data (42_frame_writer.md R165). -/
  | memoryWriteParameters (got : Nat)
  deriving DecidableEq, Repr

/-- The host operation codes of 30_encoding.md R75. -/
def opSendCommand : Byte := 0x10#8
def opSendData : Byte := 0x11#8
def opRunInit : Byte := 0x20#8
def opFillRect : Byte := 0x30#8
def opFillScreen : Byte := 0x31#8

/-- A W32 word (30_encoding.md R72): the match value of a row under the mask 0xFF00FFFF. -/
def decodeWord (w : Word) : Except DecodeError Instr :=
  if w &&& 0xFF00FFFF#32 = 0x02000000#32 then .ok (.wrcmd (w.extractLsb' 16 8))
  else if w &&& 0xFF00FFFF#32 = 0x32000000#32 then .ok (.wrcolor (w.extractLsb' 16 8))
  else if w.extractLsb' 0 16 = 0#16 then .error (.undefinedOpcode (w.extractLsb' 24 8))
  else .error (.reservedNotZero (w.extractLsb' 0 16))

/-- A REQ96 descriptor's fields (30_encoding.md R74), selected by `op` (R75); a field the operation does not use is
ignored. -/
def decodeFields (op byte : Byte) (pixel x0 y0 x1 y1 : U16) : Except DecodeError Instr :=
  if op = opSendCommand then .ok (.sendCommand byte)
  else if op = opSendData then .ok (.sendData byte)
  else if op = opRunInit then .ok .runInit
  else if op = opFillRect then .ok (.fillRect x0 y0 x1 y1 pixel)
  else if op = opFillScreen then .ok (.fillScreen pixel)
  else .error (.unassignedOp op)

/-- The window command of four data bytes; another number of bytes is refused by name. -/
def decodeWindow (mk : U16 → U16 → Instr) : List Byte → Except DecodeError Instr
  | [a, b, c, d] => .ok (mk (u16 a b) (u16 c d))
  | ps => .error (.windowParameters ps.length)

/-- A panel command byte with its data bytes (30_encoding.md R77); VENDOR has the lowest priority. -/
def decodeGroup (k : Config) (c : Byte) (ps : List Byte) : Except DecodeError Instr :=
  if c = k.cmdCaset then decodeWindow .caset ps
  else if c = k.cmdRaset then decodeWindow .raset ps
  else if c = k.cmdRamwr then
    match ps with
    | [] => .ok .ramwr
    | _ :: _ => .error (.memoryWriteParameters ps.length)
  else if c = k.cmdSlpout then .ok (.slpout ps)
  else if c = k.cmdDispon then .ok (.dispon ps)
  else .ok (.vendor c ps)

/-- The decoder: total on any bytes, rejecting by name. -/
def decode (k : Config) (f : Format) (bytes : List Byte) : Except DecodeError Instr :=
  match f, bytes with
  | .w32, [b3, b2, b1, b0] => decodeWord (b3 ++ b2 ++ (b1 ++ b0))
  | .req96, [op, byte, p1, p0, a1, a0, b1, b0, c1, c0, d1, d0] =>
    decodeFields op byte (u16 p1 p0) (u16 a1 a0) (u16 b1 b0) (u16 c1 c0) (u16 d1 d0)
  | .cmd8, c :: ps => decodeGroup k c ps
  | f, bytes => .error (.wrongLength f bytes.length)

/-- The bytes of a 16-bit field, high byte first. -/
def fieldBytes (v : U16) : List Byte := [hiByte v, loByte v]

/-- A REQ96 descriptor from its fields (30_encoding.md R74). -/
def reqBytes (op byte : Byte) (pixel x0 y0 x1 y1 : U16) : List Byte :=
  [op, byte] ++ fieldBytes pixel ++ fieldBytes x0 ++ fieldBytes y0 ++ fieldBytes x1 ++ fieldBytes y1

/-- The encoder: the code of an instruction, unused fields zero (95_test_vectors.md, notation). -/
def encode (k : Config) : Instr → Format × List Byte
  | .wrcmd c => (.w32, [0x02#8, c, 0#8, 0#8])
  | .wrcolor d => (.w32, [0x32#8, d, 0#8, 0#8])
  | .sendCommand c => (.req96, reqBytes 0x10#8 c 0 0 0 0 0)
  | .sendData d => (.req96, reqBytes 0x11#8 d 0 0 0 0 0)
  | .runInit => (.req96, reqBytes 0x20#8 0 0 0 0 0 0)
  | .fillRect x0 y0 x1 y1 p => (.req96, reqBytes 0x30#8 0 p x0 y0 x1 y1)
  | .fillScreen p => (.req96, reqBytes 0x31#8 0 p 0 0 0 0)
  | .caset s e => (.cmd8, k.cmdCaset :: coordBytes s e)
  | .raset s e => (.cmd8, k.cmdRaset :: coordBytes s e)
  | .ramwr => (.cmd8, [k.cmdRamwr])
  | .slpout ps => (.cmd8, k.cmdSlpout :: ps)
  | .dispon ps => (.cmd8, k.cmdDispon :: ps)
  | .vendor c ps => (.cmd8, c :: ps)

/-- The `n` low bytes of a number, the most significant first. -/
def bytesBE : Nat → Nat → List Byte
  | 0, _ => []
  | n + 1, w => BitVec.ofNat 8 (w / 256 ^ n) :: bytesBE n w

/-- The code of a table word: its format by its number of bits, its bytes, and, for the two window commands, the four
data bytes the table gives no bits (all zero). -/
def tableCode (k : Config) (nbits w : Nat) : Option (Format × List Byte) :=
  if nbits = 32 then some (.w32, bytesBE 4 w)
  else if nbits = 96 then some (.req96, bytesBE 12 w)
  else if nbits = 8 then
    let c := BitVec.ofNat 8 w
    if c = k.cmdCaset ∨ c = k.cmdRaset then some (.cmd8, [c, 0#8, 0#8, 0#8, 0#8])
    else some (.cmd8, [c])
  else none

/-- The instruction the decoder reads from a table word, with the configuration at reset. -/
def decodeTableWord (nbits w : Nat) : Option Instr :=
  match tableCode Config.atReset nbits w with
  | some (f, bytes) => (decode Config.atReset f bytes).toOption
  | none => none

end Sys2Proof
end

