-- ==== Sys2Proof/Machine/State.lean ====
section
/-! DEFINITION. The state of the machine, plain data: the block (10_state.md R20), its configuration (R29), the record of
what it shows (00_scope.md R17), the panel receiver (43_panel_receiver.md R190), the platform devices (60_exceptions.md
R236 to R241), and what the outside world has lined up. -/

namespace Sys2Proof.Machine

/-- The response codes of 30_encoding.md R76; codes 6 and 7 are unassigned and never produced. -/
inductive Resp where
  | ok
  | transportError
  | configurationError
  | allocationError
  | notReady
  /-- Produced by the external expander controller only (60_exceptions.md R215). -/
  | busError
  deriving DecidableEq, Repr

/-- An event of the logical stream (00_scope.md R17); a wait carries its recorded minimum in milliseconds. -/
inductive Event where
  | cmd (c : Byte)
  | dat (d : Byte)
  | wait (ms : Nat)
  deriving DecidableEq, Repr

/-- An event of the wire trace of the bridge profile (00_scope.md R17); a quiet interval carries its recorded minimum in
nanoseconds. -/
inductive WireEvent where
  | csAssert
  | word (w : Word)
  | wordFailed
  | csRelease
  | quiet (ns : Nat)
  | wait (ms : Nat)
  deriving DecidableEq, Repr

/-- What the bus environment decides for one word (40_transport.md R101). `bits` is how many of the 32 bits went out
(93_implementation_defined.md U16); more than 32 of a failed word means 32, more than 31 of one that is cut off means 31
(log 19). -/
inductive WordDraw where
  | sent
  | failed (bits : Nat)
  /-- The call never returns (R113), after `bits` whole bits; `high` says whether it stops with the clock of the next bit left
  high. It never stops with that bit on `d[0]` and the clock still low (DESIGN CHOICE, log 19), and always before the
  thirty-second rising edge (DEDUCED, log 19). -/
  | hang (bits : Nat) (high : Bool)
  /-- The block's reset is asserted inside the word (70_reset_and_hazards.md R251). -/
  | reset (bits : Nat)
  deriving DecidableEq, Repr

/-- What the time environment decides for one wait (00_scope.md R14), be it a wait of the sequencer, the quiet interval of a
word that was sent, or what is still owed of one: it lasts its minimum and `extra` nanoseconds more, or the block's reset is asserted inside it
(70_reset_and_hazards.md R251). -/
inductive WaitDraw where
  | elapsed (extra : Nat)
  | reset
  deriving DecidableEq, Repr

/-- The environment's draws still to be taken, oldest first (00_scope.md R15). Past the end of a list a word is sent, a
wait lasts its minimum, a buffer is obtained (log 6). -/
structure Env where
  words  : List WordDraw
  waits  : List WaitDraw
  allocs : List Bool
  deriving DecidableEq, Repr

/-- What the outside world does next (00_scope.md R16). -/
inductive Input where
  /-- A code is presented: a request of format REQ96, or (the model's own, log 2) a W32 word or a CMD8 group. -/
  | code (f : Format) (bytes : List Byte)
  /-- The block's reset is asserted (70_reset_and_hazards.md R250). -/
  | reset
  /-- Time passes without a request. -/
  | idle (ns : Nat)
  /-- `configure_and_enable(address)` (60_exceptions.md R237); each flag says whether that transaction was accepted. -/
  | expander (addr : BitVec 7) (dirAck outAck : Bool)
  /-- The backlight's `init` (60_exceptions.md R239, R240). -/
  | backlight (pin chan hz bits : Nat)
  /-- The backlight's `set_duty` (60_exceptions.md R239). -/
  | setDuty (chan duty : Nat)
  /-- The backlight's optional self-test ramp (60_exceptions.md R240). -/
  | selfTest (chan : Nat)
  deriving DecidableEq, Repr

/-- The seven operand registers (10_state.md R21). -/
structure Operands where
  op   : Byte
  byte : Byte
  pix  : U16
  x0   : U16
  y0   : U16
  x1   : U16
  y1   : U16
  deriving DecidableEq, Repr

/-- The sequencer position, the counterpart of a program counter (10_state.md R24). -/
structure Position where
  st   : SeqState
  idx  : Nat
  pidx : Nat
  deriving DecidableEq, Repr

/-- The levels driven on the panel bus (10_state.md R26). `cs` is logical: true means asserted. A data line is a level, or
`none` when it is not driven. -/
structure Pins where
  cs   : Bool
  sclk : Bool
  d0   : Option Bool
  d1   : Option Bool
  d2   : Option Bool
  d3   : Option Bool
  deriving DecidableEq, Repr

/-- A byte memory: pairs of address and byte with strictly rising addresses. An address that is not listed has no value
(log 4). -/
abbrev Memory := List Host.Cell

/-- A settle wait the receiver is owed (43_panel_receiver.md R203). -/
inductive Settle where
  | sleepOut
  | displayOn
  deriving DecidableEq, Repr

/-- The receiver of 43_panel_receiver.md R190. When `unknown` holds, the other fields are those of `Panel.lost` and say
nothing. -/
structure Panel where
  unknown  : Bool
  last     : Option Byte
  n        : Nat
  xs       : U16
  xe       : U16
  ys       : U16
  ye       : U16
  wr       : Bool
  col      : U16
  row      : U16
  hi       : Option Byte
  /-- `GRAM`: pixel (row, column) is the two bytes at 2*(row*WIDTH+column), high byte first (log 8). -/
  gram     : Memory
  /-- `p_log`, standing for VREG (20_memory.md R52). -/
  log      : List (Byte × List Byte)
  awake    : Bool
  on       : Bool
  settling : Option Settle
  /-- Where in `log` a replay of the table is looked for: after the last whole one, and after the last `Reset` (R200, R202;
  log 30). -/
  replayFrom : Nat
  deriving DecidableEq, Repr

/-- The receiver whose state is not described by the rules (43_panel_receiver.md R202): no data is kept (log 5). -/
def Panel.lost : Panel where
  unknown  := true
  last     := none
  n        := 0
  xs       := 0
  xe       := 0
  ys       := 0
  ye       := 0
  wr       := false
  col      := 0
  row      := 0
  hi       := none
  gram     := []
  log      := []
  awake    := false
  on       := false
  settling := none
  replayFrom := 0

/-- The receiver's front end in the bridge profile (43_panel_receiver.md R190): the bits taken and their count since
chip-select was asserted or the last complete word. -/
structure Rx where
  sh  : Word
  cnt : Nat
  deriving DecidableEq, Repr

/-- The platform devices outside the block (60_exceptions.md R236, R239). -/
structure Platform where
  expDir  : Byte
  expOut  : Byte
  expRsp  : Resp
  /-- A PWM channel is configured: `init` was called (R239). -/
  pwmOn   : Bool
  /-- What the last backlight call surfaces: a configuration error on a channel that is not configured (R241). -/
  pwmRsp  : Resp
  pwmPin  : Nat
  pwmChan : Nat
  pwmHz   : Nat
  pwmBits : Nat
  duty    : Nat
  /-- The duties that self-test ramps drove, oldest first (60_exceptions.md R240: "purely observational"). -/
  ramp    : List Nat
  /-- The index of the devices' next free value (the model's own, log 7). -/
  free    : Nat
  deriving DecidableEq, Repr

/-- The machine. -/
structure State where
  /-- Configuration, never changed (10_state.md R29). -/
  cfg     : Config
  x       : Operands
  /-- `PH`, the Panel Handle (10_state.md R22). -/
  ph      : Bool
  busy    : Bool
  rsp     : Resp
  seq     : Position
  fwLeft  : Nat
  fwRow   : U16
  /-- `LB` (10_state.md R28). -/
  lb      : Memory
  /-- The working buffer of the current fill is held (42_frame_writer.md R178, R179). -/
  bufHeld : Bool
  pins    : Pins
  sh      : Word
  bitcnt  : Nat
  /-- How much of the quiet interval after the last release of chip-select is still to pass, in nanoseconds
  (40_transport.md R103, 70_reset_and_hazards.md R265). -/
  quietDue : Nat
  now     : Nat
  /-- Response codes delivered, oldest first (00_scope.md R17 (a)). -/
  rsps    : List Resp
  /-- The logical stream, oldest first (00_scope.md R17 (b)). -/
  logical : List Event
  /-- The wire trace, oldest first (00_scope.md R17 (c)). -/
  wire    : List WireEvent
  panel   : Panel
  rx      : Rx
  plat    : Platform
  inbox   : List Input
  env     : Env
  /-- The index of the receiver's next free value (log 7). -/
  free    : Nat
  deriving DecidableEq, Repr

/-- Why the machine stops. -/
inductive Fault where
  /-- Raised by `fetch` when a word never returned and no reset is pending: "the block stays with `busy = 1`, ... no later
  request is ever accepted" (40_transport.md R113; 93_implementation_defined.md U3: stuck). Safe: the hardware makes no
  step either. -/
  | busHang
  deriving DecidableEq, Repr

/-- Why the model gives no meaning. -/
inductive Refusal where
  /-- An arm of `exec` without a meaning; raised by no arm of this model. Safe. -/
  | notModelled (mnemonic : String)
  /-- Raised by `fetch` on a configuration that `Config.wf` rejects: "a model must refuse it" (70_reset_and_hazards.md
  R266; 93_implementation_defined.md U4, U17). Safe. -/
  | illFormedConfiguration
  /-- Raised by `fetch` on bytes that are no row's code: the block never sends such a word (30_encoding.md R83). An
  unassigned host operation code is NOT refused: it is answered. Safe. -/
  | undecodable (why : DecodeError)
  deriving DecidableEq, Repr

/-- The position before any run and after a failed one (10_state.md R24). -/
def Position.start : Position := ⟨.reset, 0, 0⟩

/-- The idle bus (10_state.md R33): released, clock low, lines not driven. -/
def Pins.idle : Pins := ⟨false, false, none, none, none, none⟩

/-- The platform at power-on: the spec gives no value (DESIGN CHOICE, log 25). -/
def Platform.powerOn : Platform := ⟨0, 0, .ok, false, .ok, 0, 0, 0, 0, 0, [], 0⟩

/-- Right after reset (10_state.md R33): the values the rule states; for what it leaves unspecified, the values of log 3
(registers), log 5 (receiver), log 6 (draws), log 1 (configuration). -/
def State.reset : State where
  cfg     := Config.atReset
  x       := ⟨0, 0, 0, 0, 0, 0, 0⟩
  ph      := false
  busy    := false
  rsp     := .ok
  seq     := Position.start
  fwLeft  := 0
  fwRow   := 0
  lb      := []
  bufHeld := false
  pins    := Pins.idle
  sh      := 0
  bitcnt  := 0
  quietDue := 0
  now     := 0
  rsps    := []
  logical := []
  wire    := []
  panel   := Panel.lost
  rx      := ⟨0, 0⟩
  plat    := Platform.powerOn
  inbox   := []
  env     := ⟨[], [], []⟩
  free    := 0

end Sys2Proof.Machine
end

