-- ==== Sys2Proof/Machine/Operands.lean ====
section
/-! DEFINITION. The operand registers (10_state.md R21) and how a request fills them (30_encoding.md R74); pixels and
rectangles as the Frame Writer reads them (42_frame_writer.md R160, R172). -/

namespace Sys2Proof.Machine

/-- Accept SEND_COMMAND or SEND_DATA: `op` and the field the operation uses are copied, `busy <- 1` (30_encoding.md R74;
which fields are copied: log 10). -/
def acceptByte (op b : Byte) (s : State) : State :=
  { s with x := { s.x with op := op, byte := b }, busy := true }

/-- Accept RUN_INIT. -/
def acceptInit (s : State) : State :=
  { s with x := { s.x with op := opRunInit }, busy := true }

/-- Accept FILL_RECT. -/
def acceptRect (x0 y0 x1 y1 p : U16) (s : State) : State :=
  { s with x := { s.x with op := opFillRect, pix := p, x0 := x0, y0 := y0, x1 := x1, y1 := y1 }, busy := true }

/-- Accept FILL_SCREEN. -/
def acceptScreen (p : U16) (s : State) : State :=
  { s with x := { s.x with op := opFillScreen, pix := p }, busy := true }

/-- FILL_SCREEN overwrites the rectangle with `0, 0, WIDTH-1, HEIGHT-1` (42_frame_writer.md R168). -/
def loadFullScreen (s : State) : State :=
  { s with x := { s.x with
      x0 := 0, y0 := 0, x1 := BitVec.ofNat 16 (s.cfg.width - 1), y1 := BitVec.ofNat 16 (s.cfg.height - 1) } }

/-- Columns of a validated rectangle (42_frame_writer.md R172). -/
def Operands.columns (x : Operands) : Nat := x.x1.toNat - x.x0.toNat + 1

/-- Rows of a validated rectangle. -/
def Operands.rows (x : Operands) : Nat := x.y1.toNat - x.y0.toNat + 1

/-- The pixel count, computed without truncation (42_frame_writer.md R172). -/
def Operands.pixels (x : Operands) : Nat := x.columns * x.rows

/-- The two bytes of `n` equal pixels, each high byte first (42_frame_writer.md R166, R167). -/
def pixelBytes (p : U16) : Nat → List Byte
  | 0 => []
  | n + 1 => hiByte p :: loByte p :: pixelBytes p n

end Sys2Proof.Machine
end

