-- ==== Sys2Proof/Machine/Flags.lean ====
section
/-! DEFINITION. Flags and status: PH (10_state.md R22), `busy` and `rsp` (R23), the numbers of the response codes
(30_encoding.md R76), and the checks of a fill in their order (60_exceptions.md R218). -/

namespace Sys2Proof.Machine

/-- The 3-bit code of a response (30_encoding.md R76). -/
def Resp.code : Resp → BitVec 3
  | .ok => 0
  | .transportError => 1
  | .configurationError => 2
  | .allocationError => 3
  | .notReady => 4
  | .busError => 5

/-- `req_ready = not busy` (30_encoding.md R74). -/
def State.reqReady (s : State) : Bool := !s.busy

/-- The electrical level of chip-select: active low (10_state.md R26, 93_implementation_defined.md G1). -/
def State.csN (s : State) : Bool := !s.pins.cs

/-- `PH <- 0` (41_init_sequencer.md R133). -/
def clearHandle (s : State) : State := { s with ph := false }

/-- `PH <- 1` (41_init_sequencer.md R145). -/
def setHandle (s : State) : State := { s with ph := true }

/-- The end of an operation: `rsp <- r`, `busy <- 0`, and `r` is delivered once (60_exceptions.md R216). -/
def deliver (r : Resp) (s : State) : State :=
  { s with rsp := r, busy := false, rsps := s.rsps ++ [r] }

/-- The rectangle check, unsigned (42_frame_writer.md R161): true for a rectangle that may be sent. -/
def validRect (k : Config) (x : Operands) : Bool :=
  decide (x.x0.toNat ≤ x.x1.toNat) && decide (x.y0.toNat ≤ x.y1.toNat)
    && decide (x.x1.toNat < k.width) && decide (x.y1.toNat < k.height)

/-- The first two causes of a fill's failure, in order: the rectangle, then the handle (60_exceptions.md R218). -/
def fillCheck (s : State) : Option Resp :=
  if !validRect s.cfg s.x then some .configurationError
  else if !s.ph then some .notReady
  else none

end Sys2Proof.Machine
end

