-- ==== Sys2Proof/Machine/Ops.lean ====
section
/-! DEFINITION. The shared operations: byte memory, the environment's draws, the records of the observation, ending an
operation by an error (the counterpart of taking an exception, 60_exceptions.md R216, R220) or normally, and reset. -/

namespace Sys2Proof.Machine

namespace Memory

/-- The byte at an address, `none` where nothing is listed (log 4). -/
def read : Memory → Nat → Option Byte
  | [], _ => none
  | (a, b) :: m, i => if a = i then some b else read m i

/-- Write one byte, keeping the addresses strictly rising. -/
def write : Memory → Nat → Byte → Memory
  | [], i, v => [(i, v)]
  | (a, b) :: m, i, v =>
    if i < a then (i, v) :: (a, b) :: m
    else if i = a then (i, v) :: m
    else (a, b) :: write m i v

/-- The canonical form: strictly rising addresses (an unlisted address has no value, so no entry equals it). -/
def wf (m : Memory) : Bool := decide ((m.map Prod.fst).Pairwise (· < ·))

/-- Write a 16-bit pixel at an even address, high byte first (20_memory.md R53; log 8). -/
def writePixel (m : Memory) (a : Nat) (hi lo : Byte) : Memory := write (write m a hi) (a + 1) lo

/-- The pixel at an address, if both its bytes have a value. -/
def readPixel (m : Memory) (a : Nat) : Option U16 :=
  match read m a, read m (a + 1) with
  | some hi, some lo => some (u16 hi lo)
  | _, _ => none

/-- The bytes from index `i` upward, `n` of them; an index without a value contributes none. -/
def bytesFrom (m : Memory) : Nat → Nat → List Byte
  | _, 0 => []
  | i, n + 1 => (read m i).toList ++ bytesFrom m (i + 1) n

end Memory

/-- The control flow inside an operation (00_scope.md R13, R15). -/
inductive Flow where
  /-- The step returned OK. -/
  | done (s : State)
  /-- The step raised an error: the enclosing operation ends with this response. -/
  | raised (r : Resp) (s : State)
  /-- A word never returned (40_transport.md R113). -/
  | hung (s : State)
  /-- The block's reset was asserted (70_reset_and_hazards.md R251). -/
  | reset (s : State)

/-- The next step, taken only when the one before it returned OK (20_memory.md R60). -/
def Flow.bind : Flow → (State → Flow) → Flow
  | .done s, f => f s
  | .raised r s, _ => .raised r s
  | .hung s, _ => .hung s
  | .reset s, _ => .reset s

/-- The bus environment's draw for the next word (40_transport.md R101). -/
def wordDraw (s : State) : WordDraw := s.env.words.headD .sent

/-- Take the draw for the next word. -/
def popWord (s : State) : State := { s with env := { s.env with words := s.env.words.tail } }

/-- The time environment's draw for the next wait (00_scope.md R14). -/
def waitDraw (s : State) : WaitDraw := s.env.waits.headD (.elapsed 0)

/-- Take the draw for the next wait. -/
def popWait (s : State) : State := { s with env := { s.env with waits := s.env.waits.tail } }

/-- The allocator environment's draw (42_frame_writer.md R178). -/
def allocDraw (s : State) : Bool := s.env.allocs.headD true

/-- Take the draw for the next allocation. -/
def popAlloc (s : State) : State := { s with env := { s.env with allocs := s.env.allocs.tail } }

/-- `emit(e)` on the logical stream (00_scope.md R15, R17). -/
def emit (e : Event) (s : State) : State := { s with logical := s.logical ++ [e] }

/-- `emit(e)` on the wire trace. -/
def emitWire (e : WireEvent) (s : State) : State := { s with wire := s.wire ++ [e] }

/-- `now <- now + d`, in nanoseconds (00_scope.md R14). Whatever makes time pass, it counts for the quiet interval that is
owed (40_transport.md R103). -/
def advance (ns : Nat) (s : State) : State := { s with now := s.now + ns, quietDue := s.quietDue - ns }

/-- One pixel of the current fill has been streamed: `fw_left <- fw_left - 1` (10_state.md R25, 42_frame_writer.md R166). -/
def countPixel (s : State) : State := { s with fwLeft := s.fwLeft - 1 }

/-- The working buffer is obtained (42_frame_writer.md R178). -/
def obtainBuffer (s : State) : State := { s with bufHeld := true }

/-- The working buffer is released: on every exit from a fill (42_frame_writer.md R179). -/
def releaseBuffer (s : State) : State := { s with bufHeld := false, lb := [] }

/-- `raise r` (00_scope.md R15; 60_exceptions.md R216, R220): the response and `busy <- 0`; everything already transmitted
stays. The columns of R220's table that differ by operation are where they arise: the failed word has put the pins back
itself (`abortWord`), a fill releases its buffer (`finishFill`), RUN_INIT puts its position back (`finishInit`). Nothing is
saved: there is no cause register and no return instruction (R220, R222). -/
def raise (r : Resp) (s : State) : State := deliver r s

/-- Normal completion: `rsp <- OK ; busy <- 0` (60_exceptions.md R216). -/
def complete (s : State) : State := deliver .ok s

/-- The block's reset (70_reset_and_hazards.md R250 to R252): the state of 10_state.md R33, the operation abandoned
without a response. Chip-select released inside a word is seen by the receiver (R251), whose state becomes unknown. The
configuration, the panel, the platform, the record, the outside world's inputs and the index of free values stay. What is
owed of a quiet interval stays owed, the whole of it when the reset itself releases chip-select (70_reset_and_hazards.md
R265; log 31). Of a settle or post-entry wait that the reset cuts short nothing is owed: the next request's first word does
not wait for it (DESIGN CHOICE, log 33; 20_memory.md R63, 70_reset_and_hazards.md R266). How long the reset stays asserted is
not in the rules: assertion and release are this one step, in which no time passes (DESIGN CHOICE, log 16). -/
def resetBlock (s : State) : State :=
  { State.reset with
    cfg := s.cfg
    rsps := s.rsps
    logical := s.logical
    wire := if s.pins.cs then s.wire ++ [.csRelease] else s.wire
    panel := if s.pins.cs then Panel.lost else s.panel
    rx := if s.pins.cs then { s.rx with cnt := 0 } else s.rx
    plat := s.plat
    inbox := s.inbox
    env := s.env
    free := s.free
    quietDue := if s.pins.cs then s.cfg.tQuietNs else s.quietDue }

/-- The end of a raw host operation. A hung word leaves `busy = 1` and delivers nothing (40_transport.md R113). -/
def finish : Flow → State
  | .done s => complete s
  | .raised r s => raise r s
  | .hung s => s
  | .reset s => resetBlock s

/-- The end of a wire word or panel command run on its own: nothing in the block is written when it returns OK
(40_transport.md R104, R105), so `busy` is put back to what it was (log 2). -/
def finishWord (was : Bool) : Flow → State
  | .done s => { s with busy := was }
  | .raised r s => raise r s
  | .hung s => s
  | .reset s => resetBlock s

end Sys2Proof.Machine
end

