-- ==== Sys2Proof/Machine/Receiver.lean ====
section
/-! DEFINITION. The receiving side of the panel bus, a reference observer (43_panel_receiver.md R190 to R204). The block
never reads it (R201). -/

namespace Sys2Proof.Machine

namespace Panel

/-- The address of the high byte of pixel (row, column) in `gram` (20_memory.md R51; log 8). -/
def pixelAddr (k : Config) (row col : Nat) : Nat := 2 * (row * k.width + col)

/-- Entering write mode (R196). A malformed or out-of-panel window makes the state unknown. -/
def enterWrite (k : Config) (p : Panel) : Panel :=
  if p.xe.toNat < p.xs.toNat ∨ p.ye.toNat < p.ys.toNat ∨ k.width ≤ p.xe.toNat ∨ k.height ≤ p.ye.toNat then Panel.lost
  else { p with wr := true, col := p.xs, row := p.ys, hi := none }

/-- A command word replaces the record of the last one and ends write mode; a pending half pixel is dropped (R192). -/
def latch (c : Byte) (p : Panel) : Panel :=
  { p with hi := none, wr := false, last := some c, n := 0, log := p.log ++ [(c, [])] }

/-- What a command does beyond its record (R192): memory-write, sleep-out and display-on. -/
def obey (k : Config) (c : Byte) (p : Panel) : Panel :=
  if c = k.cmdRamwr then enterWrite k p
  else if c = k.cmdSlpout then { p with settling := some .sleepOut }
  else if c = k.cmdDispon then { p with settling := some .displayOn }
  else p

/-- `CMD c` (R192), but for the order of the table. A word that arrives while a settle wait is owed makes the state unknown
(R203). -/
def takeCmd (k : Config) (c : Byte) (p : Panel) : Panel :=
  if p.unknown then p else if p.settling.isSome then Panel.lost else obey k c (latch c p)

/-- Append a data byte to the last command of the log (R193). -/
def appendData (d : Byte) : List (Byte × List Byte) → List (Byte × List Byte)
  | [] => []
  | [(c, ds)] => [(c, ds ++ [d])]
  | e :: e' :: l => e :: appendData d (e' :: l)

/-- A window coordinate after one of its bytes arrived (R194; D25: each byte takes effect as it arrives). -/
def setHi (d : Byte) (v : U16) : U16 := u16 d (loByte v)

/-- The low byte of a window coordinate. -/
def setLo (d : Byte) (v : U16) : U16 := u16 (hiByte v) d

/-- CASET data (R194). -/
def casetData (d : Byte) (p : Panel) : Panel :=
  match p.n with
  | 0 => { p with xs := setHi d p.xs }
  | 1 => { p with xs := setLo d p.xs }
  | 2 => { p with xe := setHi d p.xe }
  | 3 => { p with xe := setLo d p.xe }
  | _ => Panel.lost

/-- RASET data (R195). -/
def rasetData (d : Byte) (p : Panel) : Panel :=
  match p.n with
  | 0 => { p with ys := setHi d p.ys }
  | 1 => { p with ys := setLo d p.ys }
  | 2 => { p with ye := setHi d p.ye }
  | 3 => { p with ye := setLo d p.ye }
  | _ => Panel.lost

/-- Advancing in row-major order (R199). -/
def advancePos (p : Panel) : Panel :=
  if p.col.toNat < p.xe.toNat then { p with col := p.col + 1 }
  else if p.row.toNat < p.ye.toNat then { p with col := p.xs, row := p.row + 1 }
  else { p with wr := false }

/-- Pixel data (R197): the first byte is kept, the second completes the pixel; data after the window is full makes the
state unknown. -/
def pixelData (k : Config) (d : Byte) (p : Panel) : Panel :=
  if p.wr = false then Panel.lost
  else
    match p.hi with
    | none => { p with hi := some d }
    | some h =>
      advancePos { p with
        gram := p.gram.writePixel (pixelAddr k p.row.toNat p.col.toNat) h d
        hi := none }

/-- The count of data bytes since the last command word (R193). -/
def countData (p : Panel) : Panel := if p.unknown then p else { p with n := p.n + 1 }

/-- `DAT d` (R193), but for the order of the table. -/
def takeDat (k : Config) (d : Byte) (p : Panel) : Panel :=
  if p.unknown then p
  else if p.settling.isSome then Panel.lost
  else
    match p.last with
    | none => Panel.lost
    | some c =>
      let q := { p with log := appendData d p.log }
      if c = k.cmdCaset then countData (casetData d q)
      else if c = k.cmdRaset then countData (rasetData d q)
      else if c = k.cmdRamwr then countData (pixelData k d q)
      else countData q

/-- The table as the log of commands that a complete run delivers (R200). -/
def tableLog (k : Config) : List (Byte × List Byte) := k.table.map fun e => (e.cmd, e.params)

/-- The entries of the table, byte for byte (R200), among the commands since `replayFrom`: the last of them, as many as the
table has (log 30). -/
def lastEntries (k : Config) (p : Panel) : List (Byte × List Byte) :=
  let es := (p.log.drop p.replayFrom).filter fun g => (tableLog k).contains g
  es.drop (es.length - (tableLog k).length)

/-- "The table was replayed in another order" (R200, R202): all its entries came, each as often as the table has it, and not
in sequence (DESIGN CHOICE, log 30). -/
def outOfOrder (k : Config) (p : Panel) : Bool := (lastEntries k p).isPerm (tableLog k) && lastEntries k p != tableLog k

/-- The table replayed in another order makes the state unknown (R202); after a replay in its order the next one is looked for
from there (log 30). -/
def checkOrder (k : Config) (p : Panel) : Panel :=
  if p.unknown then p
  else if outOfOrder k p then Panel.lost
  else if lastEntries k p = tableLog k then { p with replayFrom := p.log.length }
  else p

/-- A run of the table from `Reset` begins (R200: "from the last `Reset`"). -/
def restartReplay (p : Panel) : Panel := { p with replayFrom := p.log.length }

/-- `CMD c` (R192, R202). -/
def onCmd (k : Config) (c : Byte) (p : Panel) : Panel := checkOrder k (takeCmd k c p)

/-- `DAT d` (R193, R202). -/
def onDat (k : Config) (d : Byte) (p : Panel) : Panel := checkOrder k (takeDat k d p)

/-- `WAIT t` (R203): the settle wait that is owed, if `t` reaches it; other waits change nothing. -/
def onWait (ms : Nat) (p : Panel) : Panel :=
  if p.unknown then p
  else
    match p.settling with
    | some .sleepOut => if 120 ≤ ms then { p with awake := true, settling := none } else p
    | some .displayOn => if 10 ≤ ms then { p with on := true, settling := none } else p
    | none => p

/-- An event of the logical stream (R191). -/
def onEvent (k : Config) (e : Event) (p : Panel) : Panel :=
  match e with
  | .cmd c => onCmd k c p
  | .dat d => onDat k d p
  | .wait ms => onWait ms p

/-- A stream, strictly in arrival order (R191). -/
def onEvents (k : Config) (es : List Event) (p : Panel) : Panel :=
  es.foldl (fun q e => onEvent k e q) p

/-- A complete wire word (R190, R202): an opcode other than 0x02 and 0x32, or reserved bits that are not zero, make the
state unknown. -/
def onWord (k : Config) (w : Word) (p : Panel) : Panel :=
  if w = cmdWord (w.extractLsb' 16 8) then onCmd k (w.extractLsb' 16 8) p
  else if w = datWord (w.extractLsb' 16 8) then onDat k (w.extractLsb' 16 8) p
  else Panel.lost

/-- Recovery by a complete RUN_INIT (R204): the window and the write position are free values (log 7), GRAM has no
value anywhere; the last command and the log are those of the table (log 5). -/
def recovered (k : Config) (free : Nat) : Panel where
  unknown  := false
  last     := (tableLog k).getLast?.map Prod.fst
  n        := ((tableLog k).getLast?.map fun e => e.2.length).getD 0
  xs       := Config.freeU16 free
  xe       := Config.freeU16 (free + 1)
  ys       := Config.freeU16 (free + 2)
  ye       := Config.freeU16 (free + 3)
  wr       := false
  col      := Config.freeU16 (free + 4)
  row      := Config.freeU16 (free + 5)
  hi       := none
  gram     := []
  log      := tableLog k
  awake    := true
  on       := true
  settling := none
  replayFrom := (tableLog k).length

/-- The pixel of the frame memory at (row, column), if it has a value. -/
def pixelAt (k : Config) (p : Panel) (row col : Nat) : Option U16 := p.gram.readPixel (pixelAddr k row col)

end Panel

/-- The panel is lost (43_panel_receiver.md R202). -/
def losePanel (s : State) : State := { s with panel := Panel.lost }

/-- The receiver takes an event of the logical stream (native profile, and every wait). -/
def panelTakes (e : Event) (s : State) : State := { s with panel := s.panel.onEvent s.cfg e }

/-- Chip-select is asserted: the receiver counts its clock edges from zero (43_panel_receiver.md R190). -/
def rxAssert (s : State) : State := { s with rx := { s.rx with cnt := 0 } }

/-- One rising clock edge at the receiver: it takes `d[0]`, the first bit being bit 31; the thirty-second bit completes
a word (43_panel_receiver.md R190). -/
def rxSample (bit : Bool) (s : State) : State :=
  let sh := s.rx.sh <<< 1 ||| BitVec.zeroExtend 32 (BitVec.ofBool bit)
  if s.rx.cnt = 31 then { s with rx := ⟨sh, 0⟩, panel := s.panel.onWord s.cfg sh }
  else { s with rx := ⟨sh, s.rx.cnt + 1⟩ }

/-- Chip-select is released: inside a word the partial word is discarded and the state becomes unknown (43_panel_receiver.md
R190, D34). -/
def rxRelease (s : State) : State :=
  if s.rx.cnt = 0 then s else { s with rx := { s.rx with cnt := 0 }, panel := Panel.lost }

/-- The receiver as a RUN_INIT begins (43_panel_receiver.md R200). -/
def restartReplay (s : State) : State := { s with panel := s.panel.restartReplay }

/-- The recovery of R204 at `Ready`: only an unknown receiver is recovered; a known one is what the run's events made it. -/
def recoverPanel (s : State) : State :=
  if s.panel.unknown then { s with panel := Panel.recovered s.cfg s.free, free := s.free + 6 } else s

end Sys2Proof.Machine
end

