-- ==== Sys2Proof/Machine/Transport.lean ====
section
/-! DEFINITION. The Panel Transport's operations: the bit loop (40_transport.md R108), one word (R101), the primitives
`pt_cmd` (R104), `pt_dat` (R105), `pt_burst` (R110), the native primitives (R117), and the minimum wait (00_scope.md R14). -/

namespace Sys2Proof.Machine

/-- The first half of a bit (40_transport.md R108): `d[0] <- sh[31]` while the clock is low, then the clock rises and the
receiver samples `d[0]`. -/
def clkRise (s : State) : State :=
  rxSample s.sh.msb { s with pins := { s.pins with d0 := some s.sh.msb, sclk := true } }

/-- The second half: the clock falls, the register shifts, the count goes down. -/
def clkFall (s : State) : State :=
  { s with pins := { s.pins with sclk := false }, sh := s.sh <<< 1, bitcnt := s.bitcnt - 1 }

/-- `n` whole bits. -/
def clockBits : Nat → State → State
  | 0, s => s
  | n + 1, s => clockBits n (clkFall (clkRise s))

/-- `sh <- w ; bitcnt <- 32` (40_transport.md R108). -/
def loadWord (w : Word) (s : State) : State := { s with sh := w, bitcnt := Config.wireBits }

/-- What is still owed of a quiet interval passes (70_reset_and_hazards.md R265), a minimum like every wait (00_scope.md R14).
Nothing is owed after a word that was sent, since its own call waits (40_transport.md R103); after a failed word or a reset the
next word waits here (log 31). The block is busy, so its reset can land in the wait (70_reset_and_hazards.md R251); no word is
in flight then, chip-select is released and the receiver is as it was, and the whole of what was owed stays owed (log 31). -/
def awaitQuiet (s : State) : Flow :=
  if s.quietDue = 0 then .done s
  else match waitDraw s with
    | .elapsed extra => .done (advance (s.quietDue + extra) (popWait s))
    | .reset => .reset (popWait s)

/-- `cs <- 1 ; emit(CS_ASSERT)`. -/
def assertCs (s : State) : State :=
  rxAssert (emitWire .csAssert { s with pins := { s.pins with cs := true } })

/-- `cs <- 0 ; emit(CS_RELEASE)`; the clock is at its idle level and no bit is left (10_state.md R26). A quiet interval is
owed from here on (40_transport.md R103). -/
def releaseCs (s : State) : State :=
  rxRelease (emitWire .csRelease
    { s with pins := { s.pins with cs := false, sclk := false }, bitcnt := 0, quietDue := s.cfg.tQuietNs })

/-- A failed word (40_transport.md R101, R111): WORD_FAILED, chip-select released, the receiver unknown
(43_panel_receiver.md R202). The call ends without its quiet interval, as the pseudocode of R101 has none on this arm; the
next word waits for it (70_reset_and_hazards.md R265; DESIGN CHOICE, log 31). -/
def abortWord (s : State) : State := losePanel (releaseCs (emitWire .wordFailed s))

/-- The bits of a word that never returns or is cut short by a reset (40_transport.md R113, 70_reset_and_hazards.md R251): `n`
whole bits, with the clock low and `d[0]` still the previous bit, or, when `high`, one more rising edge, with the clock high;
never between `d[0] <- sh[31]` and that edge (DESIGN CHOICE, log 19). Such a word has no event on the logical stream (R101),
and the panel is written only through that stream (20_memory.md R50), so it never gets as far as the thirty-second rising edge,
with which it would be a complete word to the receiver (43_panel_receiver.md R190; DEDUCED, log 19). -/
def cutWord (n : Nat) (high : Bool) (w : Word) (s : State) : State :=
  let t := clockBits (min n 31) (loadWord w s)
  if high && decide (n < 31) then clkRise t else t

/-- The word inside an assertion of chip-select (40_transport.md R101, R110). `e` is the event of the logical stream that
the word stands for (00_scope.md R17); it is recorded when the word is sent, so the logical stream is always the image of
the wire trace. -/
def sendWord (w : Word) (e : Event) (s : State) : Flow :=
  match wordDraw s with
  | .sent => .done (emit e (emitWire (.word w) (clockBits 32 (loadWord w (popWord s)))))
  | .failed n => .raised .transportError (abortWord (clockBits (min n 32) (loadWord w (popWord s))))
  | .hang n high => .hung (cutWord n high w (popWord s))
  | .reset n => .reset (cutWord n false w (popWord s))

/-- The quiet interval after chip-select is released (40_transport.md R103): a minimum, recorded as QUIET. -/
def quiet (s : State) : Flow :=
  match waitDraw s with
  | .elapsed extra => .done (emitWire (.quiet s.cfg.tQuietNs) (advance (s.cfg.tQuietNs + extra) (popWait s)))
  | .reset => .reset (popWait s)

/-- One assertion of chip-select around the words of `g`, no sooner than the quiet interval after the last release allows, and
the quiet interval after it (40_transport.md R101 to R103, R110). -/
def framed (g : State → Flow) (s : State) : Flow :=
  (awaitQuiet s).bind fun t => (g (assertCs t)).bind fun u => quiet (releaseCs u)

/-- `tx_word(w)` (40_transport.md R101). -/
def txWord (w : Word) (e : Event) (s : State) : Flow := framed (sendWord w e) s

/-- The native primitive (40_transport.md R117): the panel-IO abstraction sends; the logical stream and the failures are
those of the bridge profile; no wire trace is defined (log 12). What the panel got of a call that did not return OK is
unknown. The outcome is drawn for each byte, and the bytes before the failing one stay on the logical stream (DESIGN CHOICE,
log 12); what the abstraction does to the panel's reset line is given no effect (DESIGN CHOICE, log 12). -/
def nativeSend (e : Event) (s : State) : Flow :=
  match wordDraw s with
  | .sent => .done (panelTakes e (emit e (popWord s)))
  | .failed _ => .raised .transportError (losePanel (popWord s))
  | .hang _ _ => .hung (losePanel (popWord s))
  | .reset _ => .reset (losePanel (popWord s))

/-- `pt_cmd(c)` (40_transport.md R104). -/
def ptCmd (c : Byte) (s : State) : Flow :=
  match s.cfg.profile with
  | .bridge => txWord (cmdWord c) (.cmd c) s
  | .native => nativeSend (.cmd c) s

/-- `pt_dat(d)` (40_transport.md R105). -/
def ptDat (d : Byte) (s : State) : Flow :=
  match s.cfg.profile with
  | .bridge => txWord (datWord d) (.dat d) s
  | .native => nativeSend (.dat d) s

/-- Data bytes in order, each by `pt_dat`. -/
def sendBytes : List Byte → State → Flow
  | [], s => .done s
  | d :: ds, s => (ptDat d s).bind (sendBytes ds)

/-- One command with its data bytes, back-to-back (40_transport.md R109). -/
def sendGroup (c : Byte) (ds : List Byte) (s : State) : Flow := (ptCmd c s).bind (sendBytes ds)

/-- Pixel bytes in order, each by `send`, two bytes to a pixel. A pixel is counted once both its bytes are sent, as R160's loop
has it (42_frame_writer.md; 10_state.md R25; in a burst, in rows and in a native bitmap call DESIGN CHOICE, log 18). -/
def sendPixels (send : Byte → State → Flow) : List Byte → State → Flow
  | [], s => .done s
  | [d], s => send d s
  | hi :: lo :: ds, s => (send hi s).bind fun t => (send lo t).bind fun u => sendPixels send ds (countPixel u)

/-- A data word under an assertion of chip-select that is already there (40_transport.md R110). -/
def burstWord (d : Byte) (s : State) : Flow := sendWord (datWord d) (.dat d) s

/-- A data byte of a bitmap in the native profile (40_transport.md R117). R117 does not say what of a call that failed is
on the logical stream: the bytes before the failing one are (DESIGN CHOICE, log 12). -/
def burstNative (d : Byte) (s : State) : Flow := nativeSend (.dat d) s

/-- `pt_burst(bytes)` (40_transport.md R110), used for the bytes of pixels only; its callers have sent the memory-write
command. -/
def ptBurst (ds : List Byte) (s : State) : Flow :=
  match s.cfg.profile with
  | .bridge => framed (sendPixels burstWord ds) s
  | .native => sendPixels burstNative ds s

/-- The record of a minimum wait: WAIT on the logical stream, and on the wire trace of the bridge profile. -/
def recordWait (ms : Nat) (s : State) : State :=
  match s.cfg.profile with
  | .bridge => emitWire (.wait ms) (emit (.wait ms) s)
  | .native => emit (.wait ms) s

/-- `wait_min(t)` (00_scope.md R14), `t` in milliseconds: the environment draws a duration not shorter than `t`. -/
def waitMin (ms : Nat) (s : State) : Flow :=
  match waitDraw s with
  | .elapsed extra =>
    .done (panelTakes (.wait ms) (recordWait ms (advance (Config.nsPerMs * ms + extra) (popWait s))))
  | .reset => .reset (popWait s)

end Sys2Proof.Machine
end

