-- ==== Sys2Proof/Machine/FrameWriter.lean ====
section
/-! DEFINITION. The Frame Writer (42_frame_writer.md R160 to R180): FILL_RECT and FILL_SCREEN in both variants. -/

namespace Sys2Proof.Machine

/-- The bytes of pixels, by the path step 4 takes: two data words for each pixel, or one burst when FW_BURST = 1
(42_frame_writer.md R166, R167; for a bitmap, R177, log 13). `fw_left` counts each pixel on either path (10_state.md
R25). -/
def streamBytes (k : Config) (bs : List Byte) (s : State) : Flow :=
  if k.fwBurst then ptBurst bs s else sendPixels ptDat bs s

/-- `fw_left` is loaded with the pixel count (10_state.md R25). -/
def loadCount (x : Operands) (s : State) : State := { s with fwLeft := x.pixels }

/-- Step 4 (42_frame_writer.md R166): the count is loaded, then the two bytes of each pixel are sent. -/
def streamPixels (k : Config) (x : Operands) (s : State) : Flow :=
  streamBytes k (pixelBytes x.pix x.pixels) (loadCount x s)

/-- Steps 1 to 3 for a rectangle: column window, row window, memory-write (42_frame_writer.md R163 to R165). -/
def openWindow (k : Config) (xs ys xe ye : U16) (s : State) : Flow :=
  (sendGroup k.cmdCaset (coordBytes xs xe) s).bind fun t =>
    (sendGroup k.cmdRaset (coordBytes ys ye) t).bind (ptCmd k.cmdRamwr)

/-- FW_VARIANT = SINGLE_WINDOW (42_frame_writer.md R160). -/
def fillSingle (k : Config) (x : Operands) (s : State) : Flow :=
  (openWindow k x.x0 x.y0 x.x1 x.y1 s).bind (streamPixels k x)

/-- The line buffer after `n` pixels (42_frame_writer.md R176). -/
def lineBuffer (p : U16) : Nat → Memory
  | 0 => []
  | i + 1 => ((lineBuffer p i).write (2 * i) (hiByte p)).write (2 * i + 1) (loByte p)

/-- `draw_bitmap` (42_frame_writer.md R177): the single-window algorithm on the given bytes. -/
def drawBitmap (k : Config) (xs ys xe ye : U16) (bs : List Byte) (s : State) : Flow :=
  (openWindow k xs ys xe ye s).bind (streamBytes k bs)

/-- One draw per row until `fw_row = y1` (42_frame_writer.md R175); the first argument bounds the rows left. -/
def rowLoop (k : Config) (x : Operands) : Nat → State → Flow
  | 0, s => .done s
  | n + 1, s =>
    (drawBitmap k x.x0 s.fwRow x.x1 s.fwRow (s.lb.bytesFrom 0 (2 * x.columns)) s).bind fun t =>
      if t.fwRow = x.y1 then .done t else rowLoop k x n { t with fwRow := t.fwRow + 1 }

/-- The line buffer is filled, `fw_row` starts at the first row, and the count is loaded (42_frame_writer.md R175, R176;
10_state.md R25; when the count is loaded: log 18). -/
def startRows (x : Operands) (s : State) : State :=
  loadCount x { s with lb := lineBuffer x.pix x.columns, fwRow := x.y0 }

/-- FW_VARIANT = ROW_BITMAP (42_frame_writer.md R175). -/
def fillRows (k : Config) (x : Operands) (s : State) : Flow := rowLoop k x x.rows (startRows x s)

/-- A fill (42_frame_writer.md R160, R175): the checks in order, the buffer, the variant. -/
def fill (s : State) : Flow :=
  match fillCheck s with
  | some r => .raised r s
  | none =>
    if allocDraw s then
      match s.cfg.fwVariant with
      | .singleWindow => fillSingle s.cfg s.x (obtainBuffer (popAlloc s))
      | .rowBitmap => fillRows s.cfg s.x (obtainBuffer (popAlloc s))
    else .raised .allocationError (popAlloc s)

/-- The end of a fill: the working buffer is released on every exit (42_frame_writer.md R173, R179). `fw_left` and `fw_row`,
unspecified between fills (10_state.md R25), stay as the fill left them, whatever its end (DESIGN CHOICE, log 18). -/
def finishFill : Flow → State
  | .done s => complete (releaseBuffer s)
  | .raised r s => raise r (releaseBuffer s)
  | .hung s => s
  | .reset s => resetBlock s

/-- FILL_RECT (42_frame_writer.md R160). -/
def execFillRect (x0 y0 x1 y1 p : U16) (s : State) : Host.Outcome State Fault Refusal :=
  .next (finishFill (fill (acceptRect x0 y0 x1 y1 p s)))

/-- FILL_SCREEN (42_frame_writer.md R168). -/
def execFillScreen (p : U16) (s : State) : Host.Outcome State Fault Refusal :=
  .next (finishFill (fill (loadFullScreen (acceptScreen p s))))

end Sys2Proof.Machine
end

