-- ==== Sys2Proof/Machine/HostOps.lean ====
section
/-! DEFINITION. The two raw host operations (40_transport.md R106, R107); neither reads nor writes PH (D13). -/

namespace Sys2Proof.Machine

/-- SEND_COMMAND (40_transport.md R106): `pt_cmd(x[BYTE])`, then the response. -/
def execSendCommand (c : Byte) (s : State) : Host.Outcome State Fault Refusal :=
  let t := acceptByte opSendCommand c s
  .next (finish (ptCmd t.x.byte t))

/-- SEND_DATA (40_transport.md R107): `pt_dat(x[BYTE])`, then the response. -/
def execSendData (d : Byte) (s : State) : Host.Outcome State Fault Refusal :=
  let t := acceptByte opSendData d s
  .next (finish (ptDat t.x.byte t))

end Sys2Proof.Machine
end

