-- ==== Sys2Proof/Machine/PanelCommands.lean ====
section
/-! DEFINITION. The panel commands (30_encoding.md R77), each with its data bytes as one instruction. -/

namespace Sys2Proof.Machine

/-- One command with its data bytes, run on its own (log 2). -/
def runGroup (c : Byte) (ds : List Byte) (s : State) : State :=
  finishWord s.busy (sendGroup c ds { s with busy := true })

/-- One command with its data bytes and the settle wait that follows it, run on its own (log 14). -/
def runSettled (c : Byte) (ds : List Byte) (ms : Nat) (s : State) : State :=
  finishWord s.busy ((sendGroup c ds { s with busy := true }).bind (waitMin ms))

/-- CASET (42_frame_writer.md R169): the column window. -/
def execCaset (first last : U16) (s : State) : Host.Outcome State Fault Refusal :=
  .next (runGroup s.cfg.cmdCaset (coordBytes first last) s)

/-- RASET (42_frame_writer.md R170): the row window. -/
def execRaset (first last : U16) (s : State) : Host.Outcome State Fault Refusal :=
  .next (runGroup s.cfg.cmdRaset (coordBytes first last) s)

/-- RAMWR (42_frame_writer.md R171): memory-write, no parameters. -/
def execRamwr (s : State) : Host.Outcome State Fault Refusal :=
  .next (runGroup s.cfg.cmdRamwr [] s)

/-- SLPOUT (41_init_sequencer.md R153): sleep-out, "followed by a wait of at least 120 ms" (spec/opcode_table.json). -/
def execSlpout (ps : List Byte) (s : State) : Host.Outcome State Fault Refusal :=
  .next (runSettled s.cfg.cmdSlpout ps s.cfg.tSlpoutMs s)

/-- DISPON (41_init_sequencer.md R154): display-on, "followed by a wait of at least 10 ms" (spec/opcode_table.json). -/
def execDispon (ps : List Byte) (s : State) : Host.Outcome State Fault Refusal :=
  .next (runSettled s.cfg.cmdDispon ps s.cfg.tDisponMs s)

/-- VENDOR (41_init_sequencer.md R155): the block transports the bytes and attaches no meaning to them. -/
def execVendor (c : Byte) (ps : List Byte) (s : State) : Host.Outcome State Fault Refusal :=
  .next (runGroup c ps s)

end Sys2Proof.Machine
end

