-- ==== Sys2Proof/Machine/Sequencer.lean ====
section
/-! DEFINITION. The Panel Initialization Sequencer (41_init_sequencer.md R130 to R152): RUN_INIT. -/

namespace Sys2Proof.Machine

/-- `seg(s)`: the entries of a state, in table order (41_init_sequencer.md R131). -/
def segment (k : Config) (p : SeqState) : List Entry := k.table.filter fun e => e.phase == p

/-- The delay of the single entry of a state (41_init_sequencer.md R142, R144). -/
def segmentDelay (k : Config) (p : SeqState) : Nat := ((segment k p).head?.map fun e => e.delayMs).getD 0

/-- `seq_state <- p`. -/
def enterState (p : SeqState) (s : State) : State := { s with seq := { s.seq with st := p } }

/-- `pc <- (p, i, j)` (00_scope.md R11). -/
def setPosition (p : Position) (s : State) : State := { s with seq := p }

/-- `seq_pidx <- 0`. -/
def startParams (s : State) : State := { s with seq := { s.seq with pidx := 0 } }

/-- `seq_pidx <- seq_pidx + 1`. -/
def nextParam (s : State) : State := { s with seq := { s.seq with pidx := s.seq.pidx + 1 } }

/-- `seq_idx <- seq_idx + 1 ; seq_pidx <- 0`. -/
def nextEntry (s : State) : State := { s with seq := { s.seq with idx := s.seq.idx + 1, pidx := 0 } }

/-- The parameter bytes of an entry, in order (41_init_sequencer.md R146). -/
def sendParams : List Byte → State → Flow
  | [], s => .done s
  | b :: bs, s => (ptDat b s).bind fun t => sendParams bs (nextParam t)

/-- The post-entry delay; those of the SleepOut and DisplayOn entries are taken by the settle states (R146). -/
def entryDelay (e : Entry) (s : State) : Flow :=
  if 0 < e.delayMs ∧ e.phase ≠ .sleepOut ∧ e.phase ≠ .displayOn then waitMin e.delayMs s else .done s

/-- `send_entry(e)` (41_init_sequencer.md R146). -/
def sendEntry (e : Entry) (s : State) : Flow :=
  (ptCmd e.cmd (startParams s)).bind fun t =>
    (sendParams e.params t).bind fun u =>
      (entryDelay e u).bind fun v => .done (nextEntry v)

/-- A segment, entry by entry (41_init_sequencer.md R132). -/
def sendSegment : List Entry → State → Flow
  | [], s => .done s
  | e :: es, s => (sendEntry e s).bind (sendSegment es)

/-- The activity of a state (41_init_sequencer.md R133 to R144). -/
def activity (k : Config) (p : SeqState) (s : State) : Flow :=
  match p with
  | .reset => sendSegment (segment k .reset) (setPosition Position.start (clearHandle s))
  | .powerWait => waitMin k.tPowerWaitMs s
  | .pageUnlock => sendSegment (segment k .pageUnlock) s
  | .registerBurst => sendSegment (segment k .registerBurst) s
  | .gammaPageUnlock => sendSegment (segment k .gammaPageUnlock) s
  | .gammaBurst => sendSegment (segment k .gammaBurst) s
  | .pageLock => sendSegment (segment k .pageLock) s
  | .displayModeConfig => sendSegment (segment k .displayModeConfig) s
  | .sleepOut => sendSegment (segment k .sleepOut) s
  | .settleDelay120 => waitMin (max k.tSlpoutMs (segmentDelay k .sleepOut)) s
  | .displayOn => sendSegment (segment k .displayOn) s
  | .settleDelay10 => waitMin (max k.tDisponMs (segmentDelay k .displayOn)) s
  | .ready => .done s

/-- The twelve states before `Ready`, in order (41_init_sequencer.md R130). -/
def runOrder : List SeqState :=
  [.reset, .powerWait, .pageUnlock, .registerBurst, .gammaPageUnlock, .gammaBurst, .pageLock,
    .displayModeConfig, .sleepOut, .settleDelay120, .displayOn, .settleDelay10]

/-- Each state is entered, then its activity is performed (41_init_sequencer.md R130). -/
def runStates (k : Config) : List SeqState → State → Flow
  | [], s => .done s
  | p :: ps, s => (activity k p (enterState p s)).bind (runStates k ps)

/-- `Ready` (41_init_sequencer.md R145): `PH <- 1`; the receiver is recovered (43_panel_receiver.md R204). -/
def enterReady (s : State) : State := recoverPanel (setHandle (enterState .ready s))

/-- The run (41_init_sequencer.md R130), from `Reset` only (R149). -/
def runSequence (s : State) : Flow :=
  (runStates s.cfg runOrder (setPosition Position.start (restartReplay s))).bind fun t => .done (enterReady t)

/-- The end of a run (41_init_sequencer.md R147): a failure puts the position back to the start, PH stays 0; a run ended
early by a reset leaves the panel unknown (43_panel_receiver.md R202). -/
def finishInit : Flow → State
  | .done s => complete s
  | .raised r s => raise r (setPosition Position.start s)
  | .hung s => s
  | .reset s => resetBlock (losePanel s)

/-- RUN_INIT (41_init_sequencer.md R130). -/
def execRunInit (s : State) : Host.Outcome State Fault Refusal :=
  .next (finishInit (runSequence (acceptInit s)))

end Sys2Proof.Machine
end

