-- ==== Sys2Proof/Machine/Wire.lean ====
section
/-! DEFINITION. The two wire words (40_transport.md R104, R105), each as one instruction. -/

namespace Sys2Proof.Machine

/-- WRCMD (40_transport.md R104): `pt_cmd(c)`. -/
def execWrcmd (c : Byte) (s : State) : Host.Outcome State Fault Refusal :=
  .next (finishWord s.busy (ptCmd c { s with busy := true }))

/-- WRCOLOR (40_transport.md R105): `pt_dat(d)`. -/
def execWrcolor (d : Byte) (s : State) : Host.Outcome State Fault Refusal :=
  .next (finishWord s.busy (ptDat d { s with busy := true }))

end Sys2Proof.Machine
end

