-- ==== Sys2Proof/Machine/Dispatch.lean ====
section
/-! DEFINITION. One arm per row of spec/opcode_table.json: the instruction's meaning. -/

namespace Sys2Proof.Machine

def exec (i : Instr) (s : State) : Host.Outcome State Fault Refusal :=
  match i with
  -- Level 2, wire words
  | .wrcmd c => Sys2Proof.Machine.execWrcmd c s
  | .wrcolor d => Sys2Proof.Machine.execWrcolor d s
  -- Level 1, host operations
  | .sendCommand cmd => Sys2Proof.Machine.execSendCommand cmd s
  | .sendData byte => Sys2Proof.Machine.execSendData byte s
  | .runInit => Sys2Proof.Machine.execRunInit s
  | .fillRect x0 y0 x1 y1 pixel => Sys2Proof.Machine.execFillRect x0 y0 x1 y1 pixel s
  | .fillScreen pixel => Sys2Proof.Machine.execFillScreen pixel s
  -- Level 3, panel commands
  | .caset first last => Sys2Proof.Machine.execCaset first last s
  | .raset first last => Sys2Proof.Machine.execRaset first last s
  | .ramwr => Sys2Proof.Machine.execRamwr s
  | .slpout params => Sys2Proof.Machine.execSlpout params s
  | .dispon params => Sys2Proof.Machine.execDispon params s
  | .vendor cmd params => Sys2Proof.Machine.execVendor cmd params s

end Sys2Proof.Machine
end

