-- ==== Sys2Proof/Machine/Devices.lean ====
section
/-! DEFINITION. The platform devices outside the block (60_exceptions.md R236 to R241): the expander set-up and the
backlight, as the steps of the outside world that the boot order names (70_reset_and_hazards.md R255). -/

namespace Sys2Proof.Machine

/-- The expander after `configure_and_enable(address)` (60_exceptions.md R237): direction <- 0x00, then output <- 0xFF, at the
address given; a transaction that is not accepted is a BusError, reported once (R238). `home` says that the address is the
expander's own (20_memory.md R50); at another one its registers are not addressed (log 25). A register that a failed
sequence does not settle is a free value (93_implementation_defined.md U14; log 25). -/
def Platform.enableExpander (home dirAck outAck : Bool) (p : Platform) : Platform :=
  let rsp := if dirAck && outAck then Resp.ok else Resp.busError
  match home, dirAck, outAck with
  | false, _, _ => { p with expRsp := rsp }
  | true, true, true => { p with expRsp := rsp, expDir := 0x00#8, expOut := 0xFF#8 }
  | true, true, false =>
    { p with expRsp := rsp, expDir := 0x00#8, expOut := Config.freeByte p.free, free := p.free + 1 }
  | true, false, _ =>
    { p with
      expRsp := rsp, expDir := Config.freeByte p.free, expOut := Config.freeByte (p.free + 1), free := p.free + 2 }

/-- The expander set-up (60_exceptions.md R237). The expander "gates the panel's power/reset lines" (R236), and no rule says
what a set-up, the first, a repeated or a failed one, does to the panel: the receiver is left as it is (DESIGN CHOICE,
log 32). -/
def expanderSetup (addr : BitVec 7) (dirAck outAck : Bool) (s : State) : State :=
  { s with plat := s.plat.enableExpander (addr == s.cfg.expAddr) dirAck outAck }

/-- The largest duty of a resolution (60_exceptions.md R239). -/
def fullDuty (bits : Nat) : Nat := 2 ^ bits - 1

/-- A brightness in percent as a duty (60_exceptions.md R240): 80 percent of 255 is 204. Rounded down (DEDUCED, log 25). -/
def dutyOf (pct : Fin 101) (bits : Nat) : Nat := fullDuty bits * pct.val / 100

/-- The configured initial duty, which is the steady-state duty (60_exceptions.md R240). -/
def steadyDuty (k : Config) (bits : Nat) : Nat := dutyOf k.backlightPct bits

/-- The backlight's `init` and its initial duty (60_exceptions.md R239, R240); it always succeeds (R241). The rules speak of one
channel: a further `init` on another one replaces it, so the first is then no longer configured (DESIGN CHOICE, log 25). -/
def Platform.initBacklight (k : Config) (pin chan hz bits : Nat) (p : Platform) : Platform :=
  { p with
    pwmOn := true, pwmRsp := .ok, pwmPin := pin, pwmChan := chan, pwmHz := hz, pwmBits := bits
    duty := steadyDuty k bits }

/-- The backlight is set up (60_exceptions.md R240). -/
def backlightInit (pin chan hz bits : Nat) (s : State) : State :=
  { s with plat := s.plat.initBacklight s.cfg pin chan hz bits }

/-- The channel is the configured one (60_exceptions.md R239). Before `init` none is. -/
def Platform.pwmConfigured (chan : Nat) (p : Platform) : Bool := p.pwmOn && chan == p.pwmChan

/-- The contract's range, `[0, 2^resolution_bits - 1]` (60_exceptions.md R239). -/
def Platform.dutyInRange (duty : Nat) (p : Platform) : Bool := decide (duty ≤ fullDuty p.pwmBits)

/-- The duty after a call for which the spec states none: a free value (DESIGN CHOICE, log 25). -/
def Platform.leaveDuty (r : Resp) (p : Platform) : Platform :=
  { p with pwmRsp := r, duty := Config.freeNat p.free, free := p.free + 1 }

/-- The backlight after `set_duty(channel, duty)` (60_exceptions.md R239). A call on a channel that is not configured surfaces
a configuration error (R241); one outside the range on the configured channel surfaces none (DESIGN CHOICE, log 25). The spec
states no duty after either (log 25). -/
def Platform.writeDuty (chan duty : Nat) (p : Platform) : Platform :=
  if p.pwmConfigured chan then
    if p.dutyInRange duty then { p with pwmRsp := .ok, duty := duty } else p.leaveDuty .ok
  else p.leaveDuty .configurationError

/-- `set_duty(channel, duty)`. -/
def setDuty (chan duty : Nat) (s : State) : State := { s with plat := s.plat.writeDuty chan duty }

/-- One ramp from full down through the levels to dim, back up through them, and to full again (60_exceptions.md R240). -/
def rampOnce (k : Config) (bits : Nat) : List Nat :=
  let down := k.rampLevels.map fun l => dutyOf l bits
  down ++ dutyOf k.rampDim bits :: down.reverse ++ [fullDuty bits]

/-- "full→dim→full three times" (60_exceptions.md R240). -/
def rampDuties (k : Config) (bits : Nat) : List Nat :=
  fullDuty bits :: (List.replicate 3 (rampOnce k bits)).flatten

/-- The backlight after its self-test (60_exceptions.md R240): the ramp is observed, "then restores the steady-state duty". -/
def Platform.runSelfTest (k : Config) (p : Platform) : Platform :=
  { p with pwmRsp := .ok, ramp := p.ramp ++ rampDuties k p.pwmBits, duty := steadyDuty k p.pwmBits }

/-- The optional self-test (60_exceptions.md R240): one delay passes after each duty of the ramp. On a channel that is not
configured it surfaces a configuration error (R241) and nothing ramps (DESIGN CHOICE, log 25). -/
def selfTest (chan : Nat) (s : State) : State :=
  if s.plat.pwmConfigured chan then
    advance (s.cfg.rampDelayNs * (rampDuties s.cfg s.plat.pwmBits).length)
      { s with plat := s.plat.runSelfTest s.cfg }
  else { s with plat := s.plat.leaveDuty .configurationError }

end Sys2Proof.Machine
end

