-- ==== Sys2Proof/Machine/Fetch.lean ====
section
/-! DEFINITION. What the machine does next (00_scope.md R16, 30_encoding.md R74, 70_reset_and_hazards.md R250, R253): the
head of the inputs, a pending reset on a hung block, or waiting for a request. -/

namespace Sys2Proof.Machine

/-- What a step finds. -/
inductive Fetched where
  /-- An instruction to execute. -/
  | run (i : Instr) (s : State)
  /-- A step without an instruction: waiting, time, reset, a platform device, a request answered by the decoder. -/
  | stay (s : State)
  | stuck (f : Fault)
  | refuse (r : Refusal)

/-- A code is no instruction. An unassigned host operation code is answered with CONFIGURATION_ERROR, nothing else
changing (30_encoding.md R83); any other such code is refused by name. -/
def fetchUndecoded (e : DecodeError) (s : State) : Fetched :=
  match e with
  | .unassignedOp _ => .stay (raise .configurationError s)
  | e => .refuse (.undecodable e)

/-- A code is presented and the block is ready. -/
def fetchCode (f : Format) (bytes : List Byte) (s : State) : Fetched :=
  match decode s.cfg f bytes with
  | .ok i => .run i s
  | .error e => fetchUndecoded e s

/-- The head of the inputs on a block that is not busy. With nothing presented the block waits (70_reset_and_hazards.md
R253). -/
def fetchIdle (s : State) : Fetched :=
  match s.inbox with
  | [] => .stay s
  | .code f bytes :: r => fetchCode f bytes { s with inbox := r }
  | .reset :: r => .stay (resetBlock { s with inbox := r })
  | .idle ns :: r => .stay (advance ns { s with inbox := r })
  | .expander addr a b :: r => .stay (expanderSetup addr a b { s with inbox := r })
  | .backlight pin chan hz bits :: r => .stay (backlightInit pin chan hz bits { s with inbox := r })
  | .setDuty chan duty :: r => .stay (setDuty chan duty { s with inbox := r })
  | .selfTest chan :: r => .stay (selfTest chan { s with inbox := r })

/-- A busy block accepts no request (10_state.md R23); between steps it is busy only when a word hung, and only a reset
ends that (40_transport.md R113). The first pending reset is taken; requests presented before it stay held. -/
def fetchBusy (s : State) : Fetched :=
  if s.inbox.contains .reset then .stay (resetBlock { s with inbox := s.inbox.erase .reset })
  else .stuck .busHang

/-- What a step finds: an ill-formed configuration is refused (70_reset_and_hazards.md R266). -/
def fetch (s : State) : Fetched :=
  match s.busy, s.cfg.wf with
  | true, true => fetchBusy s
  | false, true => fetchIdle s
  | true, false => .refuse .illFormedConfiguration
  | false, false => .refuse .illFormedConfiguration

/-- The state in which a table word is the next code presented to a block that is ready (log 2). -/
def placeWord (s : State) (nbits w : Nat) : State :=
  match tableCode s.cfg nbits w with
  | some (f, bytes) => { s with inbox := .code f bytes :: s.inbox, busy := false }
  | none => s

end Sys2Proof.Machine
end

