-- ==== Sys2Proof/Machine/Step.lean ====
section
/-! DEFINITION. One step of the machine: what `fetch` finds, executed. -/

namespace Sys2Proof.Machine

/-- One step: an instruction runs to completion (00_scope.md R16), or the outside world moves, or the machine stops. -/
def step (s : State) : Host.Outcome State Fault Refusal :=
  match fetch s with
  | .run i t => exec i t
  | .stay t => .next t
  | .stuck f => .fault f
  | .refuse r => .refused r

/-- `s` with a table word as the next code, so that the very next step runs it. -/
def State.withFetchWord (s : State) (nbits w : Nat) : State := placeWord s nbits w

end Sys2Proof.Machine
end

