-- ==== Sys2Proof/Safety.lean ====
section
/-! DEFINITION. What claims say about a run: the invariants of the machine, the image of the wire trace, the premises
about the environment, and what the panel is expected to get. -/

namespace Sys2Proof.Machine

/-- The event a complete wire word stands for (00_scope.md R17). -/
def wordEvent (w : Word) : List Event :=
  if w = cmdWord (w.extractLsb' 16 8) then [.cmd (w.extractLsb' 16 8)]
  else if w = datWord (w.extractLsb' 16 8) then [.dat (w.extractLsb' 16 8)]
  else []

/-- The image of one wire event (00_scope.md R17: "every other event dropped"). -/
def WireEvent.image : WireEvent → List Event
  | .word w => wordEvent w
  | .wait ms => [.wait ms]
  | .csAssert => []
  | .wordFailed => []
  | .csRelease => []
  | .quiet _ => []

/-- The logical stream that a wire trace stands for (00_scope.md R17). -/
def imageOf (t : List WireEvent) : List Event := t.flatMap WireEvent.image

/-- The level of chip-select after a wire trace, `none` for a trace that breaks the framing of 40_transport.md R101, R102,
R110: a word outside an assertion, an assertion inside one, a release or a wait in the wrong place. -/
def framing : Bool → List WireEvent → Option Bool
  | c, [] => some c
  | false, .csAssert :: t => framing true t
  | false, .quiet _ :: t => framing false t
  | false, .wait _ :: t => framing false t
  | true, .word _ :: t => framing true t
  | true, .wordFailed :: t => framing true t
  | true, .csRelease :: t => framing false t
  | false, .word _ :: _ => none
  | false, .wordFailed :: _ => none
  | false, .csRelease :: _ => none
  | true, .csAssert :: _ => none
  | true, .quiet _ :: _ => none
  | true, .wait _ :: _ => none

namespace State

/-- Between words `cs = 0`, `sclk = 0`, `bitcnt = 0` (10_state.md R26). -/
def BusIdle (s : State) : Prop := s.pins.cs = false ∧ s.pins.sclk = false ∧ s.bitcnt = 0

/-- No working buffer is held and the line buffer holds nothing (42_frame_writer.md R179). -/
def BufferFree (s : State) : Prop := s.bufHeld = false ∧ s.lb = []

/-- The position outside RUN_INIT (10_state.md R24), with the handle that goes with it (R22). -/
def PositionAtRest (s : State) : Prop :=
  (s.ph = true ∧ s.seq = ⟨.ready, s.cfg.table.length, 0⟩) ∨ (s.ph = false ∧ s.seq = Position.start)

/-- A block that is not busy is at rest. -/
def AtRest (s : State) : Prop := s.busy = false → s.BusIdle ∧ s.BufferFree ∧ s.PositionAtRest

/-- In the bridge profile the logical stream is the image of the wire trace (00_scope.md R17). -/
def TraceIsImage (s : State) : Prop := s.cfg.profile = .bridge → s.logical = imageOf s.wire

/-- The wire trace is framed and ends at the level chip-select has; a block that is not busy has released it. -/
def Framed (s : State) : Prop :=
  framing false s.wire = some s.pins.cs ∧ (s.busy = false → s.pins.cs = false)

/-- Both byte memories are in canonical form. -/
def MemoriesWf (s : State) : Prop := s.panel.gram.wf = true ∧ s.lb.wf = true

/-- The handle and the position are as before. -/
def KeepsSequencer (s t : State) : Prop := t.ph = s.ph ∧ t.seq = s.seq

/-- The Frame Writer's registers, its buffer and the line buffer are as before. That an operation other than a fill keeps
`fw_left` and `fw_row`, unspecified between fills (10_state.md R25), is the model's choice (DESIGN CHOICE, log 18). -/
def KeepsFrameWriter (s t : State) : Prop :=
  t.fwLeft = s.fwLeft ∧ t.fwRow = s.fwRow ∧ t.bufHeld = s.bufHeld ∧ t.lb = s.lb

/-- The configuration, the platform devices, what the host has lined up, the allocator's draws and the index of free
values are as before. -/
def KeepsOutside (s t : State) : Prop :=
  t.cfg = s.cfg ∧ t.plat = s.plat ∧ t.inbox = s.inbox ∧ t.env.allocs = s.env.allocs ∧ t.free = s.free

/-- What the panel bus does is not seen: streams, receiver, pins, shifter, time and the draws are as before. -/
def KeepsBus (s t : State) : Prop :=
  t.logical = s.logical ∧ t.wire = s.wire ∧ t.panel = s.panel ∧ t.rx = s.rx ∧ t.pins = s.pins ∧ t.sh = s.sh ∧
    t.bitcnt = s.bitcnt ∧ t.quietDue = s.quietDue ∧ t.now = s.now ∧ t.env.words = s.env.words ∧ t.env.waits = s.env.waits

/-- A host operation ended with `r`: the response is in `rsp` and is delivered once, and the block is idle
(60_exceptions.md R216). -/
def Answered (r : Resp) (s t : State) : Prop := t.rsp = r ∧ t.busy = false ∧ t.rsps = s.rsps ++ [r]

/-- Everything but the receiver and the index of its free values (43_panel_receiver.md R201). -/
def blockView (s : State) : State := { s with panel := Panel.lost, rx := ⟨0, 0⟩, free := 0 }

end State

/-- The backlight is as before (60_exceptions.md R239). -/
def Platform.SameBacklight (p q : Platform) : Prop :=
  q.pwmOn = p.pwmOn ∧ q.pwmRsp = p.pwmRsp ∧ q.pwmPin = p.pwmPin ∧ q.pwmChan = p.pwmChan ∧ q.pwmHz = p.pwmHz ∧
    q.pwmBits = p.pwmBits ∧ q.duty = p.duty ∧ q.ramp = p.ramp

/-- The configured PWM channel is as before (60_exceptions.md R239). -/
def Platform.SameChannel (p q : Platform) : Prop :=
  q.pwmOn = p.pwmOn ∧ q.pwmPin = p.pwmPin ∧ q.pwmChan = p.pwmChan ∧ q.pwmHz = p.pwmHz ∧ q.pwmBits = p.pwmBits

/-- The expander is as before (60_exceptions.md R236). -/
def Platform.SameExpander (p q : Platform) : Prop := q.expDir = p.expDir ∧ q.expOut = p.expOut ∧ q.expRsp = p.expRsp

/-- In write mode the last command is memory-write, the window lies in the panel and the write position lies in the
window (43_panel_receiver.md R196, R199). -/
def Panel.WritesInWindow (k : Config) (p : Panel) : Prop :=
  p.wr = true →
    p.last = some k.cmdRamwr ∧ p.xs.toNat ≤ p.col.toNat ∧ p.col.toNat ≤ p.xe.toNat ∧ p.xe.toNat < k.width ∧
      p.ys.toNat ≤ p.row.toNat ∧ p.row.toNat ≤ p.ye.toNat ∧ p.ye.toNat < k.height

/-- Every listed byte of the frame memory belongs to a pixel of the panel (20_memory.md R51). -/
def Panel.GramInPanel (k : Config) (p : Panel) : Prop :=
  ∀ c ∈ p.gram, c.1 < 2 * (k.width * k.height)

/-- Where the next data byte is stored, if it completes a pixel: the address of the pixel's high byte
(43_panel_receiver.md R197). -/
def Panel.storesAt (k : Config) (p : Panel) : Option Nat :=
  if p.unknown = false ∧ p.settling = none ∧ p.last = some k.cmdRamwr ∧ p.wr = true ∧ p.hi.isSome = true then
    some (Panel.pixelAddr k p.row.toNat p.col.toNat)
  else none

/-- The receiver after an event, but for the order of the table (43_panel_receiver.md R192, R193, R203). -/
def Panel.takeEvent (k : Config) (e : Event) (p : Panel) : Panel :=
  match e with
  | .cmd c => p.takeCmd k c
  | .dat d => p.takeDat k d
  | .wait ms => p.onWait ms

/-- At no event of the stream has the receiver got the table in another order (43_panel_receiver.md R200, R202; log 30). -/
def Panel.keepsOrder (k : Config) : List Event → Panel → Bool
  | [], _ => true
  | .wait ms :: es, p => keepsOrder k es (p.onWait ms)
  | .cmd c :: es, p => !(p.takeCmd k c).outOfOrder k && keepsOrder k es (p.onCmd k c)
  | .dat d :: es, p => !(p.takeDat k d).outOfOrder k && keepsOrder k es (p.onDat k d)

/-- No sleep-out has come since the last whole replay of the table, or since the last `Reset` (43_panel_receiver.md R200). -/
def Panel.NoSleepOut (k : Config) (p : Panel) : Prop := k.cmdSlpout ∉ (p.log.drop p.replayFrom).map Prod.fst

/-- The byte of a pixel at an address: the high byte at an even one (20_memory.md R53). -/
def pixelByte (p : U16) (a : Nat) : Byte := if a % 2 = 0 then hiByte p else loByte p

/-- The frame memory after a rectangle was filled: the bytes of its pixels hold the pixel, every other byte is as before. -/
def Painted (k : Config) (x0 y0 x1 y1 : Nat) (p : U16) (g g' : Memory) : Prop :=
  ∀ a, g'.read a =
    if x0 ≤ a / 2 % k.width ∧ a / 2 % k.width ≤ x1 ∧ y0 ≤ a / 2 / k.width ∧ a / 2 / k.width ≤ y1 then some (pixelByte p a)
    else g.read a

/-- An unknown receiver holds no data a claim could use (43_panel_receiver.md R202). -/
def Panel.LostIsBlank (p : Panel) : Prop := p.unknown = true → p = Panel.lost

/-- No word fails, hangs or is cut short, and no wait is cut short: the premise of 95_test_vectors.md S1 and
93_implementation_defined.md U3. -/
def Env.clean (e : Env) : Bool :=
  e.words.all (fun o => o == .sent) && e.waits.all (fun o => o != .reset)

/-- No reset of the block is drawn: the operation runs on. -/
def Env.noReset (e : Env) : Bool :=
  e.words.all (fun o => match o with | .reset _ => false | _ => true) && e.waits.all (fun o => o != .reset)

/-- No reset of the block is drawn while what is owed of a quiet interval passes before the next word
(70_reset_and_hazards.md R265). Nothing is drawn when nothing is owed, and never in the native profile. -/
def State.QuietPasses (s : State) : Prop :=
  s.cfg.profile = .bridge → s.quietDue = 0 ∨ s.env.waits.head? ≠ some .reset

/-- Every buffer that is asked for is obtained (42_frame_writer.md R178). -/
def Env.buffers (e : Env) : Bool := e.allocs.all id

/-- The stream of a group of one command with its data bytes (30_encoding.md R86, CMDP). -/
def groupStream (c : Byte) (ds : List Byte) : List Event := .cmd c :: ds.map .dat

/-- The stream of steps 1 to 3 for a rectangle (30_encoding.md R86, WINDOW; 42_frame_writer.md R163 to R165). -/
def windowStream (k : Config) (xs ys xe ye : U16) : List Event :=
  groupStream k.cmdCaset (coordBytes xs xe) ++ groupStream k.cmdRaset (coordBytes ys ye) ++ [.cmd k.cmdRamwr]

/-- The stream of a fill in the SINGLE_WINDOW variant (42_frame_writer.md R160). -/
def fillStream (k : Config) (x0 y0 x1 y1 p : U16) : List Event :=
  windowStream k x0 y0 x1 y1
    ++ (pixelBytes p ((x1.toNat - x0.toNat + 1) * (y1.toNat - y0.toNat + 1))).map .dat

/-- The stream of one row of the ROW_BITMAP variant (42_frame_writer.md R177). -/
def rowStream (k : Config) (x0 row x1 p : U16) : List Event :=
  windowStream k x0 row x1 row ++ (pixelBytes p (x1.toNat - x0.toNat + 1)).map .dat

/-- The stream of `n` rows from row `y` on in the ROW_BITMAP variant (42_frame_writer.md R175). -/
def rowsStream (k : Config) (x0 x1 p : U16) : Nat → Nat → List Event
  | _, 0 => []
  | y, n + 1 => rowStream k x0 (BitVec.ofNat 16 y) x1 p ++ rowsStream k x0 x1 p (y + 1) n

/-- The stream of one table entry (41_init_sequencer.md R146), the settle entries without their delay. -/
def entryStream (e : Entry) : List Event :=
  groupStream e.cmd e.params
    ++ (if 0 < e.delayMs ∧ e.phase ≠ .sleepOut ∧ e.phase ≠ .displayOn then [.wait e.delayMs] else [])

/-- The stream of a state of the run (41_init_sequencer.md R133 to R144). -/
def stateStream (k : Config) (p : SeqState) : List Event :=
  match p with
  | .powerWait => [.wait k.tPowerWaitMs]
  | .settleDelay120 => [.wait (max k.tSlpoutMs (segmentDelay k .sleepOut))]
  | .settleDelay10 => [.wait (max k.tDisponMs (segmentDelay k .displayOn))]
  | .ready => []
  | .reset => (segment k .reset).flatMap entryStream
  | .pageUnlock => (segment k .pageUnlock).flatMap entryStream
  | .registerBurst => (segment k .registerBurst).flatMap entryStream
  | .gammaPageUnlock => (segment k .gammaPageUnlock).flatMap entryStream
  | .gammaBurst => (segment k .gammaBurst).flatMap entryStream
  | .pageLock => (segment k .pageLock).flatMap entryStream
  | .displayModeConfig => (segment k .displayModeConfig).flatMap entryStream
  | .sleepOut => (segment k .sleepOut).flatMap entryStream
  | .displayOn => (segment k .displayOn).flatMap entryStream

/-- The stream of a successful run (41_init_sequencer.md R130, R148). -/
def initStream (k : Config) : List Event := runOrder.flatMap (stateStream k)

/-- The stream of a fill, by variant (42_frame_writer.md R160, R175). -/
def rectStream (k : Config) (x0 y0 x1 y1 p : U16) : List Event :=
  match k.fwVariant with
  | .singleWindow => fillStream k x0 y0 x1 y1 p
  | .rowBitmap => rowsStream k x0 x1 p y0.toNat (y1.toNat - y0.toNat + 1)

/-- The wire trace of one event sent by the per-word path (40_transport.md R101, R103; 00_scope.md R17). -/
def eventTrace (k : Config) : Event → List WireEvent
  | .cmd c => [.csAssert, .word (cmdWord c), .csRelease, .quiet k.tQuietNs]
  | .dat d => [.csAssert, .word (datWord d), .csRelease, .quiet k.tQuietNs]
  | .wait ms => [.wait ms]

/-- The wire trace of a stream sent by the per-word path. -/
def traceOf (k : Config) (es : List Event) : List WireEvent := es.flatMap (eventTrace k)

/-- The wire trace of a burst (40_transport.md R110): one assertion, one word for each byte, one quiet interval. -/
def burstTrace (k : Config) (ds : List Byte) : List WireEvent :=
  [.csAssert] ++ ds.map (fun d => .word (datWord d)) ++ [.csRelease, .quiet k.tQuietNs]

/-- What a stream sent by the per-word path adds to the wire trace, by profile (the native profile has none,
40_transport.md R117). -/
def wireOf (k : Config) (es : List Event) : List WireEvent :=
  match k.profile with
  | .bridge => traceOf k es
  | .native => []

/-- The whole stream of an instruction, by its rule; a fill's is that of a fill that passes its checks. -/
def streamOf (k : Config) : Instr → List Event
  | .wrcmd c => [.cmd c]
  | .wrcolor d => [.dat d]
  | .sendCommand c => [.cmd c]
  | .sendData d => [.dat d]
  | .runInit => initStream k
  | .fillRect x0 y0 x1 y1 p => rectStream k x0 y0 x1 y1 p
  | .fillScreen p => rectStream k 0 0 (BitVec.ofNat 16 (k.width - 1)) (BitVec.ofNat 16 (k.height - 1)) p
  | .caset a b => groupStream k.cmdCaset (coordBytes a b)
  | .raset a b => groupStream k.cmdRaset (coordBytes a b)
  | .ramwr => [.cmd k.cmdRamwr]
  | .slpout ps => groupStream k.cmdSlpout ps ++ [.wait k.tSlpoutMs]
  | .dispon ps => groupStream k.cmdDispon ps ++ [.wait k.tDisponMs]
  | .vendor c ps => groupStream c ps

/-- The operand registers after an instruction: those its request uses are written when it is accepted, and FILL_SCREEN
writes the full-screen rectangle (10_state.md R21, 42_frame_writer.md R168; log 10). -/
def operandsAfter (i : Instr) (s : State) : Operands :=
  match i with
  | .wrcmd _ => s.x
  | .wrcolor _ => s.x
  | .sendCommand c => { s.x with op := 0x10#8, byte := c }
  | .sendData d => { s.x with op := 0x11#8, byte := d }
  | .runInit => { s.x with op := 0x20#8 }
  | .fillRect x0 y0 x1 y1 p => { s.x with op := 0x30#8, pix := p, x0 := x0, y0 := y0, x1 := x1, y1 := y1 }
  | .fillScreen p =>
    { s.x with
      op := 0x31#8, pix := p, x0 := 0, y0 := 0
      x1 := BitVec.ofNat 16 (s.cfg.width - 1), y1 := BitVec.ofNat 16 (s.cfg.height - 1) }
  | .caset _ _ => s.x
  | .raset _ _ => s.x
  | .ramwr => s.x
  | .slpout _ => s.x
  | .dispon _ => s.x
  | .vendor _ _ => s.x

/-- The sum of the recorded minimum waits of a stream, in milliseconds (00_scope.md R14). -/
def waitMs : List Event → Nat
  | [] => 0
  | .wait ms :: es => ms + waitMs es
  | .cmd _ :: es => waitMs es
  | .dat _ :: es => waitMs es

/-- The command and data part of a stream (41_init_sequencer.md R132). -/
def withoutWaits (es : List Event) : List Event :=
  es.filter fun e => match e with | .wait _ => false | _ => true

end Sys2Proof.Machine
end

