-- ==== Sys2Proof/Certificates/Slice0/Obligations.lean ====
section
/-! DEFINITION. The statements for the provers, from the numbered rules of spec/. -/

open Sys2Proof Sys2Proof.Machine

/-! ### Encodings -/

/-- Codes written out from the spec's encodings (95_test_vectors.md sections 2.1 and 2.5) decode to what they stand for. -/
def Obligations.SpecCodesDecode : Prop :=
  decodeWord 0x02B10000#32 = .ok (.wrcmd 0xB1#8) ∧
  decodeWord 0x32670000#32 = .ok (.wrcolor 0x67#8) ∧
  decode Config.atReset .req96 [0x10#8, 0x2C#8, 0, 0, 0, 0, 0, 0, 0, 0, 0, 0] = .ok (.sendCommand 0x2C#8) ∧
  decode Config.atReset .req96 [0x11#8, 0x67#8, 0, 0, 0, 0, 0, 0, 0, 0, 0, 0] = .ok (.sendData 0x67#8) ∧
  decode Config.atReset .req96 [0x20#8, 0, 0, 0, 0, 0, 0, 0, 0, 0, 0, 0] = .ok .runInit ∧
  decode Config.atReset .req96 [0x30#8, 0, 0x07#8, 0xE0#8, 0, 0x0A#8, 0, 0x14#8, 0, 0x0C#8, 0, 0x15#8]
    = .ok (.fillRect 10 20 12 21 0x07E0#16) ∧
  decode Config.atReset .req96 [0x31#8, 0, 0xF8#8, 0, 0, 0, 0, 0, 0, 0, 0, 0] = .ok (.fillScreen 0xF800#16) ∧
  decode Config.atReset .cmd8 [0x2A#8, 0, 0x0A#8, 0, 0x0C#8] = .ok (.caset 10 12) ∧
  decode Config.atReset .cmd8 [0x2B#8, 0, 0x14#8, 0, 0x15#8] = .ok (.raset 20 21) ∧
  decode Config.atReset .cmd8 [0x2C#8] = .ok .ramwr ∧
  decode Config.atReset .cmd8 [0x11#8] = .ok (.slpout []) ∧
  decode Config.atReset .cmd8 [0x29#8] = .ok (.dispon []) ∧
  decode Config.atReset .cmd8 [0xB1#8, 0x22#8, 0x33#8] = .ok (.vendor 0xB1#8 [0x22#8, 0x33#8])

/-- Decoding the code of a well-formed instruction gives the instruction back, for every instruction and every operand. -/
def Obligations.DecodeInvertsEncode : Prop :=
  ∀ (k : Config) (i : Instr), k.cmdsDistinct = true → i.wf k = true → decode k (encode k i).1 (encode k i).2 = .ok i

/-- The match and mask values of the two words (30_encoding.md R72): a word meets a row's mask exactly when it is that row's
word of some payload, which is what it decodes to; any other word is no instruction. -/
def Obligations.MasksIdentifyTheTwoWords : Prop :=
  ∀ w : Word,
    (w &&& 0xFF00FFFF#32 = 0x02000000#32 ↔ ∃ c, w = cmdWord c) ∧
    (w &&& 0xFF00FFFF#32 = 0x32000000#32 ↔ ∃ d, w = datWord d) ∧
    (∀ c, w = cmdWord c → decodeWord w = .ok (.wrcmd c)) ∧
    (∀ d, w = datWord d → decodeWord w = .ok (.wrcolor d)) ∧
    ((∀ c, w ≠ cmdWord c) → (∀ d, w ≠ datWord d) → ∃ e, decodeWord w = .error e)

/-- A pixel becomes its two bytes, high byte first, and back, exactly, for every value (30_encoding.md R80). -/
def Obligations.PixelBytesRoundTrip : Prop :=
  ∀ p : U16,
    pixelBytes p 1 = [p.extractLsb' 8 8, p.extractLsb' 0 8] ∧
    p.toNat = (p.extractLsb' 8 8).toNat * 256 + (p.extractLsb' 0 8).toNat ∧
    u16 (p.extractLsb' 8 8) (p.extractLsb' 0 8) = p

/-- The bit loop (40_transport.md R108) and the receiver's count of edges (43_panel_receiver.md R190): when the clock has
risen for bit `n` the word's bit `31 - n` is on `d[0]`; `d[3:1]` are left alone; after 32 pulses the clock is low, no bit is
left, and the receiver has taken exactly the word. -/
def Obligations.WordIsSentBitByBit : Prop :=
  ∀ (w : Word) (s : State), s.rx.cnt = 0 →
    (∀ n, n < 32 →
      (clkRise (clockBits n (loadWord w s))).pins.d0 = some (w.getLsbD (31 - n)) ∧
      (clkRise (clockBits n (loadWord w s))).pins.sclk = true ∧
      (clockBits n (loadWord w s)).bitcnt = 32 - n ∧
      (clockBits n (loadWord w s)).panel = s.panel) ∧
    (clockBits 32 (loadWord w s)).pins
      = { s.pins with d0 := some (w.getLsbD 0), sclk := false } ∧
    (clockBits 32 (loadWord w s)).bitcnt = 0 ∧
    (clockBits 32 (loadWord w s)).rx.cnt = 0 ∧
    (clockBits 32 (loadWord w s)).panel = s.panel.onWord s.cfg w

/-! ### A step -/

/-- A step runs the decoded instruction: what is presented first to an idle block is what runs, and nothing is added around
it but taking the code from the inputs. The formats W32 and CMD8 as codes of their own are the model's (log 2). -/
def Obligations.StepRunsDecodedInstruction : Prop :=
  ∀ (s : State) (f : Format) (bytes : List Byte) (r : List Input) (i : Instr),
    s.cfg.wf = true → s.busy = false → s.inbox = .code f bytes :: r → decode s.cfg f bytes = .ok i →
      step s = exec i { s with inbox := r }

/-- An unassigned host operation code is answered with CONFIGURATION_ERROR; nothing else changes but the request being taken
(30_encoding.md R83, 93_implementation_defined.md U18). -/
def Obligations.UnassignedOperationAnswered : Prop :=
  ∀ (s : State) (op : Byte) (fields : List Byte) (r : List Input),
    s.cfg.wf = true → s.busy = false → s.inbox = .code .req96 (op :: fields) :: r → fields.length = 11 →
    op ∉ [0x10#8, 0x11#8, 0x20#8, 0x30#8, 0x31#8] →
      step s = .next { s with inbox := r, rsp := .configurationError, rsps := s.rsps ++ [.configurationError] }

/-- Every request of 96 bits presented to an idle block is taken, and it is answered exactly once (60_exceptions.md R216), or
it hangs and is not answered (40_transport.md R113), or the block's reset abandons it without a response
(70_reset_and_hazards.md R251). The inputs and the draws are the model's (log 6, log 17). -/
def Obligations.EveryRequestAnsweredOnceOrHangs : Prop :=
  ∀ (s : State) (bytes : List Byte) (r : List Input),
    s.cfg.wf = true → s.busy = false → s.inbox = .code .req96 bytes :: r → bytes.length = 12 →
      ∃ t, step s = .next t ∧ t.inbox = r ∧
        ((t.busy = false ∧ t.rsps = s.rsps ++ [t.rsp]) ∨
          (t.busy = true ∧ t.rsps = s.rsps ∧ s.env.clean = false) ∨
          (t.busy = false ∧ t.rsps = s.rsps ∧ t.ph = false ∧ t.seq = ⟨.reset, 0, 0⟩ ∧ s.env.noReset = false))

/-- A configuration with a settle delay or a quiet interval below its minimum, a repeated command byte, a table that breaks a
condition of 41_init_sequencer.md R131, a bridge clock above 5 MHz, a panel without a pixel or larger than 65536 in a
direction, or another value than the documented one of OPC_WRCMD, OPC_WRCOLOR, WORD_BITS, F_SCLK_BRIDGE_MAX, COORD_BITS,
PIXEL_BITS, NATIVE_CMD_BITS or NATIVE_PARAM_BITS is refused: no step is made with it (70_reset_and_hazards.md R265, R266;
93_implementation_defined.md U4, U17). Three of these are the model's choice (log 27): that a bridge clock above 5 MHz is
refused, in either profile (R274 puts it "outside the document", in the bridge profile), that a panel outside the sizes of
92_eei_decisions.md D33 is, and that of these eight parameters the documented value is the only one accepted. -/
def Obligations.IllFormedConfigurationRefused : Prop :=
  ∀ s : State,
    (s.cfg.tSlpoutMs < 120 ∨ s.cfg.tDisponMs < 10 ∨ s.cfg.tQuietNs < 1000 ∨ 5000000 < s.cfg.sclkBridgeHz ∨
      ¬ [s.cfg.cmdCaset, s.cfg.cmdRaset, s.cfg.cmdRamwr, s.cfg.cmdSlpout, s.cfg.cmdDispon].Nodup ∨
      (∃ e ∈ s.cfg.table, e.phase = .powerWait ∨ e.phase = .settleDelay120 ∨ e.phase = .settleDelay10 ∨ e.phase = .ready) ∨
      (∃ a b c d e, s.cfg.table = a ++ d :: b ++ e :: c ∧ e.phase.rank < d.phase.rank) ∨
      (∀ e, segment s.cfg .sleepOut = [e] → e.cmd ≠ s.cfg.cmdSlpout) ∨
      (∀ e, segment s.cfg .displayOn = [e] → e.cmd ≠ s.cfg.cmdDispon) ∨
      s.cfg.opcWrcmd ≠ 0x02#8 ∨ s.cfg.opcWrcolor ≠ 0x32#8 ∨ s.cfg.wordBits ≠ 32 ∨ s.cfg.coordBits ≠ 16 ∨
      s.cfg.pixelBits ≠ 16 ∨ s.cfg.native.cmdBits ≠ 32 ∨ s.cfg.native.paramBits ≠ 8 ∨ s.cfg.sclkBridgeMaxHz ≠ 5000000 ∨
      s.cfg.width = 0 ∨ 65536 < s.cfg.width ∨ s.cfg.height = 0 ∨ 65536 < s.cfg.height) →
      step s = .refused .illFormedConfiguration

/-! ### Reset -/

/-- The state after reset (10_state.md R33), and waiting for a request as the first thing done (70_reset_and_hazards.md R253).
The values the rule leaves unspecified are not stated. -/
def Obligations.ResetValues : Prop :=
  State.reset.ph = false ∧ State.reset.busy = false ∧ State.reset.seq = ⟨.reset, 0, 0⟩ ∧ State.reset.pins.cs = false ∧
  State.reset.pins.sclk = false ∧ State.reset.pins.d0 = none ∧ State.reset.pins.d1 = none ∧ State.reset.pins.d2 = none ∧
  State.reset.pins.d3 = none ∧ State.reset.bitcnt = 0 ∧ State.reset.now = 0 ∧ step State.reset = .next State.reset

/-- The block's reset (70_reset_and_hazards.md R250, R252; 10_state.md R33): taken between operations and on a hung block, it
gives the values of R33, answers nothing, keeps the configuration and does not reset the panel; a quiet interval stays owed,
the whole of it when the reset releases chip-select (70_reset_and_hazards.md R265); a busy block without a pending reset makes
no step. Where the inputs and the wire trace are named, the choice is the model's (log 16, log 17), and so is that what is
owed outlasts a reset (log 31), and that no time passes while the reset is asserted (log 16). -/
def Obligations.ResetOfTheBlock : Prop :=
  ∀ s : State, s.cfg.wf = true →
    (s.inbox.head? = some .reset ∨ (s.busy = true ∧ .reset ∈ s.inbox) →
      ∃ t, step s = .next t ∧ t.ph = false ∧ t.busy = false ∧ t.seq = ⟨.reset, 0, 0⟩ ∧ t.pins = Pins.idle ∧ t.bitcnt = 0 ∧
        t.now = 0 ∧ t.cfg = s.cfg ∧ t.rsps = s.rsps ∧ t.logical = s.logical ∧ t.plat = s.plat ∧
        t.inbox = s.inbox.erase .reset ∧
        (s.pins.cs = false → t.panel = s.panel ∧ t.wire = s.wire ∧ t.quietDue = s.quietDue) ∧
        (s.pins.cs = true →
          t.panel.unknown = true ∧ t.wire = s.wire ++ [.csRelease] ∧ t.quietDue = s.cfg.tQuietNs)) ∧
    (s.busy = true → .reset ∉ s.inbox → step s = .fault .busHang)

/-- The block's reset inside an operation (70_reset_and_hazards.md R251), of every instruction, drawn inside a word, a wait, the
quiet interval of a word that was sent, or what is still owed of one before the first word: the operation is abandoned without
a response, its stream is cut short, and the block is as after reset; a RUN_INIT cut short, and a word cut short, leave the
panel unknown (43_panel_receiver.md R202). A reset drawn for the first word of a raw operation comes before anything of it is
recorded; one drawn in the owed interval before that word, when no word is in flight, leaves the panel and the wire trace as
they were, and takes no word's draw. After a reset inside a word of the bridge profile the whole quiet interval is owed
(70_reset_and_hazards.md R265). That the wire trace records the release of chip-select is the model's choice (log 16), and so
are the draws (log 6), what is owed of a quiet interval (log 31), that of a settle or post-entry wait nothing is owed (log 33),
and a reset inside a wire word run on its own (log 2). -/
def Obligations.ResetInsideAnOperation : Prop :=
  (∀ (i : Instr) (b : Byte) (s : State) (n : Nat) (ws : List WordDraw),
    s.cfg.profile = .bridge → s.QuietPasses → s.env.words = .reset n :: ws → i = .sendCommand b ∨ i = .sendData b →
      ∃ t, exec i s = .next t ∧ t.rsps = s.rsps ∧ t.busy = false ∧ t.ph = false ∧ t.seq = ⟨.reset, 0, 0⟩ ∧
        t.pins.cs = false ∧ t.logical = s.logical ∧ t.wire = s.wire ++ [.csAssert, .csRelease] ∧ t.panel.unknown = true ∧
        t.cfg = s.cfg ∧ t.quietDue = s.cfg.tQuietNs) ∧
  (∀ (i : Instr) (b : Byte) (s : State) (ws : List WaitDraw),
    s.cfg.profile = .bridge → s.pins.cs = false → 0 < s.quietDue → s.env.waits = .reset :: ws →
    i = .wrcmd b ∨ i = .wrcolor b ∨ i = .sendCommand b ∨ i = .sendData b →
      ∃ t, exec i s = .next t ∧ t.rsps = s.rsps ∧ t.busy = false ∧ t.ph = false ∧ t.seq = ⟨.reset, 0, 0⟩ ∧
        t.pins = Pins.idle ∧ t.logical = s.logical ∧ t.wire = s.wire ∧ t.panel = s.panel ∧ t.cfg = s.cfg ∧
        t.quietDue = s.quietDue ∧ t.env.words = s.env.words ∧ t.env.waits = ws) ∧
  (∀ (i : Instr) (s t : State) (uw : List WordDraw) (ut : List WaitDraw),
    exec i s = .next t → s.env.words = uw ++ t.env.words → s.env.waits = ut ++ t.env.waits →
    (∃ n, .reset n ∈ uw) ∨ .reset ∈ ut →
      t.rsps = s.rsps ∧ t.busy = false ∧ t.ph = false ∧ t.seq = ⟨.reset, 0, 0⟩ ∧ t.pins = Pins.idle ∧ t.bitcnt = 0 ∧
      t.now = 0 ∧ t.cfg = s.cfg ∧ t.plat = s.plat ∧ t.inbox = s.inbox ∧
      (∃ pre, pre <+: streamOf s.cfg i ∧ t.logical = s.logical ++ pre) ∧
      (i = .runInit → t.panel.unknown = true) ∧
      ((∃ n, .reset n ∈ uw) →
        t.panel.unknown = true ∧ (s.cfg.profile = .bridge →
          (∃ w, t.wire = w ++ [.csRelease]) ∧ t.quietDue = s.cfg.tQuietNs)))

/-! ### Invariants -/

/-- The invariants below hold right after reset. The receiver clauses rest on the receiver the model has at reset (unknown,
log 5) and the last clause on its configuration (log 1): 10_state.md R33 states no panel-side value and no configuration. -/
def Obligations.ResetMeetsTheInvariants : Prop :=
  State.reset.AtRest ∧ State.reset.TraceIsImage ∧ State.reset.Framed ∧ State.reset.MemoriesWf ∧
  State.reset.panel.WritesInWindow State.reset.cfg ∧ State.reset.panel.GramInPanel State.reset.cfg ∧
  State.reset.panel.LostIsBlank ∧ State.reset.cfg.wf = true

/-- Every step keeps: a block that is not busy has an idle bus (10_state.md R26), no buffer (42_frame_writer.md R179), and the
position that goes with its handle (10_state.md R24). -/
def Obligations.StepKeepsRest : Prop := ∀ s t : State, s.AtRest → step s = .next t → t.AtRest

/-- Every step keeps: in the bridge profile the logical stream is the image of the wire trace (00_scope.md R17). -/
def Obligations.StepKeepsTraceImage : Prop := ∀ s t : State, s.TraceIsImage → step s = .next t → t.TraceIsImage

/-- Every step keeps the framing of the wire trace: words only inside an assertion of chip-select, waits and quiet intervals
only outside one, and chip-select released when the block is not busy (40_transport.md R101, R102, R110). -/
def Obligations.StepKeepsFraming : Prop := ∀ s t : State, s.Framed → step s = .next t → t.Framed

/-- Every step keeps both byte memories in canonical form. `WritesInWindow`, `GramInPanel` and `LostIsBlank` are kept by
themselves (`StepKeepsReceiver`); this statement needs none of them. -/
def Obligations.StepKeepsMemories : Prop := ∀ s t : State, s.MemoriesWf → step s = .next t → t.MemoriesWf

/-- Every step keeps the receiver consistent: in write mode the last command is memory-write and the write position lies in a
window that lies in the panel (43_panel_receiver.md R196, R199); the frame memory holds pixels of the panel only
(20_memory.md R51); an unknown receiver holds nothing (43_panel_receiver.md R202; the model's choice, log 5). -/
def Obligations.StepKeepsReceiver : Prop :=
  ∀ s t : State, s.panel.WritesInWindow s.cfg → s.panel.GramInPanel s.cfg → s.panel.LostIsBlank → step s = .next t →
    t.panel.WritesInWindow t.cfg ∧ t.panel.GramInPanel t.cfg ∧ t.panel.LostIsBlank

/-- Every step adds to the wire trace only words of the two forms, so the reserved bits are zero in every word sent
(30_encoding.md R72, 40_transport.md R119). -/
def Obligations.OnlyTheTwoWordsAreSent : Prop :=
  ∀ s t : State, step s = .next t →
    ∃ new, t.wire = s.wire ++ new ∧
      ∀ w, WireEvent.word w ∈ new → w.extractLsb' 0 16 = 0 ∧ (w.extractLsb' 24 8 = 0x02#8 ∨ w.extractLsb' 24 8 = 0x32#8)

/-- No step changes the configuration: profile, variant, table, command bytes, sizes and minimums (10_state.md R29,
20_memory.md R65). -/
def Obligations.ConfigurationNeverChanges : Prop := ∀ s t : State, step s = .next t → t.cfg = s.cfg

/-- Nothing is rolled back (60_exceptions.md R219): a step only appends to the responses, the logical stream and the wire
trace. Time does not run backwards unless the block's reset comes (10_state.md R27); time between requests passes as it is
presented (log 22) and counts for the quiet interval that is owed (40_transport.md R103; log 31). -/
def Obligations.RecordsOnlyGrow : Prop :=
  (∀ s t : State, step s = .next t →
    s.rsps <+: t.rsps ∧ s.logical <+: t.logical ∧ s.wire <+: t.wire ∧
      (s.env.noReset = true → .reset ∉ s.inbox → s.now ≤ t.now)) ∧
  (∀ (s : State) (ns : Nat) (r : List Input), s.cfg.wf = true → s.busy = false → s.inbox = .idle ns :: r →
    step s = .next { s with inbox := r, now := s.now + ns, quietDue := s.quietDue - ns })

/-- Which responses an instruction can give (60_exceptions.md R211 to R215, R218): at most one; never BUS_ERROR; RUN_INIT, the
raw operations, the words and the panel commands only OK or TRANSPORT_ERROR; CONFIGURATION_ERROR, NOT_READY and
ALLOCATION_ERROR only a fill; FILL_SCREEN never CONFIGURATION_ERROR. The six numbers are those of 30_encoding.md R76, and the
unassigned 6 and 7 are no response's. That a wire word or a panel command run on its own answers when a word of it fails is
the model's choice (log 2). -/
def Obligations.ResponsesByInstruction : Prop :=
  (Resp.ok.code = 0#3 ∧ Resp.transportError.code = 1#3 ∧ Resp.configurationError.code = 2#3 ∧
    Resp.allocationError.code = 3#3 ∧ Resp.notReady.code = 4#3 ∧ Resp.busError.code = 5#3 ∧
    ∀ r : Resp, r.code ≠ 6#3 ∧ r.code ≠ 7#3) ∧
  ∀ (i : Instr) (s t : State), exec i s = .next t →
    t.rsps = s.rsps ∨
    ∃ r, t.rsps = s.rsps ++ [r] ∧ t.rsp = r ∧ t.busy = false ∧ r ≠ .busError ∧
      (r ≠ .ok → r ≠ .transportError →
        (∃ x0 y0 x1 y1 p, i = .fillRect x0 y0 x1 y1 p) ∨
        (∃ p, i = .fillScreen p ∧ (s.cfg.sizeOk = true → r ≠ .configurationError)))

/-- The handle is granted only by a RUN_INIT that ends with OK, and taken away only by a RUN_INIT or by a step in which the
block was reset, which answers nothing and leaves the values of 10_state.md R33 (10_state.md R22). -/
def Obligations.HandleChangesOnlyByRunInitOrReset : Prop :=
  ∀ s t : State, step s = .next t →
    (s.ph = false → t.ph = true → (∃ u, fetch s = .run .runInit u) ∧ t.rsp = .ok ∧ t.rsps = s.rsps ++ [.ok]) ∧
    (s.ph = true → t.ph = false →
      (∃ u, fetch s = .run .runInit u) ∨
        (t.seq = ⟨.reset, 0, 0⟩ ∧ t.pins = Pins.idle ∧ t.busy = false ∧ t.rsps = s.rsps ∧ t.now = 0))

/-- The unknown state of the receiver ends only by a RUN_INIT that ends with OK (43_panel_receiver.md R202, R204). -/
def Obligations.UnknownEndsOnlyByRunInit : Prop :=
  ∀ s t : State, s.panel.unknown = true → step s = .next t → t.panel.unknown = false →
    (∃ u, fetch s = .run .runInit u) ∧ t.rsps = s.rsps ++ [.ok] ∧ t.ph = true

/-- The block never reads the panel (43_panel_receiver.md R201): two states that differ in the receiver alone make the same
step, and differ in the receiver alone after it, so the same holds of any number of steps. The receiver is its state, its
bit count and the model's own index of the free values of a recovery (log 7). -/
def Obligations.BlockNeverReadsThePanel : Prop :=
  ∀ s u : State, s.blockView = u.blockView →
    (∀ t, step s = .next t → ∃ v, step u = .next v ∧ v.blockView = t.blockView) ∧
    (∀ f, step s = .fault f → step u = .fault f) ∧
    (∀ e, step s = .refused e → step u = .refused e)

/-! ### Raw operations and wire words -/

/-- SEND_COMMAND (40_transport.md R106): one command word whatever the handle and the position, then OK; or, when the word
fails, TRANSPORT_ERROR with nothing on the logical stream. What is owed of a quiet interval passes before the word, and the
word's own after it; a failed word leaves its quiet interval owed (40_transport.md R103, 70_reset_and_hazards.md R265; when
that passes is the model's choice, log 31). That `fw_left` and `fw_row` keep
their values is the model's choice (log 18). A reset in what is owed before the word is `ResetInsideAnOperation`'s. -/
def Obligations.SendCommandResult : Prop :=
  ∀ (c : Byte) (s : State),
    (s.env.clean = true →
      ∃ t, exec (.sendCommand c) s = .next t ∧ State.Answered .ok s t ∧ t.logical = s.logical ++ [.cmd c] ∧
        t.wire = s.wire ++ wireOf s.cfg [.cmd c] ∧ t.panel = s.panel.onCmd s.cfg c ∧ s.KeepsSequencer t ∧
        s.KeepsFrameWriter t ∧ s.KeepsOutside t ∧ (s.BusIdle → t.BusIdle) ∧
        (s.cfg.profile = .bridge → s.now + s.quietDue + s.cfg.tQuietNs ≤ t.now ∧ t.quietDue = 0)) ∧
    (∀ n ws, s.QuietPasses → s.env.words = .failed n :: ws →
      ∃ t, exec (.sendCommand c) s = .next t ∧ State.Answered .transportError s t ∧ t.logical = s.logical ∧
        (s.cfg.profile = .bridge →
          t.wire = s.wire ++ [.csAssert, .wordFailed, .csRelease] ∧ t.quietDue = s.cfg.tQuietNs) ∧ t.panel.unknown = true ∧
        s.KeepsSequencer t ∧ s.KeepsFrameWriter t ∧ s.KeepsOutside t ∧ (s.BusIdle → t.BusIdle))

/-- SEND_DATA (40_transport.md R107): one data word whatever the handle and the position, then OK; or, when the word fails,
TRANSPORT_ERROR with nothing on the logical stream. What is owed of a quiet interval passes before the word, and the word's
own after it; a failed word leaves its quiet interval owed (40_transport.md R103, 70_reset_and_hazards.md R265; when that
passes is the model's choice, log 31). That `fw_left` and `fw_row` keep
their values is the model's choice (log 18). A reset in what is owed before the word is `ResetInsideAnOperation`'s. -/
def Obligations.SendDataResult : Prop :=
  ∀ (d : Byte) (s : State),
    (s.env.clean = true →
      ∃ t, exec (.sendData d) s = .next t ∧ State.Answered .ok s t ∧ t.logical = s.logical ++ [.dat d] ∧
        t.wire = s.wire ++ wireOf s.cfg [.dat d] ∧ t.panel = s.panel.onDat s.cfg d ∧ s.KeepsSequencer t ∧
        s.KeepsFrameWriter t ∧ s.KeepsOutside t ∧ (s.BusIdle → t.BusIdle) ∧
        (s.cfg.profile = .bridge → s.now + s.quietDue + s.cfg.tQuietNs ≤ t.now ∧ t.quietDue = 0)) ∧
    (∀ n ws, s.QuietPasses → s.env.words = .failed n :: ws →
      ∃ t, exec (.sendData d) s = .next t ∧ State.Answered .transportError s t ∧ t.logical = s.logical ∧
        (s.cfg.profile = .bridge →
          t.wire = s.wire ++ [.csAssert, .wordFailed, .csRelease] ∧ t.quietDue = s.cfg.tQuietNs) ∧ t.panel.unknown = true ∧
        s.KeepsSequencer t ∧ s.KeepsFrameWriter t ∧ s.KeepsOutside t ∧ (s.BusIdle → t.BusIdle))

/-- The two wire words, each run on its own (40_transport.md R104, R105): the word goes out in its own assertion of
chip-select, with its quiet interval after it and what was owed of an earlier one before it (40_transport.md R103); no
register of the block is written. That a word is an instruction of its own is the model's choice (log 2), and so are when an
owed quiet interval passes (log 31) and that `fw_left` and `fw_row` keep their values (log 18). -/
def Obligations.WireWordResult : Prop :=
  ∀ (b : Byte) (s : State), s.env.clean = true →
    (∃ t, exec (.wrcmd b) s = .next t ∧ t.logical = s.logical ++ [.cmd b] ∧ t.wire = s.wire ++ wireOf s.cfg [.cmd b] ∧
      t.panel = s.panel.onCmd s.cfg b ∧ t.x = s.x ∧ t.rsp = s.rsp ∧ t.rsps = s.rsps ∧ t.busy = s.busy ∧
      s.KeepsSequencer t ∧ s.KeepsFrameWriter t ∧ s.KeepsOutside t ∧ (s.BusIdle → t.BusIdle) ∧
      (s.cfg.profile = .bridge → s.now + s.quietDue + s.cfg.tQuietNs ≤ t.now ∧ t.quietDue = 0)) ∧
    (∃ t, exec (.wrcolor b) s = .next t ∧ t.logical = s.logical ++ [.dat b] ∧ t.wire = s.wire ++ wireOf s.cfg [.dat b] ∧
      t.panel = s.panel.onDat s.cfg b ∧ t.x = s.x ∧ t.rsp = s.rsp ∧ t.rsps = s.rsps ∧ t.busy = s.busy ∧
      s.KeepsSequencer t ∧ s.KeepsFrameWriter t ∧ s.KeepsOutside t ∧ (s.BusIdle → t.BusIdle) ∧
      (s.cfg.profile = .bridge → s.now + s.quietDue + s.cfg.tQuietNs ≤ t.now ∧ t.quietDue = 0))

/-- A bus hang (40_transport.md R113), of every instruction in the bridge profile: the block stays with `busy = 1`, `cs = 1`,
no response is delivered, only a proper first part of the stream went out, and whatever is presented afterwards, short of a
reset, no later request is accepted: the next step is the model's named stop for it (log 29). A raw operation that
gets to its word, which hangs, is such a run, and so is every run of any instruction, in either profile, that draws a hang: the block stays busy without
a response, and the hang is the last word drawn. The draws are the model's (log 6), and so is a hang of a native call
(log 12). -/
def Obligations.HangHoldsTheBlock : Prop :=
  (∀ (i : Instr) (b : Byte) (s : State) (n : Nat) (high : Bool) (ws : List WordDraw),
    s.cfg.profile = .bridge → s.cfg.wf = true → s.QuietPasses → s.env.words = .hang n high :: ws →
    i = .sendCommand b ∨ i = .sendData b →
      ∃ t, exec i s = .next t ∧ t.busy = true ∧ t.pins.cs = true ∧ t.rsps = s.rsps ∧ t.logical = s.logical ∧
        t.wire = s.wire ++ [.csAssert] ∧ s.KeepsSequencer t ∧
        ∀ later : List Input, .reset ∉ later → step { t with inbox := later } = .fault .busHang) ∧
  (∀ (i : Instr) (s t : State),
    s.cfg.profile = .bridge → s.cfg.wf = true → s.busy = false → exec i s = .next t → t.busy = true →
      t.pins.cs = true ∧ t.rsps = s.rsps ∧ t.rsp = s.rsp ∧
      (∃ pre, pre <+: streamOf s.cfg i ∧ pre.length < (streamOf s.cfg i).length ∧ t.logical = s.logical ++ pre) ∧
      ∀ later : List Input, .reset ∉ later → step { t with inbox := later } = .fault .busHang) ∧
  (∀ (i : Instr) (s t : State) (uw : List WordDraw) (n : Nat) (high : Bool),
    exec i s = .next t → s.env.words = uw ++ t.env.words → .hang n high ∈ uw →
      t.busy = true ∧ t.rsps = s.rsps ∧ t.rsp = s.rsp ∧ (s.cfg.profile = .bridge → t.pins.cs = true) ∧
      ∃ us, uw = us ++ [.hang n high] ∧ ∀ o ∈ us, o = .sent)

/-! ### Errors -/

/-- Errors are precise (60_exceptions.md R219): with CONFIGURATION_ERROR, NOT_READY or ALLOCATION_ERROR the streams are
untouched; with TRANSPORT_ERROR the logical stream has gained a proper first part of the instruction's stream, the failing
word is the last thing on the wire trace, as WORD_FAILED, its quiet interval is owed (70_reset_and_hazards.md R265; log 31),
and nothing that was there before is gone. A word drawn as failed ends every instruction there and then, with no retry
(40_transport.md R111, R112; 41_init_sequencer.md R147; 42_frame_writer.md R173; 60_exceptions.md R212): the answer is
TRANSPORT_ERROR, and the failed draw is the last one taken, with only words that were sent before it; and nothing else is
answered so. The draws are the model's (log 6), and so is an answer to a wire word or a panel command run on its own (log 2). -/
def Obligations.ErrorsArePrecise : Prop :=
  (∀ (i : Instr) (s t : State) (uw : List WordDraw) (n : Nat),
    exec i s = .next t → s.env.words = uw ++ t.env.words → .failed n ∈ uw →
      t.rsps = s.rsps ++ [.transportError] ∧ ∃ us, uw = us ++ [.failed n] ∧ ∀ o ∈ us, o = .sent) ∧
  (∀ (i : Instr) (s t : State) (uw : List WordDraw),
    exec i s = .next t → s.env.words = uw ++ t.env.words → t.rsps = s.rsps ++ [.transportError] → ∃ n, .failed n ∈ uw) ∧
  ∀ (i : Instr) (s t : State) (r : Resp), exec i s = .next t → t.rsps = s.rsps ++ [r] → r ≠ .ok →
    (r ≠ .transportError → t.logical = s.logical ∧ t.wire = s.wire ∧ t.panel = s.panel) ∧
    (r = .transportError →
      ∃ pre, pre <+: streamOf s.cfg i ∧ pre.length < (streamOf s.cfg i).length ∧ t.logical = s.logical ++ pre ∧
        s.wire <+: t.wire ∧
        (s.cfg.profile = .bridge →
          (∃ w, t.wire = w ++ [.wordFailed, .csRelease]) ∧ imageOf t.wire = imageOf s.wire ++ pre ∧
            t.quietDue = s.cfg.tQuietNs) ∧
        t.panel.unknown = true ∧ t.busy = false ∧ (s.BusIdle → t.BusIdle))

/-- What an instruction leaves unchanged when no reset comes (10_state.md R21, R22, R24, R25, R28): the operand registers
are written as `operandsAfter` says, only RUN_INIT writes the handle, the position and the free-value index, only a fill
writes the Frame Writer's registers and takes an allocator draw, and nothing writes configuration, platform or inputs.
Which operand registers a request writes is read from the spec by inference (log 10). That `fw_left` and `fw_row` keep their
values between fills, where 10_state.md R25 leaves them unspecified, is the model's choice (log 18). -/
def Obligations.RegistersFrame : Prop :=
  ∀ (i : Instr) (s t : State), s.env.noReset = true → exec i s = .next t →
    t.x = operandsAfter i s ∧ t.cfg = s.cfg ∧ t.plat = s.plat ∧ t.inbox = s.inbox ∧
    (i ≠ .runInit → s.KeepsSequencer t ∧ t.free = s.free) ∧
    ((∀ x0 y0 x1 y1 p, i ≠ .fillRect x0 y0 x1 y1 p) → (∀ p, i ≠ .fillScreen p) →
      s.KeepsFrameWriter t ∧ t.env.allocs = s.env.allocs)

/-- What changes the frame memory, and the rest of the receiver. "The block can write GRAM and VREG only through the logical
stream" (20_memory.md R50): after every step, one that hangs or is reset among them, the receiver is what the events that the
step added to the logical stream make of it, in their order (43_panel_receiver.md R191), or its state is unknown (R202), or a
RUN_INIT ended with OK on a receiver whose state was unknown and recovered it (R204). That a word that never returns does not
get its last clock edge is inferred from that rule (log 19); that a RUN_INIT moves where the next replay of the table is looked
for (log 30) and what a recovered receiver holds (log 5, log 7) are the model's choice. Then, after a wire word, a raw
operation or a panel command, while the receiver's state is known: a data byte changes at most the two bytes of the pixel at
the write position (43_panel_receiver.md R197), every other instruction here changes no byte at all. -/
def Obligations.FrameMemoryFrame : Prop :=
  (∀ (s t : State) (pre : List Event), step s = .next t → t.logical = s.logical ++ pre →
    t.panel.unknown = true ∨ t.panel = s.panel.onEvents s.cfg pre ∨
      ((∃ u, fetch s = .run .runInit u) ∧
        (t.panel = s.panel.restartReplay.onEvents s.cfg pre ∨
          (t.rsps = s.rsps ++ [.ok] ∧ (s.panel.restartReplay.onEvents s.cfg pre).unknown = true ∧
            ∃ free, t.panel = Panel.recovered s.cfg free)))) ∧
  ∀ (i : Instr) (s t : State), s.env.noReset = true → i.wf s.cfg = true → exec i s = .next t → s.cfg.wf = true →
    t.panel.unknown = false →
    ((∃ d, i = .wrcolor d ∨ i = .sendData d) →
      ∀ a, (∀ b, s.panel.storesAt s.cfg = some b → a ≠ b ∧ a ≠ b + 1) → t.panel.gram.read a = s.panel.gram.read a) ∧
    ((∃ c, i = .wrcmd c ∨ i = .sendCommand c) ∨ (∃ x y, i = .caset x y ∨ i = .raset x y) ∨ i = .ramwr ∨
        (∃ ps, i = .slpout ps ∨ i = .dispon ps) ∨ (∃ c ps, i = .vendor c ps) →
      ∀ a, t.panel.gram.read a = s.panel.gram.read a)

/-- A data byte that completes a pixel stores the pending high byte and itself at the write position (43_panel_receiver.md
R197; the addresses of the two bytes: log 8), unless with it the table was replayed in another order (R202; what counts as
that is the model's choice, log 30). The write position then advances in row-major order (R199, 20_memory.md R51): to the next
column; after the last column of the window, to its first column in the next row; after the last pixel of the window, write
mode has ended. -/
def Obligations.DataByteStoresThePixel : Prop :=
  ∀ (d : Byte) (s : State) (a : Nat) (h : Byte),
    s.env.clean = true → s.cfg.cmdsDistinct = true → s.panel.storesAt s.cfg = some a → s.panel.hi = some h →
    s.panel.keepsOrder s.cfg [.dat d] = true →
      ∃ t, exec (.sendData d) s = .next t ∧ State.Answered .ok s t ∧ t.panel.gram.read a = some h ∧
        t.panel.gram.read (a + 1) = some d ∧ t.panel.hi = none ∧
        t.panel.xs = s.panel.xs ∧ t.panel.xe = s.panel.xe ∧ t.panel.ys = s.panel.ys ∧ t.panel.ye = s.panel.ye ∧
        (s.panel.col.toNat < s.panel.xe.toNat →
          t.panel.wr = true ∧ t.panel.row = s.panel.row ∧ t.panel.col.toNat = s.panel.col.toNat + 1) ∧
        (s.panel.xe.toNat ≤ s.panel.col.toNat → s.panel.row.toNat < s.panel.ye.toNat →
          t.panel.wr = true ∧ t.panel.row.toNat = s.panel.row.toNat + 1 ∧ t.panel.col = s.panel.xs) ∧
        (s.panel.xe.toNat ≤ s.panel.col.toNat → s.panel.ye.toNat ≤ s.panel.row.toNat → t.panel.wr = false) ∧
        ∀ b, b ≠ a → b ≠ a + 1 → t.panel.gram.read b = s.panel.gram.read b

/-! ### The sequencer -/

/-- RUN_INIT with no word failing (41_init_sequencer.md R130, R145, R148): from any handle and any position the stream of the
whole run goes out by the per-word path, the handle is set, the position is at `Ready` after the last entry, the answer is
OK, and at least the minimum waits have passed (00_scope.md R14). That the operand registers the request does not use keep
their values is read from the spec by inference (log 10), and that `fw_left` and `fw_row` do is the model's choice
(log 18). Inside a run (10_state.md R24; 41_init_sequencer.md R130, R132, R133, R146; 95_test_vectors.md section 3.2), seen
where a word of it hangs: the handle is cleared, `seq_idx` is the index of the entry being sent, `seq_state` the state that
sends it, and `seq_pidx` the number of its parameter bytes that went out, with the words of all entries before it and the
entry's own up to there on the logical stream. -/
def Obligations.RunInitResult : Prop :=
  (∀ (s t : State) (pre : List Event), s.cfg.wf = true → s.busy = false → exec .runInit s = .next t → t.busy = true →
    t.logical = s.logical ++ pre →
      t.ph = false ∧ ∃ (sent : List Entry) (e : Entry) (later : List Entry) (n : Nat),
        s.cfg.table = sent ++ e :: later ∧ n ≤ e.params.length ∧
        withoutWaits pre = sent.flatMap (fun e => .cmd e.cmd :: e.params.map .dat) ++ (.cmd e.cmd :: e.params.map .dat).take n ∧
        t.seq = ⟨e.phase, sent.length, n - 1⟩) ∧
  ∀ s : State, s.cfg.wf = true → s.env.clean = true →
    ∃ t, exec .runInit s = .next t ∧ State.Answered .ok s t ∧ t.ph = true ∧ t.seq = ⟨.ready, s.cfg.table.length, 0⟩ ∧
      t.logical = s.logical ++ initStream s.cfg ∧ t.wire = s.wire ++ wireOf s.cfg (initStream s.cfg) ∧
      s.KeepsFrameWriter t ∧ t.x = { s.x with op := 0x20#8 } ∧ t.cfg = s.cfg ∧ t.plat = s.plat ∧ t.inbox = s.inbox ∧
      (s.BusIdle → t.BusIdle) ∧ s.now + 1000000 * waitMs (initStream s.cfg) ≤ t.now

/-- The command and data part of a successful run is exactly the table read front to back (41_init_sequencer.md R132). -/
def Obligations.InitStreamIsTheTable : Prop :=
  ∀ k : Config, k.wf = true →
    withoutWaits (initStream k) = k.table.flatMap fun e => .cmd e.cmd :: e.params.map .dat

/-- The two settle waits (41_init_sequencer.md R142, R144; 70_reset_and_hazards.md R266): every run ends with sleep-out and its
parameters, one wait of at least 120 ms, display-on and its parameters, one wait of at least 10 ms, the larger of the
entry's delay and the configured minimum each. -/
def Obligations.EveryRunSettles : Prop :=
  ∀ k : Config, k.wf = true →
    ∃ (before : List Event) (e f : Entry) (m n : Nat),
      e ∈ k.table ∧ e.phase = .sleepOut ∧ f ∈ k.table ∧ f.phase = .displayOn ∧
      m = max k.tSlpoutMs e.delayMs ∧ 120 ≤ m ∧ n = max k.tDisponMs f.delayMs ∧ 10 ≤ n ∧
      initStream k = before ++ (.cmd k.cmdSlpout :: e.params.map .dat) ++ [.wait m]
        ++ (.cmd k.cmdDispon :: f.params.map .dat) ++ [.wait n]

/-- A word that fails during RUN_INIT (41_init_sequencer.md R147): nothing further is sent, the handle stays 0, the position
goes back to the start, TRANSPORT_ERROR is delivered, the block is idle. -/
def Obligations.RunInitFailure : Prop :=
  ∀ s t : State, exec .runInit s = .next t → t.rsps = s.rsps ++ [.transportError] →
    t.ph = false ∧ t.seq = ⟨.reset, 0, 0⟩ ∧ t.rsp = .transportError ∧ t.busy = false ∧
      ∃ pre, pre <+: initStream s.cfg ∧ pre.length < (initStream s.cfg).length ∧ t.logical = s.logical ++ pre

/-- Any two successful runs with the same configuration have the same stream of commands, data and recorded waits, whatever
the states they start from (41_init_sequencer.md R148, a sentence the spec derives from its rules R131 and R132). -/
def Obligations.RerunSendsTheSameStream : Prop :=
  ∀ s t u v : State, s.cfg = u.cfg → exec .runInit s = .next t → exec .runInit u = .next v →
    t.rsps = s.rsps ++ [.ok] → v.rsps = u.rsps ++ [.ok] →
      ∃ es, t.logical = s.logical ++ es ∧ v.logical = u.logical ++ es

/-- After a successful RUN_INIT the panel is ready, whatever it was before (43_panel_receiver.md R204): its state is known, it
is awake and on, out of write mode, with no half pixel, and owed no settle wait; the table was replayed whole
(43_panel_receiver.md R200; that the next replay is looked for from there is the model's choice, log 30). -/
def Obligations.RunInitMakesThePanelReady : Prop :=
  ∀ s : State, s.cfg.wf = true → s.env.clean = true →
    ∃ t, exec .runInit s = .next t ∧ t.rsp = .ok ∧ t.panel.unknown = false ∧ t.panel.awake = true ∧ t.panel.on = true ∧
      t.panel.wr = false ∧ t.panel.hi = none ∧ t.panel.settling = none ∧
      t.panel.replayFrom = t.panel.log.length

/-- The frame memory after a RUN_INIT whose table opens no memory-write (41_init_sequencer.md R155): a receiver whose state
stays known through the whole stream is what the stream makes of it, and no byte of its frame memory changes. That a
receiver whose state is known is not recovered is the model's choice (log 5), and so is that a replay is looked for from the
start of the run (log 30). -/
def Obligations.RunInitFrame : Prop :=
  ∀ s t : State, s.cfg.wf = true → exec .runInit s = .next t → t.rsps = s.rsps ++ [.ok] →
    (∀ e ∈ s.cfg.table, e.cmd ≠ s.cfg.cmdRamwr) → (s.panel.restartReplay.onEvents s.cfg (initStream s.cfg)).unknown = false →
      t.panel = s.panel.restartReplay.onEvents s.cfg (initStream s.cfg) ∧ ∀ a, t.panel.gram.read a = s.panel.gram.read a

/-! ### The Frame Writer -/

/-- FILL_RECT in the SINGLE_WINDOW variant (42_frame_writer.md R160, R163 to R166): the column window, the row window,
memory-write, and exactly `(x1-x0+1) * (y1-y0+1)` pixels, each its two bytes, high byte first; then OK. That `x[BYTE]` keeps its value is read
from the spec by inference (log 10). -/
def Obligations.FillRectResult : Prop :=
  ∀ (x0 y0 x1 y1 p : U16) (s : State),
    s.cfg.fwVariant = .singleWindow → s.ph = true → s.env.clean = true → s.env.buffers = true →
    x0.toNat ≤ x1.toNat → y0.toNat ≤ y1.toNat → x1.toNat < s.cfg.width → y1.toNat < s.cfg.height →
      ∃ t, exec (.fillRect x0 y0 x1 y1 p) s = .next t ∧ State.Answered .ok s t ∧
        t.logical = s.logical
          ++ [.cmd s.cfg.cmdCaset, .dat (hiByte x0), .dat (loByte x0), .dat (hiByte x1), .dat (loByte x1)]
          ++ [.cmd s.cfg.cmdRaset, .dat (hiByte y0), .dat (loByte y0), .dat (hiByte y1), .dat (loByte y1)]
          ++ [.cmd s.cfg.cmdRamwr]
          ++ (List.replicate ((x1.toNat - x0.toNat + 1) * (y1.toNat - y0.toNat + 1)) [.dat (hiByte p), .dat (loByte p)]).flatten ∧
        s.KeepsSequencer t ∧ t.bufHeld = false ∧ t.lb = [] ∧ t.cfg = s.cfg ∧ t.plat = s.plat ∧ t.inbox = s.inbox ∧
        t.x = { s.x with op := 0x30#8, pix := p, x0 := x0, y0 := y0, x1 := x1, y1 := y1 } ∧ (s.BusIdle → t.BusIdle)

/-- FILL_RECT in the ROW_BITMAP variant (42_frame_writer.md R175 to R177): one window of one row for each row, from the first
to the last, each with memory-write and the row's pixels, high byte first; then OK, with the line buffer released. That `x[BYTE]` keeps its value is read
from the spec by inference (log 10). -/
def Obligations.FillRectByRows : Prop :=
  ∀ (x0 y0 x1 y1 p : U16) (s : State),
    s.cfg.fwVariant = .rowBitmap → s.ph = true → s.env.clean = true → s.env.buffers = true →
    x0.toNat ≤ x1.toNat → y0.toNat ≤ y1.toNat → x1.toNat < s.cfg.width → y1.toNat < s.cfg.height →
      ∃ t, exec (.fillRect x0 y0 x1 y1 p) s = .next t ∧ State.Answered .ok s t ∧
        t.logical = s.logical ++ (List.range (y1.toNat - y0.toNat + 1)).flatMap (fun j =>
          let row := BitVec.ofNat 16 (y0.toNat + j)
          [.cmd s.cfg.cmdCaset, .dat (hiByte x0), .dat (loByte x0), .dat (hiByte x1), .dat (loByte x1)]
            ++ [.cmd s.cfg.cmdRaset, .dat (hiByte row), .dat (loByte row), .dat (hiByte row), .dat (loByte row)]
            ++ [.cmd s.cfg.cmdRamwr]
            ++ (List.replicate (x1.toNat - x0.toNat + 1) [.dat (hiByte p), .dat (loByte p)]).flatten) ∧
        s.KeepsSequencer t ∧ t.bufHeld = false ∧ t.lb = [] ∧ t.cfg = s.cfg ∧ t.plat = s.plat ∧ t.inbox = s.inbox ∧
        t.x = { s.x with op := 0x30#8, pix := p, x0 := x0, y0 := y0, x1 := x1, y1 := y1 } ∧ (s.BusIdle → t.BusIdle)

/-- The wire trace of a fill, bridge profile: with FW_BURST = 0 every word has its own assertion, in either variant
(42_frame_writer.md R166, R177; 40_transport.md R102); with FW_BURST = 1 in the SINGLE_WINDOW variant steps 1 to 3 do, and the
pixel bytes share one assertion and one quiet interval (42_frame_writer.md R167, 40_transport.md R110). The logical stream is
the variant's, and the answer OK, by either path. That the rows of ROW_BITMAP use the bulk path with FW_BURST = 1 is the model's choice
(log 13), and nothing is stated of that trace. -/
def Obligations.FillWireTrace : Prop :=
  ∀ (x0 y0 x1 y1 p : U16) (s : State),
    s.cfg.profile = .bridge → s.ph = true → s.env.clean = true → s.env.buffers = true →
    x0.toNat ≤ x1.toNat → y0.toNat ≤ y1.toNat → x1.toNat < s.cfg.width → y1.toNat < s.cfg.height →
      ∃ t, exec (.fillRect x0 y0 x1 y1 p) s = .next t ∧ State.Answered .ok s t ∧
        t.logical = s.logical ++ rectStream s.cfg x0 y0 x1 y1 p ∧
        (s.cfg.fwBurst = false → t.wire = s.wire ++ traceOf s.cfg (rectStream s.cfg x0 y0 x1 y1 p)) ∧
        (s.cfg.fwVariant = .singleWindow → s.cfg.fwBurst = true →
          t.wire = s.wire ++ traceOf s.cfg (windowStream s.cfg x0 y0 x1 y1)
            ++ burstTrace s.cfg (pixelBytes p ((x1.toNat - x0.toNat + 1) * (y1.toNat - y0.toNat + 1))))

/-- FILL_SCREEN is FILL_RECT of the whole panel (42_frame_writer.md R168, 30_encoding.md R86): from every state, with every
draw, both give the same next state but for the operation code in `x[OP]`. -/
def Obligations.FillScreenIsFillRect : Prop :=
  ∀ (p : U16) (s : State),
    ∃ t u, exec (.fillScreen p) s = .next t ∧
      exec (.fillRect 0 0 (BitVec.ofNat 16 (s.cfg.width - 1)) (BitVec.ofNat 16 (s.cfg.height - 1)) p) s = .next u ∧
      t = { u with x := { u.x with op := t.x.op } }

/-- FILL_SCREEN completes on every configuration that is accepted: the rectangle is always valid (42_frame_writer.md R168),
and with the handle, a buffer and no failing word the whole stream goes out and the answer is OK, in either variant and
profile. That `x[BYTE]` keeps its value is read
from the spec by inference (log 10). -/
def Obligations.FillScreenResult : Prop :=
  ∀ (p : U16) (s : State), s.cfg.sizeOk = true → s.ph = true → s.env.clean = true → s.env.buffers = true →
    ∃ t, exec (.fillScreen p) s = .next t ∧ State.Answered .ok s t ∧
      t.logical = s.logical
        ++ rectStream s.cfg 0 0 (BitVec.ofNat 16 (s.cfg.width - 1)) (BitVec.ofNat 16 (s.cfg.height - 1)) p ∧
      s.KeepsSequencer t ∧ t.bufHeld = false ∧ t.lb = [] ∧ (s.BusIdle → t.BusIdle) ∧
      t.x = { s.x with
        op := 0x31#8, pix := p, x0 := 0, y0 := 0
        x1 := BitVec.ofNat 16 (s.cfg.width - 1), y1 := BitVec.ofNat 16 (s.cfg.height - 1) }

/-- The transport calls of a fill (42_frame_writer.md R166, R168, R174, R175; 95_test_vectors.md S6): 11 and two for each
pixel in the SINGLE_WINDOW variant, 11 for each row and two for each pixel in the ROW_BITMAP variant; 259,211 for a red
screen of 360 by 360. -/
def Obligations.FillCounts : Prop :=
  (∀ (k : Config) (x0 y0 x1 y1 p : U16),
    (k.fwVariant = .singleWindow →
      (rectStream k x0 y0 x1 y1 p).length = 11 + 2 * ((x1.toNat - x0.toNat + 1) * (y1.toNat - y0.toNat + 1))) ∧
    (k.fwVariant = .rowBitmap →
      (rectStream k x0 y0 x1 y1 p).length
        = 11 * (y1.toNat - y0.toNat + 1) + 2 * ((x1.toNat - x0.toNat + 1) * (y1.toNat - y0.toNat + 1)))) ∧
  (∀ k : Config, k.fwVariant = .singleWindow → k.width = 360 → k.height = 360 →
    (streamOf k (.fillScreen 0xF800#16)).length = 259211)

/-- A malformed rectangle: CONFIGURATION_ERROR and no transport call, whatever the handle and whatever the environment would
draw; no draw is taken. A first coordinate after the last one is the document's case; one outside the panel is the spec's
own decision D8 (42_frame_writer.md R161). That `fw_left` and `fw_row`, unspecified between fills by 10_state.md R25, keep
their values through a rejected fill is the model's choice (log 18). -/
def Obligations.MalformedRectangleRejected : Prop :=
  ∀ (x0 y0 x1 y1 p : U16) (s : State),
    x1.toNat < x0.toNat ∨ y1.toNat < y0.toNat ∨ s.cfg.width ≤ x1.toNat ∨ s.cfg.height ≤ y1.toNat →
      ∃ t, exec (.fillRect x0 y0 x1 y1 p) s = .next t ∧ State.Answered .configurationError s t ∧ s.KeepsBus t ∧
        s.KeepsSequencer t ∧ s.KeepsOutside t ∧ t.fwLeft = s.fwLeft ∧ t.fwRow = s.fwRow

/-- Without the handle a drawing operation sends nothing (42_frame_writer.md R162; 60_exceptions.md R214): FILL_RECT of a valid
rectangle and FILL_SCREEN end with NOT_READY, and the buffer is not asked for. -/
def Obligations.NotReadyWithoutTheHandle : Prop :=
  ∀ (x0 y0 x1 y1 p : U16) (s : State), s.ph = false →
    (x0.toNat ≤ x1.toNat → y0.toNat ≤ y1.toNat → x1.toNat < s.cfg.width → y1.toNat < s.cfg.height →
      ∃ t, exec (.fillRect x0 y0 x1 y1 p) s = .next t ∧ State.Answered .notReady s t ∧ s.KeepsBus t ∧ s.KeepsSequencer t ∧
        s.KeepsOutside t) ∧
    (s.cfg.sizeOk = true →
      ∃ t, exec (.fillScreen p) s = .next t ∧ State.Answered .notReady s t ∧ s.KeepsBus t ∧ s.KeepsSequencer t ∧
        s.KeepsOutside t)

/-- A buffer that cannot be obtained (60_exceptions.md R213; 42_frame_writer.md R178): ALLOCATION_ERROR, code 3, after the
checks and before the first transport call; the fill is ended and nothing else: the handle stays, one allocator draw is
taken, the buffer is not held, and the same request made again with buffers to be had is answered OK. Nothing but a fill
that was refused its buffer ends so. -/
def Obligations.AllocationFailureEndsTheFill : Prop :=
  Resp.allocationError.code = 3 ∧
  (∀ (x0 y0 x1 y1 p : U16) (s : State) (more : List Bool), s.ph = true → s.env.allocs = false :: more →
    (x0.toNat ≤ x1.toNat → y0.toNat ≤ y1.toNat → x1.toNat < s.cfg.width → y1.toNat < s.cfg.height →
      ∃ t, exec (.fillRect x0 y0 x1 y1 p) s = .next t ∧ State.Answered .allocationError s t ∧ s.KeepsBus t ∧
        s.KeepsSequencer t ∧ t.bufHeld = false ∧ t.env.allocs = more ∧
        (s.env.clean = true → (∀ b ∈ more, b = true) →
          ∃ u, exec (.fillRect x0 y0 x1 y1 p) t = .next u ∧ State.Answered .ok t u)) ∧
    (s.cfg.sizeOk = true →
      ∃ t, exec (.fillScreen p) s = .next t ∧ State.Answered .allocationError s t ∧ s.KeepsBus t ∧ s.KeepsSequencer t ∧
        t.bufHeld = false ∧ t.env.allocs = more ∧
        (s.env.clean = true → (∀ b ∈ more, b = true) →
          ∃ u, exec (.fillScreen p) t = .next u ∧ State.Answered .ok t u))) ∧
  (∀ (i : Instr) (s t : State), exec i s = .next t → t.rsps = s.rsps ++ [.allocationError] →
    ((∃ x0 y0 x1 y1 p, i = .fillRect x0 y0 x1 y1 p) ∨ (∃ p, i = .fillScreen p)) ∧ s.KeepsBus t ∧ s.KeepsSequencer t ∧
      s.env.allocs.head? = some false)

/-- A word that fails during a fill (42_frame_writer.md R173): TRANSPORT_ERROR, the buffer released, nothing further sent, the
handle and the position as they were. -/
def Obligations.FillFailure : Prop :=
  ∀ (i : Instr) (s t : State), (∃ x0 y0 x1 y1 p, i = .fillRect x0 y0 x1 y1 p) ∨ (∃ p, i = .fillScreen p) →
    exec i s = .next t → t.rsps = s.rsps ++ [.transportError] →
      t.rsp = .transportError ∧ t.busy = false ∧ t.bufHeld = false ∧ t.lb = [] ∧ s.KeepsSequencer t ∧
        ∃ pre, pre <+: streamOf s.cfg i ∧ pre.length < (streamOf s.cfg i).length ∧ t.logical = s.logical ++ pre

/-- The picture (43_panel_receiver.md R199, 42_frame_writer.md R174): after a successful FILL_RECT on a receiver whose state is
known and which is owed no settle wait, in either variant, profile and path, every pixel of the rectangle holds the pixel,
every other byte of the frame memory is as before, and write mode is over; unless with a word of the fill the table was
replayed in another order (43_panel_receiver.md R202), which a fill cannot do when no sleep-out has come since the last
RUN_INIT or whole replay, as after every RUN_INIT. What counts as such a replay (log 30) and the addresses of the bytes
(log 8) are the model's choice. -/
def Obligations.FillPaintsTheRectangle : Prop :=
  (∀ (x0 y0 x1 y1 p : U16) (k : Config) (q : Panel), k.wf = true → q.NoSleepOut k →
    q.keepsOrder k (rectStream k x0 y0 x1 y1 p) = true) ∧
  ∀ (x0 y0 x1 y1 p : U16) (s : State),
    s.cfg.cmdsDistinct = true → s.ph = true → s.env.clean = true → s.env.buffers = true →
    x0.toNat ≤ x1.toNat → y0.toNat ≤ y1.toNat → x1.toNat < s.cfg.width → y1.toNat < s.cfg.height →
    s.panel.unknown = false → s.panel.settling = none → s.panel.keepsOrder s.cfg (rectStream s.cfg x0 y0 x1 y1 p) = true →
      ∃ t, exec (.fillRect x0 y0 x1 y1 p) s = .next t ∧ t.rsp = .ok ∧ t.panel.unknown = false ∧ t.panel.wr = false ∧
        t.panel.hi = none ∧
        (∀ row col, col < s.cfg.width →
          t.panel.pixelAt s.cfg row col
            = if x0.toNat ≤ col ∧ col ≤ x1.toNat ∧ y0.toNat ≤ row ∧ row ≤ y1.toNat then some p
              else s.panel.pixelAt s.cfg row col) ∧
        (∀ a, ¬ (x0.toNat ≤ a / 2 % s.cfg.width ∧ a / 2 % s.cfg.width ≤ x1.toNat ∧
            y0.toNat ≤ a / 2 / s.cfg.width ∧ a / 2 / s.cfg.width ≤ y1.toNat) →
          t.panel.gram.read a = s.panel.gram.read a)

/-- The frame memory after any FILL_RECT that no reset cuts short, while the receiver's state is known: whatever the answer,
and also when a word hangs, every byte outside the rectangle is as before (43_panel_receiver.md R196, R199; the addresses
of the bytes: log 8). -/
def Obligations.FillFrame : Prop :=
  ∀ (x0 y0 x1 y1 p : U16) (s t : State),
    s.cfg.cmdsDistinct = true → s.env.noReset = true → exec (.fillRect x0 y0 x1 y1 p) s = .next t → t.panel.unknown = false →
      ∀ a, ¬ (x0.toNat ≤ a / 2 % s.cfg.width ∧ a / 2 % s.cfg.width ≤ x1.toNat ∧
          y0.toNat ≤ a / 2 / s.cfg.width ∧ a / 2 / s.cfg.width ≤ y1.toNat) →
        t.panel.gram.read a = s.panel.gram.read a

/-! ### Panel commands -/

/-- CASET and RASET (42_frame_writer.md R169, R170; 43_panel_receiver.md R194, R195): the command and its four bytes, start
then end, high byte first; the window's columns, or rows, are the two coordinates, and nothing else of the window or of the
frame memory changes, unless with it the table was replayed in another order (R202), which makes the state unknown. What
counts as that, and where a replay is looked for, is the model's choice (log 30), and so are that the command runs as an
instruction of its own, with no response and no register of the block written (log 2), and that `fw_left` and `fw_row` keep
their values (log 18). -/
def Obligations.WindowCommandsResult : Prop :=
  ∀ (a b : U16) (s : State), s.env.clean = true → s.cfg.cmdsDistinct = true →
    (∃ t, exec (.caset a b) s = .next t ∧ t.x = s.x ∧ t.rsp = s.rsp ∧ t.rsps = s.rsps ∧ t.busy = s.busy ∧
      t.logical = s.logical
        ++ [.cmd s.cfg.cmdCaset, .dat (hiByte a), .dat (loByte a), .dat (hiByte b), .dat (loByte b)] ∧
      t.wire = s.wire ++ wireOf s.cfg (groupStream s.cfg.cmdCaset (coordBytes a b)) ∧
      s.KeepsSequencer t ∧ s.KeepsFrameWriter t ∧ s.KeepsOutside t ∧ (s.BusIdle → t.BusIdle) ∧
      (s.panel.unknown = false → s.panel.settling = none →
        s.panel.keepsOrder s.cfg (groupStream s.cfg.cmdCaset (coordBytes a b)) = true →
          t.panel = { s.panel with
            hi := none, wr := false, last := some s.cfg.cmdCaset, n := 4, xs := a, xe := b
            log := s.panel.log ++ [(s.cfg.cmdCaset, coordBytes a b)], replayFrom := t.panel.replayFrom }) ∧
      (s.panel.keepsOrder s.cfg (groupStream s.cfg.cmdCaset (coordBytes a b)) = false → t.panel.unknown = true)) ∧
    (∃ t, exec (.raset a b) s = .next t ∧ t.x = s.x ∧ t.rsp = s.rsp ∧ t.rsps = s.rsps ∧ t.busy = s.busy ∧
      t.logical = s.logical
        ++ [.cmd s.cfg.cmdRaset, .dat (hiByte a), .dat (loByte a), .dat (hiByte b), .dat (loByte b)] ∧
      t.wire = s.wire ++ wireOf s.cfg (groupStream s.cfg.cmdRaset (coordBytes a b)) ∧
      s.KeepsSequencer t ∧ s.KeepsFrameWriter t ∧ s.KeepsOutside t ∧ (s.BusIdle → t.BusIdle) ∧
      (s.panel.unknown = false → s.panel.settling = none →
        s.panel.keepsOrder s.cfg (groupStream s.cfg.cmdRaset (coordBytes a b)) = true →
          t.panel = { s.panel with
            hi := none, wr := false, last := some s.cfg.cmdRaset, n := 4, ys := a, ye := b
            log := s.panel.log ++ [(s.cfg.cmdRaset, coordBytes a b)], replayFrom := t.panel.replayFrom }) ∧
      (s.panel.keepsOrder s.cfg (groupStream s.cfg.cmdRaset (coordBytes a b)) = false → t.panel.unknown = true))

/-- RAMWR (42_frame_writer.md R171, 43_panel_receiver.md R196): one word, no parameters; with a window that lies in the panel
the receiver enters write mode at the window's first pixel; with a malformed one its state becomes unknown, and so it does
when with this word the table was replayed in another order (R202). What counts as that, and where a replay is looked for,
is the model's choice (log 30), and so are that the command runs as an instruction of its own, with no response and no
register of the block written (log 2), and that `fw_left` and `fw_row` keep their values (log 18). -/
def Obligations.MemoryWriteResult : Prop :=
  ∀ s : State, s.env.clean = true →
    ∃ t, exec .ramwr s = .next t ∧ t.x = s.x ∧ t.rsp = s.rsp ∧ t.rsps = s.rsps ∧ t.busy = s.busy ∧
      t.logical = s.logical ++ [.cmd s.cfg.cmdRamwr] ∧ t.wire = s.wire ++ wireOf s.cfg [.cmd s.cfg.cmdRamwr] ∧
      s.KeepsSequencer t ∧ s.KeepsFrameWriter t ∧ s.KeepsOutside t ∧ (s.BusIdle → t.BusIdle) ∧
      (s.panel.unknown = false → s.panel.settling = none →
        (s.panel.xs.toNat ≤ s.panel.xe.toNat ∧ s.panel.ys.toNat ≤ s.panel.ye.toNat ∧ s.panel.xe.toNat < s.cfg.width ∧
            s.panel.ye.toNat < s.cfg.height → s.panel.keepsOrder s.cfg [.cmd s.cfg.cmdRamwr] = true →
          t.panel = { s.panel with
            hi := none, wr := true, last := some s.cfg.cmdRamwr, n := 0, col := s.panel.xs, row := s.panel.ys
            log := s.panel.log ++ [(s.cfg.cmdRamwr, [])], replayFrom := t.panel.replayFrom }) ∧
        (s.panel.keepsOrder s.cfg [.cmd s.cfg.cmdRamwr] = false ∨ s.panel.xe.toNat < s.panel.xs.toNat ∨ s.panel.ye.toNat < s.panel.ys.toNat ∨ s.cfg.width ≤ s.panel.xe.toNat ∨
            s.cfg.height ≤ s.panel.ye.toNat →
          t.panel.unknown = true))

/-- SLPOUT and DISPON, each with the wait that follows it (41_init_sequencer.md R153, R154; 43_panel_receiver.md R203): the
command with its parameters, then the settle wait, which really passes; with no parameters, and if with it the table was not
replayed in another order, a known receiver is then awake, or on. A parameter byte is a data word while the settle wait is owed, so the
receiver's state is then unknown, by the model's reading of R203 (log 5). What counts as the table replayed in another
order (43_panel_receiver.md R202), and where a replay is looked for, is the model's choice (log 30), as are that the wait
belongs to the instruction (log 14), that the command runs as an instruction of its own, with no response and no register of
the block written (log 2), and that `fw_left` and `fw_row` keep their values (log 18). -/
def Obligations.SettledCommandsResult : Prop :=
  ∀ (ps : List Byte) (s : State), s.env.clean = true → s.cfg.wf = true →
    (∃ t, exec (.slpout ps) s = .next t ∧ t.x = s.x ∧ t.rsp = s.rsp ∧ t.rsps = s.rsps ∧ t.busy = s.busy ∧
      t.logical = s.logical ++ (.cmd s.cfg.cmdSlpout :: ps.map .dat) ++ [.wait s.cfg.tSlpoutMs] ∧
      t.wire = s.wire ++ wireOf s.cfg (groupStream s.cfg.cmdSlpout ps ++ [.wait s.cfg.tSlpoutMs]) ∧
      s.now + 1000000 * s.cfg.tSlpoutMs ≤ t.now ∧
      s.KeepsSequencer t ∧ s.KeepsFrameWriter t ∧ s.KeepsOutside t ∧ (s.BusIdle → t.BusIdle) ∧
      (s.panel.unknown = false → s.panel.settling = none → ps = [] →
        s.panel.keepsOrder s.cfg [.cmd s.cfg.cmdSlpout] = true →
          t.panel = { s.panel with
            hi := none, wr := false, last := some s.cfg.cmdSlpout, n := 0, awake := true
            log := s.panel.log ++ [(s.cfg.cmdSlpout, [])], replayFrom := t.panel.replayFrom }) ∧
      (ps ≠ [] ∨ s.panel.keepsOrder s.cfg [.cmd s.cfg.cmdSlpout] = false → t.panel.unknown = true)) ∧
    (∃ t, exec (.dispon ps) s = .next t ∧ t.x = s.x ∧ t.rsp = s.rsp ∧ t.rsps = s.rsps ∧ t.busy = s.busy ∧
      t.logical = s.logical ++ (.cmd s.cfg.cmdDispon :: ps.map .dat) ++ [.wait s.cfg.tDisponMs] ∧
      t.wire = s.wire ++ wireOf s.cfg (groupStream s.cfg.cmdDispon ps ++ [.wait s.cfg.tDisponMs]) ∧
      s.now + 1000000 * s.cfg.tDisponMs ≤ t.now ∧
      s.KeepsSequencer t ∧ s.KeepsFrameWriter t ∧ s.KeepsOutside t ∧ (s.BusIdle → t.BusIdle) ∧
      (s.panel.unknown = false → s.panel.settling = none → ps = [] →
        s.panel.keepsOrder s.cfg [.cmd s.cfg.cmdDispon] = true →
          t.panel = { s.panel with
            hi := none, wr := false, last := some s.cfg.cmdDispon, n := 0, on := true
            log := s.panel.log ++ [(s.cfg.cmdDispon, [])], replayFrom := t.panel.replayFrom }) ∧
      (ps ≠ [] ∨ s.panel.keepsOrder s.cfg [.cmd s.cfg.cmdDispon] = false → t.panel.unknown = true))

/-- VENDOR (41_init_sequencer.md R155, 43_panel_receiver.md R200): the command and its parameter bytes are transported as they
are; a known receiver records them in order and changes nothing else but the record of the last command and write mode,
unless with them the table was replayed in another order (43_panel_receiver.md R202), which makes its state unknown and
takes at least as many commands as the table has entries. What counts as that, and where a replay is looked for, is the
model's choice (log 30), and so are that the command runs as an instruction of its own, with no response and no register of
the block written (log 2), and that `fw_left` and `fw_row` keep their values (log 18). -/
def Obligations.VendorResult : Prop :=
  ∀ (c : Byte) (ps : List Byte) (s : State), s.env.clean = true → Instr.wf s.cfg (.vendor c ps) = true →
    ∃ t, exec (.vendor c ps) s = .next t ∧ t.x = s.x ∧ t.rsp = s.rsp ∧ t.rsps = s.rsps ∧ t.busy = s.busy ∧
      t.logical = s.logical ++ (.cmd c :: ps.map .dat) ∧ t.wire = s.wire ++ wireOf s.cfg (groupStream c ps) ∧
      s.KeepsSequencer t ∧ s.KeepsFrameWriter t ∧ s.KeepsOutside t ∧ (s.BusIdle → t.BusIdle) ∧
      (s.panel.unknown = false → s.panel.settling = none → s.panel.keepsOrder s.cfg (groupStream c ps) = true →
        t.panel = { s.panel with
          hi := none, wr := false, last := some c, n := ps.length
          log := s.panel.log ++ [(c, ps)], replayFrom := t.panel.replayFrom }) ∧
      (s.panel.keepsOrder s.cfg (groupStream c ps) = false → t.panel.unknown = true) ∧
      (s.panel.log.length + 1 < s.panel.replayFrom + s.cfg.table.length →
        s.panel.keepsOrder s.cfg (groupStream c ps) = true)

/-! ### The receiver -/

/-- Half pixels (43_panel_receiver.md R198): after a high byte nothing is stored and it stays pending; a command that follows
drops it and ends write mode, storing nothing; a data byte that follows completes the pixel. A word with which the table was
replayed in another order, which `ReceiverBecomesUnknown` covers, is another case (R202, log 30). -/
def Obligations.HalfPixelStaysPending : Prop :=
  ∀ (k : Config) (p : Panel) (d e c : Byte), k.cmdsDistinct = true → p.unknown = false → p.settling = none →
    p.last = some k.cmdRamwr → p.wr = true → p.hi = none →
      (p.keepsOrder k [.dat d] = true →
        (p.onEvent k (.dat d)).gram = p.gram ∧ (p.onEvent k (.dat d)).hi = some d ∧ (p.onEvent k (.dat d)).wr = true) ∧
      (c ≠ k.cmdRamwr → p.keepsOrder k [.dat d, .cmd c] = true →
        (p.onEvents k [.dat d, .cmd c]).gram = p.gram ∧ (p.onEvents k [.dat d, .cmd c]).hi = none ∧
        (p.onEvents k [.dat d, .cmd c]).wr = false) ∧
      (p.keepsOrder k [.dat d, .dat e] = true →
        (p.onEvents k [.dat d, .dat e]).gram = p.gram.writePixel (Panel.pixelAddr k p.row.toNat p.col.toNat) d e)

/-- When the receiver's state becomes unknown (43_panel_receiver.md R202): a data byte with no command before it, a fifth
window byte, pixel data after the window is full, a word while a settle wait is owed, a word of another opcode or with
reserved bits, a word with which the table was replayed in another order; and unknown it stays, whatever the stream. That a
data word too makes the state unknown while a settle wait is owed (the rule speaks of a command), and that an unknown
receiver is left equal to itself by every event, is the model's reading (log 5). That the table was replayed in another order
when the last of its entries to come, byte for byte (R200), are all of them and not in sequence, and that other commands
between them and what came before the last whole replay do not count, is the model's choice (log 30). -/
def Obligations.ReceiverBecomesUnknown : Prop :=
  ∀ (k : Config) (p : Panel) (d c : Byte) (w : Word) (es : List Event), k.cmdsDistinct = true →
    (p.last = none → (p.onEvent k (.dat d)).unknown = true) ∧
    (p.last = some k.cmdCaset ∨ p.last = some k.cmdRaset → 4 ≤ p.n → (p.onEvent k (.dat d)).unknown = true) ∧
    (p.last = some k.cmdRamwr → p.wr = false → (p.onEvent k (.dat d)).unknown = true) ∧
    (p.settling ≠ none → (p.onEvent k (.cmd c)).unknown = true ∧ (p.onEvent k (.dat d)).unknown = true) ∧
    ((∀ b, w ≠ cmdWord b) → (∀ b, w ≠ datWord b) → (p.onWord k w).unknown = true) ∧
    (let entries := k.table.map fun e => (e.cmd, e.params)
      ∀ l : List (Byte × List Byte), l.Perm entries → l ≠ entries →
        (l <:+ ((p.log ++ [(c, [])]).drop p.replayFrom).filter (fun g => entries.contains g) →
          (p.onEvent k (.cmd c)).unknown = true) ∧
        (l <:+ ((Panel.appendData d p.log).drop p.replayFrom).filter (fun g => entries.contains g) →
          (p.onEvent k (.dat d)).unknown = true)) ∧
    (p.unknown = true → p.onEvents k es = p)

/-! ### Platform devices -/

/-- The expander set-up (60_exceptions.md R236 to R238) and the backlight (R239 to R241). At the expander's address both
transactions accepted give 0x00 and 0xFF; one rejected is a BusError, reported once, and the block is as before, so that
RUN_INIT may follow. `init` sets the channel and the initial duty, which the configuration gives as a percentage: 204 of 255
with 80 percent and 8 bits; `set_duty` in its range on the configured channel sets the duty; the self-test drives the duty
from full to dim to full three times, none above full, then restores the steady-state duty, the initial one, while time
passes; on a channel that is not configured these two surface a configuration error. Each leaves the other device and the block
alone, but for the time a self-test takes. Where the spec states no value, after a BusError or for a duty out of range, the
model has a free value, and the statement names none (log 25). The model's choice, and no rule's, are: that a duty out of
range on the configured channel surfaces no error, that an `init` replaces the channel that was configured before, that an
address which is not the expander's leaves its registers alone, that a percentage is rounded down, that the ramp comes back
through the levels it went down by, with full once between two ramps and the steady-state duty the initial one, whatever was
set since, that a self-test without a channel drives nothing and takes no time (all log 25), and that the set-up, successful
or not, leaves the panel's receiver as it was (log 32). -/
def Obligations.PlatformDevices : Prop :=
  ∀ (s : State) (r : List Input), s.cfg.wf = true → s.busy = false →
    (∀ addr a b, s.inbox = .expander addr a b :: r →
      ∃ p, step s = .next { s with inbox := r, plat := p } ∧ s.plat.SameBacklight p ∧
        (a = true → b = true → p.expRsp = .ok ∧
          (addr = s.cfg.expAddr → p.expDir = 0x00#8 ∧ p.expOut = 0xFF#8)) ∧
        (addr ≠ s.cfg.expAddr → p.expDir = s.plat.expDir ∧ p.expOut = s.plat.expOut) ∧
        (a = true → b = false → addr = s.cfg.expAddr → p.expDir = 0x00#8) ∧
        ((a && b) = false → p.expRsp = .busError)) ∧
    (∀ pin chan hz bits, s.inbox = .backlight pin chan hz bits :: r →
      ∃ p, step s = .next { s with inbox := r, plat := p } ∧ s.plat.SameExpander p ∧ p.pwmOn = true ∧ p.pwmRsp = .ok ∧
        p.pwmPin = pin ∧ p.pwmChan = chan ∧ p.pwmHz = hz ∧ p.pwmBits = bits ∧
        p.duty = steadyDuty s.cfg bits ∧ p.duty ≤ 2 ^ bits - 1 ∧
        p.ramp = s.plat.ramp ∧ (s.cfg.backlightPct = 80 → bits = 8 → p.duty = 204)) ∧
    (∀ chan duty, s.inbox = .setDuty chan duty :: r →
      ∃ p, step s = .next { s with inbox := r, plat := p } ∧ s.plat.SameExpander p ∧ s.plat.SameChannel p ∧
        p.ramp = s.plat.ramp ∧
        (s.plat.pwmOn = true → chan = s.plat.pwmChan →
          p.pwmRsp = .ok ∧ (duty ≤ 2 ^ s.plat.pwmBits - 1 → p.duty = duty)) ∧
        (s.plat.pwmOn = false ∨ chan ≠ s.plat.pwmChan → p.pwmRsp = .configurationError)) ∧
    (∀ chan, s.inbox = .selfTest chan :: r →
      ∃ p ns, step s = .next { s with inbox := r, plat := p, now := s.now + ns, quietDue := s.quietDue - ns } ∧
        s.plat.SameExpander p ∧ s.plat.SameChannel p ∧
        (s.plat.pwmOn = true → chan = s.plat.pwmChan →
          p.pwmRsp = .ok ∧ p.duty = steadyDuty s.cfg s.plat.pwmBits ∧
          ∃ (down : List Nat) (dim : Nat), down.length = s.cfg.rampLevels.length ∧
            dim = (2 ^ s.plat.pwmBits - 1) * s.cfg.rampDim.val / 100 ∧ (∀ d ∈ dim :: down, d ≤ 2 ^ s.plat.pwmBits - 1) ∧
            p.ramp = s.plat.ramp ++ (2 ^ s.plat.pwmBits - 1) ::
              (List.replicate 3 (down ++ dim :: down.reverse ++ [2 ^ s.plat.pwmBits - 1])).flatten) ∧
        (s.plat.pwmOn = false ∨ chan ≠ s.plat.pwmChan →
          p.pwmRsp = .configurationError ∧ p.ramp = s.plat.ramp ∧ ns = 0))

/-- A fill in progress (10_state.md R25), seen where a word of its pixels hangs: `fw_left` is the number of pixels that remain
to be streamed, whole pixels already sent being counted off, by the per-word path and in a burst alike; in the ROW_BITMAP
variant `fw_row` is the row being drawn. R160's loop counts a pixel once both its bytes are sent. In a burst, in the rows of
the ROW_BITMAP variant and in a bitmap call of the native profile no rule gives the moment inside a pixel at which it is
counted: that it is the same there is the model's choice (log 18), and so is when the count is loaded in the ROW_BITMAP
variant (log 18), and that a native bitmap call has its outcome byte by byte (log 12). -/
def Obligations.FillCountsItsPixels : Prop :=
  ∀ (x0 y0 x1 y1 p : U16) (s t : State) (pre : List Event),
    s.busy = false → exec (.fillRect x0 y0 x1 y1 p) s = .next t → t.busy = true → t.logical = s.logical ++ pre →
    let columns := x1.toNat - x0.toNat + 1
    let rows := y1.toNat - y0.toNat + 1
    (s.cfg.fwVariant = .singleWindow → 11 ≤ pre.length → t.fwLeft + (pre.length - 11) / 2 = columns * rows) ∧
    (s.cfg.fwVariant = .rowBitmap →
      t.fwRow.toNat = y0.toNat + pre.length / (11 + 2 * columns) ∧
      t.fwLeft + pre.length / (11 + 2 * columns) * columns + (pre.length % (11 + 2 * columns) - 11) / 2 = columns * rows)
end

