-- ==== Sys2Proof/Laws/Memory.lean ====
section
/-! SUPPORT. The byte memory: a read after a write, and the canonical form kept by every write. -/

namespace Sys2Proof.Machine.Memory

theorem read_write_same (m : Memory) (i : Nat) (v : Byte) : (m.write i v).read i = some v := by
  induction m with
  | nil => simp [write, read]
  | cons c m ih =>
    obtain ⟨a, b⟩ := c
    by_cases h1 : i < a
    · simp [write, read, h1]
    · by_cases h2 : i = a
      · simp [write, read, h2]
      · have h3 : a ≠ i := fun h => h2 h.symm
        simpa [write, read, h1, h2, h3] using ih

theorem read_write_other (m : Memory) {i j : Nat} (v : Byte) (h : j ≠ i) : (m.write i v).read j = m.read j := by
  induction m with
  | nil => simp [write, read, h.symm]
  | cons c m ih =>
    obtain ⟨a, b⟩ := c
    by_cases h1 : i < a
    · simp [write, read, h1, h.symm]
    · by_cases h2 : i = a
      · subst h2
        simp [write, read, h.symm]
      · simp only [write, h1, h2, if_false, read]
        split <;> simp [ih]

@[simp] theorem read_write (m : Memory) (i j : Nat) (v : Byte) :
    (m.write i v).read j = if j = i then some v else m.read j := by
  split
  · next h => rw [h, read_write_same]
  · next h => exact read_write_other m v h

theorem mem_keys_write (m : Memory) (i : Nat) (v : Byte) {j : Nat} (h : j ∈ (m.write i v).map Prod.fst) :
    j = i ∨ j ∈ m.map Prod.fst := by
  induction m with
  | nil => simpa [write] using h
  | cons c m ih =>
    obtain ⟨a, b⟩ := c
    by_cases h1 : i < a
    · simpa [write, h1] using h
    · by_cases h2 : i = a
      · subst h2
        rcases (by simpa [write] using h : j = i ∨ ∃ x, (j, x) ∈ m) with h | h
        · exact .inl h
        · exact .inr (by simp [h])
      · simp only [write, h1, h2, if_false, List.map_cons, List.mem_cons] at h ⊢
        rcases h with h | h
        · exact .inr (.inl h)
        · rcases ih h with h | h
          · exact .inl h
          · exact .inr (.inr h)

/-- A write keeps the canonical form. -/
theorem wf_write {m : Memory} (h : m.wf = true) (i : Nat) (v : Byte) : (m.write i v).wf = true := by
  simp only [wf, decide_eq_true_eq] at h ⊢
  induction m with
  | nil => simp [write]
  | cons c m ih =>
    obtain ⟨a, b⟩ := c
    rw [List.map_cons, List.pairwise_cons] at h
    by_cases h1 : i < a
    · simp only [write, h1, if_true, List.map_cons, List.pairwise_cons]
      refine ⟨fun j hj => ?_, h⟩
      rcases List.mem_cons.1 hj with rfl | hj
      · exact h1
      · exact h1.trans (h.1 j hj)
    · by_cases h2 : i = a
      · subst h2
        simpa [write] using h
      · simp only [write, h1, h2, if_false, List.map_cons, List.pairwise_cons]
        refine ⟨fun j hj => ?_, ih h.2⟩
        rcases mem_keys_write m i v hj with rfl | hj
        · omega
        · exact h.1 j hj

theorem wf_writePixel {m : Memory} (h : m.wf = true) (a : Nat) (hi lo : Byte) : (m.writePixel a hi lo).wf = true :=
  wf_write (wf_write h a hi) (a + 1) lo

@[simp] theorem read_writePixel (m : Memory) (a j : Nat) (hi lo : Byte) :
    (m.writePixel a hi lo).read j = if j = a + 1 then some lo else if j = a then some hi else m.read j := by
  simp [writePixel]

theorem readPixel_writePixel_same (m : Memory) (a : Nat) (hi lo : Byte) :
    (m.writePixel a hi lo).readPixel a = some (u16 hi lo) := by
  simp [readPixel]

/-- A pixel at another even address is untouched. -/
theorem readPixel_writePixel_other (m : Memory) {a b : Nat} (hi lo : Byte) (h : a ≠ b) :
    (m.writePixel (2 * a) hi lo).readPixel (2 * b) = m.readPixel (2 * b) := by
  have h1 : 2 * b ≠ 2 * a + 1 := by omega
  have h2 : 2 * b ≠ 2 * a := by omega
  have h3 : 2 * b + 1 ≠ 2 * a := by omega
  simp [readPixel, h1, h2, h3]

end Sys2Proof.Machine.Memory
end

