-- ==== Sys2Proof/Laws/State.lean ====
section
/-! SUPPORT. One lemma per field per named update of State, true by rfl, so that no later proof unfolds a record update. -/

namespace Sys2Proof.Machine

section acceptByte
variable (op b : Byte) (s : State)
@[simp] theorem acceptByte_cfg : (acceptByte op b s).cfg = s.cfg := rfl
@[simp] theorem acceptByte_x : (acceptByte op b s).x = { s.x with op := op, byte := b } := rfl
@[simp] theorem acceptByte_ph : (acceptByte op b s).ph = s.ph := rfl
@[simp] theorem acceptByte_busy : (acceptByte op b s).busy = true := rfl
@[simp] theorem acceptByte_rsp : (acceptByte op b s).rsp = s.rsp := rfl
@[simp] theorem acceptByte_seq : (acceptByte op b s).seq = s.seq := rfl
@[simp] theorem acceptByte_fwLeft : (acceptByte op b s).fwLeft = s.fwLeft := rfl
@[simp] theorem acceptByte_fwRow : (acceptByte op b s).fwRow = s.fwRow := rfl
@[simp] theorem acceptByte_lb : (acceptByte op b s).lb = s.lb := rfl
@[simp] theorem acceptByte_bufHeld : (acceptByte op b s).bufHeld = s.bufHeld := rfl
@[simp] theorem acceptByte_pins : (acceptByte op b s).pins = s.pins := rfl
@[simp] theorem acceptByte_sh : (acceptByte op b s).sh = s.sh := rfl
@[simp] theorem acceptByte_bitcnt : (acceptByte op b s).bitcnt = s.bitcnt := rfl
@[simp] theorem acceptByte_quietDue : (acceptByte op b s).quietDue = s.quietDue := rfl
@[simp] theorem acceptByte_now : (acceptByte op b s).now = s.now := rfl
@[simp] theorem acceptByte_rsps : (acceptByte op b s).rsps = s.rsps := rfl
@[simp] theorem acceptByte_logical : (acceptByte op b s).logical = s.logical := rfl
@[simp] theorem acceptByte_wire : (acceptByte op b s).wire = s.wire := rfl
@[simp] theorem acceptByte_panel : (acceptByte op b s).panel = s.panel := rfl
@[simp] theorem acceptByte_rx : (acceptByte op b s).rx = s.rx := rfl
@[simp] theorem acceptByte_plat : (acceptByte op b s).plat = s.plat := rfl
@[simp] theorem acceptByte_inbox : (acceptByte op b s).inbox = s.inbox := rfl
@[simp] theorem acceptByte_env : (acceptByte op b s).env = s.env := rfl
@[simp] theorem acceptByte_free : (acceptByte op b s).free = s.free := rfl
end acceptByte

section acceptInit
variable (s : State)
@[simp] theorem acceptInit_cfg : (acceptInit s).cfg = s.cfg := rfl
@[simp] theorem acceptInit_x : (acceptInit s).x = { s.x with op := opRunInit } := rfl
@[simp] theorem acceptInit_ph : (acceptInit s).ph = s.ph := rfl
@[simp] theorem acceptInit_busy : (acceptInit s).busy = true := rfl
@[simp] theorem acceptInit_rsp : (acceptInit s).rsp = s.rsp := rfl
@[simp] theorem acceptInit_seq : (acceptInit s).seq = s.seq := rfl
@[simp] theorem acceptInit_fwLeft : (acceptInit s).fwLeft = s.fwLeft := rfl
@[simp] theorem acceptInit_fwRow : (acceptInit s).fwRow = s.fwRow := rfl
@[simp] theorem acceptInit_lb : (acceptInit s).lb = s.lb := rfl
@[simp] theorem acceptInit_bufHeld : (acceptInit s).bufHeld = s.bufHeld := rfl
@[simp] theorem acceptInit_pins : (acceptInit s).pins = s.pins := rfl
@[simp] theorem acceptInit_sh : (acceptInit s).sh = s.sh := rfl
@[simp] theorem acceptInit_bitcnt : (acceptInit s).bitcnt = s.bitcnt := rfl
@[simp] theorem acceptInit_quietDue : (acceptInit s).quietDue = s.quietDue := rfl
@[simp] theorem acceptInit_now : (acceptInit s).now = s.now := rfl
@[simp] theorem acceptInit_rsps : (acceptInit s).rsps = s.rsps := rfl
@[simp] theorem acceptInit_logical : (acceptInit s).logical = s.logical := rfl
@[simp] theorem acceptInit_wire : (acceptInit s).wire = s.wire := rfl
@[simp] theorem acceptInit_panel : (acceptInit s).panel = s.panel := rfl
@[simp] theorem acceptInit_rx : (acceptInit s).rx = s.rx := rfl
@[simp] theorem acceptInit_plat : (acceptInit s).plat = s.plat := rfl
@[simp] theorem acceptInit_inbox : (acceptInit s).inbox = s.inbox := rfl
@[simp] theorem acceptInit_env : (acceptInit s).env = s.env := rfl
@[simp] theorem acceptInit_free : (acceptInit s).free = s.free := rfl
end acceptInit

section acceptRect
variable (x0 y0 x1 y1 p : U16) (s : State)
@[simp] theorem acceptRect_cfg : (acceptRect x0 y0 x1 y1 p s).cfg = s.cfg := rfl
@[simp] theorem acceptRect_x : (acceptRect x0 y0 x1 y1 p s).x = { s.x with op := opFillRect, pix := p, x0 := x0, y0 := y0, x1 := x1, y1 := y1 } := rfl
@[simp] theorem acceptRect_ph : (acceptRect x0 y0 x1 y1 p s).ph = s.ph := rfl
@[simp] theorem acceptRect_busy : (acceptRect x0 y0 x1 y1 p s).busy = true := rfl
@[simp] theorem acceptRect_rsp : (acceptRect x0 y0 x1 y1 p s).rsp = s.rsp := rfl
@[simp] theorem acceptRect_seq : (acceptRect x0 y0 x1 y1 p s).seq = s.seq := rfl
@[simp] theorem acceptRect_fwLeft : (acceptRect x0 y0 x1 y1 p s).fwLeft = s.fwLeft := rfl
@[simp] theorem acceptRect_fwRow : (acceptRect x0 y0 x1 y1 p s).fwRow = s.fwRow := rfl
@[simp] theorem acceptRect_lb : (acceptRect x0 y0 x1 y1 p s).lb = s.lb := rfl
@[simp] theorem acceptRect_bufHeld : (acceptRect x0 y0 x1 y1 p s).bufHeld = s.bufHeld := rfl
@[simp] theorem acceptRect_pins : (acceptRect x0 y0 x1 y1 p s).pins = s.pins := rfl
@[simp] theorem acceptRect_sh : (acceptRect x0 y0 x1 y1 p s).sh = s.sh := rfl
@[simp] theorem acceptRect_bitcnt : (acceptRect x0 y0 x1 y1 p s).bitcnt = s.bitcnt := rfl
@[simp] theorem acceptRect_quietDue : (acceptRect x0 y0 x1 y1 p s).quietDue = s.quietDue := rfl
@[simp] theorem acceptRect_now : (acceptRect x0 y0 x1 y1 p s).now = s.now := rfl
@[simp] theorem acceptRect_rsps : (acceptRect x0 y0 x1 y1 p s).rsps = s.rsps := rfl
@[simp] theorem acceptRect_logical : (acceptRect x0 y0 x1 y1 p s).logical = s.logical := rfl
@[simp] theorem acceptRect_wire : (acceptRect x0 y0 x1 y1 p s).wire = s.wire := rfl
@[simp] theorem acceptRect_panel : (acceptRect x0 y0 x1 y1 p s).panel = s.panel := rfl
@[simp] theorem acceptRect_rx : (acceptRect x0 y0 x1 y1 p s).rx = s.rx := rfl
@[simp] theorem acceptRect_plat : (acceptRect x0 y0 x1 y1 p s).plat = s.plat := rfl
@[simp] theorem acceptRect_inbox : (acceptRect x0 y0 x1 y1 p s).inbox = s.inbox := rfl
@[simp] theorem acceptRect_env : (acceptRect x0 y0 x1 y1 p s).env = s.env := rfl
@[simp] theorem acceptRect_free : (acceptRect x0 y0 x1 y1 p s).free = s.free := rfl
end acceptRect

section acceptScreen
variable (p : U16) (s : State)
@[simp] theorem acceptScreen_cfg : (acceptScreen p s).cfg = s.cfg := rfl
@[simp] theorem acceptScreen_x : (acceptScreen p s).x = { s.x with op := opFillScreen, pix := p } := rfl
@[simp] theorem acceptScreen_ph : (acceptScreen p s).ph = s.ph := rfl
@[simp] theorem acceptScreen_busy : (acceptScreen p s).busy = true := rfl
@[simp] theorem acceptScreen_rsp : (acceptScreen p s).rsp = s.rsp := rfl
@[simp] theorem acceptScreen_seq : (acceptScreen p s).seq = s.seq := rfl
@[simp] theorem acceptScreen_fwLeft : (acceptScreen p s).fwLeft = s.fwLeft := rfl
@[simp] theorem acceptScreen_fwRow : (acceptScreen p s).fwRow = s.fwRow := rfl
@[simp] theorem acceptScreen_lb : (acceptScreen p s).lb = s.lb := rfl
@[simp] theorem acceptScreen_bufHeld : (acceptScreen p s).bufHeld = s.bufHeld := rfl
@[simp] theorem acceptScreen_pins : (acceptScreen p s).pins = s.pins := rfl
@[simp] theorem acceptScreen_sh : (acceptScreen p s).sh = s.sh := rfl
@[simp] theorem acceptScreen_bitcnt : (acceptScreen p s).bitcnt = s.bitcnt := rfl
@[simp] theorem acceptScreen_quietDue : (acceptScreen p s).quietDue = s.quietDue := rfl
@[simp] theorem acceptScreen_now : (acceptScreen p s).now = s.now := rfl
@[simp] theorem acceptScreen_rsps : (acceptScreen p s).rsps = s.rsps := rfl
@[simp] theorem acceptScreen_logical : (acceptScreen p s).logical = s.logical := rfl
@[simp] theorem acceptScreen_wire : (acceptScreen p s).wire = s.wire := rfl
@[simp] theorem acceptScreen_panel : (acceptScreen p s).panel = s.panel := rfl
@[simp] theorem acceptScreen_rx : (acceptScreen p s).rx = s.rx := rfl
@[simp] theorem acceptScreen_plat : (acceptScreen p s).plat = s.plat := rfl
@[simp] theorem acceptScreen_inbox : (acceptScreen p s).inbox = s.inbox := rfl
@[simp] theorem acceptScreen_env : (acceptScreen p s).env = s.env := rfl
@[simp] theorem acceptScreen_free : (acceptScreen p s).free = s.free := rfl
end acceptScreen

section loadFullScreen
variable (s : State)
@[simp] theorem loadFullScreen_cfg : (loadFullScreen s).cfg = s.cfg := rfl
@[simp] theorem loadFullScreen_x : (loadFullScreen s).x = { s.x with x0 := 0, y0 := 0, x1 := BitVec.ofNat 16 (s.cfg.width - 1), y1 := BitVec.ofNat 16 (s.cfg.height - 1) } := rfl
@[simp] theorem loadFullScreen_ph : (loadFullScreen s).ph = s.ph := rfl
@[simp] theorem loadFullScreen_busy : (loadFullScreen s).busy = s.busy := rfl
@[simp] theorem loadFullScreen_rsp : (loadFullScreen s).rsp = s.rsp := rfl
@[simp] theorem loadFullScreen_seq : (loadFullScreen s).seq = s.seq := rfl
@[simp] theorem loadFullScreen_fwLeft : (loadFullScreen s).fwLeft = s.fwLeft := rfl
@[simp] theorem loadFullScreen_fwRow : (loadFullScreen s).fwRow = s.fwRow := rfl
@[simp] theorem loadFullScreen_lb : (loadFullScreen s).lb = s.lb := rfl
@[simp] theorem loadFullScreen_bufHeld : (loadFullScreen s).bufHeld = s.bufHeld := rfl
@[simp] theorem loadFullScreen_pins : (loadFullScreen s).pins = s.pins := rfl
@[simp] theorem loadFullScreen_sh : (loadFullScreen s).sh = s.sh := rfl
@[simp] theorem loadFullScreen_bitcnt : (loadFullScreen s).bitcnt = s.bitcnt := rfl
@[simp] theorem loadFullScreen_quietDue : (loadFullScreen s).quietDue = s.quietDue := rfl
@[simp] theorem loadFullScreen_now : (loadFullScreen s).now = s.now := rfl
@[simp] theorem loadFullScreen_rsps : (loadFullScreen s).rsps = s.rsps := rfl
@[simp] theorem loadFullScreen_logical : (loadFullScreen s).logical = s.logical := rfl
@[simp] theorem loadFullScreen_wire : (loadFullScreen s).wire = s.wire := rfl
@[simp] theorem loadFullScreen_panel : (loadFullScreen s).panel = s.panel := rfl
@[simp] theorem loadFullScreen_rx : (loadFullScreen s).rx = s.rx := rfl
@[simp] theorem loadFullScreen_plat : (loadFullScreen s).plat = s.plat := rfl
@[simp] theorem loadFullScreen_inbox : (loadFullScreen s).inbox = s.inbox := rfl
@[simp] theorem loadFullScreen_env : (loadFullScreen s).env = s.env := rfl
@[simp] theorem loadFullScreen_free : (loadFullScreen s).free = s.free := rfl
end loadFullScreen

section clearHandle
variable (s : State)
@[simp] theorem clearHandle_cfg : (clearHandle s).cfg = s.cfg := rfl
@[simp] theorem clearHandle_x : (clearHandle s).x = s.x := rfl
@[simp] theorem clearHandle_ph : (clearHandle s).ph = false := rfl
@[simp] theorem clearHandle_busy : (clearHandle s).busy = s.busy := rfl
@[simp] theorem clearHandle_rsp : (clearHandle s).rsp = s.rsp := rfl
@[simp] theorem clearHandle_seq : (clearHandle s).seq = s.seq := rfl
@[simp] theorem clearHandle_fwLeft : (clearHandle s).fwLeft = s.fwLeft := rfl
@[simp] theorem clearHandle_fwRow : (clearHandle s).fwRow = s.fwRow := rfl
@[simp] theorem clearHandle_lb : (clearHandle s).lb = s.lb := rfl
@[simp] theorem clearHandle_bufHeld : (clearHandle s).bufHeld = s.bufHeld := rfl
@[simp] theorem clearHandle_pins : (clearHandle s).pins = s.pins := rfl
@[simp] theorem clearHandle_sh : (clearHandle s).sh = s.sh := rfl
@[simp] theorem clearHandle_bitcnt : (clearHandle s).bitcnt = s.bitcnt := rfl
@[simp] theorem clearHandle_quietDue : (clearHandle s).quietDue = s.quietDue := rfl
@[simp] theorem clearHandle_now : (clearHandle s).now = s.now := rfl
@[simp] theorem clearHandle_rsps : (clearHandle s).rsps = s.rsps := rfl
@[simp] theorem clearHandle_logical : (clearHandle s).logical = s.logical := rfl
@[simp] theorem clearHandle_wire : (clearHandle s).wire = s.wire := rfl
@[simp] theorem clearHandle_panel : (clearHandle s).panel = s.panel := rfl
@[simp] theorem clearHandle_rx : (clearHandle s).rx = s.rx := rfl
@[simp] theorem clearHandle_plat : (clearHandle s).plat = s.plat := rfl
@[simp] theorem clearHandle_inbox : (clearHandle s).inbox = s.inbox := rfl
@[simp] theorem clearHandle_env : (clearHandle s).env = s.env := rfl
@[simp] theorem clearHandle_free : (clearHandle s).free = s.free := rfl
end clearHandle

section setHandle
variable (s : State)
@[simp] theorem setHandle_cfg : (setHandle s).cfg = s.cfg := rfl
@[simp] theorem setHandle_x : (setHandle s).x = s.x := rfl
@[simp] theorem setHandle_ph : (setHandle s).ph = true := rfl
@[simp] theorem setHandle_busy : (setHandle s).busy = s.busy := rfl
@[simp] theorem setHandle_rsp : (setHandle s).rsp = s.rsp := rfl
@[simp] theorem setHandle_seq : (setHandle s).seq = s.seq := rfl
@[simp] theorem setHandle_fwLeft : (setHandle s).fwLeft = s.fwLeft := rfl
@[simp] theorem setHandle_fwRow : (setHandle s).fwRow = s.fwRow := rfl
@[simp] theorem setHandle_lb : (setHandle s).lb = s.lb := rfl
@[simp] theorem setHandle_bufHeld : (setHandle s).bufHeld = s.bufHeld := rfl
@[simp] theorem setHandle_pins : (setHandle s).pins = s.pins := rfl
@[simp] theorem setHandle_sh : (setHandle s).sh = s.sh := rfl
@[simp] theorem setHandle_bitcnt : (setHandle s).bitcnt = s.bitcnt := rfl
@[simp] theorem setHandle_quietDue : (setHandle s).quietDue = s.quietDue := rfl
@[simp] theorem setHandle_now : (setHandle s).now = s.now := rfl
@[simp] theorem setHandle_rsps : (setHandle s).rsps = s.rsps := rfl
@[simp] theorem setHandle_logical : (setHandle s).logical = s.logical := rfl
@[simp] theorem setHandle_wire : (setHandle s).wire = s.wire := rfl
@[simp] theorem setHandle_panel : (setHandle s).panel = s.panel := rfl
@[simp] theorem setHandle_rx : (setHandle s).rx = s.rx := rfl
@[simp] theorem setHandle_plat : (setHandle s).plat = s.plat := rfl
@[simp] theorem setHandle_inbox : (setHandle s).inbox = s.inbox := rfl
@[simp] theorem setHandle_env : (setHandle s).env = s.env := rfl
@[simp] theorem setHandle_free : (setHandle s).free = s.free := rfl
end setHandle

section deliver
variable (r : Resp) (s : State)
@[simp] theorem deliver_cfg : (deliver r s).cfg = s.cfg := rfl
@[simp] theorem deliver_x : (deliver r s).x = s.x := rfl
@[simp] theorem deliver_ph : (deliver r s).ph = s.ph := rfl
@[simp] theorem deliver_busy : (deliver r s).busy = false := rfl
@[simp] theorem deliver_rsp : (deliver r s).rsp = r := rfl
@[simp] theorem deliver_seq : (deliver r s).seq = s.seq := rfl
@[simp] theorem deliver_fwLeft : (deliver r s).fwLeft = s.fwLeft := rfl
@[simp] theorem deliver_fwRow : (deliver r s).fwRow = s.fwRow := rfl
@[simp] theorem deliver_lb : (deliver r s).lb = s.lb := rfl
@[simp] theorem deliver_bufHeld : (deliver r s).bufHeld = s.bufHeld := rfl
@[simp] theorem deliver_pins : (deliver r s).pins = s.pins := rfl
@[simp] theorem deliver_sh : (deliver r s).sh = s.sh := rfl
@[simp] theorem deliver_bitcnt : (deliver r s).bitcnt = s.bitcnt := rfl
@[simp] theorem deliver_quietDue : (deliver r s).quietDue = s.quietDue := rfl
@[simp] theorem deliver_now : (deliver r s).now = s.now := rfl
@[simp] theorem deliver_rsps : (deliver r s).rsps = s.rsps ++ [r] := rfl
@[simp] theorem deliver_logical : (deliver r s).logical = s.logical := rfl
@[simp] theorem deliver_wire : (deliver r s).wire = s.wire := rfl
@[simp] theorem deliver_panel : (deliver r s).panel = s.panel := rfl
@[simp] theorem deliver_rx : (deliver r s).rx = s.rx := rfl
@[simp] theorem deliver_plat : (deliver r s).plat = s.plat := rfl
@[simp] theorem deliver_inbox : (deliver r s).inbox = s.inbox := rfl
@[simp] theorem deliver_env : (deliver r s).env = s.env := rfl
@[simp] theorem deliver_free : (deliver r s).free = s.free := rfl
end deliver

section raise
variable (r : Resp) (s : State)
@[simp] theorem raise_cfg : (raise r s).cfg = s.cfg := rfl
@[simp] theorem raise_x : (raise r s).x = s.x := rfl
@[simp] theorem raise_ph : (raise r s).ph = s.ph := rfl
@[simp] theorem raise_busy : (raise r s).busy = false := rfl
@[simp] theorem raise_rsp : (raise r s).rsp = r := rfl
@[simp] theorem raise_seq : (raise r s).seq = s.seq := rfl
@[simp] theorem raise_fwLeft : (raise r s).fwLeft = s.fwLeft := rfl
@[simp] theorem raise_fwRow : (raise r s).fwRow = s.fwRow := rfl
@[simp] theorem raise_lb : (raise r s).lb = s.lb := rfl
@[simp] theorem raise_bufHeld : (raise r s).bufHeld = s.bufHeld := rfl
@[simp] theorem raise_pins : (raise r s).pins = s.pins := rfl
@[simp] theorem raise_sh : (raise r s).sh = s.sh := rfl
@[simp] theorem raise_bitcnt : (raise r s).bitcnt = s.bitcnt := rfl
@[simp] theorem raise_quietDue : (raise r s).quietDue = s.quietDue := rfl
@[simp] theorem raise_now : (raise r s).now = s.now := rfl
@[simp] theorem raise_rsps : (raise r s).rsps = s.rsps ++ [r] := rfl
@[simp] theorem raise_logical : (raise r s).logical = s.logical := rfl
@[simp] theorem raise_wire : (raise r s).wire = s.wire := rfl
@[simp] theorem raise_panel : (raise r s).panel = s.panel := rfl
@[simp] theorem raise_rx : (raise r s).rx = s.rx := rfl
@[simp] theorem raise_plat : (raise r s).plat = s.plat := rfl
@[simp] theorem raise_inbox : (raise r s).inbox = s.inbox := rfl
@[simp] theorem raise_env : (raise r s).env = s.env := rfl
@[simp] theorem raise_free : (raise r s).free = s.free := rfl
end raise

section complete
variable (s : State)
@[simp] theorem complete_cfg : (complete s).cfg = s.cfg := rfl
@[simp] theorem complete_x : (complete s).x = s.x := rfl
@[simp] theorem complete_ph : (complete s).ph = s.ph := rfl
@[simp] theorem complete_busy : (complete s).busy = false := rfl
@[simp] theorem complete_rsp : (complete s).rsp = .ok := rfl
@[simp] theorem complete_seq : (complete s).seq = s.seq := rfl
@[simp] theorem complete_fwLeft : (complete s).fwLeft = s.fwLeft := rfl
@[simp] theorem complete_fwRow : (complete s).fwRow = s.fwRow := rfl
@[simp] theorem complete_lb : (complete s).lb = s.lb := rfl
@[simp] theorem complete_bufHeld : (complete s).bufHeld = s.bufHeld := rfl
@[simp] theorem complete_pins : (complete s).pins = s.pins := rfl
@[simp] theorem complete_sh : (complete s).sh = s.sh := rfl
@[simp] theorem complete_bitcnt : (complete s).bitcnt = s.bitcnt := rfl
@[simp] theorem complete_quietDue : (complete s).quietDue = s.quietDue := rfl
@[simp] theorem complete_now : (complete s).now = s.now := rfl
@[simp] theorem complete_rsps : (complete s).rsps = s.rsps ++ [.ok] := rfl
@[simp] theorem complete_logical : (complete s).logical = s.logical := rfl
@[simp] theorem complete_wire : (complete s).wire = s.wire := rfl
@[simp] theorem complete_panel : (complete s).panel = s.panel := rfl
@[simp] theorem complete_rx : (complete s).rx = s.rx := rfl
@[simp] theorem complete_plat : (complete s).plat = s.plat := rfl
@[simp] theorem complete_inbox : (complete s).inbox = s.inbox := rfl
@[simp] theorem complete_env : (complete s).env = s.env := rfl
@[simp] theorem complete_free : (complete s).free = s.free := rfl
end complete

section popWord
variable (s : State)
@[simp] theorem popWord_cfg : (popWord s).cfg = s.cfg := rfl
@[simp] theorem popWord_x : (popWord s).x = s.x := rfl
@[simp] theorem popWord_ph : (popWord s).ph = s.ph := rfl
@[simp] theorem popWord_busy : (popWord s).busy = s.busy := rfl
@[simp] theorem popWord_rsp : (popWord s).rsp = s.rsp := rfl
@[simp] theorem popWord_seq : (popWord s).seq = s.seq := rfl
@[simp] theorem popWord_fwLeft : (popWord s).fwLeft = s.fwLeft := rfl
@[simp] theorem popWord_fwRow : (popWord s).fwRow = s.fwRow := rfl
@[simp] theorem popWord_lb : (popWord s).lb = s.lb := rfl
@[simp] theorem popWord_bufHeld : (popWord s).bufHeld = s.bufHeld := rfl
@[simp] theorem popWord_pins : (popWord s).pins = s.pins := rfl
@[simp] theorem popWord_sh : (popWord s).sh = s.sh := rfl
@[simp] theorem popWord_bitcnt : (popWord s).bitcnt = s.bitcnt := rfl
@[simp] theorem popWord_quietDue : (popWord s).quietDue = s.quietDue := rfl
@[simp] theorem popWord_now : (popWord s).now = s.now := rfl
@[simp] theorem popWord_rsps : (popWord s).rsps = s.rsps := rfl
@[simp] theorem popWord_logical : (popWord s).logical = s.logical := rfl
@[simp] theorem popWord_wire : (popWord s).wire = s.wire := rfl
@[simp] theorem popWord_panel : (popWord s).panel = s.panel := rfl
@[simp] theorem popWord_rx : (popWord s).rx = s.rx := rfl
@[simp] theorem popWord_plat : (popWord s).plat = s.plat := rfl
@[simp] theorem popWord_inbox : (popWord s).inbox = s.inbox := rfl
@[simp] theorem popWord_env : (popWord s).env = { s.env with words := s.env.words.tail } := rfl
@[simp] theorem popWord_free : (popWord s).free = s.free := rfl
end popWord

section popWait
variable (s : State)
@[simp] theorem popWait_cfg : (popWait s).cfg = s.cfg := rfl
@[simp] theorem popWait_x : (popWait s).x = s.x := rfl
@[simp] theorem popWait_ph : (popWait s).ph = s.ph := rfl
@[simp] theorem popWait_busy : (popWait s).busy = s.busy := rfl
@[simp] theorem popWait_rsp : (popWait s).rsp = s.rsp := rfl
@[simp] theorem popWait_seq : (popWait s).seq = s.seq := rfl
@[simp] theorem popWait_fwLeft : (popWait s).fwLeft = s.fwLeft := rfl
@[simp] theorem popWait_fwRow : (popWait s).fwRow = s.fwRow := rfl
@[simp] theorem popWait_lb : (popWait s).lb = s.lb := rfl
@[simp] theorem popWait_bufHeld : (popWait s).bufHeld = s.bufHeld := rfl
@[simp] theorem popWait_pins : (popWait s).pins = s.pins := rfl
@[simp] theorem popWait_sh : (popWait s).sh = s.sh := rfl
@[simp] theorem popWait_bitcnt : (popWait s).bitcnt = s.bitcnt := rfl
@[simp] theorem popWait_quietDue : (popWait s).quietDue = s.quietDue := rfl
@[simp] theorem popWait_now : (popWait s).now = s.now := rfl
@[simp] theorem popWait_rsps : (popWait s).rsps = s.rsps := rfl
@[simp] theorem popWait_logical : (popWait s).logical = s.logical := rfl
@[simp] theorem popWait_wire : (popWait s).wire = s.wire := rfl
@[simp] theorem popWait_panel : (popWait s).panel = s.panel := rfl
@[simp] theorem popWait_rx : (popWait s).rx = s.rx := rfl
@[simp] theorem popWait_plat : (popWait s).plat = s.plat := rfl
@[simp] theorem popWait_inbox : (popWait s).inbox = s.inbox := rfl
@[simp] theorem popWait_env : (popWait s).env = { s.env with waits := s.env.waits.tail } := rfl
@[simp] theorem popWait_free : (popWait s).free = s.free := rfl
end popWait

section popAlloc
variable (s : State)
@[simp] theorem popAlloc_cfg : (popAlloc s).cfg = s.cfg := rfl
@[simp] theorem popAlloc_x : (popAlloc s).x = s.x := rfl
@[simp] theorem popAlloc_ph : (popAlloc s).ph = s.ph := rfl
@[simp] theorem popAlloc_busy : (popAlloc s).busy = s.busy := rfl
@[simp] theorem popAlloc_rsp : (popAlloc s).rsp = s.rsp := rfl
@[simp] theorem popAlloc_seq : (popAlloc s).seq = s.seq := rfl
@[simp] theorem popAlloc_fwLeft : (popAlloc s).fwLeft = s.fwLeft := rfl
@[simp] theorem popAlloc_fwRow : (popAlloc s).fwRow = s.fwRow := rfl
@[simp] theorem popAlloc_lb : (popAlloc s).lb = s.lb := rfl
@[simp] theorem popAlloc_bufHeld : (popAlloc s).bufHeld = s.bufHeld := rfl
@[simp] theorem popAlloc_pins : (popAlloc s).pins = s.pins := rfl
@[simp] theorem popAlloc_sh : (popAlloc s).sh = s.sh := rfl
@[simp] theorem popAlloc_bitcnt : (popAlloc s).bitcnt = s.bitcnt := rfl
@[simp] theorem popAlloc_quietDue : (popAlloc s).quietDue = s.quietDue := rfl
@[simp] theorem popAlloc_now : (popAlloc s).now = s.now := rfl
@[simp] theorem popAlloc_rsps : (popAlloc s).rsps = s.rsps := rfl
@[simp] theorem popAlloc_logical : (popAlloc s).logical = s.logical := rfl
@[simp] theorem popAlloc_wire : (popAlloc s).wire = s.wire := rfl
@[simp] theorem popAlloc_panel : (popAlloc s).panel = s.panel := rfl
@[simp] theorem popAlloc_rx : (popAlloc s).rx = s.rx := rfl
@[simp] theorem popAlloc_plat : (popAlloc s).plat = s.plat := rfl
@[simp] theorem popAlloc_inbox : (popAlloc s).inbox = s.inbox := rfl
@[simp] theorem popAlloc_env : (popAlloc s).env = { s.env with allocs := s.env.allocs.tail } := rfl
@[simp] theorem popAlloc_free : (popAlloc s).free = s.free := rfl
end popAlloc

section emit
variable (e : Event) (s : State)
@[simp] theorem emit_cfg : (emit e s).cfg = s.cfg := rfl
@[simp] theorem emit_x : (emit e s).x = s.x := rfl
@[simp] theorem emit_ph : (emit e s).ph = s.ph := rfl
@[simp] theorem emit_busy : (emit e s).busy = s.busy := rfl
@[simp] theorem emit_rsp : (emit e s).rsp = s.rsp := rfl
@[simp] theorem emit_seq : (emit e s).seq = s.seq := rfl
@[simp] theorem emit_fwLeft : (emit e s).fwLeft = s.fwLeft := rfl
@[simp] theorem emit_fwRow : (emit e s).fwRow = s.fwRow := rfl
@[simp] theorem emit_lb : (emit e s).lb = s.lb := rfl
@[simp] theorem emit_bufHeld : (emit e s).bufHeld = s.bufHeld := rfl
@[simp] theorem emit_pins : (emit e s).pins = s.pins := rfl
@[simp] theorem emit_sh : (emit e s).sh = s.sh := rfl
@[simp] theorem emit_bitcnt : (emit e s).bitcnt = s.bitcnt := rfl
@[simp] theorem emit_quietDue : (emit e s).quietDue = s.quietDue := rfl
@[simp] theorem emit_now : (emit e s).now = s.now := rfl
@[simp] theorem emit_rsps : (emit e s).rsps = s.rsps := rfl
@[simp] theorem emit_logical : (emit e s).logical = s.logical ++ [e] := rfl
@[simp] theorem emit_wire : (emit e s).wire = s.wire := rfl
@[simp] theorem emit_panel : (emit e s).panel = s.panel := rfl
@[simp] theorem emit_rx : (emit e s).rx = s.rx := rfl
@[simp] theorem emit_plat : (emit e s).plat = s.plat := rfl
@[simp] theorem emit_inbox : (emit e s).inbox = s.inbox := rfl
@[simp] theorem emit_env : (emit e s).env = s.env := rfl
@[simp] theorem emit_free : (emit e s).free = s.free := rfl
end emit

section emitWire
variable (e : WireEvent) (s : State)
@[simp] theorem emitWire_cfg : (emitWire e s).cfg = s.cfg := rfl
@[simp] theorem emitWire_x : (emitWire e s).x = s.x := rfl
@[simp] theorem emitWire_ph : (emitWire e s).ph = s.ph := rfl
@[simp] theorem emitWire_busy : (emitWire e s).busy = s.busy := rfl
@[simp] theorem emitWire_rsp : (emitWire e s).rsp = s.rsp := rfl
@[simp] theorem emitWire_seq : (emitWire e s).seq = s.seq := rfl
@[simp] theorem emitWire_fwLeft : (emitWire e s).fwLeft = s.fwLeft := rfl
@[simp] theorem emitWire_fwRow : (emitWire e s).fwRow = s.fwRow := rfl
@[simp] theorem emitWire_lb : (emitWire e s).lb = s.lb := rfl
@[simp] theorem emitWire_bufHeld : (emitWire e s).bufHeld = s.bufHeld := rfl
@[simp] theorem emitWire_pins : (emitWire e s).pins = s.pins := rfl
@[simp] theorem emitWire_sh : (emitWire e s).sh = s.sh := rfl
@[simp] theorem emitWire_bitcnt : (emitWire e s).bitcnt = s.bitcnt := rfl
@[simp] theorem emitWire_quietDue : (emitWire e s).quietDue = s.quietDue := rfl
@[simp] theorem emitWire_now : (emitWire e s).now = s.now := rfl
@[simp] theorem emitWire_rsps : (emitWire e s).rsps = s.rsps := rfl
@[simp] theorem emitWire_logical : (emitWire e s).logical = s.logical := rfl
@[simp] theorem emitWire_wire : (emitWire e s).wire = s.wire ++ [e] := rfl
@[simp] theorem emitWire_panel : (emitWire e s).panel = s.panel := rfl
@[simp] theorem emitWire_rx : (emitWire e s).rx = s.rx := rfl
@[simp] theorem emitWire_plat : (emitWire e s).plat = s.plat := rfl
@[simp] theorem emitWire_inbox : (emitWire e s).inbox = s.inbox := rfl
@[simp] theorem emitWire_env : (emitWire e s).env = s.env := rfl
@[simp] theorem emitWire_free : (emitWire e s).free = s.free := rfl
end emitWire

section advance
variable (ns : Nat) (s : State)
@[simp] theorem advance_cfg : (advance ns s).cfg = s.cfg := rfl
@[simp] theorem advance_x : (advance ns s).x = s.x := rfl
@[simp] theorem advance_ph : (advance ns s).ph = s.ph := rfl
@[simp] theorem advance_busy : (advance ns s).busy = s.busy := rfl
@[simp] theorem advance_rsp : (advance ns s).rsp = s.rsp := rfl
@[simp] theorem advance_seq : (advance ns s).seq = s.seq := rfl
@[simp] theorem advance_fwLeft : (advance ns s).fwLeft = s.fwLeft := rfl
@[simp] theorem advance_fwRow : (advance ns s).fwRow = s.fwRow := rfl
@[simp] theorem advance_lb : (advance ns s).lb = s.lb := rfl
@[simp] theorem advance_bufHeld : (advance ns s).bufHeld = s.bufHeld := rfl
@[simp] theorem advance_pins : (advance ns s).pins = s.pins := rfl
@[simp] theorem advance_sh : (advance ns s).sh = s.sh := rfl
@[simp] theorem advance_bitcnt : (advance ns s).bitcnt = s.bitcnt := rfl
@[simp] theorem advance_quietDue : (advance ns s).quietDue = s.quietDue - ns := rfl
@[simp] theorem advance_now : (advance ns s).now = s.now + ns := rfl
@[simp] theorem advance_rsps : (advance ns s).rsps = s.rsps := rfl
@[simp] theorem advance_logical : (advance ns s).logical = s.logical := rfl
@[simp] theorem advance_wire : (advance ns s).wire = s.wire := rfl
@[simp] theorem advance_panel : (advance ns s).panel = s.panel := rfl
@[simp] theorem advance_rx : (advance ns s).rx = s.rx := rfl
@[simp] theorem advance_plat : (advance ns s).plat = s.plat := rfl
@[simp] theorem advance_inbox : (advance ns s).inbox = s.inbox := rfl
@[simp] theorem advance_env : (advance ns s).env = s.env := rfl
@[simp] theorem advance_free : (advance ns s).free = s.free := rfl
end advance

section obtainBuffer
variable (s : State)
@[simp] theorem obtainBuffer_cfg : (obtainBuffer s).cfg = s.cfg := rfl
@[simp] theorem obtainBuffer_x : (obtainBuffer s).x = s.x := rfl
@[simp] theorem obtainBuffer_ph : (obtainBuffer s).ph = s.ph := rfl
@[simp] theorem obtainBuffer_busy : (obtainBuffer s).busy = s.busy := rfl
@[simp] theorem obtainBuffer_rsp : (obtainBuffer s).rsp = s.rsp := rfl
@[simp] theorem obtainBuffer_seq : (obtainBuffer s).seq = s.seq := rfl
@[simp] theorem obtainBuffer_fwLeft : (obtainBuffer s).fwLeft = s.fwLeft := rfl
@[simp] theorem obtainBuffer_fwRow : (obtainBuffer s).fwRow = s.fwRow := rfl
@[simp] theorem obtainBuffer_lb : (obtainBuffer s).lb = s.lb := rfl
@[simp] theorem obtainBuffer_bufHeld : (obtainBuffer s).bufHeld = true := rfl
@[simp] theorem obtainBuffer_pins : (obtainBuffer s).pins = s.pins := rfl
@[simp] theorem obtainBuffer_sh : (obtainBuffer s).sh = s.sh := rfl
@[simp] theorem obtainBuffer_bitcnt : (obtainBuffer s).bitcnt = s.bitcnt := rfl
@[simp] theorem obtainBuffer_quietDue : (obtainBuffer s).quietDue = s.quietDue := rfl
@[simp] theorem obtainBuffer_now : (obtainBuffer s).now = s.now := rfl
@[simp] theorem obtainBuffer_rsps : (obtainBuffer s).rsps = s.rsps := rfl
@[simp] theorem obtainBuffer_logical : (obtainBuffer s).logical = s.logical := rfl
@[simp] theorem obtainBuffer_wire : (obtainBuffer s).wire = s.wire := rfl
@[simp] theorem obtainBuffer_panel : (obtainBuffer s).panel = s.panel := rfl
@[simp] theorem obtainBuffer_rx : (obtainBuffer s).rx = s.rx := rfl
@[simp] theorem obtainBuffer_plat : (obtainBuffer s).plat = s.plat := rfl
@[simp] theorem obtainBuffer_inbox : (obtainBuffer s).inbox = s.inbox := rfl
@[simp] theorem obtainBuffer_env : (obtainBuffer s).env = s.env := rfl
@[simp] theorem obtainBuffer_free : (obtainBuffer s).free = s.free := rfl
end obtainBuffer

section releaseBuffer
variable (s : State)
@[simp] theorem releaseBuffer_cfg : (releaseBuffer s).cfg = s.cfg := rfl
@[simp] theorem releaseBuffer_x : (releaseBuffer s).x = s.x := rfl
@[simp] theorem releaseBuffer_ph : (releaseBuffer s).ph = s.ph := rfl
@[simp] theorem releaseBuffer_busy : (releaseBuffer s).busy = s.busy := rfl
@[simp] theorem releaseBuffer_rsp : (releaseBuffer s).rsp = s.rsp := rfl
@[simp] theorem releaseBuffer_seq : (releaseBuffer s).seq = s.seq := rfl
@[simp] theorem releaseBuffer_fwLeft : (releaseBuffer s).fwLeft = s.fwLeft := rfl
@[simp] theorem releaseBuffer_fwRow : (releaseBuffer s).fwRow = s.fwRow := rfl
@[simp] theorem releaseBuffer_lb : (releaseBuffer s).lb = [] := rfl
@[simp] theorem releaseBuffer_bufHeld : (releaseBuffer s).bufHeld = false := rfl
@[simp] theorem releaseBuffer_pins : (releaseBuffer s).pins = s.pins := rfl
@[simp] theorem releaseBuffer_sh : (releaseBuffer s).sh = s.sh := rfl
@[simp] theorem releaseBuffer_bitcnt : (releaseBuffer s).bitcnt = s.bitcnt := rfl
@[simp] theorem releaseBuffer_quietDue : (releaseBuffer s).quietDue = s.quietDue := rfl
@[simp] theorem releaseBuffer_now : (releaseBuffer s).now = s.now := rfl
@[simp] theorem releaseBuffer_rsps : (releaseBuffer s).rsps = s.rsps := rfl
@[simp] theorem releaseBuffer_logical : (releaseBuffer s).logical = s.logical := rfl
@[simp] theorem releaseBuffer_wire : (releaseBuffer s).wire = s.wire := rfl
@[simp] theorem releaseBuffer_panel : (releaseBuffer s).panel = s.panel := rfl
@[simp] theorem releaseBuffer_rx : (releaseBuffer s).rx = s.rx := rfl
@[simp] theorem releaseBuffer_plat : (releaseBuffer s).plat = s.plat := rfl
@[simp] theorem releaseBuffer_inbox : (releaseBuffer s).inbox = s.inbox := rfl
@[simp] theorem releaseBuffer_env : (releaseBuffer s).env = s.env := rfl
@[simp] theorem releaseBuffer_free : (releaseBuffer s).free = s.free := rfl
end releaseBuffer

section losePanel
variable (s : State)
@[simp] theorem losePanel_cfg : (losePanel s).cfg = s.cfg := rfl
@[simp] theorem losePanel_x : (losePanel s).x = s.x := rfl
@[simp] theorem losePanel_ph : (losePanel s).ph = s.ph := rfl
@[simp] theorem losePanel_busy : (losePanel s).busy = s.busy := rfl
@[simp] theorem losePanel_rsp : (losePanel s).rsp = s.rsp := rfl
@[simp] theorem losePanel_seq : (losePanel s).seq = s.seq := rfl
@[simp] theorem losePanel_fwLeft : (losePanel s).fwLeft = s.fwLeft := rfl
@[simp] theorem losePanel_fwRow : (losePanel s).fwRow = s.fwRow := rfl
@[simp] theorem losePanel_lb : (losePanel s).lb = s.lb := rfl
@[simp] theorem losePanel_bufHeld : (losePanel s).bufHeld = s.bufHeld := rfl
@[simp] theorem losePanel_pins : (losePanel s).pins = s.pins := rfl
@[simp] theorem losePanel_sh : (losePanel s).sh = s.sh := rfl
@[simp] theorem losePanel_bitcnt : (losePanel s).bitcnt = s.bitcnt := rfl
@[simp] theorem losePanel_quietDue : (losePanel s).quietDue = s.quietDue := rfl
@[simp] theorem losePanel_now : (losePanel s).now = s.now := rfl
@[simp] theorem losePanel_rsps : (losePanel s).rsps = s.rsps := rfl
@[simp] theorem losePanel_logical : (losePanel s).logical = s.logical := rfl
@[simp] theorem losePanel_wire : (losePanel s).wire = s.wire := rfl
@[simp] theorem losePanel_panel : (losePanel s).panel = Panel.lost := rfl
@[simp] theorem losePanel_rx : (losePanel s).rx = s.rx := rfl
@[simp] theorem losePanel_plat : (losePanel s).plat = s.plat := rfl
@[simp] theorem losePanel_inbox : (losePanel s).inbox = s.inbox := rfl
@[simp] theorem losePanel_env : (losePanel s).env = s.env := rfl
@[simp] theorem losePanel_free : (losePanel s).free = s.free := rfl
end losePanel

section panelTakes
variable (e : Event) (s : State)
@[simp] theorem panelTakes_cfg : (panelTakes e s).cfg = s.cfg := rfl
@[simp] theorem panelTakes_x : (panelTakes e s).x = s.x := rfl
@[simp] theorem panelTakes_ph : (panelTakes e s).ph = s.ph := rfl
@[simp] theorem panelTakes_busy : (panelTakes e s).busy = s.busy := rfl
@[simp] theorem panelTakes_rsp : (panelTakes e s).rsp = s.rsp := rfl
@[simp] theorem panelTakes_seq : (panelTakes e s).seq = s.seq := rfl
@[simp] theorem panelTakes_fwLeft : (panelTakes e s).fwLeft = s.fwLeft := rfl
@[simp] theorem panelTakes_fwRow : (panelTakes e s).fwRow = s.fwRow := rfl
@[simp] theorem panelTakes_lb : (panelTakes e s).lb = s.lb := rfl
@[simp] theorem panelTakes_bufHeld : (panelTakes e s).bufHeld = s.bufHeld := rfl
@[simp] theorem panelTakes_pins : (panelTakes e s).pins = s.pins := rfl
@[simp] theorem panelTakes_sh : (panelTakes e s).sh = s.sh := rfl
@[simp] theorem panelTakes_bitcnt : (panelTakes e s).bitcnt = s.bitcnt := rfl
@[simp] theorem panelTakes_quietDue : (panelTakes e s).quietDue = s.quietDue := rfl
@[simp] theorem panelTakes_now : (panelTakes e s).now = s.now := rfl
@[simp] theorem panelTakes_rsps : (panelTakes e s).rsps = s.rsps := rfl
@[simp] theorem panelTakes_logical : (panelTakes e s).logical = s.logical := rfl
@[simp] theorem panelTakes_wire : (panelTakes e s).wire = s.wire := rfl
@[simp] theorem panelTakes_panel : (panelTakes e s).panel = s.panel.onEvent s.cfg e := rfl
@[simp] theorem panelTakes_rx : (panelTakes e s).rx = s.rx := rfl
@[simp] theorem panelTakes_plat : (panelTakes e s).plat = s.plat := rfl
@[simp] theorem panelTakes_inbox : (panelTakes e s).inbox = s.inbox := rfl
@[simp] theorem panelTakes_env : (panelTakes e s).env = s.env := rfl
@[simp] theorem panelTakes_free : (panelTakes e s).free = s.free := rfl
end panelTakes

section rxAssert
variable (s : State)
@[simp] theorem rxAssert_cfg : (rxAssert s).cfg = s.cfg := rfl
@[simp] theorem rxAssert_x : (rxAssert s).x = s.x := rfl
@[simp] theorem rxAssert_ph : (rxAssert s).ph = s.ph := rfl
@[simp] theorem rxAssert_busy : (rxAssert s).busy = s.busy := rfl
@[simp] theorem rxAssert_rsp : (rxAssert s).rsp = s.rsp := rfl
@[simp] theorem rxAssert_seq : (rxAssert s).seq = s.seq := rfl
@[simp] theorem rxAssert_fwLeft : (rxAssert s).fwLeft = s.fwLeft := rfl
@[simp] theorem rxAssert_fwRow : (rxAssert s).fwRow = s.fwRow := rfl
@[simp] theorem rxAssert_lb : (rxAssert s).lb = s.lb := rfl
@[simp] theorem rxAssert_bufHeld : (rxAssert s).bufHeld = s.bufHeld := rfl
@[simp] theorem rxAssert_pins : (rxAssert s).pins = s.pins := rfl
@[simp] theorem rxAssert_sh : (rxAssert s).sh = s.sh := rfl
@[simp] theorem rxAssert_bitcnt : (rxAssert s).bitcnt = s.bitcnt := rfl
@[simp] theorem rxAssert_quietDue : (rxAssert s).quietDue = s.quietDue := rfl
@[simp] theorem rxAssert_now : (rxAssert s).now = s.now := rfl
@[simp] theorem rxAssert_rsps : (rxAssert s).rsps = s.rsps := rfl
@[simp] theorem rxAssert_logical : (rxAssert s).logical = s.logical := rfl
@[simp] theorem rxAssert_wire : (rxAssert s).wire = s.wire := rfl
@[simp] theorem rxAssert_panel : (rxAssert s).panel = s.panel := rfl
@[simp] theorem rxAssert_rx : (rxAssert s).rx = { s.rx with cnt := 0 } := rfl
@[simp] theorem rxAssert_plat : (rxAssert s).plat = s.plat := rfl
@[simp] theorem rxAssert_inbox : (rxAssert s).inbox = s.inbox := rfl
@[simp] theorem rxAssert_env : (rxAssert s).env = s.env := rfl
@[simp] theorem rxAssert_free : (rxAssert s).free = s.free := rfl
end rxAssert

section clkFall
variable (s : State)
@[simp] theorem clkFall_cfg : (clkFall s).cfg = s.cfg := rfl
@[simp] theorem clkFall_x : (clkFall s).x = s.x := rfl
@[simp] theorem clkFall_ph : (clkFall s).ph = s.ph := rfl
@[simp] theorem clkFall_busy : (clkFall s).busy = s.busy := rfl
@[simp] theorem clkFall_rsp : (clkFall s).rsp = s.rsp := rfl
@[simp] theorem clkFall_seq : (clkFall s).seq = s.seq := rfl
@[simp] theorem clkFall_fwLeft : (clkFall s).fwLeft = s.fwLeft := rfl
@[simp] theorem clkFall_fwRow : (clkFall s).fwRow = s.fwRow := rfl
@[simp] theorem clkFall_lb : (clkFall s).lb = s.lb := rfl
@[simp] theorem clkFall_bufHeld : (clkFall s).bufHeld = s.bufHeld := rfl
@[simp] theorem clkFall_pins : (clkFall s).pins = { s.pins with sclk := false } := rfl
@[simp] theorem clkFall_sh : (clkFall s).sh = s.sh <<< 1 := rfl
@[simp] theorem clkFall_bitcnt : (clkFall s).bitcnt = s.bitcnt - 1 := rfl
@[simp] theorem clkFall_quietDue : (clkFall s).quietDue = s.quietDue := rfl
@[simp] theorem clkFall_now : (clkFall s).now = s.now := rfl
@[simp] theorem clkFall_rsps : (clkFall s).rsps = s.rsps := rfl
@[simp] theorem clkFall_logical : (clkFall s).logical = s.logical := rfl
@[simp] theorem clkFall_wire : (clkFall s).wire = s.wire := rfl
@[simp] theorem clkFall_panel : (clkFall s).panel = s.panel := rfl
@[simp] theorem clkFall_rx : (clkFall s).rx = s.rx := rfl
@[simp] theorem clkFall_plat : (clkFall s).plat = s.plat := rfl
@[simp] theorem clkFall_inbox : (clkFall s).inbox = s.inbox := rfl
@[simp] theorem clkFall_env : (clkFall s).env = s.env := rfl
@[simp] theorem clkFall_free : (clkFall s).free = s.free := rfl
end clkFall

section loadWord
variable (w : Word) (s : State)
@[simp] theorem loadWord_cfg : (loadWord w s).cfg = s.cfg := rfl
@[simp] theorem loadWord_x : (loadWord w s).x = s.x := rfl
@[simp] theorem loadWord_ph : (loadWord w s).ph = s.ph := rfl
@[simp] theorem loadWord_busy : (loadWord w s).busy = s.busy := rfl
@[simp] theorem loadWord_rsp : (loadWord w s).rsp = s.rsp := rfl
@[simp] theorem loadWord_seq : (loadWord w s).seq = s.seq := rfl
@[simp] theorem loadWord_fwLeft : (loadWord w s).fwLeft = s.fwLeft := rfl
@[simp] theorem loadWord_fwRow : (loadWord w s).fwRow = s.fwRow := rfl
@[simp] theorem loadWord_lb : (loadWord w s).lb = s.lb := rfl
@[simp] theorem loadWord_bufHeld : (loadWord w s).bufHeld = s.bufHeld := rfl
@[simp] theorem loadWord_pins : (loadWord w s).pins = s.pins := rfl
@[simp] theorem loadWord_sh : (loadWord w s).sh = w := rfl
@[simp] theorem loadWord_bitcnt : (loadWord w s).bitcnt = 32 := rfl
@[simp] theorem loadWord_quietDue : (loadWord w s).quietDue = s.quietDue := rfl
@[simp] theorem loadWord_now : (loadWord w s).now = s.now := rfl
@[simp] theorem loadWord_rsps : (loadWord w s).rsps = s.rsps := rfl
@[simp] theorem loadWord_logical : (loadWord w s).logical = s.logical := rfl
@[simp] theorem loadWord_wire : (loadWord w s).wire = s.wire := rfl
@[simp] theorem loadWord_panel : (loadWord w s).panel = s.panel := rfl
@[simp] theorem loadWord_rx : (loadWord w s).rx = s.rx := rfl
@[simp] theorem loadWord_plat : (loadWord w s).plat = s.plat := rfl
@[simp] theorem loadWord_inbox : (loadWord w s).inbox = s.inbox := rfl
@[simp] theorem loadWord_env : (loadWord w s).env = s.env := rfl
@[simp] theorem loadWord_free : (loadWord w s).free = s.free := rfl
end loadWord

section assertCs
variable (s : State)
@[simp] theorem assertCs_cfg : (assertCs s).cfg = s.cfg := rfl
@[simp] theorem assertCs_x : (assertCs s).x = s.x := rfl
@[simp] theorem assertCs_ph : (assertCs s).ph = s.ph := rfl
@[simp] theorem assertCs_busy : (assertCs s).busy = s.busy := rfl
@[simp] theorem assertCs_rsp : (assertCs s).rsp = s.rsp := rfl
@[simp] theorem assertCs_seq : (assertCs s).seq = s.seq := rfl
@[simp] theorem assertCs_fwLeft : (assertCs s).fwLeft = s.fwLeft := rfl
@[simp] theorem assertCs_fwRow : (assertCs s).fwRow = s.fwRow := rfl
@[simp] theorem assertCs_lb : (assertCs s).lb = s.lb := rfl
@[simp] theorem assertCs_bufHeld : (assertCs s).bufHeld = s.bufHeld := rfl
@[simp] theorem assertCs_pins : (assertCs s).pins = { s.pins with cs := true } := rfl
@[simp] theorem assertCs_sh : (assertCs s).sh = s.sh := rfl
@[simp] theorem assertCs_bitcnt : (assertCs s).bitcnt = s.bitcnt := rfl
@[simp] theorem assertCs_quietDue : (assertCs s).quietDue = s.quietDue := rfl
@[simp] theorem assertCs_now : (assertCs s).now = s.now := rfl
@[simp] theorem assertCs_rsps : (assertCs s).rsps = s.rsps := rfl
@[simp] theorem assertCs_logical : (assertCs s).logical = s.logical := rfl
@[simp] theorem assertCs_wire : (assertCs s).wire = s.wire ++ [.csAssert] := rfl
@[simp] theorem assertCs_panel : (assertCs s).panel = s.panel := rfl
@[simp] theorem assertCs_rx : (assertCs s).rx = { s.rx with cnt := 0 } := rfl
@[simp] theorem assertCs_plat : (assertCs s).plat = s.plat := rfl
@[simp] theorem assertCs_inbox : (assertCs s).inbox = s.inbox := rfl
@[simp] theorem assertCs_env : (assertCs s).env = s.env := rfl
@[simp] theorem assertCs_free : (assertCs s).free = s.free := rfl
end assertCs

section restartReplay
variable (s : State)
@[simp] theorem restartReplay_cfg : (restartReplay s).cfg = s.cfg := rfl
@[simp] theorem restartReplay_x : (restartReplay s).x = s.x := rfl
@[simp] theorem restartReplay_ph : (restartReplay s).ph = s.ph := rfl
@[simp] theorem restartReplay_busy : (restartReplay s).busy = s.busy := rfl
@[simp] theorem restartReplay_rsp : (restartReplay s).rsp = s.rsp := rfl
@[simp] theorem restartReplay_seq : (restartReplay s).seq = s.seq := rfl
@[simp] theorem restartReplay_fwLeft : (restartReplay s).fwLeft = s.fwLeft := rfl
@[simp] theorem restartReplay_fwRow : (restartReplay s).fwRow = s.fwRow := rfl
@[simp] theorem restartReplay_lb : (restartReplay s).lb = s.lb := rfl
@[simp] theorem restartReplay_bufHeld : (restartReplay s).bufHeld = s.bufHeld := rfl
@[simp] theorem restartReplay_pins : (restartReplay s).pins = s.pins := rfl
@[simp] theorem restartReplay_sh : (restartReplay s).sh = s.sh := rfl
@[simp] theorem restartReplay_bitcnt : (restartReplay s).bitcnt = s.bitcnt := rfl
@[simp] theorem restartReplay_quietDue : (restartReplay s).quietDue = s.quietDue := rfl
@[simp] theorem restartReplay_now : (restartReplay s).now = s.now := rfl
@[simp] theorem restartReplay_rsps : (restartReplay s).rsps = s.rsps := rfl
@[simp] theorem restartReplay_logical : (restartReplay s).logical = s.logical := rfl
@[simp] theorem restartReplay_wire : (restartReplay s).wire = s.wire := rfl
@[simp] theorem restartReplay_panel : (restartReplay s).panel = s.panel.restartReplay := rfl
@[simp] theorem restartReplay_rx : (restartReplay s).rx = s.rx := rfl
@[simp] theorem restartReplay_plat : (restartReplay s).plat = s.plat := rfl
@[simp] theorem restartReplay_inbox : (restartReplay s).inbox = s.inbox := rfl
@[simp] theorem restartReplay_env : (restartReplay s).env = s.env := rfl
@[simp] theorem restartReplay_free : (restartReplay s).free = s.free := rfl
end restartReplay

section enterState
variable (p : SeqState) (s : State)
@[simp] theorem enterState_cfg : (enterState p s).cfg = s.cfg := rfl
@[simp] theorem enterState_x : (enterState p s).x = s.x := rfl
@[simp] theorem enterState_ph : (enterState p s).ph = s.ph := rfl
@[simp] theorem enterState_busy : (enterState p s).busy = s.busy := rfl
@[simp] theorem enterState_rsp : (enterState p s).rsp = s.rsp := rfl
@[simp] theorem enterState_seq : (enterState p s).seq = { s.seq with st := p } := rfl
@[simp] theorem enterState_fwLeft : (enterState p s).fwLeft = s.fwLeft := rfl
@[simp] theorem enterState_fwRow : (enterState p s).fwRow = s.fwRow := rfl
@[simp] theorem enterState_lb : (enterState p s).lb = s.lb := rfl
@[simp] theorem enterState_bufHeld : (enterState p s).bufHeld = s.bufHeld := rfl
@[simp] theorem enterState_pins : (enterState p s).pins = s.pins := rfl
@[simp] theorem enterState_sh : (enterState p s).sh = s.sh := rfl
@[simp] theorem enterState_bitcnt : (enterState p s).bitcnt = s.bitcnt := rfl
@[simp] theorem enterState_quietDue : (enterState p s).quietDue = s.quietDue := rfl
@[simp] theorem enterState_now : (enterState p s).now = s.now := rfl
@[simp] theorem enterState_rsps : (enterState p s).rsps = s.rsps := rfl
@[simp] theorem enterState_logical : (enterState p s).logical = s.logical := rfl
@[simp] theorem enterState_wire : (enterState p s).wire = s.wire := rfl
@[simp] theorem enterState_panel : (enterState p s).panel = s.panel := rfl
@[simp] theorem enterState_rx : (enterState p s).rx = s.rx := rfl
@[simp] theorem enterState_plat : (enterState p s).plat = s.plat := rfl
@[simp] theorem enterState_inbox : (enterState p s).inbox = s.inbox := rfl
@[simp] theorem enterState_env : (enterState p s).env = s.env := rfl
@[simp] theorem enterState_free : (enterState p s).free = s.free := rfl
end enterState

section setPosition
variable (p : Position) (s : State)
@[simp] theorem setPosition_cfg : (setPosition p s).cfg = s.cfg := rfl
@[simp] theorem setPosition_x : (setPosition p s).x = s.x := rfl
@[simp] theorem setPosition_ph : (setPosition p s).ph = s.ph := rfl
@[simp] theorem setPosition_busy : (setPosition p s).busy = s.busy := rfl
@[simp] theorem setPosition_rsp : (setPosition p s).rsp = s.rsp := rfl
@[simp] theorem setPosition_seq : (setPosition p s).seq = p := rfl
@[simp] theorem setPosition_fwLeft : (setPosition p s).fwLeft = s.fwLeft := rfl
@[simp] theorem setPosition_fwRow : (setPosition p s).fwRow = s.fwRow := rfl
@[simp] theorem setPosition_lb : (setPosition p s).lb = s.lb := rfl
@[simp] theorem setPosition_bufHeld : (setPosition p s).bufHeld = s.bufHeld := rfl
@[simp] theorem setPosition_pins : (setPosition p s).pins = s.pins := rfl
@[simp] theorem setPosition_sh : (setPosition p s).sh = s.sh := rfl
@[simp] theorem setPosition_bitcnt : (setPosition p s).bitcnt = s.bitcnt := rfl
@[simp] theorem setPosition_quietDue : (setPosition p s).quietDue = s.quietDue := rfl
@[simp] theorem setPosition_now : (setPosition p s).now = s.now := rfl
@[simp] theorem setPosition_rsps : (setPosition p s).rsps = s.rsps := rfl
@[simp] theorem setPosition_logical : (setPosition p s).logical = s.logical := rfl
@[simp] theorem setPosition_wire : (setPosition p s).wire = s.wire := rfl
@[simp] theorem setPosition_panel : (setPosition p s).panel = s.panel := rfl
@[simp] theorem setPosition_rx : (setPosition p s).rx = s.rx := rfl
@[simp] theorem setPosition_plat : (setPosition p s).plat = s.plat := rfl
@[simp] theorem setPosition_inbox : (setPosition p s).inbox = s.inbox := rfl
@[simp] theorem setPosition_env : (setPosition p s).env = s.env := rfl
@[simp] theorem setPosition_free : (setPosition p s).free = s.free := rfl
end setPosition

section startParams
variable (s : State)
@[simp] theorem startParams_cfg : (startParams s).cfg = s.cfg := rfl
@[simp] theorem startParams_x : (startParams s).x = s.x := rfl
@[simp] theorem startParams_ph : (startParams s).ph = s.ph := rfl
@[simp] theorem startParams_busy : (startParams s).busy = s.busy := rfl
@[simp] theorem startParams_rsp : (startParams s).rsp = s.rsp := rfl
@[simp] theorem startParams_seq : (startParams s).seq = { s.seq with pidx := 0 } := rfl
@[simp] theorem startParams_fwLeft : (startParams s).fwLeft = s.fwLeft := rfl
@[simp] theorem startParams_fwRow : (startParams s).fwRow = s.fwRow := rfl
@[simp] theorem startParams_lb : (startParams s).lb = s.lb := rfl
@[simp] theorem startParams_bufHeld : (startParams s).bufHeld = s.bufHeld := rfl
@[simp] theorem startParams_pins : (startParams s).pins = s.pins := rfl
@[simp] theorem startParams_sh : (startParams s).sh = s.sh := rfl
@[simp] theorem startParams_bitcnt : (startParams s).bitcnt = s.bitcnt := rfl
@[simp] theorem startParams_quietDue : (startParams s).quietDue = s.quietDue := rfl
@[simp] theorem startParams_now : (startParams s).now = s.now := rfl
@[simp] theorem startParams_rsps : (startParams s).rsps = s.rsps := rfl
@[simp] theorem startParams_logical : (startParams s).logical = s.logical := rfl
@[simp] theorem startParams_wire : (startParams s).wire = s.wire := rfl
@[simp] theorem startParams_panel : (startParams s).panel = s.panel := rfl
@[simp] theorem startParams_rx : (startParams s).rx = s.rx := rfl
@[simp] theorem startParams_plat : (startParams s).plat = s.plat := rfl
@[simp] theorem startParams_inbox : (startParams s).inbox = s.inbox := rfl
@[simp] theorem startParams_env : (startParams s).env = s.env := rfl
@[simp] theorem startParams_free : (startParams s).free = s.free := rfl
end startParams

section nextParam
variable (s : State)
@[simp] theorem nextParam_cfg : (nextParam s).cfg = s.cfg := rfl
@[simp] theorem nextParam_x : (nextParam s).x = s.x := rfl
@[simp] theorem nextParam_ph : (nextParam s).ph = s.ph := rfl
@[simp] theorem nextParam_busy : (nextParam s).busy = s.busy := rfl
@[simp] theorem nextParam_rsp : (nextParam s).rsp = s.rsp := rfl
@[simp] theorem nextParam_seq : (nextParam s).seq = { s.seq with pidx := s.seq.pidx + 1 } := rfl
@[simp] theorem nextParam_fwLeft : (nextParam s).fwLeft = s.fwLeft := rfl
@[simp] theorem nextParam_fwRow : (nextParam s).fwRow = s.fwRow := rfl
@[simp] theorem nextParam_lb : (nextParam s).lb = s.lb := rfl
@[simp] theorem nextParam_bufHeld : (nextParam s).bufHeld = s.bufHeld := rfl
@[simp] theorem nextParam_pins : (nextParam s).pins = s.pins := rfl
@[simp] theorem nextParam_sh : (nextParam s).sh = s.sh := rfl
@[simp] theorem nextParam_bitcnt : (nextParam s).bitcnt = s.bitcnt := rfl
@[simp] theorem nextParam_quietDue : (nextParam s).quietDue = s.quietDue := rfl
@[simp] theorem nextParam_now : (nextParam s).now = s.now := rfl
@[simp] theorem nextParam_rsps : (nextParam s).rsps = s.rsps := rfl
@[simp] theorem nextParam_logical : (nextParam s).logical = s.logical := rfl
@[simp] theorem nextParam_wire : (nextParam s).wire = s.wire := rfl
@[simp] theorem nextParam_panel : (nextParam s).panel = s.panel := rfl
@[simp] theorem nextParam_rx : (nextParam s).rx = s.rx := rfl
@[simp] theorem nextParam_plat : (nextParam s).plat = s.plat := rfl
@[simp] theorem nextParam_inbox : (nextParam s).inbox = s.inbox := rfl
@[simp] theorem nextParam_env : (nextParam s).env = s.env := rfl
@[simp] theorem nextParam_free : (nextParam s).free = s.free := rfl
end nextParam

section nextEntry
variable (s : State)
@[simp] theorem nextEntry_cfg : (nextEntry s).cfg = s.cfg := rfl
@[simp] theorem nextEntry_x : (nextEntry s).x = s.x := rfl
@[simp] theorem nextEntry_ph : (nextEntry s).ph = s.ph := rfl
@[simp] theorem nextEntry_busy : (nextEntry s).busy = s.busy := rfl
@[simp] theorem nextEntry_rsp : (nextEntry s).rsp = s.rsp := rfl
@[simp] theorem nextEntry_seq : (nextEntry s).seq = { s.seq with idx := s.seq.idx + 1, pidx := 0 } := rfl
@[simp] theorem nextEntry_fwLeft : (nextEntry s).fwLeft = s.fwLeft := rfl
@[simp] theorem nextEntry_fwRow : (nextEntry s).fwRow = s.fwRow := rfl
@[simp] theorem nextEntry_lb : (nextEntry s).lb = s.lb := rfl
@[simp] theorem nextEntry_bufHeld : (nextEntry s).bufHeld = s.bufHeld := rfl
@[simp] theorem nextEntry_pins : (nextEntry s).pins = s.pins := rfl
@[simp] theorem nextEntry_sh : (nextEntry s).sh = s.sh := rfl
@[simp] theorem nextEntry_bitcnt : (nextEntry s).bitcnt = s.bitcnt := rfl
@[simp] theorem nextEntry_quietDue : (nextEntry s).quietDue = s.quietDue := rfl
@[simp] theorem nextEntry_now : (nextEntry s).now = s.now := rfl
@[simp] theorem nextEntry_rsps : (nextEntry s).rsps = s.rsps := rfl
@[simp] theorem nextEntry_logical : (nextEntry s).logical = s.logical := rfl
@[simp] theorem nextEntry_wire : (nextEntry s).wire = s.wire := rfl
@[simp] theorem nextEntry_panel : (nextEntry s).panel = s.panel := rfl
@[simp] theorem nextEntry_rx : (nextEntry s).rx = s.rx := rfl
@[simp] theorem nextEntry_plat : (nextEntry s).plat = s.plat := rfl
@[simp] theorem nextEntry_inbox : (nextEntry s).inbox = s.inbox := rfl
@[simp] theorem nextEntry_env : (nextEntry s).env = s.env := rfl
@[simp] theorem nextEntry_free : (nextEntry s).free = s.free := rfl
end nextEntry

section countPixel
variable (s : State)
@[simp] theorem countPixel_cfg : (countPixel s).cfg = s.cfg := rfl
@[simp] theorem countPixel_x : (countPixel s).x = s.x := rfl
@[simp] theorem countPixel_ph : (countPixel s).ph = s.ph := rfl
@[simp] theorem countPixel_busy : (countPixel s).busy = s.busy := rfl
@[simp] theorem countPixel_rsp : (countPixel s).rsp = s.rsp := rfl
@[simp] theorem countPixel_seq : (countPixel s).seq = s.seq := rfl
@[simp] theorem countPixel_fwLeft : (countPixel s).fwLeft = s.fwLeft - 1 := rfl
@[simp] theorem countPixel_fwRow : (countPixel s).fwRow = s.fwRow := rfl
@[simp] theorem countPixel_lb : (countPixel s).lb = s.lb := rfl
@[simp] theorem countPixel_bufHeld : (countPixel s).bufHeld = s.bufHeld := rfl
@[simp] theorem countPixel_pins : (countPixel s).pins = s.pins := rfl
@[simp] theorem countPixel_sh : (countPixel s).sh = s.sh := rfl
@[simp] theorem countPixel_bitcnt : (countPixel s).bitcnt = s.bitcnt := rfl
@[simp] theorem countPixel_quietDue : (countPixel s).quietDue = s.quietDue := rfl
@[simp] theorem countPixel_now : (countPixel s).now = s.now := rfl
@[simp] theorem countPixel_rsps : (countPixel s).rsps = s.rsps := rfl
@[simp] theorem countPixel_logical : (countPixel s).logical = s.logical := rfl
@[simp] theorem countPixel_wire : (countPixel s).wire = s.wire := rfl
@[simp] theorem countPixel_panel : (countPixel s).panel = s.panel := rfl
@[simp] theorem countPixel_rx : (countPixel s).rx = s.rx := rfl
@[simp] theorem countPixel_plat : (countPixel s).plat = s.plat := rfl
@[simp] theorem countPixel_inbox : (countPixel s).inbox = s.inbox := rfl
@[simp] theorem countPixel_env : (countPixel s).env = s.env := rfl
@[simp] theorem countPixel_free : (countPixel s).free = s.free := rfl
end countPixel

section loadCount
variable (x : Operands) (s : State)
@[simp] theorem loadCount_cfg : (loadCount x s).cfg = s.cfg := rfl
@[simp] theorem loadCount_x : (loadCount x s).x = s.x := rfl
@[simp] theorem loadCount_ph : (loadCount x s).ph = s.ph := rfl
@[simp] theorem loadCount_busy : (loadCount x s).busy = s.busy := rfl
@[simp] theorem loadCount_rsp : (loadCount x s).rsp = s.rsp := rfl
@[simp] theorem loadCount_seq : (loadCount x s).seq = s.seq := rfl
@[simp] theorem loadCount_fwLeft : (loadCount x s).fwLeft = x.pixels := rfl
@[simp] theorem loadCount_fwRow : (loadCount x s).fwRow = s.fwRow := rfl
@[simp] theorem loadCount_lb : (loadCount x s).lb = s.lb := rfl
@[simp] theorem loadCount_bufHeld : (loadCount x s).bufHeld = s.bufHeld := rfl
@[simp] theorem loadCount_pins : (loadCount x s).pins = s.pins := rfl
@[simp] theorem loadCount_sh : (loadCount x s).sh = s.sh := rfl
@[simp] theorem loadCount_bitcnt : (loadCount x s).bitcnt = s.bitcnt := rfl
@[simp] theorem loadCount_quietDue : (loadCount x s).quietDue = s.quietDue := rfl
@[simp] theorem loadCount_now : (loadCount x s).now = s.now := rfl
@[simp] theorem loadCount_rsps : (loadCount x s).rsps = s.rsps := rfl
@[simp] theorem loadCount_logical : (loadCount x s).logical = s.logical := rfl
@[simp] theorem loadCount_wire : (loadCount x s).wire = s.wire := rfl
@[simp] theorem loadCount_panel : (loadCount x s).panel = s.panel := rfl
@[simp] theorem loadCount_rx : (loadCount x s).rx = s.rx := rfl
@[simp] theorem loadCount_plat : (loadCount x s).plat = s.plat := rfl
@[simp] theorem loadCount_inbox : (loadCount x s).inbox = s.inbox := rfl
@[simp] theorem loadCount_env : (loadCount x s).env = s.env := rfl
@[simp] theorem loadCount_free : (loadCount x s).free = s.free := rfl
end loadCount

section startRows
variable (x : Operands) (s : State)
@[simp] theorem startRows_cfg : (startRows x s).cfg = s.cfg := rfl
@[simp] theorem startRows_x : (startRows x s).x = s.x := rfl
@[simp] theorem startRows_ph : (startRows x s).ph = s.ph := rfl
@[simp] theorem startRows_busy : (startRows x s).busy = s.busy := rfl
@[simp] theorem startRows_rsp : (startRows x s).rsp = s.rsp := rfl
@[simp] theorem startRows_seq : (startRows x s).seq = s.seq := rfl
@[simp] theorem startRows_fwLeft : (startRows x s).fwLeft = x.pixels := rfl
@[simp] theorem startRows_fwRow : (startRows x s).fwRow = x.y0 := rfl
@[simp] theorem startRows_lb : (startRows x s).lb = lineBuffer x.pix x.columns := rfl
@[simp] theorem startRows_bufHeld : (startRows x s).bufHeld = s.bufHeld := rfl
@[simp] theorem startRows_pins : (startRows x s).pins = s.pins := rfl
@[simp] theorem startRows_sh : (startRows x s).sh = s.sh := rfl
@[simp] theorem startRows_bitcnt : (startRows x s).bitcnt = s.bitcnt := rfl
@[simp] theorem startRows_quietDue : (startRows x s).quietDue = s.quietDue := rfl
@[simp] theorem startRows_now : (startRows x s).now = s.now := rfl
@[simp] theorem startRows_rsps : (startRows x s).rsps = s.rsps := rfl
@[simp] theorem startRows_logical : (startRows x s).logical = s.logical := rfl
@[simp] theorem startRows_wire : (startRows x s).wire = s.wire := rfl
@[simp] theorem startRows_panel : (startRows x s).panel = s.panel := rfl
@[simp] theorem startRows_rx : (startRows x s).rx = s.rx := rfl
@[simp] theorem startRows_plat : (startRows x s).plat = s.plat := rfl
@[simp] theorem startRows_inbox : (startRows x s).inbox = s.inbox := rfl
@[simp] theorem startRows_env : (startRows x s).env = s.env := rfl
@[simp] theorem startRows_free : (startRows x s).free = s.free := rfl
end startRows

section resetBlock
variable (s : State)
@[simp] theorem resetBlock_cfg : (resetBlock s).cfg = s.cfg := rfl
@[simp] theorem resetBlock_x : (resetBlock s).x = State.reset.x := rfl
@[simp] theorem resetBlock_ph : (resetBlock s).ph = State.reset.ph := rfl
@[simp] theorem resetBlock_busy : (resetBlock s).busy = State.reset.busy := rfl
@[simp] theorem resetBlock_rsp : (resetBlock s).rsp = State.reset.rsp := rfl
@[simp] theorem resetBlock_seq : (resetBlock s).seq = State.reset.seq := rfl
@[simp] theorem resetBlock_fwLeft : (resetBlock s).fwLeft = State.reset.fwLeft := rfl
@[simp] theorem resetBlock_fwRow : (resetBlock s).fwRow = State.reset.fwRow := rfl
@[simp] theorem resetBlock_lb : (resetBlock s).lb = State.reset.lb := rfl
@[simp] theorem resetBlock_bufHeld : (resetBlock s).bufHeld = State.reset.bufHeld := rfl
@[simp] theorem resetBlock_pins : (resetBlock s).pins = State.reset.pins := rfl
@[simp] theorem resetBlock_sh : (resetBlock s).sh = State.reset.sh := rfl
@[simp] theorem resetBlock_bitcnt : (resetBlock s).bitcnt = State.reset.bitcnt := rfl
@[simp] theorem resetBlock_quietDue : (resetBlock s).quietDue = if s.pins.cs then s.cfg.tQuietNs else s.quietDue := rfl
@[simp] theorem resetBlock_now : (resetBlock s).now = State.reset.now := rfl
@[simp] theorem resetBlock_rsps : (resetBlock s).rsps = s.rsps := rfl
@[simp] theorem resetBlock_logical : (resetBlock s).logical = s.logical := rfl
@[simp] theorem resetBlock_wire : (resetBlock s).wire = if s.pins.cs then s.wire ++ [.csRelease] else s.wire := rfl
@[simp] theorem resetBlock_panel : (resetBlock s).panel = if s.pins.cs then Panel.lost else s.panel := rfl
@[simp] theorem resetBlock_rx : (resetBlock s).rx = if s.pins.cs then { s.rx with cnt := 0 } else s.rx := rfl
@[simp] theorem resetBlock_plat : (resetBlock s).plat = s.plat := rfl
@[simp] theorem resetBlock_inbox : (resetBlock s).inbox = s.inbox := rfl
@[simp] theorem resetBlock_env : (resetBlock s).env = s.env := rfl
@[simp] theorem resetBlock_free : (resetBlock s).free = s.free := rfl
end resetBlock

end Sys2Proof.Machine
end

