-- ==== Sys2Proof/Laws/Words.lean ====
section
/-! SUPPORT. Bytes, words and the bit loop: splitting and joining 16-bit values, what a wire word decodes to, and that
thirty-two clock pulses deliver the loaded word to the receiver. -/

namespace Sys2Proof

theorem u16_toNat (a b : Byte) : (u16 a b).toNat = a.toNat * 256 + b.toNat := by
  have h : (u16 a b).toNat = a.toNat <<< 8 ||| b.toNat := BitVec.toNat_append a b
  rw [h, ← Nat.shiftLeft_add_eq_or_of_lt b.isLt, Nat.shiftLeft_eq]

theorem hiByte_toNat (v : U16) : (hiByte v).toNat = v.toNat / 256 := by
  have := v.isLt
  rw [hiByte, BitVec.extractLsb'_toNat, Nat.shiftRight_eq_div_pow]
  omega

theorem loByte_toNat (v : U16) : (loByte v).toNat = v.toNat % 256 := by
  rw [loByte, BitVec.extractLsb'_toNat, Nat.shiftRight_zero]

@[simp] theorem u16_hi_lo (v : U16) : u16 (hiByte v) (loByte v) = v := by
  apply BitVec.eq_of_toNat_eq
  rw [u16_toNat, hiByte_toNat, loByte_toNat]
  omega

@[simp] theorem hiByte_u16 (a b : Byte) : hiByte (u16 a b) = a := by
  apply BitVec.eq_of_toNat_eq
  have := b.isLt
  rw [hiByte_toNat, u16_toNat]
  omega

@[simp] theorem loByte_u16 (a b : Byte) : loByte (u16 a b) = b := by
  apply BitVec.eq_of_toNat_eq
  have := b.isLt
  rw [loByte_toNat, u16_toNat]
  omega

theorem w32_toNat (a b : Byte) : (w32 a b).toNat = a.toNat * 2 ^ 24 + b.toNat * 2 ^ 16 := by
  have h : (w32 a b).toNat = (a ++ b).toNat <<< 16 ||| (0#16).toNat := BitVec.toNat_append (a ++ b) 0#16
  have h2 : (a ++ b).toNat = a.toNat * 256 + b.toNat := u16_toNat a b
  rw [h, h2, BitVec.toNat_zero, Nat.or_zero, Nat.shiftLeft_eq]
  omega

@[simp] theorem w32_payload (a b : Byte) : (w32 a b).extractLsb' 16 8 = b := by
  apply BitVec.eq_of_toNat_eq
  have := a.isLt
  have := b.isLt
  rw [BitVec.extractLsb'_toNat, w32_toNat]
  omega

@[simp] theorem cmdWord_payload (c : Byte) : (cmdWord c).extractLsb' 16 8 = c := w32_payload _ _

@[simp] theorem datWord_payload (d : Byte) : (datWord d).extractLsb' 16 8 = d := w32_payload _ _

theorem datWord_ne_cmdWord (d c : Byte) : datWord d ≠ cmdWord c := by
  intro h
  have h2 := congrArg BitVec.toNat h
  have := d.isLt
  have := c.isLt
  rw [datWord, cmdWord, w32_toNat, w32_toNat] at h2
  simp [Config.wrcmdOpcode, Config.wrcolorOpcode] at h2
  omega

namespace Machine

@[simp] theorem Panel.onWord_cmdWord (k : Config) (c : Byte) (p : Panel) :
    p.onWord k (cmdWord c) = p.onEvent k (.cmd c) := by
  simp [Panel.onWord, Panel.onEvent]

@[simp] theorem Panel.onWord_datWord (k : Config) (d : Byte) (p : Panel) :
    p.onWord k (datWord d) = p.onEvent k (.dat d) := by
  simp [Panel.onWord, Panel.onEvent, datWord_ne_cmdWord]

/-- The bits the receiver's register takes from the transmitter's register. -/
def shiftIn : Nat → Word → Word → Word
  | 0, r, _ => r
  | n + 1, r, w => shiftIn n (r <<< 1 ||| BitVec.zeroExtend 32 (BitVec.ofBool w.msb)) (w <<< 1)

theorem shiftIn_getLsbD (n : Nat) (hn : n ≤ 32) (r w : Word) (i : Nat) (hi : i < 32) :
    (shiftIn n r w).getLsbD i = if i < n then w.getLsbD (32 - n + i) else r.getLsbD (i - n) := by
  induction n generalizing r w with
  | zero => simp [shiftIn]
  | succ n ih =>
    rw [shiftIn, ih (by omega)]
    by_cases h1 : i < n
    · have h2 : i < n + 1 := by omega
      have h3 : 32 - n + i < 32 := by omega
      have h5 : ¬ (32 - n + i < 1) := by omega
      have h4 : 32 - n + i - 1 = 32 - (n + 1) + i := by omega
      rw [if_pos h1, if_pos h2, BitVec.getLsbD_shiftLeft, h4]
      simp [h3]
      omega
    · rw [if_neg h1, BitVec.getLsbD_or, BitVec.getLsbD_shiftLeft, BitVec.getLsbD_setWidth, BitVec.getLsbD_ofBool]
      by_cases h2 : i = n
      · subst h2
        have h3 : 32 - (i + 1) + i = 31 := by omega
        rw [if_pos (Nat.lt_succ_self i), h3]
        simp [BitVec.msb_eq_getLsbD_last]
      · have h3 : ¬ i < n + 1 := by omega
        have h4 : i - n ≠ 0 := by omega
        have h5 : i - n < 32 := by omega
        have h6 : i - n - 1 = i - (n + 1) := by omega
        rw [if_neg h3, h6]
        simp [h4, h5]

/-- Thirty-two bits deliver the whole word, bit 31 first (40_transport.md R108, 43_panel_receiver.md R190). -/
theorem shiftIn_word (r w : Word) : shiftIn 32 r w = w := by
  apply BitVec.eq_of_getLsbD_eq
  intro i hi
  rw [shiftIn_getLsbD 32 (by omega) r w i hi, if_pos hi, Nat.sub_self, Nat.zero_add]

theorem shiftIn_succ (n : Nat) (r w : Word) :
    shiftIn (n + 1) r w = shiftIn n r w <<< 1 ||| BitVec.zeroExtend 32 (BitVec.ofBool (w <<< n).msb) := by
  induction n generalizing r w with
  | zero => simp [shiftIn]
  | succ n ih =>
    rw [shiftIn, ih, shiftIn]
    congr 4
    rw [← BitVec.shiftLeft_add]
    congr 1
    omega

end Machine

end Sys2Proof
end

