-- ==== Sys2Proof/Laws/Receiver.lean ====
section
/-! SUPPORT. The receiver: an unknown state absorbs every event; what a well-formed receiver keeps; the window, the settle
waits and the row-major filling of a window. -/

namespace Sys2Proof.Machine

theorem Config.distinct_of {k : Config} (h : k.cmdsDistinct = true) :
    k.cmdCaset ≠ k.cmdRaset ∧ k.cmdCaset ≠ k.cmdRamwr ∧ k.cmdCaset ≠ k.cmdSlpout ∧ k.cmdCaset ≠ k.cmdDispon ∧
      k.cmdRaset ≠ k.cmdRamwr ∧ k.cmdRaset ≠ k.cmdSlpout ∧ k.cmdRaset ≠ k.cmdDispon ∧
      k.cmdRamwr ≠ k.cmdSlpout ∧ k.cmdRamwr ≠ k.cmdDispon ∧ k.cmdSlpout ≠ k.cmdDispon := by
  simpa [Config.cmdsDistinct, Config.namedCmds, and_assoc] using h

theorem Config.wf_distinct {k : Config} (h : k.wf = true) : k.cmdsDistinct = true := by
  simp only [Config.wf, Bool.and_eq_true] at h
  exact h.1.1.1.1.1.1.1.1.1

namespace Panel

/-! ### An unknown receiver -/

theorem takeEvent_unknown (k : Config) (e : Event) {p : Panel} (h : p.unknown = true) : p.takeEvent k e = p := by
  cases e <;> simp [takeEvent, takeCmd, takeDat, onWait, h]

theorem checkOrder_unknown (k : Config) {p : Panel} (h : p.unknown = true) : p.checkOrder k = p := if_pos h

/-- An event is taken, and the order of the table is checked unless it is a wait. -/
theorem onEvent_eq (k : Config) (e : Event) (p : Panel) :
    p.onEvent k e = (p.takeEvent k e).checkOrder k ∨ (∃ ms, e = .wait ms) ∧ p.onEvent k e = p.takeEvent k e := by
  cases e with
  | cmd c => exact .inl rfl
  | dat d => exact .inl rfl
  | wait ms => exact .inr ⟨⟨ms, rfl⟩, rfl⟩

theorem onEvent_unknown (k : Config) (e : Event) {p : Panel} (h : p.unknown = true) : p.onEvent k e = p := by
  rcases onEvent_eq k e p with g | ⟨-, g⟩ <;> rw [g, takeEvent_unknown k e h]
  exact checkOrder_unknown k h

theorem onEvents_unknown (k : Config) (es : List Event) {p : Panel} (h : p.unknown = true) : p.onEvents k es = p := by
  induction es generalizing p with
  | nil => rfl
  | cons e es ih =>
    show (p.onEvent k e).onEvents k es = p
    rw [onEvent_unknown k e h, ih h]

theorem onEvents_cons (k : Config) (e : Event) (es : List Event) (p : Panel) :
    p.onEvents k (e :: es) = (p.onEvent k e).onEvents k es := rfl

theorem onEvents_append (k : Config) (es fs : List Event) (p : Panel) :
    p.onEvents k (es ++ fs) = (p.onEvents k es).onEvents k fs := List.foldl_append

theorem onEvents_nil (k : Config) (p : Panel) : p.onEvents k [] = p := rfl

/-- A stream, but for the order of the table. -/
def takeEvents (k : Config) (es : List Event) (p : Panel) : Panel := es.foldl (fun q e => takeEvent k e q) p

theorem takeEvents_unknown (k : Config) (es : List Event) {p : Panel} (h : p.unknown = true) : p.takeEvents k es = p := by
  induction es generalizing p with
  | nil => rfl
  | cons e es ih =>
    show (p.takeEvent k e).takeEvents k es = p
    rw [takeEvent_unknown k e h, ih h]

theorem takeEvents_cons (k : Config) (e : Event) (es : List Event) (p : Panel) :
    p.takeEvents k (e :: es) = (p.takeEvent k e).takeEvents k es := rfl

theorem takeEvents_append (k : Config) (es fs : List Event) (p : Panel) :
    p.takeEvents k (es ++ fs) = (p.takeEvents k es).takeEvents k fs := List.foldl_append

/-- A stream leaves an unknown receiver unknown. -/
theorem takeEvents_known {k : Config} {es : List Event} {p : Panel} (h : (p.takeEvents k es).unknown = false) :
    p.unknown = false := by
  cases hu : p.unknown with
  | false => rfl
  | true => rw [takeEvents_unknown k es hu, hu] at h; cases h

theorem onEvents_known {k : Config} {es : List Event} {p : Panel} (h : (p.onEvents k es).unknown = false) :
    p.unknown = false := by
  cases hu : p.unknown with
  | false => rfl
  | true => rw [onEvents_unknown k es hu, hu] at h; cases h

theorem checkOrder_inOrder {k : Config} {p : Panel} (h : p.outOfOrder k = false) :
    p.checkOrder k = { p with replayFrom := (p.checkOrder k).replayFrom } := by
  unfold checkOrder
  split
  · rfl
  · rw [h]; simp only [Bool.false_eq_true, if_false]; split <;> rfl

/-- What the check of the order leaves of a receiver it does not lose. -/
theorem checkOrder_known {k : Config} {p : Panel} (h : (p.checkOrder k).unknown = false) :
    p.unknown = false ∧ p.outOfOrder k = false ∧ p.checkOrder k = { p with replayFrom := (p.checkOrder k).replayFrom } := by
  have hu : p.unknown = false := by
    cases hu : p.unknown with
    | false => rfl
    | true => rw [checkOrder_unknown k hu, hu] at h; cases h
  have ho : p.outOfOrder k = false := by
    cases ho : p.outOfOrder k with
    | false => rfl
    | true => simp [checkOrder, hu, ho, lost] at h
  exact ⟨hu, ho, checkOrder_inOrder ho⟩

/-- The table in another order makes the state unknown (43_panel_receiver.md R202). -/
theorem checkOrder_outOfOrder {k : Config} {p : Panel} (h : p.outOfOrder k = true) : (p.checkOrder k).unknown = true := by
  unfold checkOrder
  split
  · assumption
  · rfl

/-- What an event leaves of a receiver that stays known. -/
theorem onEvent_known {k : Config} {e : Event} {p : Panel} (h : (p.onEvent k e).unknown = false) :
    (p.takeEvent k e).unknown = false ∧ p.onEvent k e = { p.takeEvent k e with replayFrom := (p.onEvent k e).replayFrom } := by
  rcases onEvent_eq k e p with g | ⟨-, g⟩
  · rw [g] at h ⊢
    exact ⟨(checkOrder_known h).1, (checkOrder_known h).2.2⟩
  · rw [g] at h ⊢
    exact ⟨h, rfl⟩

/-! ### What a well-formed receiver keeps -/

/-- The receiver's invariant (20_memory.md R51; 43_panel_receiver.md R196, R199, R202). -/
structure Good (k : Config) (p : Panel) : Prop where
  gram : p.GramInPanel k
  window : p.WritesInWindow k
  blank : p.LostIsBlank

theorem good_lost (k : Config) : Good k lost :=
  ⟨(fun c hc => by cases hc), (fun h => by cases h), fun _ => rfl⟩

theorem good_recovered (k : Config) (f : Nat) : Good k (recovered k f) :=
  ⟨(fun c hc => by cases hc), (fun h => by cases h), fun h => by cases h⟩

/-- A change that touches neither the frame memory nor write mode nor `unknown`. -/
theorem Good.still {k : Config} {p q : Panel} (h : Good k p) (hg : q.gram = p.gram) (hw : q.wr = false)
    (hu : q.unknown = false) : Good k q :=
  ⟨(fun c hc => h.gram c (by rw [← hg]; exact hc)), (fun x => by rw [hw] at x; cases x),
    fun x => by rw [hu] at x; cases x⟩

theorem good_takeCmd {k : Config} {p : Panel} (h : Good k p) (c : Byte) : Good k (p.takeCmd k c) := by
  unfold takeCmd
  split
  · exact h
  · next hu =>
    have hu : p.unknown = false := by simpa using hu
    split
    · exact good_lost k
    · unfold obey
      split
      · next hc =>
        unfold enterWrite
        split
        · exact good_lost k
        · next hb =>
          simp only [not_or, Nat.not_lt, Nat.not_le] at hb
          obtain ⟨h1, h2, h3, h4⟩ := hb
          refine ⟨h.gram, fun _ => ⟨by simp [latch, hc], le_rfl, h1, h3, le_rfl, h2, h4⟩, fun x => ?_⟩
          exact absurd (hu.symm.trans x) (by decide)
      · split
        · exact h.still rfl rfl hu
        · split <;> exact h.still rfl rfl hu

theorem good_checkOrder {k : Config} {p : Panel} (h : Good k p) : Good k (p.checkOrder k) := by
  unfold checkOrder
  split
  · exact h
  · next hu =>
    split
    · exact good_lost k
    · split
      · exact ⟨h.gram, h.window, fun x => absurd x hu⟩
      · exact h

theorem mem_write {m : Memory} {i : Nat} {v : Byte} {c : Host.Cell} (h : c ∈ m.write i v) : c.1 = i ∨ c ∈ m := by
  induction m with
  | nil => simp [Memory.write] at h; exact .inl (by rw [h])
  | cons d m ih =>
    obtain ⟨a, b⟩ := d
    unfold Memory.write at h
    split at h
    · rcases List.mem_cons.1 h with rfl | h
      · exact .inl rfl
      · exact .inr h
    · split at h
      · rcases List.mem_cons.1 h with rfl | h
        · exact .inl rfl
        · exact .inr (List.mem_cons_of_mem _ h)
      · rcases List.mem_cons.1 h with rfl | h
        · exact .inr (List.mem_cons_self ..)
        · rcases ih h with h | h
          · exact .inl h
          · exact .inr (List.mem_cons_of_mem _ h)

theorem pixelAddr_lt {k : Config} {r c : Nat} (hr : r < k.height) (hc : c < k.width) :
    pixelAddr k r c + 1 < 2 * (k.width * k.height) := by
  have h1 : (r + 1) * k.width ≤ k.height * k.width := Nat.mul_le_mul_right _ hr
  rw [Nat.add_mul, Nat.one_mul] at h1
  rw [Nat.mul_comm k.width]
  unfold pixelAddr
  omega

theorem good_pixel {k : Config} {p : Panel} (h : Good k p) (hw : p.wr = true) (hu : p.unknown = false) (a b : Byte) :
    Good k (advancePos { p with gram := p.gram.writePixel (pixelAddr k p.row.toNat p.col.toNat) a b, hi := none }) := by
  obtain ⟨h1, h2, h3, h4, h5, h6, h7⟩ := h.window hw
  have hlt := pixelAddr_lt (k := k) (r := p.row.toNat) (c := p.col.toNat) (by omega) (by omega)
  have hg : GramInPanel k { p with gram := p.gram.writePixel (pixelAddr k p.row.toNat p.col.toNat) a b, hi := none } := by
    intro c hc
    rcases mem_write hc with hc | hc
    · omega
    · rcases mem_write hc with hc | hc
      · omega
      · exact h.gram c hc
  have xe := p.xe.isLt
  have ye := p.ye.isLt
  unfold advancePos
  dsimp only
  split
  · next hc =>
    refine ⟨hg, fun _ => ⟨h1, ?_, ?_, h4, h5, h6, h7⟩, fun x => by simp [hu] at x⟩
    · show p.xs.toNat ≤ (p.col + 1).toNat
      rw [BitVec.toNat_add]; simp; omega
    · show (p.col + 1).toNat ≤ p.xe.toNat
      rw [BitVec.toNat_add]; simp; omega
  · split
    · next hr =>
      refine ⟨hg, fun _ => ⟨h1, le_rfl, by show p.xs.toNat ≤ p.xe.toNat; omega, h4, ?_, ?_, h7⟩, fun x => by simp [hu] at x⟩
      · show p.ys.toNat ≤ (p.row + 1).toNat
        rw [BitVec.toNat_add]; simp; omega
      · show (p.row + 1).toNat ≤ p.ye.toNat
        rw [BitVec.toNat_add]; simp; omega
    · exact ⟨hg, (fun x => by simp at x), fun x => by simp [hu] at x⟩

theorem good_countData {k : Config} {p : Panel} (h : Good k p) : Good k (countData p) := by
  unfold countData
  split
  · exact h
  · next hu => exact ⟨h.gram, h.window, fun x => absurd x hu⟩

theorem good_takeDat {k : Config} (hk : k.cmdsDistinct = true) {p : Panel} (h : Good k p) (d : Byte) :
    Good k (p.takeDat k d) := by
  obtain ⟨d1, d2, -, -, d3, -⟩ := Config.distinct_of hk
  unfold takeDat
  split
  · exact h
  · next hu =>
    have hu : p.unknown = false := by simpa using hu
    split
    · exact good_lost k
    · split
      · exact good_lost k
      · next c hl =>
        have hq : Good k { p with log := appendData d p.log } := ⟨h.gram, h.window, fun x => by simp [hu] at x⟩
        have hwr : c ≠ k.cmdRamwr → p.wr = false := by
          intro hc
          cases hw : p.wr with
          | false => rfl
          | true =>
            have := (h.window hw).1
            rw [hl] at this
            exact absurd (Option.some.inj this) hc
        dsimp only
        split
        · next hc =>
          refine good_countData ?_
          unfold casetData
          split <;> first | exact good_lost k | exact hq.still rfl (hwr (by rw [hc]; exact d2)) hu
        · split
          · next hc =>
            refine good_countData ?_
            unfold rasetData
            split <;> first | exact good_lost k | exact hq.still rfl (hwr (by rw [hc]; exact d3)) hu
          · split
            · refine good_countData ?_
              unfold pixelData
              split
              · exact good_lost k
              · next hw =>
                split
                · exact ⟨hq.gram, hq.window, fun x => by simp [hu] at x⟩
                · next a ha => exact good_pixel hq (by simpa using hw) hu a d
            · exact good_countData hq

theorem good_onWait {k : Config} {p : Panel} (h : Good k p) (ms : Nat) : Good k (p.onWait ms) := by
  unfold onWait
  split
  · exact h
  · next hu =>
    have hu : p.unknown = false := by simpa using hu
    split
    · split
      · exact ⟨h.gram, h.window, fun x => by simp [hu] at x⟩
      · exact h
    · split
      · exact ⟨h.gram, h.window, fun x => by simp [hu] at x⟩
      · exact h
    · exact h

/-- Every event keeps the receiver's invariant. -/
theorem good_onEvent {k : Config} (hk : k.cmdsDistinct = true) {p : Panel} (h : Good k p) (e : Event) :
    Good k (p.onEvent k e) := by
  cases e with
  | cmd c => exact good_checkOrder (good_takeCmd h c)
  | dat d => exact good_checkOrder (good_takeDat hk h d)
  | wait ms => exact good_onWait h ms

theorem good_onEvents {k : Config} (hk : k.cmdsDistinct = true) {p : Panel} (h : Good k p) (es : List Event) :
    Good k (p.onEvents k es) := by
  induction es generalizing p with
  | nil => exact h
  | cons e es ih => exact ih (good_onEvent hk h e)

/-- An event leaves the frame memory, or loses it, or writes one pixel. -/
theorem gram_takeEvent (k : Config) (e : Event) (p : Panel) :
    (p.takeEvent k e).gram = p.gram ∨ (p.takeEvent k e).gram = [] ∨ ∃ a x y, (p.takeEvent k e).gram = p.gram.writePixel a x y := by
  cases e with
  | cmd c =>
    unfold takeEvent takeCmd
    dsimp only
    split
    · exact .inl rfl
    split
    · exact .inr (.inl rfl)
    unfold obey
    split
    · unfold enterWrite
      split
      · exact .inr (.inl rfl)
      · exact .inl rfl
    split
    · exact .inl rfl
    split <;> exact .inl rfl
  | dat d =>
    have hc : ∀ q : Panel, (countData q).gram = q.gram := fun q => by unfold countData; split <;> rfl
    unfold takeEvent takeDat
    dsimp only
    split
    · exact .inl rfl
    split
    · exact .inr (.inl rfl)
    split
    · exact .inr (.inl rfl)
    split
    · rw [hc]; unfold casetData; split <;> first | exact .inl rfl | exact .inr (.inl rfl)
    split
    · rw [hc]; unfold rasetData; split <;> first | exact .inl rfl | exact .inr (.inl rfl)
    split
    · rw [hc]
      unfold pixelData
      split
      · exact .inr (.inl rfl)
      split
      · exact .inl rfl
      · next x _ =>
        refine .inr (.inr ⟨pixelAddr k p.row.toNat p.col.toNat, x, d, ?_⟩)
        unfold advancePos
        split
        · rfl
        · split <;> rfl
    · rw [hc]; exact .inl rfl
  | wait ms =>
    unfold takeEvent onWait
    dsimp only
    split
    · exact .inl rfl
    split
    · split <;> exact .inl rfl
    · split <;> exact .inl rfl
    · exact .inl rfl

theorem gram_checkOrder (k : Config) (p : Panel) : (p.checkOrder k).gram = p.gram ∨ (p.checkOrder k).gram = [] := by
  unfold checkOrder
  split
  · exact .inl rfl
  split
  · exact .inr rfl
  split <;> exact .inl rfl

theorem gram_onEvent (k : Config) (e : Event) (p : Panel) :
    (p.onEvent k e).gram = p.gram ∨ (p.onEvent k e).gram = [] ∨ ∃ a x y, (p.onEvent k e).gram = p.gram.writePixel a x y := by
  rcases onEvent_eq k e p with g | ⟨-, g⟩ <;> rw [g]
  · rcases gram_checkOrder k (p.takeEvent k e) with h | h <;> rw [h]
    · exact gram_takeEvent k e p
    · exact .inr (.inl rfl)
  · exact gram_takeEvent k e p

/-- The frame memory keeps its canonical form, whatever the stream. -/
theorem wf_onEvents (k : Config) (es : List Event) {p : Panel} (h : p.gram.wf = true) : (p.onEvents k es).gram.wf = true := by
  induction es generalizing p with
  | nil => exact h
  | cons e es ih =>
    refine ih (p := p.onEvent k e) ?_
    rcases gram_onEvent k e p with g | g | ⟨a, x, y, g⟩ <;> rw [g]
    · exact h
    · rfl
    · exact Memory.wf_writePixel h a x y

/-! ### Commands and their data -/

/-- A known receiver that is owed no settle wait. -/
def Listening (p : Panel) : Prop := p.unknown = false ∧ p.settling = none

theorem takeCmd_listening {k : Config} {p : Panel} {c : Byte} (h : p.Listening) : p.takeCmd k c = obey k c (latch c p) := by
  simp [takeCmd, h.1, h.2]

theorem obey_plain {k : Config} {c : Byte} (h1 : c ≠ k.cmdRamwr) (h2 : c ≠ k.cmdSlpout) (h3 : c ≠ k.cmdDispon)
    (p : Panel) : obey k c p = p := by
  simp [obey, h1, h2, h3]

/-- The two window commands. -/
theorem takeCmd_window {k : Config} {p : Panel} {c : Byte} (h : p.Listening)
    (h1 : c ≠ k.cmdRamwr) (h2 : c ≠ k.cmdSlpout) (h3 : c ≠ k.cmdDispon) : p.takeCmd k c = latch c p := by
  rw [takeCmd_listening h, obey_plain h1 h2 h3]

theorem appendData_append (d c : Byte) (ds : List Byte) (l : List (Byte × List Byte)) :
    appendData d (l ++ [(c, ds)]) = l ++ [(c, ds ++ [d])] := by
  induction l with
  | nil => rfl
  | cons e l ih =>
    cases l with
    | nil => rfl
    | cons e' l => simpa [appendData] using ih

/-- The column window (43_panel_receiver.md R194). -/
theorem takeEvents_caset {k : Config} (hk : k.cmdsDistinct = true) {p : Panel} (h : p.Listening) (a b : U16) :
    p.takeEvents k (groupStream k.cmdCaset (coordBytes a b))
      = { p with
          hi := none, wr := false, last := some k.cmdCaset, n := 4, xs := a, xe := b
          log := p.log ++ [(k.cmdCaset, coordBytes a b)] } := by
  obtain ⟨d1, d2, d3, d4, -⟩ := Config.distinct_of hk
  simp [groupStream, coordBytes, takeEvents, takeEvent, takeCmd_window h d2 d3 d4, latch, takeDat, h.1, h.2, casetData, countData,
    setHi, setLo, appendData_append]

/-- The row window (43_panel_receiver.md R195). -/
theorem takeEvents_raset {k : Config} (hk : k.cmdsDistinct = true) {p : Panel} (h : p.Listening) (a b : U16) :
    p.takeEvents k (groupStream k.cmdRaset (coordBytes a b))
      = { p with
          hi := none, wr := false, last := some k.cmdRaset, n := 4, ys := a, ye := b
          log := p.log ++ [(k.cmdRaset, coordBytes a b)] } := by
  obtain ⟨d1, -, -, -, d2, d3, d4, -⟩ := Config.distinct_of hk
  simp [groupStream, coordBytes, takeEvents, takeEvent, takeCmd_window h d2 d3 d4, latch, takeDat, h.1, h.2, d1.symm, rasetData,
    countData, setHi, setLo, appendData_append]

/-- Memory-write with a window that lies in the panel (43_panel_receiver.md R196). -/
theorem takeEvents_ramwr {k : Config} {p : Panel} (h : p.Listening) (h1 : p.xs.toNat ≤ p.xe.toNat)
    (h2 : p.ys.toNat ≤ p.ye.toNat) (h3 : p.xe.toNat < k.width) (h4 : p.ye.toNat < k.height) :
    p.takeEvents k [.cmd k.cmdRamwr]
      = { p with
          hi := none, wr := true, last := some k.cmdRamwr, n := 0, col := p.xs, row := p.ys
          log := p.log ++ [(k.cmdRamwr, [])] } := by
  have hb : ¬ (p.xe.toNat < p.xs.toNat ∨ p.ye.toNat < p.ys.toNat ∨ k.width ≤ p.xe.toNat ∨ k.height ≤ p.ye.toNat) := by omega
  show p.takeCmd k k.cmdRamwr = _
  rw [takeCmd_listening h]
  simp [obey, enterWrite, latch, hb]

/-- Steps 1 to 3 of a fill at the receiver (43_panel_receiver.md R194 to R196). -/
theorem takeEvents_window {k : Config} (hk : k.cmdsDistinct = true) {p : Panel} (h : p.Listening) {xs ys xe ye : U16}
    (h1 : xs.toNat ≤ xe.toNat) (h2 : ys.toNat ≤ ye.toNat) (h3 : xe.toNat < k.width) (h4 : ye.toNat < k.height) :
    p.takeEvents k (windowStream k xs ys xe ye)
      = { p with
          hi := none, wr := true, last := some k.cmdRamwr, n := 0, xs := xs, xe := xe, ys := ys, ye := ye, col := xs, row := ys
          log := p.log ++ [(k.cmdCaset, coordBytes xs xe)] ++ [(k.cmdRaset, coordBytes ys ye)] ++ [(k.cmdRamwr, [])] } := by
  unfold windowStream
  have hr := fun q => takeEvents_raset hk (p := q)
  have hm := fun q => takeEvents_ramwr (k := k) (p := q)
  rw [takeEvents_append, takeEvents_append, takeEvents_caset hk h, hr _ (by exact ⟨h.1, h.2⟩),
    hm _ (by exact ⟨h.1, h.2⟩) h1 h2 h3 h4]

/-- Data bytes of a command with no meaning to the receiver are only recorded (43_panel_receiver.md R200). -/
theorem takeEvents_opaque {k : Config} {c : Byte} (h1 : c ≠ k.cmdCaset) (h2 : c ≠ k.cmdRaset) (h3 : c ≠ k.cmdRamwr)
    (ds : List Byte) {p : Panel} (h : p.Listening) (hl : p.last = some c) (l : List (Byte × List Byte)) (es : List Byte)
    (hg : p.log = l ++ [(c, es)]) :
    p.takeEvents k (ds.map .dat) = { p with n := p.n + ds.length, log := l ++ [(c, es ++ ds)] } := by
  induction ds generalizing p es with
  | nil => simp [takeEvents, ← hg]
  | cons d ds ih =>
    have hd : p.takeEvent k (.dat d) = { p with n := p.n + 1, log := l ++ [(c, es ++ [d])] } := by
      simp [takeEvent, takeDat, h.1, h.2, hl, h1, h2, h3, countData, hg, appendData_append]
    rw [List.map_cons, takeEvents_cons, hd,
      ih (p := { p with n := p.n + 1, log := l ++ [(c, es ++ [d])] }) ⟨h.1, h.2⟩ hl (es ++ [d]) rfl]
    simp [Nat.add_assoc, Nat.add_comm 1]

/-- A vendor command with its data (43_panel_receiver.md R200; 95_test_vectors.md V79). -/
theorem takeEvents_vendor {k : Config} {c : Byte} (hc : k.namedCmds.contains c = false) (ds : List Byte) {p : Panel}
    (h : p.Listening) :
    p.takeEvents k (groupStream c ds)
      = { p with
          hi := none, wr := false, last := some c, n := ds.length, log := p.log ++ [(c, ds)] } := by
  simp only [Config.namedCmds, List.contains_eq_mem, List.mem_cons, List.not_mem_nil, or_false, decide_eq_false_iff_not, not_or] at hc
  obtain ⟨h1, h2, h3, h4, h5⟩ := hc
  unfold groupStream
  rw [takeEvents_cons, takeEvent, takeCmd_listening h, obey_plain h3 h4 h5,
    takeEvents_opaque h1 h2 h3 ds (p := latch c p) ⟨h.1, h.2⟩ rfl p.log [] rfl]
  simp [latch]

/-! ### Settle waits -/

/-- Sleep-out and its wait (43_panel_receiver.md R203). -/
theorem takeEvents_sleepOut {k : Config} (hk : k.cmdsDistinct = true) {p : Panel} (h : p.Listening) {ms : Nat} (hm : 120 ≤ ms) :
    p.takeEvents k (groupStream k.cmdSlpout [] ++ [.wait ms])
      = { p with
          hi := none, wr := false, last := some k.cmdSlpout, n := 0, awake := true
          log := p.log ++ [(k.cmdSlpout, [])] } := by
  obtain ⟨-, -, -, -, -, -, -, d1, -⟩ := Config.distinct_of hk
  simp [groupStream, takeEvents, takeEvent, takeCmd_listening h, obey, h.1, h.2, d1.symm, latch, onWait, hm]

/-- Display-on and its wait (43_panel_receiver.md R203). -/
theorem takeEvents_displayOn {k : Config} (hk : k.cmdsDistinct = true) {p : Panel} (h : p.Listening) {ms : Nat} (hm : 10 ≤ ms) :
    p.takeEvents k (groupStream k.cmdDispon [] ++ [.wait ms])
      = { p with
          hi := none, wr := false, last := some k.cmdDispon, n := 0, on := true
          log := p.log ++ [(k.cmdDispon, [])] } := by
  obtain ⟨-, -, -, -, -, -, -, -, d1, d2⟩ := Config.distinct_of hk
  simp [groupStream, takeEvents, takeEvent, takeCmd_listening h, obey, h.1, h.2, d1.symm, d2.symm, latch, onWait, hm]

/-- A word that arrives while a settle wait is owed makes the state unknown (43_panel_receiver.md R203). -/
theorem takeEvent_owed {k : Config} {p : Panel} (h : p.settling.isSome = true) (e : Event) (he : ∀ ms, e ≠ .wait ms) :
    (p.takeEvent k e).unknown = true := by
  cases e with
  | cmd c => cases hu : p.unknown <;> simp [takeEvent, takeCmd, h, hu, lost]
  | dat d => cases hu : p.unknown <;> simp [takeEvent, takeDat, h, hu, lost]
  | wait ms => exact absurd rfl (he ms)

/-- Parameters after sleep-out or display-on are words before the wait. -/
theorem takeEvents_owed {k : Config} {p : Panel} (h : p.settling.isSome = true) {d : Byte} {ds : List Byte} {es : List Event} :
    (p.takeEvents k ((d :: ds).map .dat ++ es)).unknown = true := by
  rw [List.map_cons, List.cons_append, takeEvents_cons]
  have := takeEvent_owed (k := k) h (.dat d) (by simp)
  rw [takeEvents_unknown k _ this, this]

/-! ### The order of the table -/

theorem enterWrite_replayFrom {k : Config} {p : Panel} (n : Nat) (h : (enterWrite k p).unknown = false) :
    enterWrite k { p with replayFrom := n } = { enterWrite k p with replayFrom := n } := by
  unfold enterWrite at *
  dsimp only
  split at h
  · cases h
  · next hb => rw [if_neg hb, if_neg hb]

/-- Where a replay is looked for has no part in what an event does, as long as the receiver stays known. -/
theorem takeEvent_replayFrom {k : Config} {e : Event} {p : Panel} (n : Nat) (h : (p.takeEvent k e).unknown = false) :
    takeEvent k e { p with replayFrom := n } = { p.takeEvent k e with replayFrom := n } := by
  cases e with
  | cmd c =>
    unfold takeEvent takeCmd at *
    dsimp only at *
    split at h
    · next hu => exact absurd (hu.symm.trans h) (by decide)
    next hu =>
    rw [if_neg hu]
    split at h
    · cases h
    next hs =>
    rw [if_neg hs, if_neg hu, if_neg hs]
    unfold obey at *
    split at h
    · next hc =>
      rw [if_pos hc, if_pos hc]
      exact enterWrite_replayFrom n h
    · next hc =>
      rw [if_neg hc, if_neg hc]
      split
      · rfl
      · split <;> rfl
  | dat d =>
    have cd : ∀ q : Panel, countData { q with replayFrom := n } = { countData q with replayFrom := n } := by
      intro q; unfold countData; dsimp only; split <;> rfl
    have cu : ∀ q : Panel, (countData q).unknown = q.unknown := by
      intro q; unfold countData; split <;> rfl
    unfold takeEvent takeDat at *
    dsimp only at *
    split at h
    · next hu => exact absurd (hu.symm.trans h) (by decide)
    next hu =>
    rw [if_neg hu, if_neg hu]
    split at h
    · cases h
    next hs =>
    rw [if_neg hs, if_neg hs]
    split at h
    · cases h
    next c hl =>
    rw [hl]
    split at h
    · next h1 =>
      rw [if_pos h1, if_pos h1, ← cd]
      congr 1
      rw [cu] at h
      unfold casetData at *
      dsimp only at *
      split at h <;> first | cases h | (rename_i hn; simp only [hn])
    next h1 =>
    rw [if_neg h1, if_neg h1]
    split at h
    · next h2 =>
      rw [if_pos h2, if_pos h2, ← cd]
      congr 1
      rw [cu] at h
      unfold rasetData at *
      dsimp only at *
      split at h <;> first | cases h | (rename_i hn; simp only [hn])
    next h2 =>
    rw [if_neg h2, if_neg h2]
    split at h
    · next h3 =>
      rw [if_pos h3, if_pos h3, ← cd]
      congr 1
      rw [cu] at h
      unfold pixelData at *
      dsimp only at *
      split at h
      · cases h
      next hw =>
      rw [if_neg hw, if_neg hw]
      split
      · rfl
      · unfold advancePos
        dsimp only
        split
        · rfl
        · split <;> rfl
    next h3 => rw [if_neg h3, if_neg h3, ← cd]
  | wait ms =>
    unfold takeEvent onWait
    dsimp only
    split
    · rfl
    split
    · split <;> rfl
    · split <;> rfl
    · rfl

theorem takeEvents_replayFrom {k : Config} (es : List Event) {p : Panel} (n : Nat) (h : (p.takeEvents k es).unknown = false) :
    takeEvents k es { p with replayFrom := n } = { p.takeEvents k es with replayFrom := n } := by
  induction es generalizing p with
  | nil => rfl
  | cons e es ih =>
    rw [takeEvents_cons] at *
    rw [takeEvents_cons, takeEvent_replayFrom n (takeEvents_known h)]
    exact ih h

/-- A stream that keeps the order does what it does but for the order. -/
theorem onEvents_keepsOrder {k : Config} (es : List Event) {p : Panel} (ho : keepsOrder k es p = true)
    (h : (p.takeEvents k es).unknown = false) :
    p.onEvents k es = { p.takeEvents k es with replayFrom := (p.onEvents k es).replayFrom } := by
  induction es generalizing p with
  | nil => rfl
  | cons e es ih =>
    rw [onEvents_cons, takeEvents_cons] at *
    have key : ∀ m, p.onEvent k e = { p.takeEvent k e with replayFrom := m } → keepsOrder k es (p.onEvent k e) = true →
        (p.onEvent k e).onEvents k es = { (p.takeEvent k e).takeEvents k es with
          replayFrom := ((p.onEvent k e).onEvents k es).replayFrom } := by
      intro m hm hk
      have hr := takeEvents_replayFrom es m h
      have hi := ih hk (by rw [hm, hr]; exact h)
      conv_rhs at hi => rw [hm, hr]
      rw [← hm] at hi
      exact hi
    cases e with
    | cmd c =>
      simp only [keepsOrder, Bool.and_eq_true, Bool.not_eq_true'] at ho
      exact key _ (checkOrder_inOrder ho.1) ho.2
    | dat d =>
      simp only [keepsOrder, Bool.and_eq_true, Bool.not_eq_true'] at ho
      exact key _ (checkOrder_inOrder ho.1) ho.2
    | wait ms => exact key _ rfl ho

/-- A stream that breaks the order leaves the receiver unknown (43_panel_receiver.md R202). -/
theorem onEvents_breaksOrder {k : Config} (es : List Event) {p : Panel} (ho : keepsOrder k es p = false) :
    (p.onEvents k es).unknown = true := by
  induction es generalizing p with
  | nil => cases ho
  | cons e es ih =>
    have key : (p.takeEvent k e).outOfOrder k = true → p.onEvent k e = (p.takeEvent k e).checkOrder k →
        (p.onEvents k (e :: es)).unknown = true := by
      intro h1 h2
      have := checkOrder_outOfOrder h1
      rw [← h2] at this
      rw [onEvents_cons, onEvents_unknown k es this, this]
    cases e with
    | cmd c =>
      simp only [keepsOrder, Bool.and_eq_false_iff, Bool.not_eq_false'] at ho
      rcases ho with h | h
      · exact key h rfl
      · exact ih h
    | dat d =>
      simp only [keepsOrder, Bool.and_eq_false_iff, Bool.not_eq_false'] at ho
      rcases ho with h | h
      · exact key h rfl
      · exact ih h
    | wait ms => exact ih (p := p.onWait ms) ho

/-- A receiver that stays known through a stream got nothing out of order, and is what the stream makes of it. -/
theorem onEvents_taken {k : Config} {es : List Event} {p : Panel} (h : (p.onEvents k es).unknown = false) :
    keepsOrder k es p = true ∧ (p.takeEvents k es).unknown = false ∧
      p.onEvents k es = { p.takeEvents k es with replayFrom := (p.onEvents k es).replayFrom } := by
  have ho : keepsOrder k es p = true := by
    cases ho : keepsOrder k es p with
    | true => rfl
    | false => rw [onEvents_breaksOrder es ho] at h; cases h
  have ht : (p.takeEvents k es).unknown = false := by
    clear ho
    induction es generalizing p with
    | nil => exact h
    | cons e es ih =>
      rw [onEvents_cons] at h
      obtain ⟨h1, h2⟩ := onEvent_known (onEvents_known h)
      have hi := ih h
      rw [takeEvents_cons]
      rw [h2] at hi
      have := takeEvents_replayFrom es (p.takeEvent k e).replayFrom hi
      rw [show ({ ({ p.takeEvent k e with replayFrom := (p.onEvent k e).replayFrom } : Panel) with
        replayFrom := (p.takeEvent k e).replayFrom } : Panel) = p.takeEvent k e from rfl] at this
      rw [this]
      exact hi
  exact ⟨ho, ht, onEvents_keepsOrder es ho ht⟩

/-- A receiver that a stream leaves unknown even but for the order stays unknown. -/
theorem onEvents_of_taken {k : Config} {es : List Event} {p : Panel} (h : (p.takeEvents k es).unknown = true) :
    (p.onEvents k es).unknown = true := by
  cases hu : (p.onEvents k es).unknown with
  | true => rfl
  | false => rw [(onEvents_taken hu).2.1] at h; cases h

/-- The log of commands after a stream (43_panel_receiver.md R192, R193). -/
def logged : List Event → List (Byte × List Byte) → List (Byte × List Byte)
  | [], l => l
  | .cmd c :: es, l => logged es (l ++ [(c, [])])
  | .dat d :: es, l => logged es (appendData d l)
  | .wait _ :: es, l => logged es l

theorem logged_append (es fs : List Event) (l : List (Byte × List Byte)) : logged (es ++ fs) l = logged fs (logged es l) := by
  induction es generalizing l with
  | nil => rfl
  | cons e es ih => cases e <;> exact ih _

theorem logged_dats (ds : List Byte) (c : Byte) (xs : List Byte) (l : List (Byte × List Byte)) :
    logged (ds.map .dat) (l ++ [(c, xs)]) = l ++ [(c, xs ++ ds)] := by
  induction ds generalizing xs with
  | nil => simp [logged]
  | cons d ds ih =>
    show logged (ds.map .dat) (appendData d (l ++ [(c, xs)])) = _
    rw [appendData_append, ih]; simp

theorem logged_group (c : Byte) (ds : List Byte) (l : List (Byte × List Byte)) :
    logged (groupStream c ds) l = l ++ [(c, ds)] := by
  show logged (ds.map .dat) (l ++ [(c, [])]) = _
  rw [logged_dats]; rfl

/-- The record of an event: the log takes it, and where a replay is looked for stays. -/
def Records (e : Event) (p q : Panel) : Prop :=
  q.unknown = p.unknown ∧ q.log = logged [e] p.log ∧ q.replayFrom = p.replayFrom

/-- An event at a known receiver is recorded, or makes the state unknown. -/
theorem takeEvent_cases {k : Config} (e : Event) {p : Panel} (hu : p.unknown = false) :
    Records e p (p.takeEvent k e) ∨ p.takeEvent k e = lost := by
  cases e with
  | cmd c =>
    unfold takeEvent takeCmd obey enterWrite
    dsimp only
    rw [if_neg (by rw [hu]; decide)]
    split
    · exact .inr rfl
    split
    · split
      · exact .inr rfl
      · exact .inl ⟨rfl, rfl, rfl⟩
    split
    · exact .inl ⟨rfl, rfl, rfl⟩
    split <;> exact .inl ⟨rfl, rfl, rfl⟩
  | dat d =>
    have cl : ∀ q : Panel, (q.unknown = p.unknown ∧ q.log = appendData d p.log ∧ q.replayFrom = p.replayFrom) ∨ q = lost →
        Records (.dat d) p (countData q) ∨ countData q = lost := by
      rintro q (h | rfl)
      · left
        have h := h
        unfold countData
        split <;> exact h
      · exact .inr rfl
    unfold takeEvent takeDat casetData rasetData pixelData advancePos
    dsimp only
    rw [if_neg (by rw [hu]; decide)]
    split
    · exact .inr rfl
    split
    · exact .inr rfl
    split
    · refine cl _ ?_
      split <;> first | exact .inl ⟨rfl, rfl, rfl⟩ | exact .inr rfl
    split
    · refine cl _ ?_
      split <;> first | exact .inl ⟨rfl, rfl, rfl⟩ | exact .inr rfl
    split
    · refine cl _ ?_
      split
      · exact .inr rfl
      split
      · exact .inl ⟨rfl, rfl, rfl⟩
      split
      · exact .inl ⟨rfl, rfl, rfl⟩
      split <;> exact .inl ⟨rfl, rfl, rfl⟩
    · exact cl _ (.inl ⟨rfl, rfl, rfl⟩)
  | wait ms =>
    left
    unfold takeEvent onWait
    dsimp only
    split
    · exact ⟨rfl, rfl, rfl⟩
    split
    · split <;> exact ⟨rfl, rfl, rfl⟩
    · split <;> exact ⟨rfl, rfl, rfl⟩
    · exact ⟨rfl, rfl, rfl⟩

theorem records_takeEvent {k : Config} {e : Event} {p : Panel} (h : (p.takeEvent k e).unknown = false) :
    Records e p (p.takeEvent k e) := by
  cases hu : p.unknown with
  | true => rw [takeEvent_unknown k e hu, hu] at h; cases h
  | false =>
    rcases takeEvent_cases (k := k) e hu with g | g
    · exact g
    · rw [g] at h; cases h

theorem logged_cons (e : Event) (es : List Event) (l : List (Byte × List Byte)) :
    logged (e :: es) l = logged es (logged [e] l) := logged_append [e] es l

theorem log_takeEvents {k : Config} (es : List Event) {p : Panel} (h : (p.takeEvents k es).unknown = false) :
    (p.takeEvents k es).log = logged es p.log := by
  induction es generalizing p with
  | nil => rfl
  | cons e es ih =>
    rw [takeEvents_cons] at *
    rw [ih h, (records_takeEvent (takeEvents_known h)).2.1, ← logged_cons]

theorem length_appendData (d : Byte) (l : List (Byte × List Byte)) : (appendData d l).length = l.length := by
  induction l with
  | nil => rfl
  | cons e l ih =>
    cases l with
    | nil => rfl
    | cons e' l => simpa [appendData] using ih

theorem heads_appendData (d : Byte) (l : List (Byte × List Byte)) : (appendData d l).map Prod.fst = l.map Prod.fst := by
  induction l with
  | nil => rfl
  | cons e l ih =>
    cases l with
    | nil => rfl
    | cons e' l => simpa [appendData] using ih

/-- The commands of a stream. -/
def commandsOf (es : List Event) : List Byte :=
  es.filterMap fun e => match e with | .cmd c => some c | .dat _ => none | .wait _ => none

theorem length_logged (es : List Event) (l : List (Byte × List Byte)) :
    (logged es l).length = l.length + (commandsOf es).length := by
  induction es generalizing l with
  | nil => rfl
  | cons e es ih =>
    cases e with
    | cmd c => simp only [logged, ih, List.length_append]; simp [commandsOf]; omega
    | dat d => simp only [logged, ih, length_appendData]; rfl
    | wait ms => simp only [logged, ih]; rfl

theorem lastEntries_length (k : Config) (p : Panel) : (lastEntries k p).length ≤ p.log.length - p.replayFrom := by
  unfold lastEntries
  dsimp only
  rw [List.length_drop]
  have := List.length_filter_le (fun g => (tableLog k).contains g) (p.log.drop p.replayFrom)
  rw [List.length_drop] at this
  omega

/-- Fewer commands than the table has entries are no replay of it. -/
theorem checkOrder_short {k : Config} {p : Panel} (h : p.log.length - p.replayFrom < k.table.length) :
    p.outOfOrder k = false ∧ p.checkOrder k = p := by
  have hl := lastEntries_length k p
  have hn : (tableLog k).length = k.table.length := by simp [tableLog]
  have h1 : lastEntries k p ≠ tableLog k := fun e => by have := congrArg List.length e; omega
  have h2 : p.outOfOrder k = false := by
    unfold outOfOrder
    rw [Bool.and_eq_false_iff]
    left
    rw [← Bool.not_eq_true, List.isPerm_iff]
    intro e
    have := e.length_eq
    omega
  exact ⟨h2, by simp [checkOrder, h1, h2]⟩

/-- Without one of its entries the table was not replayed. -/
theorem checkOrder_noSleepOut {k : Config} {p : Panel} (hm : k.cmdSlpout ∈ k.table.map fun e => e.cmd) (h : p.NoSleepOut k) :
    p.outOfOrder k = false ∧ p.checkOrder k = p := by
  have hx : ∀ g ∈ lastEntries k p, g.1 ≠ k.cmdSlpout := by
    intro g hg e
    have := (List.mem_filter.1 (List.mem_of_mem_drop hg)).1
    exact h (e ▸ List.mem_map_of_mem this)
  obtain ⟨e, he, hc⟩ := List.mem_map.1 hm
  have hin : (e.cmd, e.params) ∈ tableLog k := List.mem_map.2 ⟨e, he, rfl⟩
  have h1 : lastEntries k p ≠ tableLog k := fun q => hx _ (q ▸ hin) hc
  have h2 : p.outOfOrder k = false := by
    unfold outOfOrder
    rw [Bool.and_eq_false_iff]
    left
    rw [← Bool.not_eq_true, List.isPerm_iff]
    exact fun q => hx _ (q.mem_iff.2 hin) hc
  exact ⟨h2, by simp [checkOrder, h1, h2]⟩

/-- An event that is no sleep-out command sends none. -/
theorem noSleepOut_takeEvent {k : Config} {e : Event} {p : Panel} (he : e ≠ .cmd k.cmdSlpout) (h : p.NoSleepOut k) :
    (p.takeEvent k e).NoSleepOut k := by
  cases hu : p.unknown with
  | true => rw [takeEvent_unknown k e hu]; exact h
  | false =>
    rcases takeEvent_cases (k := k) e hu with ⟨-, hl, hf⟩ | g
    · unfold NoSleepOut at *
      rw [hl, hf, List.map_drop]
      rw [List.map_drop] at h
      cases e with
      | cmd c =>
        show _ ∉ (((p.log ++ [(c, [])]).map Prod.fst).drop p.replayFrom)
        rw [List.map_append, List.drop_append]
        intro hm
        rcases List.mem_append.1 hm with hm | hm
        · exact h hm
        · have := List.mem_of_mem_drop hm
          simp at this
          exact he (by rw [this])
      | dat d =>
        show _ ∉ ((appendData d p.log).map Prod.fst).drop p.replayFrom
        rw [heads_appendData]
        exact h
      | wait ms => exact h
    · rw [g]; simp [NoSleepOut, lost]

/-- A stream without a sleep-out command, at a receiver that got none since a replay is looked for, keeps the order. -/
theorem keepsOrder_noSleepOut {k : Config} (hm : k.cmdSlpout ∈ k.table.map fun e => e.cmd) (es : List Event)
    (he : .cmd k.cmdSlpout ∉ es) {p : Panel} (h : p.NoSleepOut k) : keepsOrder k es p = true := by
  induction es generalizing p with
  | nil => rfl
  | cons e es ih =>
    have h1 := noSleepOut_takeEvent (k := k) (e := e) (fun x => he (by rw [x]; simp)) h
    have h2 := checkOrder_noSleepOut hm h1
    have he' : .cmd k.cmdSlpout ∉ es := fun x => he (List.mem_cons_of_mem _ x)
    cases e with
    | cmd c =>
      unfold keepsOrder
      rw [show (p.takeCmd k c).outOfOrder k = false from h2.1]
      exact ih he' (p := p.onCmd k c) (by show NoSleepOut k (checkOrder k (p.takeEvent k (.cmd c))); rw [h2.2]; exact h1)
    | dat d =>
      unfold keepsOrder
      rw [show (p.takeDat k d).outOfOrder k = false from h2.1]
      exact ih he' (p := p.onDat k d) (by show NoSleepOut k (checkOrder k (p.takeEvent k (.dat d))); rw [h2.2]; exact h1)
    | wait ms => exact ih he' h1

/-- A stream too short to complete a replay leaves where it is looked for. -/
theorem replayFrom_short {k : Config} (es : List Event) {p : Panel} (hu : (p.onEvents k es).unknown = false)
    (h : p.log.length - p.replayFrom + (commandsOf es).length < k.table.length) :
    (p.onEvents k es).replayFrom = p.replayFrom := by
  induction es generalizing p with
  | nil => rfl
  | cons e es ih =>
    rw [onEvents_cons] at *
    obtain ⟨-, hl, hf⟩ := records_takeEvent (onEvent_known (onEvents_known hu)).1
    have hc : (commandsOf (e :: es)).length = (commandsOf [e]).length + (commandsOf es).length := by
      cases e <;> simp [commandsOf]; omega
    have hn : (p.takeEvent k e).log.length = p.log.length + (commandsOf [e]).length := by rw [hl, length_logged]
    have he : p.onEvent k e = p.takeEvent k e := by
      rcases onEvent_eq k e p with g | ⟨-, g⟩
      · rw [g, (checkOrder_short (by omega)).2]
      · exact g
    rw [he] at hu ⊢
    rw [ih hu (by omega), hf]

/-- The table in its order is a whole replay: the next one is looked for after it (43_panel_receiver.md R200). -/
theorem checkOrder_whole {k : Config} {p : Panel} {l : List (Byte × List Byte)} (hl : p.log = l ++ tableLog k)
    (hf : p.replayFrom = l.length) (hu : p.unknown = false) : p.checkOrder k = { p with replayFrom := p.log.length } := by
  have h : lastEntries k p = tableLog k := by
    have hd : p.log.drop p.replayFrom = tableLog k := by rw [hl, hf]; simp
    have hf : (tableLog k).filter (fun g => (tableLog k).contains g) = tableLog k := List.filter_eq_self.2 fun g hg => by simpa using hg
    unfold lastEntries
    dsimp only
    rw [hd, hf]; simp
  have ho : p.outOfOrder k = false := by unfold outOfOrder; rw [h]; simp
  unfold checkOrder
  rw [if_neg (by rw [hu]; decide), if_neg (by rw [ho]; decide), if_pos h]

/-! ### Filling a window -/

/-- A receiver in write mode at pixel `i` of its window, in row-major order. -/
structure Writing (k : Config) (p : Panel) (i : Nat) : Prop where
  known : p.Listening
  last : p.last = some k.cmdRamwr
  wr : p.wr = true
  hi : p.hi = none
  xs : p.xs.toNat ≤ p.xe.toNat
  ys : p.ys.toNat ≤ p.ye.toNat
  xe : p.xe.toNat < k.width
  ye : p.ye.toNat < k.height
  row : p.row.toNat = p.ys.toNat + i / (p.xe.toNat - p.xs.toNat + 1)
  col : p.col.toNat = p.xs.toNat + i % (p.xe.toNat - p.xs.toNat + 1)
  inside : i < (p.xe.toNat - p.xs.toNat + 1) * (p.ye.toNat - p.ys.toNat + 1)

/-- The number of pixels of the window. -/
def windowPixels (p : Panel) : Nat := (p.xe.toNat - p.xs.toNat + 1) * (p.ye.toNat - p.ys.toNat + 1)

/-- The bytes of a pixel, in write mode (43_panel_receiver.md R197). -/
theorem takeEvents_pixel {k : Config} (hk : k.cmdsDistinct = true) {p : Panel} {i : Nat} (h : Writing k p i) (a b : Byte) :
    p.takeEvents k [.dat a, .dat b]
      = advancePos { p with
          gram := p.gram.writePixel (pixelAddr k p.row.toNat p.col.toNat) a b, hi := none, n := p.n + 2
          log := appendData b (appendData a p.log) } := by
  obtain ⟨-, d1, -, -, d2, -⟩ := Config.distinct_of hk
  simp [takeEvents, takeEvent, takeDat, h.known.1, h.known.2, h.last, d1.symm, d2.symm, pixelData, h.wr, h.hi, countData, advancePos]
  split <;> [skip; split] <;> simp

theorem div_mod_succ {i w : Nat} (hw : 0 < w) (h : i % w + 1 < w) : (i + 1) / w = i / w ∧ (i + 1) % w = i % w + 1 := by
  have h1 := Nat.div_add_mod i w
  have h2 : i + 1 = i % w + 1 + w * (i / w) := by omega
  constructor
  · rw [h2, Nat.add_mul_div_left _ _ hw, Nat.div_eq_of_lt h, Nat.zero_add]
  · rw [h2, Nat.add_mul_mod_self_left, Nat.mod_eq_of_lt h]

theorem div_mod_wrap {i w : Nat} (hw : 0 < w) (h : i % w + 1 = w) : (i + 1) / w = i / w + 1 ∧ (i + 1) % w = 0 := by
  have h1 := Nat.div_add_mod i w
  have h2 : i + 1 = 0 + w * (i / w + 1) := by rw [Nat.mul_add]; omega
  constructor
  · rw [h2, Nat.add_mul_div_left _ _ hw, Nat.zero_div, Nat.zero_add]
  · rw [h2, Nat.add_mul_mod_self_left, Nat.zero_mod]

/-- Advancing goes to the next pixel in row-major order, or ends write mode after the last (43_panel_receiver.md R199). -/
theorem writing_advance {k : Config} {p : Panel} {i : Nat} (h : Writing k p i) :
    (i + 1 < p.windowPixels → Writing k p.advancePos (i + 1) ∧
      p.advancePos = { p with col := p.advancePos.col, row := p.advancePos.row }) ∧
    (i + 1 = p.windowPixels → p.advancePos = { p with wr := false }) := by
  have hx := p.xe.isLt
  have hy := p.ye.isLt
  have hw : 0 < p.xe.toNat - p.xs.toNat + 1 := Nat.succ_pos _
  have hm := Nat.mod_lt i hw
  have h1 := h.xs
  have h2 := h.ys
  have hrow := h.row
  have hcol := h.col
  have hdm := Nat.div_add_mod i (p.xe.toNat - p.xs.toNat + 1)
  have hin := h.inside
  have hdiv : i / (p.xe.toNat - p.xs.toNat + 1) < p.ye.toNat - p.ys.toNat + 1 := Nat.div_lt_of_lt_mul hin
  by_cases hc : p.col.toNat < p.xe.toNat
  · have ha : p.advancePos = { p with col := p.col + 1 } := by unfold advancePos; rw [if_pos hc]
    have hs := div_mod_succ (i := i) hw (by omega)
    refine ⟨fun hi => ⟨?_, by rw [ha]⟩, fun hi => ?_⟩
    · rw [ha]
      refine ⟨h.known, h.last, h.wr, h.hi, h1, h2, h.xe, h.ye, ?_, ?_, hi⟩
      · show p.row.toNat = p.ys.toNat + (i + 1) / (p.xe.toNat - p.xs.toNat + 1)
        rw [hs.1, hrow]
      · show (p.col + 1).toNat = p.xs.toNat + (i + 1) % (p.xe.toNat - p.xs.toNat + 1)
        rw [hs.2, BitVec.toNat_add]
        simp
        omega
    · exfalso
      have hle : (p.xe.toNat - p.xs.toNat + 1) * (i / (p.xe.toNat - p.xs.toNat + 1) + 1)
          ≤ (p.xe.toNat - p.xs.toNat + 1) * (p.ye.toNat - p.ys.toNat + 1) := Nat.mul_le_mul_left _ hdiv
      unfold windowPixels at hi
      rw [Nat.mul_add] at hle
      omega
  · have hs := div_mod_wrap (i := i) hw (by omega)
    by_cases hr : p.row.toNat < p.ye.toNat
    · have ha : p.advancePos = { p with col := p.xs, row := p.row + 1 } := by
        unfold advancePos; rw [if_neg hc, if_pos hr]
      refine ⟨fun hi => ⟨?_, by rw [ha]⟩, fun hi => ?_⟩
      · rw [ha]
        refine ⟨h.known, h.last, h.wr, h.hi, h1, h2, h.xe, h.ye, ?_, ?_, hi⟩
        · show (p.row + 1).toNat = p.ys.toNat + (i + 1) / (p.xe.toNat - p.xs.toNat + 1)
          rw [hs.1, BitVec.toNat_add]
          simp
          omega
        · show p.xs.toNat = p.xs.toNat + (i + 1) % (p.xe.toNat - p.xs.toNat + 1)
          rw [hs.2, Nat.add_zero]
      · exfalso
        have hlt : (i + 1) / (p.xe.toNat - p.xs.toNat + 1) < p.ye.toNat - p.ys.toNat + 1 := by rw [hs.1]; omega
        rw [hi, windowPixels, Nat.mul_div_cancel_left _ hw] at hlt
        omega
    · have ha : p.advancePos = { p with wr := false } := by unfold advancePos; rw [if_neg hc, if_neg hr]
      refine ⟨fun hi => ?_, fun _ => ha⟩
      exfalso
      have hlt := Nat.div_lt_of_lt_mul hi
      rw [hs.1] at hlt
      omega

/-- The pixel index of a byte inside a window decides whether it lies at pixel `i`. -/
theorem at_pixel {k : Config} {p : Panel} {i : Nat} (h : Writing k p i) (a : Nat) :
    a / 2 = p.row.toNat * k.width + p.col.toNat ↔
      (p.xs.toNat ≤ a / 2 % k.width ∧ a / 2 % k.width ≤ p.xe.toNat ∧ p.ys.toNat ≤ a / 2 / k.width ∧
        a / 2 / k.width ≤ p.ye.toNat) ∧
      (a / 2 / k.width - p.ys.toNat) * (p.xe.toNat - p.xs.toNat + 1) + (a / 2 % k.width - p.xs.toNat) = i := by
  have hw : 0 < p.xe.toNat - p.xs.toNat + 1 := Nat.succ_pos _
  have hm := Nat.mod_lt i hw
  have h1 := h.xs
  have h2 := h.ys
  have h3 := h.xe
  have hrow := h.row
  have hcol := h.col
  have hdm := Nat.div_add_mod i (p.xe.toNat - p.xs.toNat + 1)
  have hdiv : i / (p.xe.toNat - p.xs.toNat + 1) < p.ye.toNat - p.ys.toNat + 1 := Nat.div_lt_of_lt_mul h.inside
  have hW : 0 < k.width := by omega
  generalize hwd : p.xe.toNat - p.xs.toNat + 1 = w at *
  constructor
  · intro ha
    have hc : p.col.toNat < k.width := by omega
    have e1 : a / 2 / k.width = p.row.toNat := by
      rw [ha, Nat.add_comm, Nat.add_mul_div_right _ _ hW, Nat.div_eq_of_lt hc, Nat.zero_add]
    have e2 : a / 2 % k.width = p.col.toNat := by
      rw [ha, Nat.add_comm, Nat.add_mul_mod_self_right, Nat.mod_eq_of_lt hc]
    rw [e1, e2]
    generalize i / w = D at *
    generalize i % w = M at *
    refine ⟨by omega, ?_⟩
    have e3 : p.row.toNat - p.ys.toNat = D := by omega
    have e4 : p.col.toNat - p.xs.toNat = M := by omega
    rw [e3, e4, Nat.mul_comm]
    exact hdm
  · rintro ⟨⟨c1, c2, c3, c4⟩, hi⟩
    have hdm2 := Nat.div_add_mod (a / 2) k.width
    generalize a / 2 / k.width = R at *
    generalize a / 2 % k.width = C at *
    have hlt : C - p.xs.toNat < w := by omega
    have e1 : i / w = R - p.ys.toNat := by
      rw [← hi, Nat.add_comm, Nat.add_mul_div_right _ _ hw, Nat.div_eq_of_lt hlt, Nat.zero_add]
    have e2 : i % w = C - p.xs.toNat := by
      rw [← hi, Nat.add_comm, Nat.add_mul_mod_self_right, Nat.mod_eq_of_lt hlt]
    rw [e1] at hrow
    rw [e2] at hcol
    have e3 : p.row.toNat = R := by omega
    have e4 : p.col.toNat = C := by omega
    rw [e3, e4, Nat.mul_comm R]
    exact hdm2.symm

/-- Everything but the position, the frame memory and the record of data is as before. -/
def SameWindow (p q : Panel) : Prop :=
  q.unknown = p.unknown ∧ q.settling = p.settling ∧ q.last = p.last ∧ q.xs = p.xs ∧ q.xe = p.xe ∧ q.ys = p.ys ∧
    q.ye = p.ye ∧ q.awake = p.awake ∧ q.on = p.on

/-- A pixel that is written, byte by byte. -/
theorem read_pixel (g : Memory) (k : Config) (r c : Nat) (v : U16) (a : Nat) :
    (g.writePixel (pixelAddr k r c) (hiByte v) (loByte v)).read a
      = if a / 2 = r * k.width + c then some (pixelByte v a) else g.read a := by
  rw [Memory.read_writePixel, pixelAddr, pixelByte]
  generalize r * k.width + c = m
  by_cases h1 : a = 2 * m + 1
  · have h2 : a / 2 = m := by omega
    have h3 : ¬ a % 2 = 0 := by omega
    rw [if_pos h1, if_pos h2, if_neg h3]
  · by_cases h4 : a = 2 * m
    · have h2 : a / 2 = m := by omega
      have h3 : a % 2 = 0 := by omega
      rw [if_neg h1, if_pos h4, if_pos h2, if_pos h3]
    · have h2 : ¬ a / 2 = m := by omega
      rw [if_neg h1, if_neg h4, if_neg h2]

/-- The index of a pixel of the window is less than the number of its pixels. -/
theorem index_lt {xs xe ys ye r c : Nat} (h : xs ≤ c ∧ c ≤ xe ∧ ys ≤ r ∧ r ≤ ye) :
    (r - ys) * (xe - xs + 1) + (c - xs) < (xe - xs + 1) * (ye - ys + 1) := by
  have h1 : (r - ys) * (xe - xs + 1) ≤ (ye - ys) * (xe - xs + 1) := Nat.mul_le_mul_right _ (by omega)
  rw [Nat.mul_add (xe - xs + 1) (ye - ys), Nat.mul_comm (xe - xs + 1) (ye - ys), Nat.mul_one]
  have h2 : c - xs < xe - xs + 1 := by omega
  exact Nat.add_lt_add_of_le_of_lt h1 h2

/-- Equal pixels sent to the end of the window: its remaining pixels are written once each, write mode ends
(43_panel_receiver.md R199). -/
theorem takeEvents_pixels {k : Config} (hk : k.cmdsDistinct = true) (c : U16) (n : Nat) {p : Panel} {i : Nat} (h : Writing k p i)
    (hn : i + (n + 1) = p.windowPixels) :
    SameWindow p (p.takeEvents k ((pixelBytes c (n + 1)).map .dat)) ∧
      (p.takeEvents k ((pixelBytes c (n + 1)).map .dat)).wr = false ∧
      (p.takeEvents k ((pixelBytes c (n + 1)).map .dat)).hi = none ∧
      ∀ a, (p.takeEvents k ((pixelBytes c (n + 1)).map .dat)).gram.read a =
        if (p.xs.toNat ≤ a / 2 % k.width ∧ a / 2 % k.width ≤ p.xe.toNat ∧ p.ys.toNat ≤ a / 2 / k.width ∧
            a / 2 / k.width ≤ p.ye.toNat) ∧
          i ≤ (a / 2 / k.width - p.ys.toNat) * (p.xe.toNat - p.xs.toNat + 1) + (a / 2 % k.width - p.xs.toNat)
        then some (pixelByte c a) else p.gram.read a := by
  induction n generalizing p i with
  | zero =>
    have hw : Writing k { p with
        gram := p.gram.writePixel (pixelAddr k p.row.toNat p.col.toNat) (hiByte c) (loByte c), hi := none, n := p.n + 2
        log := appendData (loByte c) (appendData (hiByte c) p.log) } i :=
      ⟨h.known, h.last, h.wr, rfl, h.xs, h.ys, h.xe, h.ye, h.row, h.col, h.inside⟩
    have hp := takeEvents_pixel hk h (hiByte c) (loByte c)
    rw [(writing_advance hw).2 hn] at hp
    have hl : (pixelBytes c (0 + 1)).map Event.dat = [.dat (hiByte c), .dat (loByte c)] := rfl
    rw [hl, hp]
    refine ⟨⟨rfl, rfl, rfl, rfl, rfl, rfl, rfl, rfl, rfl⟩, rfl, rfl, fun a => ?_⟩
    rw [read_pixel]
    refine if_congr ?_ rfl rfl
    rw [at_pixel h a]
    refine and_congr_right fun hr => ⟨fun e => by omega, fun e => ?_⟩
    have := index_lt hr
    unfold windowPixels at hn
    omega
  | succ n ih =>
    have hw : Writing k { p with
        gram := p.gram.writePixel (pixelAddr k p.row.toNat p.col.toNat) (hiByte c) (loByte c), hi := none, n := p.n + 2
        log := appendData (loByte c) (appendData (hiByte c) p.log) } i :=
      ⟨h.known, h.last, h.wr, rfl, h.xs, h.ys, h.xe, h.ye, h.row, h.col, h.inside⟩
    have hp := takeEvents_pixel hk h (hiByte c) (loByte c)
    obtain ⟨ha, he⟩ := (writing_advance hw).1 (by show i + 1 < p.windowPixels; omega)
    rw [he] at ha hp
    have hl : (pixelBytes c (n + 1 + 1)).map Event.dat
        = [.dat (hiByte c), .dat (loByte c)] ++ (pixelBytes c (n + 1)).map .dat := rfl
    rw [hl, takeEvents_append, hp]
    obtain ⟨h1, h2, h3, h4⟩ := ih ha (by show i + 1 + (n + 1) = p.windowPixels; omega)
    refine ⟨h1, h2, h3, fun a => ?_⟩
    rw [h4 a]
    dsimp only
    rw [read_pixel]
    have hat := at_pixel h a
    by_cases hr : p.xs.toNat ≤ a / 2 % k.width ∧ a / 2 % k.width ≤ p.xe.toNat ∧ p.ys.toNat ≤ a / 2 / k.width ∧
        a / 2 / k.width ≤ p.ye.toNat
    · simp only [hr, true_and, and_self] at hat ⊢
      generalize (a / 2 / k.width - p.ys.toNat) * (p.xe.toNat - p.xs.toNat + 1) + (a / 2 % k.width - p.xs.toNat) = j at *
      by_cases h5 : i + 1 ≤ j
      · rw [if_pos h5, if_pos (by omega)]
      · by_cases h6 : j = i
        · rw [if_neg h5, if_pos (hat.2 h6), if_pos (by omega)]
        · rw [if_neg h5, if_neg (fun x => h6 (hat.1 x)), if_neg (by omega)]
    · have hno : ¬ a / 2 = p.row.toNat * k.width + p.col.toNat := fun x => hr (hat.1 x).1
      rw [if_neg (fun x => hr x.1), if_neg hno, if_neg (fun x => hr x.1)]

/-- A window and all its pixels (43_panel_receiver.md R194 to R199). -/
theorem takeEvents_filled {k : Config} (hk : k.cmdsDistinct = true) {p : Panel} (h : p.Listening) {xs ys xe ye : U16}
    (h1 : xs.toNat ≤ xe.toNat) (h2 : ys.toNat ≤ ye.toNat) (h3 : xe.toNat < k.width) (h4 : ye.toNat < k.height) (c : U16) :
    let q := p.takeEvents k (windowStream k xs ys xe ye
      ++ (pixelBytes c ((xe.toNat - xs.toNat + 1) * (ye.toNat - ys.toNat + 1))).map .dat)
    Listening q ∧ q.wr = false ∧ q.hi = none ∧ q.last = some k.cmdRamwr ∧ q.xs = xs ∧ q.xe = xe ∧ q.ys = ys ∧ q.ye = ye ∧
      q.awake = p.awake ∧ q.on = p.on ∧ Painted k xs.toNat ys.toNat xe.toNat ye.toNat c p.gram q.gram := by
  dsimp only
  rw [takeEvents_append, takeEvents_window hk h h1 h2 h3 h4]
  generalize hq : ({ p with
    hi := none, wr := true, last := some k.cmdRamwr, n := 0, xs := xs, xe := xe, ys := ys, ye := ye, col := xs, row := ys
    log := p.log ++ [(k.cmdCaset, coordBytes xs xe)] ++ [(k.cmdRaset, coordBytes ys ye)] ++ [(k.cmdRamwr, [])] } : Panel) = q
  have e1 : q.xs = xs := by rw [← hq]
  have e2 : q.xe = xe := by rw [← hq]
  have e3 : q.ys = ys := by rw [← hq]
  have e4 : q.ye = ye := by rw [← hq]
  have hw : Writing k q 0 := by
    rw [← hq]
    refine ⟨⟨h.1, h.2⟩, rfl, rfl, rfl, h1, h2, h3, h4, ?_, ?_, ?_⟩
    · simp
    · simp
    · exact Nat.mul_pos (Nat.succ_pos _) (Nat.succ_pos _)
  have hn : (xe.toNat - xs.toNat + 1) * (ye.toNat - ys.toNat + 1) = q.windowPixels := by
    unfold windowPixels; rw [e1, e2, e3, e4]
  obtain ⟨n, hs⟩ : ∃ n, q.windowPixels = n + 1 := ⟨q.windowPixels - 1, by
    have : 0 < q.windowPixels := Nat.mul_pos (Nat.succ_pos _) (Nat.succ_pos _)
    omega⟩
  rw [hn, hs]
  obtain ⟨⟨s1, s2, s3, s4, s5, s6, s7, s8, s9⟩, g2, g3, g4⟩ := takeEvents_pixels hk c n hw (by omega)
  refine ⟨⟨by rw [s1, ← hq]; exact h.1, by rw [s2, ← hq]; exact h.2⟩, g2, g3, by rw [s3, ← hq], by rw [s4, e1], by rw [s5, e2],
    by rw [s6, e3], by rw [s7, e4], by rw [s8, ← hq], by rw [s9, ← hq], fun a => ?_⟩
  rw [g4 a, e1, e2, e3, e4]
  simp only [Nat.zero_le, and_true]
  rw [← hq]

/-- Two rectangles with the same columns and adjacent rows. -/
theorem Painted.trans {k : Config} {x0 y0 x1 y1 y2 : Nat} {c : U16} {g g' g'' : Memory} (h : Painted k x0 y0 x1 y1 c g g')
    (h' : Painted k x0 (y1 + 1) x1 y2 c g' g'') (hy : y0 ≤ y1) (hy2 : y1 ≤ y2) : Painted k x0 y0 x1 y2 c g g'' := by
  intro a
  rw [h' a, h a]
  by_cases hx : x0 ≤ a / 2 % k.width ∧ a / 2 % k.width ≤ x1
  · simp only [hx, true_and]
    generalize a / 2 / k.width = r
    by_cases h1 : y1 + 1 ≤ r ∧ r ≤ y2
    · rw [if_pos h1, if_pos (by omega)]
    · by_cases h2 : y0 ≤ r ∧ r ≤ y1
      · rw [if_neg h1, if_pos h2, if_pos (by omega)]
      · rw [if_neg h1, if_neg h2, if_neg (by omega)]
  · rw [if_neg (fun x => hx ⟨x.1, x.2.1⟩), if_neg (fun x => hx ⟨x.1, x.2.1⟩), if_neg (fun x => hx ⟨x.1, x.2.1⟩)]

end Panel

end Sys2Proof.Machine
end

