-- ==== Sys2Proof/Laws/Transport.lean ====
section
/-! SUPPORT. What the transport's operations can do, each said once: the bit loop, one word, the primitives, sequences of
them and waits. Later proofs cite `Flow.Runs` and never unfold the transport. -/

namespace Sys2Proof.Machine

/-- Everything the transport never touches, and time that does not run backwards. -/
structure Kept (s t : State) : Prop where
  cfg : t.cfg = s.cfg
  x : t.x = s.x
  ph : t.ph = s.ph
  busy : t.busy = s.busy
  rsp : t.rsp = s.rsp
  seq : t.seq = s.seq
  fwLeft : t.fwLeft = s.fwLeft
  fwRow : t.fwRow = s.fwRow
  lb : t.lb = s.lb
  bufHeld : t.bufHeld = s.bufHeld
  rsps : t.rsps = s.rsps
  plat : t.plat = s.plat
  inbox : t.inbox = s.inbox
  free : t.free = s.free
  allocs : t.env.allocs = s.env.allocs
  now : s.now ≤ t.now

theorem Kept.refl (s : State) : Kept s s :=
  ⟨rfl, rfl, rfl, rfl, rfl, rfl, rfl, rfl, rfl, rfl, rfl, rfl, rfl, rfl, rfl, le_rfl⟩

theorem Kept.trans {s t u : State} (h : Kept s t) (g : Kept t u) : Kept s u :=
  ⟨g.cfg.trans h.cfg, g.x.trans h.x, g.ph.trans h.ph, g.busy.trans h.busy, g.rsp.trans h.rsp, g.seq.trans h.seq,
    g.fwLeft.trans h.fwLeft, g.fwRow.trans h.fwRow, g.lb.trans h.lb, g.bufHeld.trans h.bufHeld,
    g.rsps.trans h.rsps, g.plat.trans h.plat, g.inbox.trans h.inbox, g.free.trans h.free,
    g.allocs.trans h.allocs, h.now.trans g.now⟩

/-! ### The bit loop -/

/-- What clocking bits leaves alone beside `Kept`. -/
structure BitsOnly (s t : State) : Prop extends Kept s t where
  logical : t.logical = s.logical
  wire : t.wire = s.wire
  env : t.env = s.env
  cs : t.pins.cs = s.pins.cs

theorem BitsOnly.trans {s t u : State} (h : BitsOnly s t) (g : BitsOnly t u) : BitsOnly s u :=
  ⟨h.toKept.trans g.toKept, g.logical.trans h.logical, g.wire.trans h.wire, g.env.trans h.env, g.cs.trans h.cs⟩

theorem bitsOnly_clkRise (s : State) : BitsOnly s (clkRise s) := by
  unfold clkRise rxSample
  dsimp only
  split <;> exact ⟨⟨rfl, rfl, rfl, rfl, rfl, rfl, rfl, rfl, rfl, rfl, rfl, rfl, rfl, rfl, rfl, le_rfl⟩, rfl, rfl, rfl, rfl⟩

theorem bitsOnly_clkFall (s : State) : BitsOnly s (clkFall s) :=
  ⟨⟨rfl, rfl, rfl, rfl, rfl, rfl, rfl, rfl, rfl, rfl, rfl, rfl, rfl, rfl, rfl, le_rfl⟩, rfl, rfl, rfl, rfl⟩

theorem bitsOnly_clockBits (n : Nat) (s : State) : BitsOnly s (clockBits n s) := by
  induction n generalizing s with
  | zero => exact ⟨Kept.refl s, rfl, rfl, rfl, rfl⟩
  | succ n ih => exact ((bitsOnly_clkRise s).trans (bitsOnly_clkFall _)).trans (ih _)

theorem bitsOnly_loadWord (w : Word) (s : State) : BitsOnly s (loadWord w s) :=
  ⟨⟨rfl, rfl, rfl, rfl, rfl, rfl, rfl, rfl, rfl, rfl, rfl, rfl, rfl, rfl, rfl, le_rfl⟩, rfl, rfl, rfl, rfl⟩

@[simp] theorem clkRise_sh (s : State) : (clkRise s).sh = s.sh := by
  unfold clkRise rxSample; dsimp only; split <;> rfl

@[simp] theorem clkRise_bitcnt (s : State) : (clkRise s).bitcnt = s.bitcnt := by
  unfold clkRise rxSample; dsimp only; split <;> rfl

@[simp] theorem clkRise_pins (s : State) : (clkRise s).pins = { s.pins with d0 := some s.sh.msb, sclk := true } := by
  unfold clkRise rxSample; dsimp only; split <;> rfl

theorem clockBits_succ (n : Nat) (s : State) : clockBits (n + 1) s = clkFall (clkRise (clockBits n s)) := by
  induction n generalizing s with
  | zero => rfl
  | succ n ih => rw [clockBits, ih, clockBits]

theorem clockBits_sh (n : Nat) (s : State) : (clockBits n s).sh = s.sh <<< n := by
  induction n with
  | zero => simp [clockBits]
  | succ n ih =>
    rw [clockBits_succ, clkFall_sh, clkRise_sh, ih, ← BitVec.shiftLeft_add]

theorem clockBits_bitcnt (n : Nat) (s : State) : (clockBits n s).bitcnt = s.bitcnt - n := by
  induction n with
  | zero => rfl
  | succ n ih => rw [clockBits_succ, clkFall_bitcnt, clkRise_bitcnt, ih]; omega

theorem clockBits_sclk (n : Nat) (s : State) : (clockBits (n + 1) s).pins.sclk = false := by
  rw [clockBits_succ]; rfl

theorem clkRise_rx (s : State) (h : s.rx.cnt < 31) :
    (clkRise s).rx = ⟨s.rx.sh <<< 1 ||| BitVec.zeroExtend 32 (BitVec.ofBool s.sh.msb), s.rx.cnt + 1⟩ ∧
      (clkRise s).panel = s.panel := by
  unfold clkRise rxSample
  dsimp only
  rw [if_neg (by omega)]
  exact ⟨rfl, rfl⟩

theorem clkRise_rx_last (s : State) (h : s.rx.cnt = 31) :
    (clkRise s).rx.cnt = 0 ∧
      (clkRise s).panel
        = s.panel.onWord s.cfg (s.rx.sh <<< 1 ||| BitVec.zeroExtend 32 (BitVec.ofBool s.sh.msb)) := by
  unfold clkRise rxSample
  dsimp only
  rw [if_pos h]
  exact ⟨rfl, rfl⟩

/-- Fewer than thirty-two bits complete no word. -/
theorem clockBits_partial (n : Nat) (s : State) (hc : s.rx.cnt = 0) (hn : n < 32) :
    (clockBits n s).rx = ⟨shiftIn n s.rx.sh s.sh, n⟩ ∧ (clockBits n s).panel = s.panel := by
  induction n with
  | zero => exact ⟨by simp [clockBits, shiftIn, ← hc], rfl⟩
  | succ n ih =>
    obtain ⟨h1, h2⟩ := ih (by omega)
    rw [clockBits_succ, clkFall_rx, clkFall_panel]
    obtain ⟨h3, h4⟩ := clkRise_rx (clockBits n s) (by rw [h1]; simp; omega)
    rw [h3, h4, h1, h2, clockBits_sh, shiftIn_succ]
    exact ⟨rfl, rfl⟩

/-- Thirty-two bits deliver the loaded word to the receiver and leave the shifter empty. -/
theorem clockBits_word (w : Word) (s : State) (hc : s.rx.cnt = 0) :
    (clockBits 32 (loadWord w s)).panel = s.panel.onWord s.cfg w ∧
      (clockBits 32 (loadWord w s)).rx.cnt = 0 := by
  obtain ⟨h1, h2⟩ := clockBits_partial 31 (loadWord w s) hc (by omega)
  have hb := (bitsOnly_loadWord w s).trans (bitsOnly_clockBits 31 (loadWord w s))
  rw [clockBits_succ, clkFall_rx, clkFall_panel]
  obtain ⟨h3, h4⟩ := clkRise_rx_last (clockBits 31 (loadWord w s)) (by rw [h1])
  have h5 := shiftIn_succ 31 (loadWord w s).rx.sh w
  rw [shiftIn_word] at h5
  rw [h4, h1, h2, clockBits_sh, hb.cfg, loadWord_sh, ← h5]
  exact ⟨rfl, h3⟩

/-- A word that is cut off changes only the bus and the receiver's bit count. -/
theorem bitsOnly_cutWord (n : Nat) (high : Bool) (w : Word) (s : State) : BitsOnly s (cutWord n high w s) := by
  have h := (bitsOnly_loadWord w s).trans (bitsOnly_clockBits (min n 31) _)
  unfold cutWord
  split
  · exact h.trans (bitsOnly_clkRise _)
  · exact h

/-- The receiver takes nothing of a word that is cut off (20_memory.md R50). -/
theorem cutWord_panel (n : Nat) (high : Bool) (w : Word) (s : State) (hc : s.rx.cnt = 0) : (cutWord n high w s).panel = s.panel := by
  obtain ⟨h1, h2⟩ := clockBits_partial (min n 31) (loadWord w s) hc (by omega)
  unfold cutWord
  split
  · next h =>
    simp only [Bool.and_eq_true, decide_eq_true_eq] at h
    rw [(clkRise_rx _ (by rw [h1]; show min n 31 < 31; omega)).2, h2]
    rfl
  · exact h2

/-! ### What a flow can end in -/

/-- Draws are only taken from the front. -/
structure EnvTail (s t : State) : Prop where
  words : t.env.words <:+ s.env.words
  waits : t.env.waits <:+ s.env.waits

theorem EnvTail.refl (s : State) : EnvTail s s := ⟨List.suffix_refl _, List.suffix_refl _⟩

theorem EnvTail.trans {s t u : State} (h : EnvTail s t) (g : EnvTail t u) : EnvTail s u :=
  ⟨g.words.trans h.words, g.waits.trans h.waits⟩

theorem EnvTail.clean {s t : State} (h : EnvTail s t) (c : s.env.clean = true) : t.env.clean = true := by
  simp only [Env.clean, Bool.and_eq_true, List.all_eq_true] at c ⊢
  exact ⟨fun o ho => c.1 o (h.words.subset ho), fun o ho => c.2 o (h.waits.subset ho)⟩

theorem EnvTail.noReset {s t : State} (h : EnvTail s t) (c : s.env.noReset = true) : t.env.noReset = true := by
  simp only [Env.noReset, Bool.and_eq_true, List.all_eq_true] at c ⊢
  exact ⟨fun o ho => c.1 o (h.words.subset ho), fun o ho => c.2 o (h.waits.subset ho)⟩

theorem waitMs_append (a b : List Event) : waitMs (a ++ b) = waitMs a + waitMs b := by
  induction a with
  | nil => simp [waitMs]
  | cons e a ih => cases e <;> simp [waitMs, ih, Nat.add_assoc]

theorem waitMs_dats (ds : List Byte) : waitMs (ds.map .dat) = 0 := by
  induction ds with
  | nil => rfl
  | cons d ds ih => simpa [waitMs] using ih

theorem waitMs_prefix {a b : List Event} (h : a <+: b) (hb : waitMs b = 0) : waitMs a = 0 := by
  obtain ⟨c, rfl⟩ := h
  rw [waitMs_append] at hb
  omega

/-- A wire trace goes on, with words of the two forms only (30_encoding.md R72). -/
def Grows (a b : List WireEvent) : Prop :=
  ∃ new, b = a ++ new ∧ ∀ w, .word w ∈ new → ∃ c, w = cmdWord c ∨ w = datWord c

@[simp] theorem Grows.refl (a : List WireEvent) : Grows a a := ⟨[], by simp, by simp⟩

theorem Grows.of_eq {a b : List WireEvent} (h : b = a) : Grows a b := by rw [h]; exact .refl a

theorem Grows.trans {a b c : List WireEvent} (h : Grows a b) (g : Grows b c) : Grows a c := by
  obtain ⟨x, rfl, hx⟩ := h
  obtain ⟨y, rfl, hy⟩ := g
  refine ⟨x ++ y, by simp, fun w hw => ?_⟩
  rcases List.mem_append.1 hw with hw | hw
  · exact hx w hw
  · exact hy w hw

theorem Grows.isPrefix {a b : List WireEvent} (h : Grows a b) : a <+: b := by
  obtain ⟨x, rfl, -⟩ := h
  exact List.prefix_append _ _

/-- Events that are no words. -/
theorem Grows.others {a b : List WireEvent} (new : List WireEvent) (h : b = a ++ new) (hn : ∀ w, .word w ∉ new) : Grows a b :=
  ⟨new, h, fun w hw => absurd hw (hn w)⟩

/-- A word of one of the two forms. -/
theorem Grows.word {a b : List WireEvent} {w : Word} {e : Event} (h : b = a ++ [.word w]) (he : wordEvent w = [e]) : Grows a b := by
  refine ⟨_, h, fun v hv => ?_⟩
  have hv : v = w := by simpa using hv
  subst hv
  unfold wordEvent at he
  split at he
  · next h1 => exact ⟨_, .inl h1⟩
  · split at he
    · next h2 => exact ⟨_, .inr h2⟩
    · cases he

/-- What every end of a transport sequence from `s` shares: `pre` is what went out before it. -/
structure Went (pre : List Event) (s t : State) : Prop where
  logical : t.logical = s.logical ++ pre
  image : s.cfg.profile = .bridge → imageOf t.wire = imageOf s.wire ++ pre
  wire : s.cfg.profile = .native → t.wire = s.wire
  framed : s.pins.cs = false → framing false s.wire = some false → framing false t.wire = some t.pins.cs
  envTail : EnvTail s t
  grows : Grows s.wire t.wire
  time : s.now + Config.nsPerMs * waitMs pre ≤ t.now

/-- The bus and the receiver when a sequence returned OK. -/
structure Arrived (es : List Event) (s t : State) : Prop extends Went es s t where
  panel : t.panel = s.panel.onEvents s.cfg es
  idle : s.BusIdle → t.BusIdle
  cs : s.pins.cs = false → t.pins.cs = false

/-- The wire trace ends in a failed word and the release of chip-select (40_transport.md R111), and the quiet interval after
it is owed (70_reset_and_hazards.md R265). -/
def FailedLast (t : State) : Prop := (∃ w, t.wire = w ++ [.wordFailed, .csRelease]) ∧ t.quietDue = t.cfg.tQuietNs

/-- What the receiver has taken when a sequence was cut off: what went out, `pre`, and nothing else (20_memory.md R50), unless
its state is unknown. -/
def Delivered (pre : List Event) (s t : State) : Prop :=
  t.panel = Panel.lost ∨ t.panel = s.panel.onEvents s.cfg pre

/-- The end of a sequence whose whole stream is `es`, relative to a relation `K` of what it keeps. -/
def Flow.Runs (K : State → State → Prop) (es : List Event) (s : State) : Flow → Prop
  | .done t => K s t ∧ Arrived es s t
  | .raised r t =>
    r = .transportError ∧ K s t ∧ s.env.clean = false ∧ t.panel = Panel.lost ∧
      (((s.BusIdle → t.BusIdle) ∧ (s.pins.cs = false → t.pins.cs = false)) ∧ (s.cfg.profile = .bridge → FailedLast t)) ∧
      ∃ pre, pre <+: es ∧ pre.length < es.length ∧ Went pre s t
  | .hung t => K s t ∧ s.env.clean = false ∧ ∃ pre, pre <+: es ∧ pre.length < es.length ∧ Delivered pre s t ∧ Went pre s t
  | .reset t =>
    K s t ∧ s.env.clean = false ∧ s.env.noReset = false ∧ ∃ pre, pre <+: es ∧ Delivered pre s t ∧ Went pre s t

theorem imageOf_append (a b : List WireEvent) : imageOf (a ++ b) = imageOf a ++ imageOf b := List.flatMap_append

theorem framing_append (c : Bool) (a b : List WireEvent) :
    framing c (a ++ b) = (framing c a).bind fun d => framing d b := by
  induction a generalizing c with
  | nil => simp [framing]
  | cons e a ih => cases c <;> cases e <;> simp [framing, ih]

theorem Went.refl (s : State) : Went [] s s :=
  ⟨by simp, by simp, fun _ => rfl, fun h f => by rw [h, f], EnvTail.refl s, .refl _, by simp [waitMs]⟩

theorem Arrived.refl (s : State) : Arrived [] s s := ⟨Went.refl s, rfl, id, id⟩

/-- A relation a sequence's keeping can be stated in: the transport keeps it, it keeps the configuration and the order of
time, and it composes. -/
structure Keeps (K : State → State → Prop) : Prop where
  refl : ∀ s, K s s
  trans : ∀ {s t u}, K s t → K t u → K s u
  cfg : ∀ {s t}, K s t → t.cfg = s.cfg
  now : ∀ {s t}, K s t → s.now ≤ t.now
  kept : ∀ {s t}, Kept s t → K s t

theorem keeps_kept : Keeps Kept := ⟨Kept.refl, Kept.trans, Kept.cfg, Kept.now, id⟩

theorem Flow.runs_done {K : State → State → Prop} (hK : Keeps K) (s : State) : (Flow.done s).Runs K [] s :=
  ⟨hK.refl s, Arrived.refl s⟩

theorem Went.after {es pre : List Event} {s t u : State} (hc : t.cfg = s.cfg)
    (h : Arrived es s t) (g : Went pre t u) : Went (es ++ pre) s u where
  logical := by rw [g.logical, h.logical, List.append_assoc]
  image := fun hb => by rw [g.image (by rw [hc, hb]), h.image hb, List.append_assoc]
  wire := fun hb => by rw [g.wire (by rw [hc, hb]), h.wire hb]
  framed := fun a b => g.framed (h.cs a) (by rw [h.framed a b, h.cs a])
  envTail := h.envTail.trans g.envTail
  grows := h.grows.trans g.grows
  time := by
    have h1 := h.time
    have h2 := g.time
    rw [waitMs_append, Nat.mul_add]
    omega

theorem EnvTail.unclean {s t : State} (h : EnvTail s t) (c : t.env.clean = false) : s.env.clean = false := by
  cases hs : s.env.clean with
  | false => rfl
  | true => rw [h.clean hs] at c; exact c

theorem EnvTail.someReset {s t : State} (h : EnvTail s t) (c : t.env.noReset = false) : s.env.noReset = false := by
  cases hs : s.env.noReset with
  | false => rfl
  | true => rw [h.noReset hs] at c; exact c

theorem Delivered.after {es pre : List Event} {s t u : State} (hc : t.cfg = s.cfg) (h : t.panel = s.panel.onEvents s.cfg es)
    (g : Delivered pre t u) : Delivered (es ++ pre) s u :=
  g.imp id fun g => by rw [g, h, hc, Panel.onEvents_append]

/-- Sequencing: the streams append, and the first end other than OK is the end of the whole (20_memory.md R60). -/
theorem Flow.runs_bind {K : State → State → Prop} (hK : Keeps K) {es fs : List Event} {s : State} {f : Flow}
    {g : State → Flow} (hf : f.Runs K es s)
    (hg : ∀ t, f = .done t → K s t → Arrived es s t → (g t).Runs K fs t) :
    (f.bind g).Runs K (es ++ fs) s := by
  cases f with
  | done t =>
    obtain ⟨hk, ha⟩ := hf
    have h := hg t rfl hk ha
    have hc := hK.cfg hk
    show (g t).Runs K (es ++ fs) s
    revert h
    cases g t with
    | done u =>
      intro ⟨gk, ga⟩
      refine ⟨hK.trans hk gk, Went.after hc ha ga.toWent, ?_, fun i => ga.idle (ha.idle i), fun i => ga.cs (ha.cs i)⟩
      rw [ga.panel, ha.panel, hc, Panel.onEvents_append]
    | raised r u =>
      intro ⟨hr, gk, gc, gp, gi, pre, p1, p2, gw⟩
      exact ⟨hr, hK.trans hk gk, ha.envTail.unclean gc, gp, ⟨⟨fun i => gi.1.1 (ha.idle i), fun i => gi.1.2 (ha.cs i)⟩, fun b => gi.2 (by rw [hc, b])⟩, es ++ pre,
        List.prefix_append_right_inj es |>.2 p1, by simpa using p2, Went.after hc ha gw⟩
    | hung u =>
      intro ⟨gk, gc, pre, p1, p2, gp, gw⟩
      exact ⟨hK.trans hk gk, ha.envTail.unclean gc, es ++ pre,
        List.prefix_append_right_inj es |>.2 p1, by simpa using p2, gp.after hc ha.panel, Went.after hc ha gw⟩
    | reset u =>
      intro ⟨gk, gc, gr, pre, p1, gp, gw⟩
      exact ⟨hK.trans hk gk, ha.envTail.unclean gc, ha.envTail.someReset gr, es ++ pre,
        List.prefix_append_right_inj es |>.2 p1, gp.after hc ha.panel, Went.after hc ha gw⟩
  | raised r u =>
    obtain ⟨hr, gk, gc, gp, gi, pre, p1, p2, gw⟩ := hf
    exact ⟨hr, gk, gc, gp, gi, pre, p1.trans (List.prefix_append _ _), by simp; omega, gw⟩
  | hung u =>
    obtain ⟨gk, gc, pre, p1, p2, gw⟩ := hf
    exact ⟨gk, gc, pre, p1.trans (List.prefix_append _ _), by simp; omega, gw⟩
  | reset u =>
    obtain ⟨gk, gc, gr, pre, p1, gw⟩ := hf
    exact ⟨gk, gc, gr, pre, p1.trans (List.prefix_append _ _), gw⟩

/-- What holds of the state when a flow returns OK. -/
def Flow.OnDone (P : State → Prop) : Flow → Prop
  | .done t => P t
  | .raised _ _ => True
  | .hung _ => True
  | .reset _ => True

theorem Flow.onDone_bind {P Q : State → Prop} {f : Flow} {g : State → Flow} (hf : f.OnDone P)
    (hg : ∀ t, P t → (g t).OnDone Q) : (f.bind g).OnDone Q := by
  cases f with
  | done t => exact hg t hf
  | raised r t => trivial
  | hung t => trivial
  | reset t => trivial

theorem Flow.OnDone.mono {P Q : State → Prop} {f : Flow} (hf : f.OnDone P) (h : ∀ t, P t → Q t) : f.OnDone Q := by
  cases f with
  | done t => exact h t hf
  | raised r t => trivial
  | hung t => trivial
  | reset t => trivial

theorem Flow.onDone_and {P Q : State → Prop} {f : Flow} (hf : f.OnDone P) (hg : f.OnDone Q) : f.OnDone fun t => P t ∧ Q t := by
  cases f with
  | done t => exact ⟨hf, hg⟩
  | raised r t => trivial
  | hung t => trivial
  | reset t => trivial

theorem Flow.Runs.onDone {K : State → State → Prop} {es : List Event} {s : State} {f : Flow} (h : f.Runs K es s) :
    f.OnDone (K s) := by
  cases f with
  | done t => exact h.1
  | raised r t => trivial
  | hung t => trivial
  | reset t => trivial

/-- A weaker keeping. -/
theorem Flow.Runs.mono {K L : State → State → Prop} {es : List Event} {s : State} {f : Flow}
    (h : f.Runs K es s) (hKL : ∀ t, K s t → L s t) : f.Runs L es s := by
  cases f with
  | done t => exact ⟨hKL _ h.1, h.2⟩
  | raised r t => exact ⟨h.1, hKL _ h.2.1, h.2.2⟩
  | hung t => exact ⟨hKL _ h.1, h.2⟩
  | reset t => exact ⟨hKL _ h.1, h.2⟩

/-- With a clean environment the sequence returns OK. -/
theorem Flow.Runs.done_of_clean {K : State → State → Prop} {es : List Event} {s : State} {f : Flow}
    (h : f.Runs K es s) (hc : s.env.clean = true) : ∃ t, f = .done t ∧ K s t ∧ Arrived es s t := by
  cases f with
  | done t => exact ⟨t, rfl, h⟩
  | raised r t => exact absurd (h.2.2.1.symm.trans hc) (by decide)
  | hung t => exact absurd (h.2.1.symm.trans hc) (by decide)
  | reset t => exact absurd (h.2.1.symm.trans hc) (by decide)

/-! ### Words under one assertion of chip-select -/

/-- The words that went out while chip-select is asserted. -/
structure Shifted (K : State → State → Prop) (pre : List Event) (s t : State) : Prop where
  kept : K s t
  logical : t.logical = s.logical ++ pre
  image : imageOf t.wire = imageOf s.wire ++ pre
  envTail : EnvTail s t
  grows : Grows s.wire t.wire

/-- The end of a sequence of words under one assertion of chip-select, relative to a relation `K` of what it keeps. -/
def Flow.Shifts (K : State → State → Prop) (es : List Event) (s : State) : Flow → Prop
  | .done t =>
    Shifted K es s t ∧ t.panel = s.panel.onEvents s.cfg es ∧ t.rx.cnt = 0 ∧ t.pins.cs = s.pins.cs ∧
      (framing false s.wire = some true → framing false t.wire = some true)
  | .raised r t =>
    r = .transportError ∧ s.env.clean = false ∧ t.panel = Panel.lost ∧ (t.BusIdle ∧ FailedLast t) ∧
      (framing false s.wire = some true → framing false t.wire = some false) ∧
      ∃ pre, pre <+: es ∧ pre.length < es.length ∧ Shifted K pre s t
  | .hung t =>
    s.env.clean = false ∧ t.pins.cs = s.pins.cs ∧
      (framing false s.wire = some true → framing false t.wire = some true) ∧
      ∃ pre, pre <+: es ∧ pre.length < es.length ∧ Delivered pre s t ∧ Shifted K pre s t
  | .reset t =>
    s.env.clean = false ∧ s.env.noReset = false ∧ t.pins.cs = s.pins.cs ∧
      (framing false s.wire = some true → framing false t.wire = some true) ∧
      ∃ pre, pre <+: es ∧ pre.length < es.length ∧ Delivered pre s t ∧ Shifted K pre s t

theorem headD_words {s : State} {o : WordDraw} (h : wordDraw s = o) (ho : o ≠ .sent) : o ∈ s.env.words := by
  unfold wordDraw at h
  cases hw : s.env.words with
  | nil => rw [hw] at h; exact absurd h.symm ho
  | cons a l => rw [hw] at h; simp only [List.headD_cons] at h; simp [h]

theorem headD_waits {s : State} (h : waitDraw s = .reset) : WaitDraw.reset ∈ s.env.waits := by
  unfold waitDraw at h
  cases hw : s.env.waits with
  | nil => rw [hw] at h; cases h
  | cons a l => rw [hw] at h; simp only [List.headD_cons] at h; simp [h]

theorem unclean_of_word {s : State} {o : WordDraw} (h : wordDraw s = o) (ho : o ≠ .sent) : s.env.clean = false := by
  cases hc : s.env.clean with
  | false => rfl
  | true =>
    simp only [Env.clean, Bool.and_eq_true, List.all_eq_true] at hc
    exact absurd (by simpa using hc.1 o (headD_words h ho)) ho

theorem someReset_of_word {s : State} {n : Nat} (h : wordDraw s = .reset n) : s.env.noReset = false := by
  cases hc : s.env.noReset with
  | false => rfl
  | true =>
    simp only [Env.noReset, Bool.and_eq_true, List.all_eq_true] at hc
    exact absurd (hc.1 _ (headD_words h (by simp))) (by simp)

theorem unclean_of_wait {s : State} (h : waitDraw s = .reset) :
    s.env.clean = false ∧ s.env.noReset = false := by
  have hm := headD_waits h
  constructor
  · cases hc : s.env.clean with
    | false => rfl
    | true =>
      simp only [Env.clean, Bool.and_eq_true, List.all_eq_true] at hc
      exact absurd (hc.2 _ hm) (by decide)
  · cases hc : s.env.noReset with
    | false => rfl
    | true =>
      simp only [Env.noReset, Bool.and_eq_true, List.all_eq_true] at hc
      exact absurd (hc.2 _ hm) (by decide)

theorem envTail_popWord (s : State) : EnvTail s (popWord s) := ⟨List.tail_suffix _, List.suffix_refl _⟩

theorem envTail_popWait (s : State) : EnvTail s (popWait s) := ⟨List.suffix_refl _, List.tail_suffix _⟩

theorem kept_popWord (s : State) : Kept s (popWord s) :=
  ⟨rfl, rfl, rfl, rfl, rfl, rfl, rfl, rfl, rfl, rfl, rfl, rfl, rfl, rfl, rfl, le_rfl⟩

theorem kept_popWait (s : State) : Kept s (popWait s) :=
  ⟨rfl, rfl, rfl, rfl, rfl, rfl, rfl, rfl, rfl, rfl, rfl, rfl, rfl, rfl, rfl, le_rfl⟩

theorem kept_emit (e : Event) (s : State) : Kept s (emit e s) :=
  ⟨rfl, rfl, rfl, rfl, rfl, rfl, rfl, rfl, rfl, rfl, rfl, rfl, rfl, rfl, rfl, le_rfl⟩

theorem kept_emitWire (e : WireEvent) (s : State) : Kept s (emitWire e s) :=
  ⟨rfl, rfl, rfl, rfl, rfl, rfl, rfl, rfl, rfl, rfl, rfl, rfl, rfl, rfl, rfl, le_rfl⟩

theorem kept_advance (ns : Nat) (s : State) : Kept s (advance ns s) :=
  ⟨rfl, rfl, rfl, rfl, rfl, rfl, rfl, rfl, rfl, rfl, rfl, rfl, rfl, rfl, rfl, by simp⟩

theorem kept_losePanel (s : State) : Kept s (losePanel s) :=
  ⟨rfl, rfl, rfl, rfl, rfl, rfl, rfl, rfl, rfl, rfl, rfl, rfl, rfl, rfl, rfl, le_rfl⟩

theorem kept_panelTakes (e : Event) (s : State) : Kept s (panelTakes e s) :=
  ⟨rfl, rfl, rfl, rfl, rfl, rfl, rfl, rfl, rfl, rfl, rfl, rfl, rfl, rfl, rfl, le_rfl⟩

theorem kept_releaseCs (s : State) : Kept s (releaseCs s) := by
  unfold releaseCs rxRelease
  split <;> exact ⟨rfl, rfl, rfl, rfl, rfl, rfl, rfl, rfl, rfl, rfl, rfl, rfl, rfl, rfl, rfl, le_rfl⟩

theorem kept_assertCs (s : State) : Kept s (assertCs s) :=
  ⟨rfl, rfl, rfl, rfl, rfl, rfl, rfl, rfl, rfl, rfl, rfl, rfl, rfl, rfl, rfl, le_rfl⟩

@[simp] theorem releaseCs_wire (s : State) : (releaseCs s).wire = s.wire ++ [.csRelease] := by
  unfold releaseCs rxRelease; split <;> rfl

@[simp] theorem releaseCs_logical (s : State) : (releaseCs s).logical = s.logical := by
  unfold releaseCs rxRelease; split <;> rfl

@[simp] theorem releaseCs_env (s : State) : (releaseCs s).env = s.env := by
  unfold releaseCs rxRelease; split <;> rfl

@[simp] theorem releaseCs_pins (s : State) :
    (releaseCs s).pins = { s.pins with cs := false, sclk := false } := by
  unfold releaseCs rxRelease; split <;> rfl

@[simp] theorem releaseCs_quietDue (s : State) : (releaseCs s).quietDue = s.cfg.tQuietNs := by
  unfold releaseCs rxRelease; split <;> rfl

@[simp] theorem releaseCs_bitcnt (s : State) : (releaseCs s).bitcnt = 0 := by
  unfold releaseCs rxRelease; split <;> rfl

theorem releaseCs_busIdle (s : State) : (releaseCs s).BusIdle := ⟨by simp, by simp, by simp⟩

theorem releaseCs_panel (s : State) (h : s.rx.cnt = 0) : (releaseCs s).panel = s.panel := by
  unfold releaseCs rxRelease
  have : (emitWire .csRelease { s with pins := { s.pins with cs := false, sclk := false }, bitcnt := 0, quietDue := s.cfg.tQuietNs }).rx.cnt = 0 := h
  rw [if_pos this]
  rfl

theorem Shifted.ofBits {s t : State} (h : BitsOnly (popWord s) t) : Shifted Kept [] s t where
  kept := (kept_popWord s).trans h.toKept
  logical := by simp [h.logical]
  image := by simp [h.wire]
  envTail := ⟨by rw [h.env]; exact List.tail_suffix _, by rw [h.env]; exact List.suffix_refl _⟩
  grows := .of_eq h.wire

/-- One word under an assertion of chip-select (40_transport.md R101, R110). -/
theorem sendWord_shifts (w : Word) (e : Event) (s : State) (hc : s.rx.cnt = 0)
    (hp : ∀ k p, Panel.onWord k w p = Panel.onEvent k e p) (he : wordEvent w = [e]) :
    (sendWord w e s).Shifts Kept [e] s := by
  have hb := fun n => (bitsOnly_loadWord w (popWord s)).trans (bitsOnly_clockBits n _)
  unfold sendWord
  split
  · next h =>
    obtain ⟨h1, h2⟩ := clockBits_word w (popWord s) hc
    have hb := hb 32
    refine ⟨⟨?_, ?_, ?_, ?_, .word (w := w) (e := e) (by simp [hb.wire]) he⟩, ?_, ?_, ?_, ?_⟩
    · exact (kept_popWord s).trans (hb.toKept.trans ((kept_emitWire _ _).trans (kept_emit _ _)))
    · simp [hb.logical]
    · simp [hb.wire, imageOf, WireEvent.image, he]
    · exact ⟨by simp [hb.env, List.tail_suffix], by simp [hb.env]⟩
    · simp [h1, hp, Panel.onEvents]
    · simp [h2]
    · simp [hb.cs]
    · intro hf
      simp [hb.wire, framing_append, hf, framing]
  · next n h =>
    have hb := hb (min n 32)
    refine ⟨rfl, unclean_of_word h (by simp), rfl, ?_, ?_, [], List.nil_prefix, by simp, ?_, ?_, ?_, ?_,
      .others [.wordFailed, .csRelease] (by simp [abortWord, hb.wire]) (by simp)⟩
    · exact ⟨releaseCs_busIdle _, ⟨s.wire, by simp [abortWord, hb.wire]⟩, by simp [abortWord, (kept_releaseCs _).cfg]⟩
    · intro hf
      simp [abortWord, hb.wire, framing_append, hf, framing]
    · exact (kept_popWord s).trans (hb.toKept.trans
        ((kept_emitWire _ _).trans ((kept_releaseCs _).trans (kept_losePanel _))))
    · simp [abortWord, hb.logical]
    · simp [abortWord, hb.wire, imageOf, WireEvent.image]
    · exact ⟨by simp [abortWord, hb.env, List.tail_suffix], by simp [abortWord, hb.env]⟩
  · next n high h =>
    have hx := bitsOnly_cutWord n high w (popWord s)
    exact ⟨unclean_of_word h (by simp), hx.cs, fun hf => by rw [hx.wire]; exact hf, [], List.nil_prefix, by simp,
      .inr (cutWord_panel n high w (popWord s) hc), Shifted.ofBits hx⟩
  · next n h =>
    have hx := bitsOnly_cutWord n false w (popWord s)
    exact ⟨unclean_of_word h (by simp), someReset_of_word h, hx.cs, fun hf => by rw [hx.wire]; exact hf, [], List.nil_prefix,
      by simp, .inr (cutWord_panel n false w (popWord s) hc), Shifted.ofBits hx⟩

theorem Shifted.trans {K : State → State → Prop} (hK : Keeps K) {es pre : List Event} {s t u : State}
    (h : Shifted K es s t) (g : Shifted K pre t u) : Shifted K (es ++ pre) s u where
  kept := hK.trans h.kept g.kept
  logical := by rw [g.logical, h.logical, List.append_assoc]
  image := by rw [g.image, h.image, List.append_assoc]
  envTail := h.envTail.trans g.envTail
  grows := h.grows.trans g.grows

/-- A weaker keeping. -/
theorem Shifted.mono {K L : State → State → Prop} {es : List Event} {s t : State} (h : Shifted K es s t)
    (hKL : K s t → L s t) : Shifted L es s t :=
  ⟨hKL h.kept, h.logical, h.image, h.envTail, h.grows⟩

theorem Flow.Shifts.mono {K L : State → State → Prop} {es : List Event} {s : State} {f : Flow} (h : f.Shifts K es s)
    (hKL : ∀ t, K s t → L s t) : f.Shifts L es s := by
  cases f with
  | done t => exact ⟨h.1.mono (hKL t), h.2⟩
  | raised r t =>
    obtain ⟨a, b, c, d, e, pre, p1, p2, w⟩ := h
    exact ⟨a, b, c, d, e, pre, p1, p2, w.mono (hKL t)⟩
  | hung t =>
    obtain ⟨a, b, c, pre, p1, p2, p3, w⟩ := h
    exact ⟨a, b, c, pre, p1, p2, p3, w.mono (hKL t)⟩
  | reset t =>
    obtain ⟨a, b, c, d, pre, p1, p2, p3, w⟩ := h
    exact ⟨a, b, c, d, pre, p1, p2, p3, w.mono (hKL t)⟩

theorem Flow.shifts_bind {K : State → State → Prop} (hK : Keeps K) {es fs : List Event} {s : State} {f : Flow}
    {g : State → Flow} (hf : f.Shifts K es s) (hg : ∀ t, f = .done t → t.rx.cnt = 0 → (g t).Shifts K fs t) :
    (f.bind g).Shifts K (es ++ fs) s := by
  cases f with
  | done t =>
    obtain ⟨h1, h2, h3, h4, h5⟩ := hf
    have h := hg t rfl h3
    show (g t).Shifts K (es ++ fs) s
    revert h
    cases g t with
    | done u =>
      intro ⟨g1, g2, g3, g4, g5⟩
      refine ⟨h1.trans hK g1, ?_, g3, g4.trans h4, fun x => g5 (h5 x)⟩
      rw [g2, h2, (hK.cfg h1.kept), Panel.onEvents_append]
    | raised r u =>
      intro ⟨gr, gc, gp, gi, gf, pre, p1, p2, gw⟩
      exact ⟨gr, h1.envTail.unclean gc, gp, gi, fun x => gf (h5 x), es ++ pre,
        List.prefix_append_right_inj es |>.2 p1, by simpa using p2, h1.trans hK gw⟩
    | hung u =>
      intro ⟨gc, gi, gf, pre, p1, p2, gp, gw⟩
      exact ⟨h1.envTail.unclean gc, gi.trans h4, fun x => gf (h5 x), es ++ pre,
        List.prefix_append_right_inj es |>.2 p1, by simpa using p2, gp.after (hK.cfg h1.kept) h2, h1.trans hK gw⟩
    | reset u =>
      intro ⟨gc, gr, gi, gf, pre, p1, p2, gp, gw⟩
      exact ⟨h1.envTail.unclean gc, h1.envTail.someReset gr, gi.trans h4, fun x => gf (h5 x), es ++ pre,
        List.prefix_append_right_inj es |>.2 p1, by simpa using p2, gp.after (hK.cfg h1.kept) h2, h1.trans hK gw⟩
  | raised r u =>
    obtain ⟨gr, gc, gp, gi, gf, pre, p1, p2, gw⟩ := hf
    exact ⟨gr, gc, gp, gi, gf, pre, p1.trans (List.prefix_append _ _), by simp; omega, gw⟩
  | hung u =>
    obtain ⟨gc, gi, gf, pre, p1, p2, gw⟩ := hf
    exact ⟨gc, gi, gf, pre, p1.trans (List.prefix_append _ _), by simp; omega, gw⟩
  | reset u =>
    obtain ⟨gc, gr, gi, gf, pre, p1, p2, gw⟩ := hf
    exact ⟨gc, gr, gi, gf, pre, p1.trans (List.prefix_append _ _), by simp; omega, gw⟩

@[simp] theorem wordEvent_cmdWord (c : Byte) : wordEvent (cmdWord c) = [.cmd c] := by simp [wordEvent]

@[simp] theorem wordEvent_datWord (d : Byte) : wordEvent (datWord d) = [.dat d] := by
  simp [wordEvent, datWord_ne_cmdWord]

/-- An assertion of chip-select around a sequence of words, with the quiet interval after it, in the bridge profile. -/
theorem asserted_runs {K : State → State → Prop} (hK : Keeps K) {es : List Event} {s : State} {g : State → Flow}
    (hb : s.cfg.profile = .bridge) (h0 : waitMs es = 0) (hg : ∀ t, t.rx.cnt = 0 → (g t).Shifts K es t) :
    ((g (assertCs s)).bind fun t => quiet (releaseCs t)).Runs K es s := by
  have h := hg (assertCs s) rfl
  have ha : K s (assertCs s) := hK.kept (kept_assertCs s)
  have hn : ∀ P : Prop, s.cfg.profile = .native → P := fun P h => by rw [hb] at h; cases h
  have hfr : ∀ t : State, s.pins.cs = false → framing false s.wire = some false →
      framing false (assertCs s).wire = some true := fun t _ hf => by simp [framing_append, hf, framing]
  have grew : ∀ {pre : List Event} {t : State}, Shifted K pre (assertCs s) t → Grows s.wire t.wire := fun hw =>
    (Grows.others [.csAssert] rfl (by simp)).trans hw.grows
  have later : ∀ {pre : List Event} {t : State}, pre <+: es → (assertCs s).now ≤ t.now →
      s.now + Config.nsPerMs * waitMs pre ≤ t.now := fun hp hl => by
    rw [waitMs_prefix hp h0, Nat.mul_zero]
    exact (kept_assertCs s).now.trans hl
  have went : ∀ {pre : List Event} {t : State}, pre <+: es → Shifted K pre (assertCs s) t →
      (framing false (assertCs s).wire = some true → framing false t.wire = some t.pins.cs) → Went pre s t := by
    intro pre t hp hw hf
    refine ⟨by simpa using hw.logical, fun _ => ?_, fun h => hn _ h, fun a b => hf (hfr t a b), ?_, grew hw,
      later hp (hK.now hw.kept)⟩
    · rw [hw.image, assertCs_wire, imageOf_append]
      simp [imageOf, WireEvent.image]
    · exact ⟨hw.envTail.words, hw.envTail.waits⟩
  revert h
  cases g (assertCs s) with
  | done t =>
    intro ⟨h1, h2, h3, h4, h5⟩
    show (quiet (releaseCs t)).Runs K es s
    have ht : EnvTail (assertCs s) (releaseCs t) := ⟨by simpa using h1.envTail.words, by simpa using h1.envTail.waits⟩
    unfold quiet
    split
    · next extra hq =>
      refine ⟨?_, ⟨?_, fun _ => ?_, fun h => hn _ h, fun a b => ?_, ?_, ?_, later (List.prefix_refl es) ?_⟩, ?_,
        fun _ => ?_, fun _ => ?_⟩
      · exact hK.trans ha (hK.trans h1.kept (hK.kept ((kept_releaseCs t).trans
          ((kept_popWait _).trans ((kept_advance _ _).trans (kept_emitWire _ _))))))
      · simpa using h1.logical
      · have := h1.image
        simp only [assertCs_wire, imageOf_append] at this
        simp only [emitWire_wire, advance_wire, popWait_wire, releaseCs_wire, imageOf_append, this]
        simp [imageOf, WireEvent.image]
      · have h6 := h5 (hfr t a b)
        simp [framing_append, h6, framing]
      · exact ⟨by simpa using h1.envTail.words, by simpa using (List.tail_suffix _).trans h1.envTail.waits⟩
      · refine (grew h1).trans (Grows.others [.csRelease, .quiet (releaseCs t).cfg.tQuietNs] ?_ (by simp))
        simp [List.append_assoc]
      · have h7 := hK.now h1.kept
        have h8 := (kept_releaseCs t).now
        simp only [emitWire_now, advance_now, popWait_now]
        omega
      · simp only [emitWire_panel, advance_panel, popWait_panel]
        rw [releaseCs_panel t h3, h2]
        rfl
      · exact ⟨by simp, by simp, by simp⟩
      · simp
    · next hq =>
      obtain ⟨u1, u2⟩ := unclean_of_wait hq
      refine ⟨?_, ?_, ?_, es, List.prefix_refl _, .inr (by rw [popWait_panel, releaseCs_panel t h3, h2]; rfl), ?_⟩
      · exact hK.trans ha (hK.trans h1.kept (hK.kept ((kept_releaseCs t).trans (kept_popWait _))))
      · exact ht.unclean u1
      · exact ht.someReset u2
      · refine ⟨by simpa using h1.logical, fun _ => ?_, fun h => hn _ h, fun a b => ?_, ?_, (grew h1).trans (Grows.others [.csRelease] (by simp) (by simp)),
          later (List.prefix_refl es) ((hK.now h1.kept).trans (kept_releaseCs t).now)⟩
        · have := h1.image
          simp only [assertCs_wire, imageOf_append] at this
          simp only [popWait_wire, releaseCs_wire, imageOf_append, this]
          simp [imageOf, WireEvent.image]
        · have h6 := h5 (hfr t a b)
          simp [framing_append, h6, framing]
        · exact ⟨by simpa using h1.envTail.words, by simpa using (List.tail_suffix _).trans h1.envTail.waits⟩
  | raised r t =>
    intro ⟨hr, hc, hp, hi, hf, pre, p1, p2, hw⟩
    exact ⟨hr, hK.trans ha hw.kept, hc, hp, ⟨⟨fun _ => hi.1, fun _ => hi.1.1⟩, fun _ => hi.2⟩, pre, p1, p2, went p1 hw fun x => by rw [hf x, hi.1.1]⟩
  | hung t =>
    intro ⟨hc, hi, hf, pre, p1, p2, hq, hw⟩
    exact ⟨hK.trans ha hw.kept, hc, pre, p1, p2, hq, went p1 hw fun x => by rw [hf x, hi]; rfl⟩
  | reset t =>
    intro ⟨hc, hr, hi, hf, pre, p1, p2, hq, hw⟩
    exact ⟨hK.trans ha hw.kept, hc, hr, pre, p1, hq, went p1 hw fun x => by rw [hf x, hi]; rfl⟩

/-- What is owed of a quiet interval passes: nothing goes out and the bus stays as it is, and only a reset ends it early. -/
theorem awaitQuiet_runs (s : State) (hb : s.cfg.profile = .bridge) : (awaitQuiet s).Runs Kept [] s := by
  have hn : ∀ P : Prop, s.cfg.profile = .native → P := fun P h => by rw [hb] at h; cases h
  unfold awaitQuiet
  split
  · exact Flow.runs_done keeps_kept s
  · split
    · next extra h =>
      have hk := (kept_popWait s).trans (kept_advance (s.quietDue + extra) _)
      exact ⟨hk, ⟨by simp, fun _ => by simp, fun h => hn _ h, fun a b => by simp [a, b],
        ⟨(envTail_popWait s).words, (envTail_popWait s).waits⟩, .of_eq rfl, hk.now⟩, rfl, id, id⟩
    · next h =>
      obtain ⟨u1, u2⟩ := unclean_of_wait h
      exact ⟨kept_popWait s, u1, u2, [], List.nil_prefix, .inr rfl,
        ⟨by simp, fun _ => by simp, fun h => hn _ h, fun a b => by simp [a, b], envTail_popWait s, .of_eq rfl, by simp [waitMs]⟩⟩

/-- Where no reset is drawn in it, what is owed passes, and time and the draws of waits are all that moves. -/
theorem awaitQuiet_done {s : State} (hb : s.cfg.profile = .bridge) (h : s.QuietPasses) :
    ∃ now waits, awaitQuiet s = .done { s with now := now, quietDue := 0, env := { s.env with waits := waits } } ∧
      s.now + s.quietDue ≤ now := by
  unfold awaitQuiet
  split
  · next h0 => exact ⟨s.now, s.env.waits, by rw [← h0], by omega⟩
  · next h0 =>
    split
    · next extra _ =>
      refine ⟨s.now + (s.quietDue + extra), s.env.waits.tail, ?_, by omega⟩
      simp [advance, popWait]
    · next hr =>
      have h1 := (h hb).resolve_left h0
      unfold waitDraw at hr
      cases hw : s.env.waits with
      | nil => rw [hw] at hr; cases hr
      | cons a l => rw [hw] at h1 hr; exact absurd (congrArg some hr) h1

/-- A reset drawn in it takes no word's draw and leaves the bus as it was (70_reset_and_hazards.md R251). -/
theorem awaitQuiet_reset {s : State} {ws : List WaitDraw} (h0 : 0 < s.quietDue) (hw : s.env.waits = .reset :: ws) :
    awaitQuiet s = .reset { s with env := { s.env with waits := ws } } := by
  unfold awaitQuiet
  rw [if_neg (by omega), show waitDraw s = .reset by unfold waitDraw; rw [hw]; rfl]
  simp [popWait, hw]

/-- What was owed before it, and an assertion of chip-select around a sequence of words. -/
theorem framed_runs {K : State → State → Prop} (hK : Keeps K) {es : List Event} {s : State} {g : State → Flow}
    (hb : s.cfg.profile = .bridge) (h0 : waitMs es = 0) (hg : ∀ t, t.rx.cnt = 0 → (g t).Shifts K es t) :
    (framed g s).Runs K es s :=
  Flow.runs_bind hK (es := []) ((awaitQuiet_runs s hb).mono fun _ => hK.kept) fun t _ hk _ =>
    asserted_runs hK (by rw [hK.cfg hk, hb]) h0 hg

/-- The native primitive (40_transport.md R117). -/
theorem nativeSend_runs (e : Event) (s : State) (hn : s.cfg.profile = .native) (h0 : waitMs [e] = 0) :
    (nativeSend e s).Runs Kept [e] s := by
  have hb : ∀ P : Prop, s.cfg.profile = .bridge → P := fun P h => by rw [hn] at h; cases h
  have lost : Kept s (losePanel (popWord s)) ∧ Went [] s (losePanel (popWord s)) :=
    ⟨⟨rfl, rfl, rfl, rfl, rfl, rfl, rfl, rfl, rfl, rfl, rfl, rfl, rfl, rfl, rfl, le_rfl⟩,
      ⟨by simp, fun h => hb _ h, fun _ => rfl, fun a b => by simp [a, b], ⟨by simp [List.tail_suffix], by simp⟩,
        by simp, by simp [waitMs]⟩⟩
  unfold nativeSend
  split
  · refine ⟨⟨rfl, rfl, rfl, rfl, rfl, rfl, rfl, rfl, rfl, rfl, rfl, rfl, rfl, rfl, rfl, le_rfl⟩,
      ⟨by simp, fun h => hb _ h, fun _ => rfl, fun a b => by simp [a, b], ⟨by simp [List.tail_suffix], by simp⟩,
        by simp, by simp [h0]⟩,
      by simp [Panel.onEvents], id, id⟩
  · next n h => exact ⟨rfl, lost.1, unclean_of_word h (by simp), rfl, ⟨⟨id, id⟩, fun h => hb _ h⟩, [], List.nil_prefix, by simp, lost.2⟩
  · next n b h => exact ⟨lost.1, unclean_of_word h (by simp), [], List.nil_prefix, by simp, .inl rfl, lost.2⟩
  · next n h => exact ⟨lost.1, unclean_of_word h (by simp), someReset_of_word h, [], List.nil_prefix, .inl rfl, lost.2⟩

/-- `pt_cmd(c)` (40_transport.md R104). -/
theorem ptCmd_runs (c : Byte) (s : State) : (ptCmd c s).Runs Kept [.cmd c] s := by
  unfold ptCmd
  split
  · next h =>
    exact framed_runs keeps_kept (g := sendWord (cmdWord c) (.cmd c)) h rfl fun t ht =>
      sendWord_shifts _ _ t ht (fun k p => Panel.onWord_cmdWord k c p) (wordEvent_cmdWord c)
  · next h => exact nativeSend_runs _ s h rfl

/-- `pt_dat(d)` (40_transport.md R105). -/
theorem ptDat_runs (d : Byte) (s : State) : (ptDat d s).Runs Kept [.dat d] s := by
  unfold ptDat
  split
  · next h =>
    exact framed_runs keeps_kept (g := sendWord (datWord d) (.dat d)) h rfl fun t ht =>
      sendWord_shifts _ _ t ht (fun k p => Panel.onWord_datWord k d p) (wordEvent_datWord d)
  · next h => exact nativeSend_runs _ s h rfl

theorem sendBytes_runs (ds : List Byte) (s : State) : (sendBytes ds s).Runs Kept (ds.map .dat) s := by
  induction ds generalizing s with
  | nil => exact Flow.runs_done keeps_kept s
  | cons d ds ih => exact Flow.runs_bind keeps_kept (ptDat_runs d s) fun t _ _ _ => ih t

/-- A command with its data bytes (40_transport.md R109). -/
theorem sendGroup_runs (c : Byte) (ds : List Byte) (s : State) :
    (sendGroup c ds s).Runs Kept (groupStream c ds) s :=
  Flow.runs_bind keeps_kept (ptCmd_runs c s) fun t _ _ _ => sendBytes_runs ds t

/-! ### The bytes of pixels -/

/-- Everything the streaming of pixels never touches: all of `Kept` but `fw_left`, which counts them. -/
structure KeptPixels (s t : State) : Prop where
  cfg : t.cfg = s.cfg
  x : t.x = s.x
  ph : t.ph = s.ph
  busy : t.busy = s.busy
  rsp : t.rsp = s.rsp
  seq : t.seq = s.seq
  fwRow : t.fwRow = s.fwRow
  lb : t.lb = s.lb
  bufHeld : t.bufHeld = s.bufHeld
  rsps : t.rsps = s.rsps
  plat : t.plat = s.plat
  inbox : t.inbox = s.inbox
  free : t.free = s.free
  allocs : t.env.allocs = s.env.allocs
  now : s.now ≤ t.now

theorem KeptPixels.trans {s t u : State} (h : KeptPixels s t) (g : KeptPixels t u) : KeptPixels s u :=
  ⟨g.cfg.trans h.cfg, g.x.trans h.x, g.ph.trans h.ph, g.busy.trans h.busy, g.rsp.trans h.rsp, g.seq.trans h.seq,
    g.fwRow.trans h.fwRow, g.lb.trans h.lb, g.bufHeld.trans h.bufHeld, g.rsps.trans h.rsps, g.plat.trans h.plat,
    g.inbox.trans h.inbox, g.free.trans h.free, g.allocs.trans h.allocs, h.now.trans g.now⟩

theorem Kept.pixels {s t : State} (h : Kept s t) : KeptPixels s t :=
  ⟨h.cfg, h.x, h.ph, h.busy, h.rsp, h.seq, h.fwRow, h.lb, h.bufHeld, h.rsps, h.plat, h.inbox, h.free, h.allocs, h.now⟩

theorem keptPixels_countPixel (s : State) : KeptPixels s (countPixel s) :=
  ⟨rfl, rfl, rfl, rfl, rfl, rfl, rfl, rfl, rfl, rfl, rfl, rfl, rfl, rfl, le_rfl⟩

theorem keeps_keptPixels : Keeps KeptPixels :=
  ⟨fun s => (Kept.refl s).pixels, KeptPixels.trans, KeptPixels.cfg, KeptPixels.now, Kept.pixels⟩

/-- A change that the bus does not see. -/
theorem Flow.runs_unseen {K : State → State → Prop} (hK : Keeps K) {s t : State} (hk : K s t) (hl : t.logical = s.logical)
    (hw : t.wire = s.wire) (hp : t.panel = s.panel) (he : t.env = s.env) (hq : t.pins = s.pins) (hb : t.bitcnt = s.bitcnt) :
    (Flow.done t).Runs K [] s :=
  ⟨hk, ⟨by simp [hl], by simp [hw], fun _ => hw, fun a b => by rw [hw, b, hq, a], ⟨by rw [he], by rw [he]⟩,
      .of_eq hw, by simpa [waitMs] using hK.now hk⟩, by simp [hp, Panel.onEvents],
    fun hi => ⟨by rw [hq]; exact hi.1, by rw [hq]; exact hi.2.1, by rw [hb]; exact hi.2.2⟩,
    fun hi => by rw [hq]; exact hi⟩

/-- The bytes of pixels, by a path whose single byte is known. -/
theorem sendPixels_runs {send : Byte → State → Flow} (p : Profile → Prop)
    (hs : ∀ d s, p s.cfg.profile → (send d s).Runs Kept [.dat d] s) :
    ∀ (ds : List Byte) (s : State), p s.cfg.profile → (sendPixels send ds s).Runs KeptPixels (ds.map .dat) s
  | [], s, _ => Flow.runs_done keeps_keptPixels s
  | [d], s, h => (hs d s h).mono fun _ => Kept.pixels
  | hi :: lo :: ds, s, h => by
    refine Flow.runs_bind keeps_keptPixels (es := [.dat hi]) ((hs hi s h).mono fun _ => Kept.pixels) fun t _ ht _ => ?_
    have h1 : p t.cfg.profile := by rw [ht.cfg]; exact h
    refine Flow.runs_bind keeps_keptPixels (es := [.dat lo]) ((hs lo t h1).mono fun _ => Kept.pixels) fun u _ hu _ => ?_
    have h2 : p (countPixel u).cfg.profile := by rw [countPixel_cfg, hu.cfg]; exact h1
    exact Flow.runs_bind keeps_keptPixels (f := .done (countPixel u)) (es := [])
      (Flow.runs_unseen keeps_keptPixels (keptPixels_countPixel u) rfl rfl rfl rfl rfl rfl)
      fun v hv _ _ => by cases hv; exact sendPixels_runs p hs ds _ h2

theorem burstWord_shifts (d : Byte) (s : State) (hc : s.rx.cnt = 0) : (burstWord d s).Shifts Kept [.dat d] s :=
  sendWord_shifts _ _ s hc (fun k p => Panel.onWord_datWord k d p) (wordEvent_datWord d)

/-- The words of a burst. -/
theorem sendPixels_shifts :
    ∀ (ds : List Byte) (s : State), s.rx.cnt = 0 → (sendPixels burstWord ds s).Shifts KeptPixels (ds.map .dat) s
  | [], s, hc => ⟨⟨keeps_keptPixels.refl s, by simp, by simp, EnvTail.refl s, .refl _⟩, rfl, hc, rfl, id⟩
  | [d], s, hc => (burstWord_shifts d s hc).mono fun _ => Kept.pixels
  | hi :: lo :: ds, s, hc => by
    refine Flow.shifts_bind keeps_keptPixels (es := [.dat hi]) ((burstWord_shifts hi s hc).mono fun _ => Kept.pixels)
      fun t _ ht => ?_
    refine Flow.shifts_bind keeps_keptPixels (es := [.dat lo]) ((burstWord_shifts lo t ht).mono fun _ => Kept.pixels)
      fun u _ hu => ?_
    exact Flow.shifts_bind keeps_keptPixels (f := .done (countPixel u)) (es := []) (s := u)
      ⟨⟨keptPixels_countPixel u, by simp, by simp, ⟨List.suffix_refl _, List.suffix_refl _⟩, .refl _⟩, rfl, hu, rfl, id⟩
      fun v hv _ => by cases hv; exact sendPixels_shifts ds _ hu

/-- `pt_burst(bytes)`: the stream of the same bytes sent one by one (40_transport.md R110). -/
theorem ptBurst_runs (ds : List Byte) (s : State) : (ptBurst ds s).Runs KeptPixels (ds.map .dat) s := by
  unfold ptBurst
  split
  · next h =>
    exact framed_runs keeps_keptPixels (g := sendPixels burstWord ds) h (waitMs_dats ds) fun t ht => sendPixels_shifts ds t ht
  · next h => exact sendPixels_runs (· = .native) (fun d s hs => nativeSend_runs _ s hs rfl) ds s h

theorem recordWait_logical (ms : Nat) (s : State) : (recordWait ms s).logical = s.logical ++ [.wait ms] := by
  unfold recordWait; split <;> rfl

theorem recordWait_env (ms : Nat) (s : State) : (recordWait ms s).env = s.env := by
  unfold recordWait; split <;> rfl

theorem recordWait_now (ms : Nat) (s : State) : (recordWait ms s).now = s.now := by
  unfold recordWait; split <;> rfl

theorem recordWait_bridge (ms : Nat) (s : State) (h : s.cfg.profile = .bridge) :
    (recordWait ms s).wire = s.wire ++ [.wait ms] := by
  unfold recordWait; rw [h]; rfl

theorem recordWait_native (ms : Nat) (s : State) (h : s.cfg.profile = .native) :
    (recordWait ms s).wire = s.wire := by
  unfold recordWait; rw [h]; rfl

theorem kept_recordWait (ms : Nat) (s : State) : Kept s (recordWait ms s) := by
  unfold recordWait
  split
  · exact (kept_emit _ _).trans (kept_emitWire _ _)
  · exact kept_emit _ _

@[simp] theorem recordWait_pins (ms : Nat) (s : State) : (recordWait ms s).pins = s.pins := by
  unfold recordWait; split <;> rfl

@[simp] theorem recordWait_bitcnt (ms : Nat) (s : State) : (recordWait ms s).bitcnt = s.bitcnt := by
  unfold recordWait; split <;> rfl

@[simp] theorem recordWait_panel (ms : Nat) (s : State) : (recordWait ms s).panel = s.panel := by
  unfold recordWait; split <;> rfl

@[simp] theorem recordWait_cfg (ms : Nat) (s : State) : (recordWait ms s).cfg = s.cfg := by
  unfold recordWait; split <;> rfl

theorem waited (ms extra : Nat) (s : State) :
    Kept s (panelTakes (.wait ms) (recordWait ms (advance (Config.nsPerMs * ms + extra) (popWait s)))) ∧
      Arrived [.wait ms] s (panelTakes (.wait ms) (recordWait ms (advance (Config.nsPerMs * ms + extra) (popWait s)))) := by
  have hp : s.cfg.profile = .bridge ∨ s.cfg.profile = .native := by
    cases s.cfg.profile <;> simp
  refine ⟨?_, ⟨?_, fun h => ?_, fun h => ?_, fun a b => ?_, ⟨?_, ?_⟩, ?_, ?_⟩, ?_, ?_, ?_⟩
  · exact (kept_popWait s).trans ((kept_advance _ _).trans ((kept_recordWait _ _).trans (kept_panelTakes _ _)))
  · simp [recordWait_logical]
  · rw [panelTakes_wire, recordWait_bridge ms (advance (Config.nsPerMs * ms + extra) (popWait s)) h]
    simp [imageOf, WireEvent.image]
  · rw [panelTakes_wire, recordWait_native ms (advance (Config.nsPerMs * ms + extra) (popWait s)) h]
    simp
  · rcases hp with h | h
    · rw [panelTakes_wire, recordWait_bridge ms (advance (Config.nsPerMs * ms + extra) (popWait s)) h]
      simp [framing_append, a, b, framing]
    · rw [panelTakes_wire, recordWait_native ms (advance (Config.nsPerMs * ms + extra) (popWait s)) h]
      simp [a, b]
  · simp [recordWait_env]
  · simp [recordWait_env, List.tail_suffix]
  · rcases hp with h | h
    · rw [panelTakes_wire, recordWait_bridge ms (advance (Config.nsPerMs * ms + extra) (popWait s)) h]
      exact .others [.wait ms] (by simp) (by simp)
    · rw [panelTakes_wire, recordWait_native ms (advance (Config.nsPerMs * ms + extra) (popWait s)) h]
      simp
  · simp only [panelTakes_now, recordWait_now, advance_now, popWait_now, waitMs, Nat.add_zero]
    omega
  · simp [Panel.onEvents]
  · exact fun hi => ⟨by simpa using hi.1, by simpa using hi.2.1, by simpa using hi.2.2⟩
  · simp

/-- `wait_min(t)` (00_scope.md R14). -/
theorem waitMin_runs (ms : Nat) (s : State) : (waitMin ms s).Runs Kept [.wait ms] s := by
  unfold waitMin
  split
  · exact waited ms _ s
  · next h =>
    obtain ⟨u1, u2⟩ := unclean_of_wait h
    exact ⟨kept_popWait s, u1, u2, [], List.nil_prefix, .inr rfl,
      ⟨by simp, by simp, fun _ => rfl, fun a b => by simp [a, b], envTail_popWait s, by simp, by simp [waitMs]⟩⟩

end Sys2Proof.Machine
end

