-- ==== Sys2Proof/Laws/FrameWriter.lean ====
section
/-! SUPPORT. What the Frame Writer's operations can do: the stream of each step and of each variant, the line buffer, and
the ends of a fill. -/

namespace Sys2Proof.Machine

/-- Everything a fill never touches once its buffer is obtained: all but `fw_left` and `fw_row`. -/
structure KeptFill (s t : State) : Prop where
  cfg : t.cfg = s.cfg
  x : t.x = s.x
  ph : t.ph = s.ph
  busy : t.busy = s.busy
  rsp : t.rsp = s.rsp
  seq : t.seq = s.seq
  lb : t.lb = s.lb
  bufHeld : t.bufHeld = s.bufHeld
  rsps : t.rsps = s.rsps
  plat : t.plat = s.plat
  inbox : t.inbox = s.inbox
  free : t.free = s.free
  allocs : t.env.allocs = s.env.allocs
  now : s.now ≤ t.now

theorem KeptFill.refl (s : State) : KeptFill s s :=
  ⟨rfl, rfl, rfl, rfl, rfl, rfl, rfl, rfl, rfl, rfl, rfl, rfl, rfl, le_rfl⟩

theorem KeptFill.trans {s t u : State} (h : KeptFill s t) (g : KeptFill t u) : KeptFill s u :=
  ⟨g.cfg.trans h.cfg, g.x.trans h.x, g.ph.trans h.ph, g.busy.trans h.busy, g.rsp.trans h.rsp, g.seq.trans h.seq,
    g.lb.trans h.lb, g.bufHeld.trans h.bufHeld, g.rsps.trans h.rsps, g.plat.trans h.plat, g.inbox.trans h.inbox,
    g.free.trans h.free, g.allocs.trans h.allocs, h.now.trans g.now⟩

theorem Kept.fill {s t : State} (h : Kept s t) : KeptFill s t :=
  ⟨h.cfg, h.x, h.ph, h.busy, h.rsp, h.seq, h.lb, h.bufHeld, h.rsps, h.plat, h.inbox, h.free, h.allocs, h.now⟩

theorem KeptPixels.fill {s t : State} (h : KeptPixels s t) : KeptFill s t :=
  ⟨h.cfg, h.x, h.ph, h.busy, h.rsp, h.seq, h.lb, h.bufHeld, h.rsps, h.plat, h.inbox, h.free, h.allocs, h.now⟩

theorem keeps_keptFill : Keeps KeptFill := ⟨KeptFill.refl, KeptFill.trans, KeptFill.cfg, KeptFill.now, Kept.fill⟩

/-- A change of the fill counters alone, then a sequence. -/
theorem runs_counted {es : List Event} {s t : State} {f : Flow} (hk : KeptFill s t) (hl : t.logical = s.logical)
    (hw : t.wire = s.wire) (hp : t.panel = s.panel) (he : t.env = s.env) (hq : t.pins = s.pins)
    (hb : t.bitcnt = s.bitcnt) (hf : f.Runs KeptFill es t) : f.Runs KeptFill es s :=
  Flow.runs_bind keeps_keptFill (es := []) (g := fun _ => f) (Flow.runs_unseen keeps_keptFill hk hl hw hp he hq hb)
    fun u hu _ _ => by cases hu; exact hf

theorem keptFill_loadCount (x : Operands) (s : State) : KeptFill s (loadCount x s) :=
  ⟨rfl, rfl, rfl, rfl, rfl, rfl, rfl, rfl, rfl, rfl, rfl, rfl, rfl, le_rfl⟩

/-- The bytes of pixels, by either path (42_frame_writer.md R166, R167). -/
theorem streamBytes_runs (k : Config) (bs : List Byte) (s : State) :
    (streamBytes k bs s).Runs KeptPixels (bs.map .dat) s := by
  unfold streamBytes
  split
  · exact ptBurst_runs _ _
  · exact sendPixels_runs (fun _ => True) (fun d s _ => ptDat_runs d s) bs s trivial

/-- Step 4 sends exactly the two bytes of every pixel, by either path (42_frame_writer.md R166, R167). -/
theorem streamPixels_runs (k : Config) (x : Operands) (s : State) :
    (streamPixels k x s).Runs KeptFill ((pixelBytes x.pix x.pixels).map .dat) s :=
  runs_counted (t := loadCount x s) (keptFill_loadCount x s) rfl rfl rfl rfl rfl rfl
    ((streamBytes_runs k _ _).mono fun _ => KeptPixels.fill)

theorem openWindow_runs (k : Config) (xs ys xe ye : U16) (s : State) :
    (openWindow k xs ys xe ye s).Runs Kept (windowStream k xs ys xe ye) s := by
  unfold windowStream
  rw [List.append_assoc]
  refine Flow.runs_bind keeps_kept (sendGroup_runs _ _ s) fun t _ _ _ => ?_
  exact Flow.runs_bind keeps_kept (sendGroup_runs _ _ t) fun u _ _ _ => ptCmd_runs _ u

/-- SINGLE_WINDOW (42_frame_writer.md R160). -/
theorem fillSingle_runs (k : Config) (x : Operands) (s : State) :
    (fillSingle k x s).Runs KeptFill (fillStream k x.x0 x.y0 x.x1 x.y1 x.pix) s :=
  Flow.runs_bind keeps_keptFill ((openWindow_runs k _ _ _ _ s).mono fun _ => Kept.fill)
    fun t _ _ _ => streamPixels_runs k x t

theorem drawBitmap_runs (k : Config) (xs ys xe ye : U16) (bs : List Byte) (s : State) :
    (drawBitmap k xs ys xe ye bs s).Runs KeptPixels (windowStream k xs ys xe ye ++ bs.map .dat) s :=
  Flow.runs_bind keeps_keptPixels ((openWindow_runs k _ _ _ _ s).mono fun _ => Kept.pixels)
    fun t _ _ _ => streamBytes_runs k bs t

/-! ### The line buffer -/

/-- 42_frame_writer.md R176, read back. -/
theorem lineBuffer_read (p : U16) (n j : Nat) :
    (lineBuffer p n).read j = if j < 2 * n then some (if j % 2 = 0 then hiByte p else loByte p) else none := by
  induction n with
  | zero => simp [lineBuffer, Memory.read]
  | succ n ih =>
    simp only [lineBuffer, Memory.read_write, ih]
    by_cases h1 : j = 2 * n + 1
    · subst h1
      have : (2 * n + 1) % 2 = 1 := by omega
      simp [this, show 2 * n + 1 < 2 * (n + 1) by omega]
    · by_cases h2 : j = 2 * n
      · subst h2
        simp [show 2 * n < 2 * (n + 1) by omega]
      · by_cases h3 : j < 2 * n
        · simp [h1, h2, h3, show j < 2 * (n + 1) by omega]
        · simp [h1, h2, h3, show ¬ j < 2 * (n + 1) by omega]

theorem lineBuffer_wf (p : U16) (n : Nat) : (lineBuffer p n).wf = true := by
  induction n with
  | zero => rfl
  | succ n ih => exact Memory.wf_write (Memory.wf_write ih _ _) _ _

theorem lineBuffer_bytesFrom (p : U16) (w n i : Nat) (h : i + n ≤ w) :
    (lineBuffer p w).bytesFrom (2 * i) (2 * n) = pixelBytes p n := by
  induction n generalizing i with
  | zero => rfl
  | succ n ih =>
    have h1 : 2 * i < 2 * w := by omega
    have h2 : 2 * i + 1 < 2 * w := by omega
    have h3 : (2 * i + 1) % 2 = 1 := by omega
    have h4 : 2 * i + 1 + 1 = 2 * (i + 1) := by omega
    rw [Nat.mul_succ, Memory.bytesFrom, Memory.bytesFrom, lineBuffer_read, lineBuffer_read, if_pos h1, if_pos h2, h4,
      ih (i + 1) (by omega)]
    simp [h3, pixelBytes]

/-- The line buffer is sent as the pixel's bytes, high byte first (42_frame_writer.md R176). -/
theorem lineBuffer_bytes (p : U16) (w : Nat) : (lineBuffer p w).bytesFrom 0 (2 * w) = pixelBytes p w :=
  lineBuffer_bytesFrom p w w 0 (by omega)

/-- The rows from `fw_row` to `y1` (42_frame_writer.md R175). -/
theorem rowLoop_runs (k : Config) (x : Operands) (n : Nat) (s : State) (hl : s.lb = lineBuffer x.pix x.columns)
    (hr : s.fwRow.toNat + n = x.y1.toNat + 1) :
    (rowLoop k x n s).Runs KeptFill (rowsStream k x.x0 x.x1 x.pix s.fwRow.toNat n) s := by
  induction n generalizing s with
  | zero => exact Flow.runs_done keeps_keptFill s
  | succ n ih =>
    have hrow : BitVec.ofNat 16 s.fwRow.toNat = s.fwRow := by simp
    unfold rowLoop rowsStream rowStream
    rw [hl, lineBuffer_bytes, hrow]
    refine Flow.runs_bind keeps_keptFill ((drawBitmap_runs k _ _ _ _ _ s).mono fun _ => KeptPixels.fill) fun t ht hk _ => ?_
    have hd : KeptPixels s t := by
      have := drawBitmap_runs k x.x0 s.fwRow x.x1 s.fwRow (pixelBytes x.pix x.columns) s
      rw [ht] at this
      exact this.1
    split
    · next he =>
      rw [hd.fwRow] at he
      have : n = 0 := by rw [he] at hr; omega
      subst this
      exact Flow.runs_done keeps_keptFill t
    · next he =>
      rw [hd.fwRow] at he
      have hlt : s.fwRow.toNat < x.y1.toNat := by
        have : s.fwRow.toNat ≠ x.y1.toNat := fun h => he (BitVec.eq_of_toNat_eq h)
        omega
      have hy := x.y1.isLt
      have h1 : (t.fwRow + 1).toNat = s.fwRow.toNat + 1 := by
        rw [hd.fwRow, BitVec.toNat_add]
        simp
        omega
      refine runs_counted (t := { t with fwRow := t.fwRow + 1 })
        ⟨rfl, rfl, rfl, rfl, rfl, rfl, rfl, rfl, rfl, rfl, rfl, rfl, rfl, le_rfl⟩ rfl rfl rfl rfl rfl rfl ?_
      have := ih { t with fwRow := t.fwRow + 1 } (by show t.lb = _; rw [hk.lb, hl]) (by show (t.fwRow + 1).toNat + n = _; omega)
      rw [show ({ t with fwRow := t.fwRow + 1 } : State).fwRow = t.fwRow + 1 from rfl, h1] at this
      exact this

/-- ROW_BITMAP (42_frame_writer.md R175): the sequence from the state in which the line buffer is full. -/
theorem fillRows_runs (k : Config) (x : Operands) (s : State) (hy : x.y0.toNat ≤ x.y1.toNat) :
    (fillRows k x s).Runs KeptFill (rowsStream k x.x0 x.x1 x.pix x.y0.toNat x.rows) (startRows x s) :=
  rowLoop_runs k x x.rows (startRows x s) rfl (by show x.y0.toNat + x.rows = _; unfold Operands.rows; omega)

/-! ### A fill -/

/-- The state in which the first word of a fill is sent. -/
def fillStart (s : State) : State :=
  match s.cfg.fwVariant with
  | .singleWindow => obtainBuffer (popAlloc s)
  | .rowBitmap => startRows s.x (obtainBuffer (popAlloc s))

theorem fillCheck_none {s : State} : fillCheck s = none ↔ validRect s.cfg s.x = true ∧ s.ph = true := by
  unfold fillCheck
  cases validRect s.cfg s.x <;> cases s.ph <;> simp

/-- A fill that passes its checks and gets its buffer runs its variant. -/
theorem fill_runs {s : State} (h : fillCheck s = none) (ha : allocDraw s = true) :
    (fill s).Runs KeptFill (rectStream s.cfg s.x.x0 s.x.y0 s.x.x1 s.x.y1 s.x.pix) (fillStart s) := by
  have hv := (fillCheck_none.1 h).1
  simp only [validRect, Bool.and_eq_true, decide_eq_true_eq] at hv
  unfold fill fillStart rectStream
  rw [h]
  simp only [ha, if_true]
  cases s.cfg.fwVariant with
  | singleWindow => exact fillSingle_runs _ _ _
  | rowBitmap => exact fillRows_runs s.cfg s.x _ hv.1.1.2

theorem fill_refused {s : State} {r : Resp} (h : fillCheck s = some r) : fill s = .raised r s := by
  unfold fill; rw [h]

theorem fill_noBuffer {s : State} (h : fillCheck s = none) (ha : allocDraw s = false) :
    fill s = .raised .allocationError (popAlloc s) := by
  unfold fill; rw [h]; simp [ha]

/-- A fill that passes its checks and gets its buffer. -/
theorem fill_variant {s : State} (h : fillCheck s = none) (ha : allocDraw s = true) :
    fill s = match s.cfg.fwVariant with
      | .singleWindow => fillSingle s.cfg s.x (obtainBuffer (popAlloc s))
      | .rowBitmap => fillRows s.cfg s.x (obtainBuffer (popAlloc s)) := by
  unfold fill; rw [h]; exact if_pos ha

end Sys2Proof.Machine
end

