-- ==== Sys2Proof/Laws/Blind.lean ====
section
/-! SUPPORT. What an operation does not depend on: seen through a view that hides some of the state, what an operation leaves
is a function of what it found, seen through the same view. Two views are used: one hides the receiver, which the block never
reads (43_panel_receiver.md R201), the other the operand registers, which no transport operation reads. -/

namespace Sys2Proof.Machine

/-- An end of a sequence, seen through a view. -/
def Flow.view (v : State → State) : Flow → Flow
  | .done s => .done (v s)
  | .raised r s => .raised r (v s)
  | .hung s => .hung (v s)
  | .reset s => .reset (v s)

/-- An operation that does not depend on what a view hides. -/
def BlindOp (v u : State → State) : Prop := ∀ s, v (u s) = v (u (v s))

/-- A sequence that does not depend on what a view hides. -/
def Blind (v : State → State) (f : State → Flow) : Prop := ∀ s, (f s).view v = (f (v s)).view v

/-- A view: what sequences branch on is seen, and no elementary operation depends on what is hidden. -/
structure IsView (v : State → State) : Prop where
  cfg : ∀ s, (v s).cfg = s.cfg
  env : ∀ s, (v s).env = s.env
  quietDue : ∀ s, (v s).quietDue = s.quietDue
  fwRow : ∀ s, (v s).fwRow = s.fwRow
  lb : ∀ s, (v s).lb = s.lb
  clkRise : BlindOp v clkRise
  clkFall : BlindOp v clkFall
  loadWord : ∀ w, BlindOp v (loadWord w)
  popWord : BlindOp v popWord
  popWait : BlindOp v popWait
  emit : ∀ e, BlindOp v (emit e)
  emitWire : ∀ e, BlindOp v (emitWire e)
  advance : ∀ n, BlindOp v (advance n)
  assertCs : BlindOp v assertCs
  releaseCs : BlindOp v releaseCs
  losePanel : BlindOp v losePanel
  panelTakes : ∀ e, BlindOp v (panelTakes e)
  setPosition : ∀ p, BlindOp v (setPosition p)
  enterState : ∀ p, BlindOp v (enterState p)
  startParams : BlindOp v startParams
  nextParam : BlindOp v nextParam
  nextEntry : BlindOp v nextEntry
  clearHandle : BlindOp v clearHandle
  restartReplay : BlindOp v restartReplay
  enterReady : BlindOp v enterReady
  fwLeft : ∀ f : Nat → Nat, BlindOp v fun s => { s with fwLeft := f s.fwLeft }
  setRow : ∀ f : U16 → U16, BlindOp v fun s => { s with fwRow := f s.fwRow }
  setLine : ∀ m, BlindOp v fun s => { s with lb := m }
  takeBuffer : BlindOp v fun s => obtainBuffer (popAlloc s)

/-- The view that hides the receiver and the index of free values. -/
theorem isView_block : IsView State.blockView where
  cfg _ := rfl
  env _ := rfl
  quietDue _ := rfl
  fwRow _ := rfl
  lb _ := rfl
  clkRise s := by unfold Machine.clkRise rxSample; dsimp only; split <;> split <;> rfl
  clkFall _ := rfl
  loadWord _ _ := rfl
  popWord _ := rfl
  popWait _ := rfl
  emit _ _ := rfl
  emitWire _ _ := rfl
  advance _ _ := rfl
  assertCs _ := rfl
  releaseCs s := by unfold Machine.releaseCs rxRelease; split <;> split <;> rfl
  losePanel _ := rfl
  panelTakes _ _ := rfl
  setPosition _ _ := rfl
  enterState _ _ := rfl
  startParams _ := rfl
  nextParam _ := rfl
  nextEntry _ := rfl
  clearHandle _ := rfl
  restartReplay _ := rfl
  enterReady s := by unfold Machine.enterReady recoverPanel; split <;> split <;> rfl
  fwLeft _ _ := rfl
  setRow _ _ := rfl
  setLine _ _ := rfl
  takeBuffer _ := rfl

/-- The view that hides the operand registers behind `x`. -/
def State.operandView (x : Operands) (s : State) : State := { s with x := x }

theorem isView_operands (x : Operands) : IsView (State.operandView x) where
  cfg _ := rfl
  env _ := rfl
  quietDue _ := rfl
  fwRow _ := rfl
  lb _ := rfl
  clkRise s := by unfold Machine.clkRise rxSample State.operandView; dsimp only; split <;> rfl
  clkFall _ := rfl
  loadWord _ _ := rfl
  popWord _ := rfl
  popWait _ := rfl
  emit _ _ := rfl
  emitWire _ _ := rfl
  advance _ _ := rfl
  assertCs _ := rfl
  releaseCs s := by
    unfold Machine.releaseCs rxRelease Machine.emitWire State.operandView
    dsimp only
    split <;> rfl
  losePanel _ := rfl
  panelTakes _ _ := rfl
  setPosition _ _ := rfl
  enterState _ _ := rfl
  startParams _ := rfl
  nextParam _ := rfl
  nextEntry _ := rfl
  clearHandle _ := rfl
  restartReplay _ := rfl
  enterReady s := by
    unfold Machine.enterReady recoverPanel State.operandView setHandle Machine.enterState
    dsimp only
    split <;> rfl
  fwLeft _ _ := rfl
  setRow _ _ := rfl
  setLine _ _ := rfl
  takeBuffer _ := rfl

section
variable {v : State → State}

theorem BlindOp.comp {a b : State → State} (ha : BlindOp v a) (hb : BlindOp v b) : BlindOp v fun s => a (b s) := by
  intro s
  dsimp only
  rw [ha, hb, ← ha]

theorem Blind.done {u : State → State} (hu : BlindOp v u) : Blind v fun s => .done (u s) := fun s => congrArg Flow.done (hu s)

theorem Blind.of {f : State → Flow} {u : State → State} (hf : Blind v f) (hu : BlindOp v u) : Blind v fun s => f (u s) := by
  intro s
  dsimp only
  rw [hf, hu, ← hf]

theorem IsView.blind_id (V : IsView v) : BlindOp v fun s => s := V.fwLeft fun n => n

theorem Flow.view_bind (V : IsView v) {g : State → Flow} (hg : Blind v g) (f : Flow) :
    (f.bind g).view v = ((f.view v).bind g).view v := by
  cases f with
  | done s => exact hg s
  | raised r s => exact congrArg (Flow.raised r) (V.blind_id s)
  | hung s => exact congrArg Flow.hung (V.blind_id s)
  | reset s => exact congrArg Flow.reset (V.blind_id s)

theorem Blind.bind (V : IsView v) {f g : State → Flow} (hf : Blind v f) (hg : Blind v g) : Blind v fun s => (f s).bind g := by
  intro s
  dsimp only
  rw [Flow.view_bind V hg, hf, ← Flow.view_bind V hg]

/-- A choice made on what is seen. -/
theorem Blind.ite {c : State → Prop} [DecidablePred c] {f g : State → Flow} (hc : ∀ s, c s ↔ c (v s)) (hf : Blind v f)
    (hg : Blind v g) : Blind v fun s => if c s then f s else g s := by
  intro s
  by_cases h : c s
  · simp only [if_pos h, if_pos ((hc s).1 h)]; exact hf s
  · simp only [if_neg h, if_neg (fun x => h ((hc s).2 x))]; exact hg s

end

namespace IsView
variable {v : State → State} (V : IsView v)
include V

theorem blind_clockBits (n : Nat) : BlindOp v (clockBits n) := by
  induction n with
  | zero => exact V.blind_id
  | succ n ih =>
    show BlindOp v fun s => clockBits n (Machine.clkFall (Machine.clkRise s))
    exact BlindOp.comp ih (BlindOp.comp V.clkFall V.clkRise)

theorem blind_abortWord : BlindOp v abortWord := by
  show BlindOp v fun s => Machine.losePanel (Machine.releaseCs (Machine.emitWire .wordFailed s))
  exact BlindOp.comp V.losePanel (BlindOp.comp V.releaseCs (V.emitWire _))

theorem blind_shifted (w : Word) (n : Nat) : BlindOp v fun s => clockBits n (Machine.loadWord w (Machine.popWord s)) :=
  BlindOp.comp (V.blind_clockBits n) (BlindOp.comp (V.loadWord w) V.popWord)

theorem blind_cutWord (n : Nat) (high : Bool) (w : Word) : BlindOp v fun s => cutWord n high w (Machine.popWord s) := by
  intro s
  unfold cutWord
  dsimp only
  split
  · exact BlindOp.comp V.clkRise (V.blind_shifted w _) s
  · exact V.blind_shifted w _ s

theorem wordDraw_eq (s : State) : wordDraw (v s) = wordDraw s := by unfold wordDraw; rw [V.env]

theorem waitDraw_eq (s : State) : waitDraw (v s) = waitDraw s := by unfold waitDraw; rw [V.env]

theorem blind_sendWord (w : Word) (e : Event) : Blind v (sendWord w e) := by
  intro s
  unfold sendWord
  rw [V.wordDraw_eq]
  cases wordDraw s with
  | sent => exact congrArg Flow.done (BlindOp.comp (V.emit e) (BlindOp.comp (V.emitWire _) (V.blind_shifted w 32)) s)
  | failed n => exact congrArg (Flow.raised _) (BlindOp.comp V.blind_abortWord (V.blind_shifted w _) s)
  | hang n high => exact congrArg Flow.hung (V.blind_cutWord n high w s)
  | reset n => exact congrArg Flow.reset (V.blind_cutWord n false w s)

theorem blind_quiet : Blind v quiet := by
  intro s
  unfold quiet
  rw [V.waitDraw_eq, V.cfg]
  cases waitDraw s with
  | elapsed extra =>
    exact congrArg Flow.done (BlindOp.comp (V.emitWire _) (BlindOp.comp (V.advance (s.cfg.tQuietNs + extra)) V.popWait) s)
  | reset => exact congrArg Flow.reset (V.popWait s)

theorem blind_awaitQuiet : Blind v awaitQuiet := by
  intro s
  unfold awaitQuiet
  rw [V.waitDraw_eq, V.quietDue]
  split
  · exact congrArg Flow.done (V.blind_id s)
  · cases waitDraw s with
    | elapsed extra => exact congrArg Flow.done (BlindOp.comp (V.advance (s.quietDue + extra)) V.popWait s)
    | reset => exact congrArg Flow.reset (V.popWait s)

theorem blind_framed {g : State → Flow} (hg : Blind v g) : Blind v (framed g) :=
  Blind.bind V V.blind_awaitQuiet (Blind.bind V (Blind.of hg V.assertCs) (Blind.of V.blind_quiet V.releaseCs))

theorem blind_txWord (w : Word) (e : Event) : Blind v (txWord w e) := V.blind_framed (V.blind_sendWord w e)

theorem blind_nativeSend (e : Event) : Blind v (nativeSend e) := by
  intro s
  unfold nativeSend
  rw [V.wordDraw_eq]
  cases wordDraw s with
  | sent => exact congrArg Flow.done (BlindOp.comp (V.panelTakes e) (BlindOp.comp (V.emit e) V.popWord) s)
  | failed n => exact congrArg (Flow.raised _) (BlindOp.comp V.losePanel V.popWord s)
  | hang n high => exact congrArg Flow.hung (BlindOp.comp V.losePanel V.popWord s)
  | reset n => exact congrArg Flow.reset (BlindOp.comp V.losePanel V.popWord s)

theorem blind_ptCmd (c : Byte) : Blind v (ptCmd c) := by
  intro s
  unfold ptCmd
  rw [V.cfg]
  cases s.cfg.profile
  · exact V.blind_txWord _ _ s
  · exact V.blind_nativeSend _ s

theorem blind_ptDat (d : Byte) : Blind v (ptDat d) := by
  intro s
  unfold ptDat
  rw [V.cfg]
  cases s.cfg.profile
  · exact V.blind_txWord _ _ s
  · exact V.blind_nativeSend _ s

theorem blind_sendBytes (ds : List Byte) : Blind v (sendBytes ds) := by
  induction ds with
  | nil => exact Blind.done V.blind_id
  | cons d ds ih => exact Blind.bind V (V.blind_ptDat d) ih

theorem blind_sendGroup (c : Byte) (ds : List Byte) : Blind v (sendGroup c ds) :=
  Blind.bind V (V.blind_ptCmd c) (V.blind_sendBytes ds)

theorem blind_sendPixels {send : Byte → State → Flow} (hs : ∀ d, Blind v (send d)) :
    ∀ ds : List Byte, Blind v (sendPixels send ds)
  | [] => Blind.done V.blind_id
  | [d] => hs d
  | hi :: lo :: ds =>
    Blind.bind V (hs hi) (Blind.bind V (hs lo) (Blind.of (blind_sendPixels hs ds) (V.fwLeft fun m => m - 1)))

theorem blind_ptBurst (ds : List Byte) : Blind v (ptBurst ds) := by
  intro s
  unfold ptBurst
  rw [V.cfg]
  cases s.cfg.profile
  · exact V.blind_framed (V.blind_sendPixels (fun d => V.blind_sendWord _ _) ds) s
  · exact V.blind_sendPixels (fun d => V.blind_nativeSend _) ds s

theorem blind_recordWait (ms : Nat) : BlindOp v (recordWait ms) := by
  intro s
  unfold recordWait
  rw [V.cfg]
  cases s.cfg.profile
  · exact BlindOp.comp (V.emitWire _) (V.emit _) s
  · exact V.emit _ s

theorem blind_waitMin (ms : Nat) : Blind v (waitMin ms) := by
  intro s
  unfold waitMin
  rw [V.waitDraw_eq]
  cases waitDraw s with
  | elapsed extra =>
    exact congrArg Flow.done (BlindOp.comp (V.panelTakes _) (BlindOp.comp (V.blind_recordWait ms)
      (BlindOp.comp (V.advance (Config.nsPerMs * ms + extra)) V.popWait)) s)
  | reset => exact congrArg Flow.reset (V.popWait s)

/-! ### The sequencer -/

theorem blind_sendParams (bs : List Byte) : Blind v (sendParams bs) := by
  induction bs with
  | nil => exact Blind.done V.blind_id
  | cons b bs ih => exact Blind.bind V (V.blind_ptDat b) (Blind.of ih V.nextParam)

theorem blind_sendEntry (e : Entry) : Blind v (sendEntry e) := by
  refine Blind.bind V (Blind.of (V.blind_ptCmd _) V.startParams) ?_
  refine Blind.bind V (V.blind_sendParams _) (Blind.bind V ?_ (Blind.done V.nextEntry))
  intro s
  unfold entryDelay
  split
  · exact V.blind_waitMin _ s
  · exact Blind.done V.blind_id s

theorem blind_sendSegment (es : List Entry) : Blind v (sendSegment es) := by
  induction es with
  | nil => exact Blind.done V.blind_id
  | cons e es ih => exact Blind.bind V (V.blind_sendEntry e) ih

theorem blind_activity (k : Config) (p : SeqState) : Blind v (activity k p) := by
  cases p with
  | reset =>
    show Blind v fun s => sendSegment (segment k .reset) (Machine.setPosition Position.start (Machine.clearHandle s))
    exact Blind.of (V.blind_sendSegment _) (BlindOp.comp (V.setPosition Position.start) V.clearHandle)
  | powerWait => exact V.blind_waitMin _
  | settleDelay120 => exact V.blind_waitMin _
  | settleDelay10 => exact V.blind_waitMin _
  | ready => exact Blind.done V.blind_id
  | pageUnlock => exact V.blind_sendSegment _
  | registerBurst => exact V.blind_sendSegment _
  | gammaPageUnlock => exact V.blind_sendSegment _
  | gammaBurst => exact V.blind_sendSegment _
  | pageLock => exact V.blind_sendSegment _
  | displayModeConfig => exact V.blind_sendSegment _
  | sleepOut => exact V.blind_sendSegment _
  | displayOn => exact V.blind_sendSegment _

theorem blind_runStates (k : Config) (ps : List SeqState) : Blind v (runStates k ps) := by
  induction ps with
  | nil => exact Blind.done V.blind_id
  | cons p ps ih => exact Blind.bind V (Blind.of (V.blind_activity k p) (V.enterState p)) ih

theorem blind_runSequence : Blind v runSequence := by
  intro s
  unfold runSequence
  rw [V.cfg]
  exact Blind.bind V (Blind.of (V.blind_runStates s.cfg runOrder) (BlindOp.comp (V.setPosition Position.start) V.restartReplay)) (Blind.done V.enterReady) s

/-! ### The Frame Writer -/

theorem blind_openWindow (k : Config) (xs ys xe ye : U16) : Blind v (openWindow k xs ys xe ye) :=
  Blind.bind V (V.blind_sendGroup _ _) (Blind.bind V (V.blind_sendGroup _ _) (V.blind_ptCmd _))

theorem blind_streamBytes (k : Config) (bs : List Byte) : Blind v (streamBytes k bs) := by
  intro s
  unfold streamBytes
  split
  · exact V.blind_ptBurst bs s
  · exact V.blind_sendPixels V.blind_ptDat bs s

theorem blind_loadCount (x : Operands) : BlindOp v (loadCount x) := V.fwLeft fun _ => x.pixels

theorem blind_streamPixels (k : Config) (x : Operands) : Blind v (streamPixels k x) :=
  Blind.of (u := loadCount x) (V.blind_streamBytes k _) (V.blind_loadCount x)

theorem blind_rowLoop (k : Config) (x : Operands) (n : Nat) : Blind v (rowLoop k x n) := by
  induction n with
  | zero => exact Blind.done V.blind_id
  | succ n ih =>
    intro s
    unfold rowLoop
    rw [V.fwRow, V.lb]
    exact Blind.bind V (Blind.bind V (V.blind_openWindow k x.x0 s.fwRow x.x1 s.fwRow)
        (V.blind_streamBytes k (s.lb.bytesFrom 0 (2 * x.columns))))
      (Blind.ite (c := fun t => t.fwRow = x.y1) (fun t => by rw [V.fwRow]) (Blind.done V.blind_id)
        (Blind.of ih (V.setRow fun r => r + 1))) s

theorem blind_fillSingle (k : Config) (x : Operands) : Blind v (fillSingle k x) :=
  Blind.bind V (V.blind_openWindow _ _ _ _ _) (V.blind_streamPixels _ _)

theorem blind_fillRows (k : Config) (x : Operands) : Blind v (fillRows k x) := by
  have h := V.blind_rowLoop k x
  unfold fillRows
  generalize x.rows = n
  exact Blind.of (u := startRows x) (h n) (BlindOp.comp (a := loadCount x) (V.blind_loadCount x)
    (BlindOp.comp (V.setRow fun _ => x.y0) (V.setLine (lineBuffer x.pix x.columns))))

end IsView

/-- A fill does not depend on the receiver. -/
theorem blind_fill : Blind State.blockView fill := by
  intro s
  have e1 : fillCheck s.blockView = fillCheck s := rfl
  have e2 : allocDraw s.blockView = allocDraw s := rfl
  cases hc : fillCheck s with
  | some r => rw [fill_refused hc, fill_refused (e1.trans hc)]; rfl
  | none =>
    cases ha : allocDraw s with
    | false => rw [fill_noBuffer hc ha, fill_noBuffer (e1.trans hc) (e2.trans ha)]; rfl
    | true =>
      rw [fill_variant hc ha, fill_variant (e1.trans hc) (e2.trans ha), show s.blockView.cfg = s.cfg from rfl,
        show s.blockView.x = s.x from rfl]
      cases s.cfg.fwVariant
      · exact Blind.of (isView_block.blind_fillSingle s.cfg s.x) isView_block.takeBuffer s
      · exact Blind.of (isView_block.blind_fillRows s.cfg s.x) isView_block.takeBuffer s

theorem rowLoop_op (k : Config) (x : Operands) (o : Byte) (n : Nat) : rowLoop k { x with op := o } n = rowLoop k x n := by
  induction n with
  | zero => rfl
  | succ n ih =>
    funext s
    unfold rowLoop
    rw [ih]
    rfl

theorem fillRows_op (k : Config) (x : Operands) (o : Byte) : fillRows k { x with op := o } = fillRows k x := by
  funext s
  unfold fillRows
  rw [rowLoop_op]
  rfl

/-- A fill does not read the operation code: two states that differ in it alone end alike. -/
theorem fill_operands {s t : State} (x : Operands) (h : s.operandView x = t.operandView x)
    (hx : s.x = { t.x with op := s.x.op }) :
    (fill s).view (State.operandView x) = (fill t).view (State.operandView x) := by
  have hph : s.ph = t.ph := by
    have e := congrArg State.ph h
    exact e
  have hcfg : s.cfg = t.cfg := by
    have e := congrArg State.cfg h
    exact e
  have henv : s.env = t.env := by
    have e := congrArg State.env h
    exact e
  have ha : allocDraw s = allocDraw t := by unfold allocDraw; rw [henv]
  have hc : fillCheck s = fillCheck t := by
    unfold fillCheck
    rw [hcfg, hph, hx]
    rfl
  have hf : fillSingle s.cfg s.x = fillSingle t.cfg t.x := by
    rw [hcfg, hx]
    rfl
  have hr : fillRows s.cfg s.x = fillRows t.cfg t.x := by
    rw [hcfg, hx, fillRows_op]
  have V := isView_operands x
  cases hs : fillCheck s with
  | some r =>
    rw [fill_refused hs, fill_refused (hc.symm.trans hs)]
    exact congrArg (Flow.raised r) h
  | none =>
    cases hd : allocDraw s with
    | false =>
      rw [fill_noBuffer hs hd, fill_noBuffer (hc.symm.trans hs) (ha.symm.trans hd)]
      exact congrArg (Flow.raised _) (congrArg popAlloc h)
    | true =>
      rw [fill_variant hs hd, fill_variant (hc.symm.trans hs) (ha.symm.trans hd), hf, hr, hcfg]
      cases t.cfg.fwVariant
      · have a := Blind.of (V.blind_fillSingle t.cfg t.x) V.takeBuffer s
        have b := Blind.of (V.blind_fillSingle t.cfg t.x) V.takeBuffer t
        rw [h] at a
        exact a.trans b.symm
      · have a := Blind.of (V.blind_fillRows t.cfg t.x) V.takeBuffer s
        have b := Blind.of (V.blind_fillRows t.cfg t.x) V.takeBuffer t
        rw [h] at a
        exact a.trans b.symm

/-! ### The ends -/

/-- The end of an operation, seen without the receiver, from the end of its sequence, seen so. -/
theorem finish_view (f : Flow) : (finish f).blockView = (finish (f.view State.blockView)).blockView := by cases f <;> rfl

theorem finishWord_view (b : Bool) (f : Flow) :
    (finishWord b f).blockView = (finishWord b (f.view State.blockView)).blockView := by
  cases f <;> rfl

theorem finishInit_view (f : Flow) : (finishInit f).blockView = (finishInit (f.view State.blockView)).blockView := by
  cases f <;> rfl

theorem finishFill_view (f : Flow) : (finishFill f).blockView = (finishFill (f.view State.blockView)).blockView := by
  cases f <;> rfl

/-- No instruction depends on the receiver. -/
theorem exec_blind (i : Instr) (s : State) :
    ∃ t u, exec i s = .next t ∧ exec i s.blockView = .next u ∧ t.blockView = u.blockView := by
  have V := isView_block
  have raw : ∀ (f : State → Flow) (a : State → State), Blind State.blockView f → BlindOp State.blockView a →
      (finish (f (a s))).blockView = (finish (f (a s.blockView))).blockView := by
    intro f a hf ha
    rw [finish_view, Blind.of hf ha s, ← finish_view]
  have word : ∀ f : State → Flow, Blind State.blockView f →
      (finishWord s.busy (f { s with busy := true })).blockView
        = (finishWord s.busy (f { s.blockView with busy := true })).blockView := by
    intro f hf
    rw [finishWord_view, Blind.of hf (u := fun s => { s with busy := true }) (fun _ => rfl) s, ← finishWord_view]
  have filled : ∀ a : State → State, BlindOp State.blockView a →
      (finishFill (fill (a s))).blockView = (finishFill (fill (a s.blockView))).blockView := by
    intro a ha
    rw [finishFill_view, Blind.of blind_fill ha s, ← finishFill_view]
  cases i with
  | wrcmd c => exact ⟨_, _, rfl, rfl, word _ (V.blind_ptCmd c)⟩
  | wrcolor d => exact ⟨_, _, rfl, rfl, word _ (V.blind_ptDat d)⟩
  | sendCommand c => exact ⟨_, _, rfl, rfl, raw _ (acceptByte opSendCommand c) (V.blind_ptCmd c) fun _ => rfl⟩
  | sendData d => exact ⟨_, _, rfl, rfl, raw _ (acceptByte opSendData d) (V.blind_ptDat d) fun _ => rfl⟩
  | runInit =>
    refine ⟨_, _, rfl, rfl, ?_⟩
    rw [finishInit_view, Blind.of V.blind_runSequence (u := acceptInit) (fun _ => rfl) s, ← finishInit_view]
  | fillRect x0 y0 x1 y1 p => exact ⟨_, _, rfl, rfl, filled (acceptRect x0 y0 x1 y1 p) fun _ => rfl⟩
  | fillScreen p => exact ⟨_, _, rfl, rfl, filled (fun s => loadFullScreen (acceptScreen p s)) fun _ => rfl⟩
  | caset a b => exact ⟨_, _, rfl, rfl, word _ (V.blind_sendGroup _ _)⟩
  | raset a b => exact ⟨_, _, rfl, rfl, word _ (V.blind_sendGroup _ _)⟩
  | ramwr => exact ⟨_, _, rfl, rfl, word _ (V.blind_sendGroup _ _)⟩
  | slpout ps => exact ⟨_, _, rfl, rfl, word _ (Blind.bind V (V.blind_sendGroup _ _) (V.blind_waitMin _))⟩
  | dispon ps => exact ⟨_, _, rfl, rfl, word _ (Blind.bind V (V.blind_sendGroup _ _) (V.blind_waitMin _))⟩
  | vendor c ps => exact ⟨_, _, rfl, rfl, word _ (V.blind_sendGroup _ _)⟩

end Sys2Proof.Machine
end

