-- ==== Sys2Proof/Laws/Counts.lean ====
section
/-! SUPPORT. What a fill has counted when its pixels have been sent, and where a word of theirs never returned
(10_state.md R25). -/

namespace Sys2Proof.Machine

/-- What holds of the state in which a word never returned. -/
def Flow.OnHung (P : State → Prop) : Flow → Prop
  | .done _ => True
  | .raised _ _ => True
  | .hung t => P t
  | .reset _ => True

theorem Flow.onHung_bind {P : State → Prop} {f : Flow} {g : State → Flow} (hf : f.OnHung P)
    (hg : ∀ t, f = .done t → (g t).OnHung P) : (f.bind g).OnHung P := by
  cases f with
  | done t => exact hg t rfl
  | raised r t => trivial
  | hung t => exact hf
  | reset t => trivial

theorem Flow.OnHung.mono {P Q : State → Prop} {f : Flow} (hf : f.OnHung P) (h : ∀ t, P t → Q t) : f.OnHung Q := by
  cases f with
  | done t => trivial
  | raised r t => trivial
  | hung t => exact h t hf
  | reset t => trivial

theorem quiet_onHung (P : State → Prop) (s : State) : (quiet s).OnHung P := by
  unfold quiet; split <;> trivial

/-- One byte of a pixel: nothing is counted yet, and the byte is recorded when it was sent. -/
structure SendsByte (f : Flow) (s : State) : Prop where
  done : f.OnDone fun t => t.fwLeft = s.fwLeft ∧ t.logical.length = s.logical.length + 1
  hung : f.OnHung fun t => t.fwLeft = s.fwLeft ∧ t.logical.length = s.logical.length

theorem sendsByte_of_runs {d : Byte} {s : State} {f : Flow} (h : f.Runs Kept [.dat d] s) : SendsByte f s := by
  cases f with
  | done t => exact ⟨⟨h.1.fwLeft, by rw [h.2.logical]; simp⟩, trivial⟩
  | raised r t => exact ⟨trivial, trivial⟩
  | hung t =>
    obtain ⟨k, -, pre, -, p2, -, w⟩ := h
    have : pre = [] := List.length_eq_zero_iff.1 (by simpa using p2)
    exact ⟨trivial, k.fwLeft, by rw [w.logical, this]; simp⟩
  | reset t => exact ⟨trivial, trivial⟩

theorem sendsByte_burst (d : Byte) (s : State) : SendsByte (burstWord d s) s := by
  have b := fun n => (bitsOnly_loadWord (datWord d) (popWord s)).trans (bitsOnly_clockBits n _)
  unfold burstWord sendWord
  split
  · exact ⟨⟨by simp [(b 32).fwLeft], by simp [(b 32).logical]⟩, trivial⟩
  · exact ⟨trivial, trivial⟩
  · next n high _ =>
    have b := bitsOnly_cutWord n high (datWord d) (popWord s)
    exact ⟨trivial, b.fwLeft, by rw [b.logical]; rfl⟩
  · exact ⟨trivial, trivial⟩

theorem sendsByte_native (d : Byte) (s : State) : SendsByte (burstNative d s) s := by
  unfold burstNative nativeSend
  split
  · exact ⟨⟨rfl, by simp⟩, trivial⟩
  · exact ⟨trivial, trivial⟩
  · exact ⟨trivial, rfl, rfl⟩
  · exact ⟨trivial, trivial⟩

/-- `n` bytes were recorded and the whole pixels among them counted. -/
def CountedBytes (s t : State) (n : Nat) : Prop := t.logical.length = s.logical.length + n ∧ t.fwLeft = s.fwLeft - n / 2

/-- The pixels of a sequence of bytes are counted as they are sent: when it returned OK, all of them, and where a word hung,
the whole pixels on the logical stream. -/
theorem sendPixels_counts {send : Byte → State → Flow} (hs : ∀ d s, SendsByte (send d s) s) :
    ∀ (ds : List Byte) (s : State),
      ((sendPixels send ds s).OnDone fun t => CountedBytes s t ds.length) ∧
      ((sendPixels send ds s).OnHung fun t => ∃ n, CountedBytes s t n)
  | [], _ => ⟨⟨rfl, rfl⟩, trivial⟩
  | [d], s => ⟨(hs d s).done.mono fun _ h => ⟨h.2, by simp [h.1]⟩, (hs d s).hung.mono fun _ h => ⟨0, h.2, h.1⟩⟩
  | hi :: lo :: ds, s => by
    constructor
    · refine Flow.onDone_bind (hs hi s).done fun t ht => Flow.onDone_bind (hs lo t).done fun u hu => ?_
      refine (sendPixels_counts hs ds (countPixel u)).1.mono fun v hv => ⟨?_, ?_⟩
      · rw [hv.1, countPixel_logical, hu.2, ht.2, List.length_cons, List.length_cons]; omega
      · rw [hv.2, countPixel_fwLeft, hu.1, ht.1, List.length_cons, List.length_cons]; omega
    · refine Flow.onHung_bind ((hs hi s).hung.mono fun _ h => ⟨0, h.2, h.1⟩) fun t e => ?_
      have ht := (hs hi s).done
      rw [e] at ht
      refine Flow.onHung_bind ((hs lo t).hung.mono fun u h => ⟨1, by rw [h.2, ht.2], by simp [h.1, ht.1]⟩) fun u e => ?_
      have hu := (hs lo t).done
      rw [e] at hu
      refine (sendPixels_counts hs ds (countPixel u)).2.mono fun v ⟨n, h1, h2⟩ => ⟨n + 2, ?_, ?_⟩
      · rw [h1, countPixel_logical, hu.2, ht.2]; omega
      · rw [h2, countPixel_fwLeft, hu.1, ht.1]; omega

/-- An assertion of chip-select around the words of bytes counts what they count. -/
theorem framed_counts {g : State → Flow} {n : Nat} (s : State)
    (hg : ∀ t, ((g t).OnDone fun u => CountedBytes t u n) ∧ (g t).OnHung fun u => ∃ m, CountedBytes t u m) :
    ((framed g s).OnDone fun t => CountedBytes s t n) ∧ (framed g s).OnHung fun t => ∃ m, CountedBytes s t m := by
  have ha : (awaitQuiet s).OnDone (fun t => t.logical = s.logical ∧ t.fwLeft = s.fwLeft) ∧ (awaitQuiet s).OnHung fun _ => False := by
    unfold awaitQuiet
    split
    · exact ⟨⟨rfl, rfl⟩, trivial⟩
    · split <;> exact ⟨by trivial, trivial⟩
  have counted : ∀ {a t : State} {m : Nat}, a.logical = s.logical ∧ a.fwLeft = s.fwLeft → CountedBytes (assertCs a) t m →
      CountedBytes s t m := fun h c => ⟨by rw [c.1, assertCs_logical, h.1], by rw [c.2, assertCs_fwLeft, h.2]⟩
  constructor
  · refine Flow.onDone_bind ha.1 fun a h => Flow.onDone_bind (hg (assertCs a)).1 fun t ht => ?_
    have ht := counted h ht
    unfold quiet
    split
    · refine ⟨?_, ?_⟩
      · rw [emitWire_logical, advance_logical, popWait_logical, releaseCs_logical]; exact ht.1
      · rw [emitWire_fwLeft, advance_fwLeft, popWait_fwLeft, (kept_releaseCs t).fwLeft]; exact ht.2
    · trivial
  · refine Flow.onHung_bind (ha.2.mono fun _ h => h.elim) fun a e => ?_
    have h := ha.1
    rw [e] at h
    exact Flow.onHung_bind ((hg (assertCs a)).2.mono fun t ⟨m, c⟩ => ⟨m, counted h c⟩) fun t _ => quiet_onHung _ _

/-- The same by either path of step 4 (42_frame_writer.md R166, R167). -/
theorem streamBytes_counts (k : Config) (ds : List Byte) (s : State) :
    ((streamBytes k ds s).OnDone fun t => CountedBytes s t ds.length) ∧
    ((streamBytes k ds s).OnHung fun t => ∃ n, CountedBytes s t n) := by
  unfold streamBytes ptBurst
  split
  · split
    · exact framed_counts s (sendPixels_counts sendsByte_burst ds)
    · exact sendPixels_counts sendsByte_native ds s
  · exact sendPixels_counts (fun d t => sendsByte_of_runs (ptDat_runs d t)) ds s

end Sys2Proof.Machine
end

