-- ==== Sys2Proof/Laws/Sequencer.lean ====
section
/-! SUPPORT. What the sequencer's operations can do: the stream of an entry, a segment, a state and the run; the position
they leave; and that the segments are the whole table. -/

namespace Sys2Proof.Machine

/-- Everything the sequencer never touches once `Reset` has been entered: all but the position. -/
structure KeptRun (s t : State) : Prop where
  cfg : t.cfg = s.cfg
  x : t.x = s.x
  ph : t.ph = s.ph
  busy : t.busy = s.busy
  rsp : t.rsp = s.rsp
  fwLeft : t.fwLeft = s.fwLeft
  fwRow : t.fwRow = s.fwRow
  lb : t.lb = s.lb
  bufHeld : t.bufHeld = s.bufHeld
  rsps : t.rsps = s.rsps
  plat : t.plat = s.plat
  inbox : t.inbox = s.inbox
  free : t.free = s.free
  allocs : t.env.allocs = s.env.allocs
  now : s.now ≤ t.now

theorem KeptRun.refl (s : State) : KeptRun s s :=
  ⟨rfl, rfl, rfl, rfl, rfl, rfl, rfl, rfl, rfl, rfl, rfl, rfl, rfl, rfl, le_rfl⟩

theorem KeptRun.trans {s t u : State} (h : KeptRun s t) (g : KeptRun t u) : KeptRun s u :=
  ⟨g.cfg.trans h.cfg, g.x.trans h.x, g.ph.trans h.ph, g.busy.trans h.busy, g.rsp.trans h.rsp,
    g.fwLeft.trans h.fwLeft, g.fwRow.trans h.fwRow, g.lb.trans h.lb, g.bufHeld.trans h.bufHeld,
    g.rsps.trans h.rsps, g.plat.trans h.plat, g.inbox.trans h.inbox, g.free.trans h.free,
    g.allocs.trans h.allocs, h.now.trans g.now⟩

theorem Kept.run {s t : State} (h : Kept s t) : KeptRun s t :=
  ⟨h.cfg, h.x, h.ph, h.busy, h.rsp, h.fwLeft, h.fwRow, h.lb, h.bufHeld, h.rsps, h.plat, h.inbox, h.free,
    h.allocs, h.now⟩

theorem keeps_keptRun : Keeps KeptRun := ⟨KeptRun.refl, KeptRun.trans, KeptRun.cfg, KeptRun.now, Kept.run⟩

/-- A change of position alone. -/
theorem moved {s t : State} (h : KeptRun s t) (hl : t.logical = s.logical) (hw : t.wire = s.wire)
    (hp : t.panel = s.panel) (he : t.env = s.env) (hq : t.pins = s.pins) (hb : t.bitcnt = s.bitcnt) :
    (Flow.done t).Runs KeptRun [] s :=
  Flow.runs_unseen keeps_keptRun h hl hw hp he hq hb

/-- A step after a change of position. -/
theorem runs_moved {es : List Event} {s t : State} {f : Flow} (h : (Flow.done t).Runs KeptRun [] s)
    (hf : f.Runs KeptRun es t) : f.Runs KeptRun es s := by
  have := Flow.runs_bind keeps_keptRun (g := fun _ => f) (fs := es) h fun u hu _ _ => by cases hu; exact hf
  exact this

theorem enterState_moved (p : SeqState) (s : State) : (Flow.done (enterState p s)).Runs KeptRun [] s :=
  moved ⟨rfl, rfl, rfl, rfl, rfl, rfl, rfl, rfl, rfl, rfl, rfl, rfl, rfl, rfl, le_rfl⟩ rfl rfl rfl rfl rfl rfl

theorem startParams_moved (s : State) : (Flow.done (startParams s)).Runs KeptRun [] s :=
  moved ⟨rfl, rfl, rfl, rfl, rfl, rfl, rfl, rfl, rfl, rfl, rfl, rfl, rfl, rfl, le_rfl⟩ rfl rfl rfl rfl rfl rfl

theorem nextParam_moved (s : State) : (Flow.done (nextParam s)).Runs KeptRun [] s :=
  moved ⟨rfl, rfl, rfl, rfl, rfl, rfl, rfl, rfl, rfl, rfl, rfl, rfl, rfl, rfl, le_rfl⟩ rfl rfl rfl rfl rfl rfl

theorem nextEntry_moved (s : State) : (Flow.done (nextEntry s)).Runs KeptRun [] s :=
  moved ⟨rfl, rfl, rfl, rfl, rfl, rfl, rfl, rfl, rfl, rfl, rfl, rfl, rfl, rfl, le_rfl⟩ rfl rfl rfl rfl rfl rfl

theorem sendParams_runs (bs : List Byte) (s : State) : (sendParams bs s).Runs KeptRun (bs.map .dat) s := by
  induction bs generalizing s with
  | nil => exact Flow.runs_done keeps_keptRun s
  | cons b bs ih =>
    exact Flow.runs_bind keeps_keptRun (es := [.dat b]) ((ptDat_runs b s).mono fun _ => Kept.run)
      fun t _ _ _ => runs_moved (nextParam_moved t) (ih _)

theorem entryDelay_runs (e : Entry) (s : State) :
    (entryDelay e s).Runs KeptRun
      (if 0 < e.delayMs ∧ e.phase ≠ .sleepOut ∧ e.phase ≠ .displayOn then [.wait e.delayMs] else []) s := by
  unfold entryDelay
  split
  · exact (waitMin_runs _ s).mono fun _ => Kept.run
  · exact Flow.runs_done keeps_keptRun s

/-- `send_entry(e)` (41_init_sequencer.md R146). -/
theorem sendEntry_runs (e : Entry) (s : State) : (sendEntry e s).Runs KeptRun (entryStream e) s := by
  unfold sendEntry entryStream groupStream
  refine runs_moved (startParams_moved s) ?_
  rw [List.cons_append, ← List.singleton_append]
  refine Flow.runs_bind keeps_keptRun ((ptCmd_runs _ _).mono fun _ => Kept.run) fun t _ _ _ => ?_
  refine Flow.runs_bind keeps_keptRun (sendParams_runs _ _) fun u _ _ _ => ?_
  have h := Flow.runs_bind keeps_keptRun (entryDelay_runs e u) (g := fun v => .done (nextEntry v))
    fun v _ _ _ => nextEntry_moved v
  simpa using h

theorem sendSegment_runs (es : List Entry) (s : State) :
    (sendSegment es s).Runs KeptRun (es.flatMap entryStream) s := by
  induction es generalizing s with
  | nil => exact Flow.runs_done keeps_keptRun s
  | cons e es ih =>
    rw [List.flatMap_cons]
    exact Flow.runs_bind keeps_keptRun (sendEntry_runs e s) fun t _ _ _ => ih t

/-- The activity of every state but `Reset` (41_init_sequencer.md R134 to R144). -/
theorem activity_runs (k : Config) {p : SeqState} (hp : p ≠ .reset) (s : State) :
    (activity k p s).Runs KeptRun (stateStream k p) s := by
  cases p with
  | reset => exact absurd rfl hp
  | powerWait => exact (waitMin_runs _ s).mono fun _ => Kept.run
  | settleDelay120 => exact (waitMin_runs _ s).mono fun _ => Kept.run
  | settleDelay10 => exact (waitMin_runs _ s).mono fun _ => Kept.run
  | ready => exact Flow.runs_done keeps_keptRun s
  | pageUnlock => exact sendSegment_runs _ s
  | registerBurst => exact sendSegment_runs _ s
  | gammaPageUnlock => exact sendSegment_runs _ s
  | gammaBurst => exact sendSegment_runs _ s
  | pageLock => exact sendSegment_runs _ s
  | displayModeConfig => exact sendSegment_runs _ s
  | sleepOut => exact sendSegment_runs _ s
  | displayOn => exact sendSegment_runs _ s

theorem runStates_runs (k : Config) (ps : List SeqState) (hp : .reset ∉ ps) (s : State) :
    (runStates k ps s).Runs KeptRun (ps.flatMap (stateStream k)) s := by
  induction ps generalizing s with
  | nil => exact Flow.runs_done keeps_keptRun s
  | cons p ps ih =>
    rw [List.mem_cons, not_or] at hp
    rw [List.flatMap_cons]
    refine Flow.runs_bind keeps_keptRun ?_ fun t _ _ _ => ih hp.2 t
    exact runs_moved (enterState_moved p s) (activity_runs k (Ne.symm hp.1) _)

/-- The state in which the first word of a run is sent: `Reset` entered, the handle cleared (41_init_sequencer.md R133). -/
def runStart (s : State) : State := setPosition Position.start (clearHandle s)

/-- The twelve states of a run, from the state `Reset` leaves before it sends (41_init_sequencer.md R130). -/
theorem runStates_runOrder (s : State) :
    (runStates s.cfg runOrder (setPosition Position.start s)).Runs KeptRun (initStream s.cfg) (runStart s) := by
  have h : runStates s.cfg runOrder (setPosition Position.start s)
      = (sendSegment (segment s.cfg .reset) (runStart s)).bind (runStates s.cfg runOrder.tail) := rfl
  rw [h]
  exact Flow.runs_bind keeps_keptRun (sendSegment_runs _ _) fun t _ _ _ =>
    runStates_runs s.cfg runOrder.tail (by decide) t

/-! ### The position -/

theorem sendParams_position (bs : List Byte) (s : State) :
    (sendParams bs s).OnDone fun t => t.seq.st = s.seq.st ∧ t.seq.idx = s.seq.idx := by
  induction bs generalizing s with
  | nil => exact ⟨rfl, rfl⟩
  | cons b bs ih =>
    refine Flow.onDone_bind (ptDat_runs b s).onDone fun t ht => ?_
    refine (ih _).mono fun u hu => ?_
    simpa [ht.seq] using hu

theorem entryDelay_position (e : Entry) (s : State) : (entryDelay e s).OnDone fun t => t.seq = s.seq := by
  unfold entryDelay
  split
  · exact (waitMin_runs _ s).onDone.mono fun _ h => h.seq
  · exact rfl

theorem sendEntry_position (e : Entry) (s : State) :
    (sendEntry e s).OnDone fun t => t.seq = ⟨s.seq.st, s.seq.idx + 1, 0⟩ := by
  refine Flow.onDone_bind (ptCmd_runs _ _).onDone fun t ht => ?_
  refine Flow.onDone_bind (sendParams_position _ t) fun u hu => ?_
  refine Flow.onDone_bind (entryDelay_position e u) fun v hv => ?_
  show (nextEntry v).seq = _
  simp [hv, hu, ht.seq]

theorem sendSegment_position (es : List Entry) (s : State) (h : s.seq.pidx = 0) :
    (sendSegment es s).OnDone fun t => t.seq = ⟨s.seq.st, s.seq.idx + es.length, 0⟩ := by
  induction es generalizing s with
  | nil =>
    show s.seq = ⟨s.seq.st, s.seq.idx, 0⟩
    rw [← h]
  | cons e es ih =>
    refine Flow.onDone_bind (sendEntry_position e s) fun t ht => ?_
    refine (ih t (by rw [ht])).mono fun u hu => ?_
    rw [hu, ht, List.length_cons, Nat.add_right_comm, Nat.add_assoc]

/-- The entries a state sends. -/
def sentIn (k : Config) (p : SeqState) : List Entry := if p.sends then segment k p else []

theorem activity_position (k : Config) {p : SeqState} (hp : p ≠ .reset) (s : State) (h : s.seq.pidx = 0) :
    (activity k p s).OnDone fun t => t.seq = ⟨s.seq.st, s.seq.idx + (sentIn k p).length, 0⟩ := by
  have hs : s.seq = ⟨s.seq.st, s.seq.idx, 0⟩ := by rw [← h]
  have hw : ∀ ms, (waitMin ms s).OnDone fun t => t.seq = ⟨s.seq.st, s.seq.idx, 0⟩ := fun ms =>
    (waitMin_runs ms s).onDone.mono fun t ht => ht.seq.trans hs
  cases p with
  | reset => exact absurd rfl hp
  | powerWait => exact hw _
  | settleDelay120 => exact hw _
  | settleDelay10 => exact hw _
  | ready => exact hs
  | pageUnlock => exact sendSegment_position _ s h
  | registerBurst => exact sendSegment_position _ s h
  | gammaPageUnlock => exact sendSegment_position _ s h
  | gammaBurst => exact sendSegment_position _ s h
  | pageLock => exact sendSegment_position _ s h
  | displayModeConfig => exact sendSegment_position _ s h
  | sleepOut => exact sendSegment_position _ s h
  | displayOn => exact sendSegment_position _ s h

theorem runStates_position (k : Config) (ps : List SeqState) (hp : .reset ∉ ps) (s : State) (h : s.seq.pidx = 0) :
    (runStates k ps s).OnDone fun t =>
      t.seq.idx = s.seq.idx + (ps.flatMap (sentIn k)).length ∧ t.seq.pidx = 0 := by
  induction ps generalizing s with
  | nil => exact ⟨rfl, h⟩
  | cons p ps ih =>
    rw [List.mem_cons, not_or] at hp
    refine Flow.onDone_bind (activity_position k (Ne.symm hp.1) (enterState p s) h) fun t ht => ?_
    refine (ih hp.2 t (by rw [ht])).mono fun u hu => ?_
    rw [hu.1, hu.2, ht]
    simp
    omega

theorem runStates_runOrder_position (s : State) :
    (runStates s.cfg runOrder (setPosition Position.start s)).OnDone fun t =>
      t.seq.idx = (runOrder.flatMap (sentIn s.cfg)).length ∧ t.seq.pidx = 0 := by
  have h : runStates s.cfg runOrder (setPosition Position.start s)
      = (sendSegment (segment s.cfg .reset) (runStart s)).bind (runStates s.cfg runOrder.tail) := rfl
  rw [h]
  refine Flow.onDone_bind (sendSegment_position _ _ rfl) fun t ht => ?_
  refine (runStates_position s.cfg runOrder.tail (by decide) t (by rw [ht])).mono fun u hu => ?_
  rw [hu.1, ht]
  refine ⟨?_, hu.2⟩
  show 0 + _ + _ = (sentIn s.cfg .reset ++ runOrder.tail.flatMap (sentIn s.cfg)).length
  rw [List.length_append, Nat.zero_add]
  rfl

/-- A table in which the phases never decrease is cut by its first phases, in order: filtering by each phase of a rising
list in turn gives the table back. -/
theorem flatMap_segments (ps : List SeqState) (hps : (ps.map SeqState.rank).Pairwise (· < ·)) (l : List Entry)
    (hl : (l.map fun e => e.phase.rank).Pairwise (· ≤ ·)) (hm : ∀ e ∈ l, e.phase ∈ ps) :
    ps.flatMap (fun p => l.filter fun e => e.phase == p) = l := by
  induction l with
  | nil => simp
  | cons e l ih =>
    rw [List.map_cons, List.pairwise_cons] at hl
    have ih := ih hl.2 fun x hx => hm x (List.mem_cons_of_mem _ hx)
    have hle : ∀ x ∈ l, e.phase.rank ≤ x.phase.rank := fun x hx => hl.1 _ (List.mem_map_of_mem (f := fun e => e.phase.rank) hx)
    obtain ⟨a, b, rfl⟩ := List.append_of_mem (hm e (List.mem_cons_self ..))
    rw [List.map_append, List.map_cons, List.pairwise_append, List.pairwise_cons] at hps
    have ha : ∀ p ∈ a, p.rank < e.phase.rank := fun p hp =>
      hps.2.2 _ (List.mem_map_of_mem (f := SeqState.rank) hp) _ (List.mem_cons_self ..)
    have hb : ∀ p ∈ b, e.phase.rank < p.rank := fun p hp =>
      hps.2.1.1 _ (List.mem_map_of_mem (f := SeqState.rank) hp)
    have h1 : ∀ m : List Entry, (∀ x ∈ m, e.phase.rank ≤ x.phase.rank) →
        a.flatMap (fun p => m.filter fun e => e.phase == p) = [] := by
      intro m hm
      rw [List.flatMap_eq_nil_iff]
      intro p hp
      rw [List.filter_eq_nil_iff]
      intro x hx hxp
      have h2 := hm x hx
      have h3 := ha p hp
      rw [eq_of_beq hxp] at h2
      omega
    have h2 : b.flatMap (fun p => (e :: l).filter fun e => e.phase == p)
        = b.flatMap (fun p => l.filter fun e => e.phase == p) := by
      refine List.flatMap_congr fun p hp => ?_
      rw [List.filter_cons_of_neg]
      intro h
      have h3 := hb p hp
      rw [eq_of_beq h] at h3
      omega
    rw [List.flatMap_append, List.flatMap_cons, h1 l hle, List.nil_append] at ih
    rw [List.flatMap_append, List.flatMap_cons, h1 (e :: l) (by simpa using hle), List.nil_append, h2,
      List.filter_cons_of_pos (by simp), List.cons_append, ih]

/-- The nine sending states, in order. -/
def sendOrder : List SeqState :=
  [.reset, .pageUnlock, .registerBurst, .gammaPageUnlock, .gammaBurst, .pageLock, .displayModeConfig, .sleepOut,
    .displayOn]

theorem mem_sendOrder {p : SeqState} (h : p.sends = true) : p ∈ sendOrder := by
  revert h; cases p <;> decide

/-- The segments in state order are the whole table (41_init_sequencer.md R132). -/
theorem segments_eq_table {k : Config} (hk : k.wf = true) : sendOrder.flatMap (segment k) = k.table := by
  simp only [Config.wf, Bool.and_eq_true, Config.phasesSend, Config.phasesOrdered, List.all_eq_true,
    decide_eq_true_eq] at hk
  obtain ⟨⟨⟨⟨⟨⟨⟨⟨⟨-, h1⟩, h2⟩, -⟩, -⟩, -⟩, -⟩, -⟩, -⟩, -⟩ := hk
  exact flatMap_segments sendOrder (by decide) k.table h2 fun e he => mem_sendOrder (h1 e he)

/-- The entries sent in a run are the whole table. -/
theorem sent_eq_table {k : Config} (hk : k.wf = true) : runOrder.flatMap (sentIn k) = k.table := by
  rw [← segments_eq_table hk]
  simp [runOrder, sendOrder, sentIn, SeqState.sends]

end Sys2Proof.Machine
end

