-- ==== Sys2Proof/Laws/Draws.lean ====
section
/-! SUPPORT. The draws an operation takes. A word that was not sent ends it there and then (40_transport.md R111 to R113), and
so does a reset (70_reset_and_hazards.md R251), so such a draw is the last one taken; and where a word that never returned, or
was cut short, leaves chip-select. -/

namespace Sys2Proof.Machine

/-- The draws `uw` and `ut` were taken between two states. -/
structure Took (uw : List WordDraw) (ut : List WaitDraw) (s t : State) : Prop where
  words : s.env.words = uw ++ t.env.words
  waits : s.env.waits = ut ++ t.env.waits

/-- The word draws taken end with `last`, all before it were sent, and no wait was cut short by a reset. -/
def Drew (last : List WordDraw) (s t : State) : Prop :=
  ∃ uw ut, Took (uw ++ last) ut s t ∧ (∀ o ∈ uw, o = .sent) ∧ .reset ∉ ut

/-- Every word drawn was sent, and no reset was drawn. -/
abbrev Calm (s t : State) : Prop := Drew [] s t

/-- The last word drawn failed (40_transport.md R111). -/
def DrewFailed (s t : State) : Prop := ∃ n, Drew [.failed n] s t

/-- The last word drawn never returned (40_transport.md R113). -/
def DrewHang (s t : State) : Prop := ∃ n high, Drew [.hang n high] s t

/-- The last draw was a reset: inside a word, with chip-select still asserted or the native panel lost, or inside a wait. -/
def Cut (s t : State) : Prop :=
  (∃ n, Drew [.reset n] s t ∧ (s.cfg.profile = .bridge → t.pins.cs = true) ∧
    (s.cfg.profile = .native → t.panel = Panel.lost)) ∨
  ∃ uw ut, Took uw (ut ++ [.reset]) s t ∧ (∀ o ∈ uw, o = .sent) ∧ .reset ∉ ut

theorem Took.trans {uw uw' : List WordDraw} {ut ut' : List WaitDraw} {s t u : State} (h : Took uw ut s t)
    (g : Took uw' ut' t u) : Took (uw ++ uw') (ut ++ ut') s u :=
  ⟨by rw [h.words, g.words, List.append_assoc], by rw [h.waits, g.waits, List.append_assoc]⟩

theorem Calm.of_eq {s t : State} (h1 : t.env.words = s.env.words) (h2 : t.env.waits = s.env.waits) : Calm s t :=
  ⟨[], [], ⟨h1.symm, h2.symm⟩, by simp, by simp⟩

theorem all_sent_append {a b : List WordDraw} (h : ∀ o ∈ a, o = .sent) (g : ∀ o ∈ b, o = .sent) : ∀ o ∈ a ++ b, o = .sent :=
  fun o ho => (List.mem_append.1 ho).elim (h o) (g o)

theorem no_reset_append {a b : List WaitDraw} (h : .reset ∉ a) (g : .reset ∉ b) : .reset ∉ a ++ b :=
  fun x => (List.mem_append.1 x).elim h g

/-- What was taken before, all of it sent. -/
theorem Calm.drew {last : List WordDraw} {s t u : State} (h : Calm s t) (g : Drew last t u) : Drew last s u := by
  obtain ⟨a, b, h1, h2, h3⟩ := h
  obtain ⟨c, d, g1, g2, g3⟩ := g
  refine ⟨a ++ c, b ++ d, ?_, all_sent_append h2 g2, no_reset_append h3 g3⟩
  rw [List.append_nil] at h1
  rw [List.append_assoc]
  exact h1.trans g1

/-- A change that takes no draw, at the end. -/
theorem Drew.to {last : List WordDraw} {s t u : State} (h : Drew last s t) (h1 : u.env.words = t.env.words)
    (h2 : u.env.waits = t.env.waits) : Drew last s u := by
  obtain ⟨a, b, g, g2, g3⟩ := h
  exact ⟨a, b, ⟨by rw [h1]; exact g.words, by rw [h2]; exact g.waits⟩, g2, g3⟩

theorem drewFailed_to {s t u : State} (h : DrewFailed s t) (h1 : u.env.words = t.env.words) (h2 : u.env.waits = t.env.waits) :
    DrewFailed s u := h.imp fun _ g => g.to h1 h2

theorem Calm.failed {s t u : State} (h : Calm s t) : DrewFailed t u → DrewFailed s u := fun ⟨n, g⟩ => ⟨n, h.drew g⟩

theorem Calm.hang {s t u : State} (h : Calm s t) : DrewHang t u → DrewHang s u := fun ⟨n, b, g⟩ => ⟨n, b, h.drew g⟩

theorem Calm.cut {s t u : State} (hc : t.cfg = s.cfg) (h : Calm s t) (g : Cut t u) : Cut s u := by
  obtain ⟨n, g, g1, g2⟩ | ⟨c, d, g1, g2, g3⟩ := g
  · exact .inl ⟨n, h.drew g, hc ▸ g1, hc ▸ g2⟩
  · obtain ⟨a, b, h1, h2, h3⟩ := h
    rw [List.append_nil] at h1
    refine .inr ⟨a ++ c, b ++ d, ?_, all_sent_append h2 g2, no_reset_append h3 g3⟩
    rw [List.append_assoc]
    exact h1.trans g1

/-- The draws a run took are the ones its two ends show. -/
theorem Drew.words {last uw : List WordDraw} {s t : State} (h : Drew last s t) (hw : s.env.words = uw ++ t.env.words) :
    ∃ us, uw = us ++ last ∧ ∀ o ∈ us, o = .sent := by
  obtain ⟨us, ut, h1, h2, -⟩ := h
  exact ⟨us, List.append_cancel_right (hw.symm.trans h1.words), h2⟩

theorem Drew.waits {last : List WordDraw} {ut : List WaitDraw} {s t : State} (h : Drew last s t)
    (hw : s.env.waits = ut ++ t.env.waits) : .reset ∉ ut := by
  obtain ⟨us, vt, h1, -, h3⟩ := h
  rwa [List.append_cancel_right (hw.symm.trans h1.waits)]

/-- A run of words that were sent holds no other draw. -/
theorem Calm.words {uw : List WordDraw} {s t : State} (h : Calm s t) (hw : s.env.words = uw ++ t.env.words) :
    ∀ o ∈ uw, o = .sent := by
  obtain ⟨us, rfl, h2⟩ := Drew.words h hw
  rwa [List.append_nil]

/-- What a run that a reset ended took of the words. -/
theorem Cut.words {uw : List WordDraw} {s t : State} (h : Cut s t) (hw : s.env.words = uw ++ t.env.words) :
    ∀ o ∈ uw, o = .sent ∨ ∃ n, o = .reset n := by
  obtain ⟨n, g, -⟩ | ⟨us, ut, g, g2, -⟩ := h
  · obtain ⟨us, rfl, h2⟩ := g.words hw
    intro o ho
    rcases List.mem_append.1 ho with h | h
    · exact .inl (h2 o h)
    · exact .inr ⟨n, List.mem_singleton.1 h⟩
  · rw [List.append_cancel_right (hw.symm.trans g.words)]
    exact fun o ho => .inl (g2 o ho)

/-- What each end of a sequence says of the draws taken. -/
def Flow.Draws (s : State) : Flow → Prop
  | .done t => t.cfg = s.cfg ∧ Calm s t
  | .raised r t => (r = .transportError → DrewFailed s t) ∧ (r ≠ .transportError → Calm s t)
  | .hung t => DrewHang s t ∧ (s.cfg.profile = .bridge → t.pins.cs = true)
  | .reset t => Cut s t

/-- What was taken before a sequence, all of it sent. -/
theorem Flow.Draws.after {s a : State} {f : Flow} (hf : f.Draws a) (hc : a.cfg = s.cfg) (h : Calm s a) :
    f.Draws s := by
  cases f with
  | done t => exact ⟨hf.1.trans hc, h.drew hf.2⟩
  | raised r t => exact ⟨fun x => h.failed (hf.1 x), fun x => h.drew (hf.2 x)⟩
  | hung t => exact ⟨h.hang hf.1, by rw [← hc]; exact hf.2⟩
  | reset t => exact h.cut hc hf

/-- Sequencing; `I` is what the first part's success leaves for the second. -/
theorem Flow.draws_bind_of {I : State → Prop} {s : State} {f : Flow} {g : State → Flow} (hf : f.Draws s) (hi : f.OnDone I)
    (hg : ∀ t, I t → (g t).Draws t) : (f.bind g).Draws s := by
  cases f with
  | done t => exact (hg t hi).after hf.1 hf.2
  | raised r t => exact hf
  | hung t => exact hf
  | reset t => exact hf

theorem Flow.draws_bind {s : State} {f : Flow} {g : State → Flow} (hf : f.Draws s) (hg : ∀ t, (g t).Draws t) :
    (f.bind g).Draws s :=
  Flow.draws_bind_of (I := fun _ => True) hf (by cases f <;> exact trivial) fun t _ => hg t

theorem Flow.draws_done {s t : State} (hc : t.cfg = s.cfg) (he : t.env = s.env) : (Flow.done t).Draws s :=
  ⟨hc, .of_eq (by rw [he]) (by rw [he])⟩

/-- A refusal before any word. -/
theorem Flow.draws_refused {s t : State} {r : Resp} (hr : r ≠ .transportError) (he : t.env.words = s.env.words)
    (hw : t.env.waits = s.env.waits) : (Flow.raised r t).Draws s := ⟨fun h => absurd h hr, fun _ => .of_eq he hw⟩

/-- Taking the draw of a word that was sent. -/
theorem calm_popWord {s t : State} (h : wordDraw s = .sent) (he : t.env = (popWord s).env) : Calm s t := by
  unfold wordDraw at h
  cases hw : s.env.words with
  | nil => exact .of_eq (by rw [he]; simp [popWord, hw]) (by rw [he]; rfl)
  | cons a l =>
    rw [hw] at h
    exact ⟨[a], [], ⟨by rw [he]; simp [popWord, hw], by rw [he]; rfl⟩, by simpa using h, by simp⟩

/-- Taking any other draw of a word. -/
theorem drew_popWord {s t : State} {o : WordDraw} (h : wordDraw s = o) (ho : o ≠ .sent) (he : t.env = (popWord s).env) :
    Drew [o] s t := by
  unfold wordDraw at h
  cases hw : s.env.words with
  | nil => rw [hw] at h; exact absurd h.symm ho
  | cons a l =>
    rw [hw] at h
    obtain rfl : a = o := h
    exact ⟨[], [], ⟨by rw [he]; simp [popWord, hw], by rw [he]; rfl⟩, by simp, by simp⟩

theorem calm_popWait {s : State} {n : Nat} (h : waitDraw s = .elapsed n) : Calm s (popWait s) := by
  unfold waitDraw at h
  cases hw : s.env.waits with
  | nil => exact .of_eq rfl (by simp [popWait, hw])
  | cons a l =>
    rw [hw] at h
    exact ⟨[], [a], ⟨rfl, by simp [popWait, hw]⟩, by simp, by rw [show a = .elapsed n from h]; simp⟩

theorem cut_wait {s : State} (h : waitDraw s = .reset) : Cut s (popWait s) := by
  unfold waitDraw at h
  cases hw : s.env.waits with
  | nil => rw [hw] at h; cases h
  | cons a l =>
    rw [hw] at h
    exact .inr ⟨[], [], ⟨rfl, by simp [popWait, hw, show a = .reset from h]⟩, by simp, by simp⟩

/-! ### The transport -/

/-- A word under an assertion of chip-select, which it leaves asserted. -/
theorem sendWord_draws (w : Word) (e : Event) (s : State) (hb : s.cfg.profile = .bridge) (hcs : s.pins.cs = true) :
    (sendWord w e s).Draws s ∧ (sendWord w e s).OnDone fun t => t.cfg.profile = .bridge ∧ t.pins.cs = true := by
  have bits := fun n => (bitsOnly_loadWord w (popWord s)).trans (bitsOnly_clockBits n _)
  unfold sendWord
  split
  · next h =>
    have b := bits 32
    exact ⟨⟨by simp [b.cfg], calm_popWord h (by simp [b.env])⟩, ⟨by simp [b.cfg, hb], by simp [b.cs, hcs]⟩⟩
  · next n h => exact ⟨⟨fun _ => ⟨n, drew_popWord h (by simp) (by simp [abortWord, (bits (min n 32)).env])⟩, fun x => absurd rfl x⟩, trivial⟩
  · next n high h =>
    have b := bitsOnly_cutWord n high w (popWord s)
    exact ⟨⟨⟨n, high, drew_popWord h (by simp) b.env⟩, fun _ => b.cs.trans hcs⟩, trivial⟩
  · next n h =>
    have b := bitsOnly_cutWord n false w (popWord s)
    exact ⟨.inl ⟨n, drew_popWord h (by simp) b.env, fun _ => b.cs.trans hcs, fun x => by rw [hb] at x; cases x⟩, trivial⟩

theorem quiet_draws (s : State) : (quiet s).Draws s := by
  unfold quiet
  split
  · next h => exact ⟨rfl, (calm_popWait h).to rfl rfl⟩
  · next h => exact cut_wait h

/-- What is owed of a quiet interval. -/
theorem awaitQuiet_draws (s : State) : (awaitQuiet s).Draws s := by
  unfold awaitQuiet
  split
  · exact Flow.draws_done rfl rfl
  · split
    · next h => exact ⟨rfl, (calm_popWait h).to rfl rfl⟩
    · next h => exact cut_wait h

/-- An assertion of chip-select around words. -/
theorem framed_draws {s : State} {g : State → Flow} (hb : s.cfg.profile = .bridge)
    (hg : ∀ t, t.cfg.profile = .bridge → (g (assertCs t)).Draws (assertCs t)) : (framed g s).Draws s :=
  Flow.draws_bind_of (I := fun t => t.cfg.profile = .bridge) (awaitQuiet_draws s)
    ((awaitQuiet_runs s hb).onDone.mono fun t ht => by rw [ht.cfg, hb]) fun t ht =>
      Flow.draws_bind ((hg t ht).after rfl (.of_eq rfl rfl)) fun u =>
        (quiet_draws (releaseCs u)).after (kept_releaseCs u).cfg (.of_eq (by simp) (by simp))

theorem nativeSend_draws (e : Event) (s : State) (hn : s.cfg.profile = .native) : (nativeSend e s).Draws s := by
  have hb : ∀ P : Prop, s.cfg.profile = .bridge → P := fun P h => by rw [hn] at h; cases h
  unfold nativeSend
  split
  · next h => exact ⟨rfl, calm_popWord h rfl⟩
  · next n h => exact ⟨fun _ => ⟨n, drew_popWord h (by simp) rfl⟩, fun x => absurd rfl x⟩
  · next n b h => exact ⟨⟨n, b, drew_popWord h (by simp) rfl⟩, fun x => hb _ x⟩
  · next n h => exact .inl ⟨n, drew_popWord h (by simp) rfl, fun x => hb _ x, fun _ => rfl⟩

theorem ptCmd_draws (c : Byte) (s : State) : (ptCmd c s).Draws s := by
  unfold ptCmd
  split
  · next h => exact framed_draws h fun t ht => (sendWord_draws _ _ (assertCs t) ht rfl).1
  · next h => exact nativeSend_draws _ s h

theorem ptDat_draws (d : Byte) (s : State) : (ptDat d s).Draws s := by
  unfold ptDat
  split
  · next h => exact framed_draws h fun t ht => (sendWord_draws _ _ (assertCs t) ht rfl).1
  · next h => exact nativeSend_draws _ s h

theorem sendBytes_draws (ds : List Byte) (s : State) : (sendBytes ds s).Draws s := by
  induction ds generalizing s with
  | nil => exact Flow.draws_done rfl rfl
  | cons d ds ih => exact Flow.draws_bind (ptDat_draws d s) ih

theorem sendGroup_draws (c : Byte) (ds : List Byte) (s : State) : (sendGroup c ds s).Draws s :=
  Flow.draws_bind (ptCmd_draws c s) (sendBytes_draws ds)

/-- The bytes of pixels, by a path whose single byte is known and keeps `I`. -/
theorem sendPixels_draws {send : Byte → State → Flow} {I : State → Prop} (hI : ∀ s, I s → I (countPixel s))
    (hs : ∀ d s, I s → (send d s).Draws s ∧ (send d s).OnDone I) :
    ∀ (ds : List Byte) (s : State), I s → (sendPixels send ds s).Draws s
  | [], _, _ => Flow.draws_done rfl rfl
  | [d], s, h => (hs d s h).1
  | hi :: lo :: ds, s, h =>
    Flow.draws_bind_of (hs hi s h).1 (hs hi s h).2 fun t ht =>
      Flow.draws_bind_of (hs lo t ht).1 (hs lo t ht).2 fun u hu =>
        (sendPixels_draws hI hs ds (countPixel u) (hI u hu)).after rfl (.of_eq rfl rfl)

theorem ptBurst_draws (ds : List Byte) (s : State) : (ptBurst ds s).Draws s := by
  unfold ptBurst
  split
  · next h =>
    exact framed_draws h fun u hu =>
      sendPixels_draws (I := fun t => t.cfg.profile = .bridge ∧ t.pins.cs = true) (fun _ h => h)
        (fun d t ht => sendWord_draws _ _ t ht.1 ht.2) ds _ ⟨hu, rfl⟩
  · next h =>
    refine sendPixels_draws (I := fun t => t.cfg.profile = .native) (fun _ h => h) (fun d t ht => ?_) ds s h
    exact ⟨nativeSend_draws _ t ht, (nativeSend_runs (.dat d) t ht rfl).onDone.mono fun u hu => by rw [hu.cfg]; exact ht⟩

theorem waitMin_draws (ms : Nat) (s : State) : (waitMin ms s).Draws s := by
  unfold waitMin
  split
  · next h =>
    refine ⟨(recordWait_cfg _ _).trans rfl, (calm_popWait h).to ?_ ?_⟩ <;> simp [recordWait_env]
  · next h => exact cut_wait h

/-! ### The sequencer -/

theorem sendParams_draws (bs : List Byte) (s : State) : (sendParams bs s).Draws s := by
  induction bs generalizing s with
  | nil => exact Flow.draws_done rfl rfl
  | cons b bs ih => exact Flow.draws_bind (ptDat_draws b s) fun t => (ih (nextParam t)).after rfl (.of_eq rfl rfl)

theorem sendEntry_draws (e : Entry) (s : State) : (sendEntry e s).Draws s := by
  refine Flow.draws_bind ((ptCmd_draws _ (startParams s)).after rfl (.of_eq rfl rfl)) fun t =>
    Flow.draws_bind (sendParams_draws _ t) fun u => Flow.draws_bind ?_ fun v => Flow.draws_done rfl rfl
  unfold entryDelay
  split
  · exact waitMin_draws _ u
  · exact Flow.draws_done rfl rfl

theorem sendSegment_draws (es : List Entry) (s : State) : (sendSegment es s).Draws s := by
  induction es generalizing s with
  | nil => exact Flow.draws_done rfl rfl
  | cons e es ih => exact Flow.draws_bind (sendEntry_draws e s) ih

theorem activity_draws (k : Config) (p : SeqState) (s : State) : (activity k p s).Draws s := by
  cases p with
  | reset => exact (sendSegment_draws _ (setPosition Position.start (clearHandle s))).after rfl (.of_eq rfl rfl)
  | powerWait => exact waitMin_draws _ s
  | settleDelay120 => exact waitMin_draws _ s
  | settleDelay10 => exact waitMin_draws _ s
  | ready => exact Flow.draws_done rfl rfl
  | pageUnlock => exact sendSegment_draws _ s
  | registerBurst => exact sendSegment_draws _ s
  | gammaPageUnlock => exact sendSegment_draws _ s
  | gammaBurst => exact sendSegment_draws _ s
  | pageLock => exact sendSegment_draws _ s
  | displayModeConfig => exact sendSegment_draws _ s
  | sleepOut => exact sendSegment_draws _ s
  | displayOn => exact sendSegment_draws _ s

theorem runStates_draws (k : Config) (ps : List SeqState) (s : State) : (runStates k ps s).Draws s := by
  induction ps generalizing s with
  | nil => exact Flow.draws_done rfl rfl
  | cons p ps ih => exact Flow.draws_bind ((activity_draws k p (enterState p s)).after rfl (.of_eq rfl rfl)) ih

/-! ### The Frame Writer -/

theorem openWindow_draws (k : Config) (xs ys xe ye : U16) (s : State) : (openWindow k xs ys xe ye s).Draws s :=
  Flow.draws_bind (sendGroup_draws _ _ s) fun t => Flow.draws_bind (sendGroup_draws _ _ t) (ptCmd_draws _)

theorem streamBytes_draws (k : Config) (bs : List Byte) (s : State) : (streamBytes k bs s).Draws s := by
  unfold streamBytes
  split
  · exact ptBurst_draws bs s
  · exact sendPixels_draws (I := fun _ => True) (fun _ h => h)
      (fun d t _ => ⟨ptDat_draws d t, (ptDat_runs d t).onDone.mono fun _ _ => trivial⟩) bs s trivial

theorem rowLoop_draws (k : Config) (x : Operands) (n : Nat) (s : State) : (rowLoop k x n s).Draws s := by
  induction n generalizing s with
  | zero => exact Flow.draws_done rfl rfl
  | succ n ih =>
    refine Flow.draws_bind (Flow.draws_bind (openWindow_draws k _ _ _ _ s) (streamBytes_draws k _)) fun t => ?_
    split
    · exact Flow.draws_done rfl rfl
    · exact (ih { t with fwRow := t.fwRow + 1 }).after rfl (.of_eq rfl rfl)

/-- The checks of a fill never end it with the answer of a failed word. -/
theorem fillCheck_refuses {s : State} {r : Resp} (h : fillCheck s = some r) : r = .configurationError ∨ r = .notReady := by
  revert h
  unfold fillCheck
  cases validRect s.cfg s.x <;> cases s.ph <;> simp <;> intro h <;> simp [← h]

/-- A fill, whatever comes of its checks and its buffer. -/
theorem fill_draws (s : State) : (fill s).Draws s := by
  unfold fill
  split
  · next r h => exact Flow.draws_refused (by rcases fillCheck_refuses h with rfl | rfl <;> simp) rfl rfl
  · split
    · split
      · exact (Flow.draws_bind (openWindow_draws _ _ _ _ _ (obtainBuffer (popAlloc s))) fun t =>
          (streamBytes_draws _ _ (loadCount _ t)).after rfl (.of_eq rfl rfl)).after rfl (.of_eq rfl rfl)
      · exact (rowLoop_draws _ _ _ (startRows s.x (obtainBuffer (popAlloc s)))).after rfl (.of_eq rfl rfl)
    · exact Flow.draws_refused (by simp) rfl rfl

end Sys2Proof.Machine
end

