-- ==== Sys2Proof/Laws/Exec.lean ====
section
/-! SUPPORT. What an instruction can do, said once for all thirteen: how it can end, and what holds at each end. The
invariants and the whole-machine rules follow from `exec_ends` and never unfold a meaning. -/

namespace Sys2Proof.Machine

/-- An instruction that is a host operation: it is answered (30_encoding.md R75). -/
def isHost : Instr → Bool
  | .wrcmd _ => false
  | .wrcolor _ => false
  | .sendCommand _ => true
  | .sendData _ => true
  | .runInit => true
  | .fillRect _ _ _ _ _ => true
  | .fillScreen _ => true
  | .caset _ _ => false
  | .raset _ _ => false
  | .ramwr => false
  | .slpout _ => false
  | .dispon _ => false
  | .vendor _ _ => false

/-- The two fills. -/
def isFill : Instr → Bool
  | .wrcmd _ => false
  | .wrcolor _ => false
  | .sendCommand _ => false
  | .sendData _ => false
  | .runInit => false
  | .fillRect _ _ _ _ _ => true
  | .fillScreen _ => true
  | .caset _ _ => false
  | .raset _ _ => false
  | .ramwr => false
  | .slpout _ => false
  | .dispon _ => false
  | .vendor _ _ => false

/-- What no instruction changes, whatever its end. -/
structure Fixed (s t : State) : Prop where
  cfg : t.cfg = s.cfg
  plat : t.plat = s.plat
  inbox : t.inbox = s.inbox

theorem Fixed.trans {s t u : State} (h : Fixed s t) (g : Fixed t u) : Fixed s u :=
  ⟨g.cfg.trans h.cfg, g.plat.trans h.plat, g.inbox.trans h.inbox⟩

/-- The sequencer's registers after an instruction that ended with or without success. -/
def SequencerAfter (i : Instr) (ok : Bool) (s t : State) : Prop :=
  if i = .runInit then
    t.ph = ok ∧ (ok = true → t.seq.st = .ready ∧ t.seq.pidx = 0 ∧ (s.cfg.wf = true → t.seq.idx = s.cfg.table.length)) ∧
      (ok = false → t.seq = Position.start)
  else t.ph = s.ph ∧ t.seq = s.seq

/-- The buffer after an instruction that ended. -/
def BufferAfter (i : Instr) (s t : State) : Prop :=
  if isFill i then t.BufferFree else t.bufHeld = s.bufHeld ∧ t.lb = s.lb

/-- The registers no transport operation touches, after an instruction that was not reset. -/
structure Registers (i : Instr) (s t : State) : Prop where
  x : t.x = operandsAfter i s
  free : i ≠ .runInit → t.free = s.free
  fill : isFill i = false → t.fwLeft = s.fwLeft ∧ t.fwRow = s.fwRow ∧ t.bufHeld = s.bufHeld ∧ t.lb = s.lb ∧ t.env.allocs = s.env.allocs

/-- The state whose receiver an instruction finds: a replay is looked for from the start of a RUN_INIT (43_panel_receiver.md
R200). -/
def foundBy (i : Instr) (s : State) : State := if i = .runInit then restartReplay s else s

theorem foundBy_ne {i : Instr} (h : i ≠ .runInit) (s : State) : foundBy i s = s := if_neg h

/-- How an instruction can end. -/
inductive Ends (i : Instr) (s t : State) : Prop
  /-- It ran to its end. -/
  | ok (fixed : Fixed s t) (regs : Registers i s t) (went : Went (streamOf s.cfg i) s t) (idle : s.BusIdle → t.BusIdle)
      (cs : s.pins.cs = false → t.pins.cs = false)
      (answer : if isHost i then State.Answered .ok s t else t.rsp = s.rsp ∧ t.busy = s.busy ∧ t.rsps = s.rsps)
      (seq : SequencerAfter i true s t) (buffer : BufferAfter i s t)
      (panel : if i = .runInit then
          ∃ p f, p = s.panel.restartReplay.onEvents s.cfg (initStream s.cfg) ∧ t.panel = if p.unknown then Panel.recovered s.cfg f else p
        else t.panel = s.panel.onEvents s.cfg (streamOf s.cfg i)) (calm : Calm s t)
  /-- A word failed. -/
  | failed (pre : List Event) (fixed : Fixed s t) (regs : Registers i s t) (strict : pre <+: streamOf s.cfg i ∧ pre.length < (streamOf s.cfg i).length)
      (went : Went pre s t) (idle : s.BusIdle → t.BusIdle)
      (cs : s.pins.cs = false → t.pins.cs = false) (last : s.cfg.profile = .bridge → FailedLast t)
      (unclean : s.env.clean = false) (answer : State.Answered .transportError s t) (seq : SequencerAfter i false s t) (buffer : BufferAfter i s t)
      (panel : t.panel = Panel.lost) (drew : DrewFailed s t)
  /-- A fill was turned away without a transport call. -/
  | away (r : Resp) (fixed : Fixed s t) (regs : Registers i s t) (fill : isFill i = true) (why : r = .configurationError ∨ r = .notReady ∨ r = .allocationError)
      (bus : s.KeepsBus t) (answer : State.Answered r s t) (seq : s.KeepsSequencer t) (buffer : t.BufferFree)
      (valid : r = .configurationError → ∀ p, i = .fillScreen p → s.cfg.sizeOk = false) (calm : Calm s t)
      (refused : r = .allocationError → s.env.allocs.head? = some false)
  /-- A word never returned. -/
  | hung (pre : List Event) (fixed : Fixed s t) (regs : Registers i s t) (strict : pre <+: streamOf s.cfg i ∧ pre.length < (streamOf s.cfg i).length)
      (went : Went pre s t) (unclean : s.env.clean = false) (panel : Delivered pre (foundBy i s) t)
      (held : t.busy = true ∧ t.rsp = s.rsp ∧ t.rsps = s.rsps) (ph : i ≠ .runInit → s.KeepsSequencer t)
      (phInit : i = .runInit → t.ph = false)
      (lb : t.lb = s.lb ∨ ∃ p n, t.lb = lineBuffer p n) (drew : DrewHang s t) (asserted : s.cfg.profile = .bridge → t.pins.cs = true)
  /-- The block's reset came. -/
  | reset (pre : List Event) (u : State) (fixed : Fixed s u) (strict : pre <+: streamOf s.cfg i)
      (went : Went pre s u) (drawn : s.env.noReset = false) (panel : Delivered pre (foundBy i s) u) (rsps : u.rsps = s.rsps)
      (is : t = resetBlock u ∨ t = resetBlock (losePanel u)) (init : i = .runInit → t = resetBlock (losePanel u)) (cut : Cut s u)

theorem Kept.fixed {s t : State} (h : Kept s t) : Fixed s t := ⟨h.cfg, h.plat, h.inbox⟩

/-- The start of an instruction: nothing on the bus has changed. -/
structure Begun (s a : State) : Prop where
  fixed : Fixed s a
  logical : a.logical = s.logical
  wire : a.wire = s.wire
  pins : a.pins = s.pins
  bitcnt : a.bitcnt = s.bitcnt
  words : a.env.words = s.env.words
  waits : a.env.waits = s.env.waits
  now : a.now = s.now
  quietDue : a.quietDue = s.quietDue
  rsp : a.rsp = s.rsp
  rsps : a.rsps = s.rsps

theorem Begun.clean {s a : State} (b : Begun s a) : a.env.clean = s.env.clean := by
  unfold Env.clean; rw [b.words, b.waits]

theorem Begun.noReset {s a : State} (b : Begun s a) : a.env.noReset = s.env.noReset := by
  unfold Env.noReset; rw [b.words, b.waits]

theorem Begun.went {s a t : State} {pre : List Event} (b : Begun s a) (h : Went pre a t) : Went pre s t where
  logical := by rw [h.logical, b.logical]
  image := fun hb => by rw [h.image (by rw [b.fixed.cfg, hb]), b.wire]
  wire := fun hb => by rw [h.wire (by rw [b.fixed.cfg, hb]), b.wire]
  framed := fun x y => h.framed (by rw [b.pins, x]) (by rw [b.wire, y])
  envTail := ⟨by rw [← b.words]; exact h.envTail.words, by rw [← b.waits]; exact h.envTail.waits⟩
  grows := by rw [← b.wire]; exact h.grows
  time := by rw [← b.now]; exact h.time

theorem Begun.idle {s a : State} (b : Begun s a) (h : s.BusIdle) : a.BusIdle := by
  unfold State.BusIdle at *; rw [b.pins, b.bitcnt]; exact h

theorem Delivered.found {s a t : State} {pre : List Event} (hp : a.panel = s.panel) (hc : a.cfg = s.cfg) (h : Delivered pre a t) :
    Delivered pre s t := by
  unfold Delivered at *
  rw [← hp, ← hc]
  exact h

/-- A change of registers the bus does not see, at the end. -/
theorem Went.quietEnd {s t u : State} {pre : List Event} (h : Went pre s t) (hl : u.logical = t.logical)
    (hw : u.wire = t.wire) (hp : u.pins = t.pins) (h1 : u.env.words = t.env.words) (h2 : u.env.waits = t.env.waits)
    (hn : u.now = t.now) : Went pre s u where
  logical := by rw [hl, h.logical]
  image := fun hb => by rw [hw, h.image hb]
  wire := fun hb => by rw [hw, h.wire hb]
  framed := fun x y => by rw [hw, hp]; exact h.framed x y
  envTail := ⟨by rw [h1]; exact h.envTail.words, by rw [h2]; exact h.envTail.waits⟩
  grows := by rw [hw]; exact h.grows
  time := by rw [hn]; exact h.time

theorem Registers.kept {i : Instr} {s a t : State} (h : Registers i s a) (k : Kept a t) : Registers i s t :=
  ⟨k.x.trans h.x, fun x => k.free.trans (h.free x), fun x =>
    ⟨k.fwLeft.trans (h.fill x).1, k.fwRow.trans (h.fill x).2.1, k.bufHeld.trans (h.fill x).2.2.1, k.lb.trans (h.fill x).2.2.2.1,
      k.allocs.trans (h.fill x).2.2.2.2⟩⟩

/-! ### The three shapes -/

/-- A raw host operation. -/
theorem ends_raw {i : Instr} {s a : State} {f : Flow} (hi : isHost i = true) (hf : isFill i = false) (hr : i ≠ .runInit)
    (b : Begun s a) (hpn : a.panel = s.panel) (hb : a.busy = true) (hp : a.ph = s.ph) (hq : a.seq = s.seq) (hh : a.bufHeld = s.bufHeld) (hl : a.lb = s.lb)
    (ho : Registers i s a) (h : f.Runs Kept (streamOf s.cfg i) a) (hd : f.Draws s) : Ends i s (finish f) := by
  cases f with
  | done t =>
    obtain ⟨k, ar⟩ := h
    refine .ok (b.fixed.trans (k.fixed.trans ⟨rfl, rfl, rfl⟩)) ⟨(ho.kept k).x, (ho.kept k).free, (ho.kept k).fill⟩ ((b.went ar.toWent).quietEnd rfl rfl rfl rfl rfl rfl)
      (fun x => ar.idle (b.idle x)) (fun x => ar.cs (by rw [b.pins, x])) ?_ ?_ ?_ ?_ (hd.2.to rfl rfl)
    · rw [if_pos hi]; exact ⟨rfl, rfl, by show t.rsps ++ _ = _; rw [k.rsps, b.rsps]⟩
    · unfold SequencerAfter; rw [if_neg hr]; exact ⟨k.ph.trans hp, k.seq.trans hq⟩
    · unfold BufferAfter; rw [hf]; exact ⟨k.bufHeld.trans hh, k.lb.trans hl⟩
    · rw [if_neg hr]; show t.panel = _; rw [ar.panel, hpn, b.fixed.cfg]
  | raised r t =>
    obtain ⟨rfl, k, hc, pl, id, pre, p1, p2, w⟩ := h
    refine .failed pre (b.fixed.trans (k.fixed.trans ⟨rfl, rfl, rfl⟩)) ⟨(ho.kept k).x, (ho.kept k).free, (ho.kept k).fill⟩ ⟨p1, p2⟩
      ((b.went w).quietEnd rfl rfl rfl rfl rfl rfl) (fun x => id.1.1 (b.idle x)) (fun x => id.1.2 (by rw [b.pins, x])) (fun x => id.2 (by rw [b.fixed.cfg, x])) (by rw [← b.clean, hc])
      ⟨rfl, rfl, by show t.rsps ++ _ = _; rw [k.rsps, b.rsps]⟩ ?_ ?_ pl (drewFailed_to (hd.1 rfl) rfl rfl)
    · unfold SequencerAfter; rw [if_neg hr]; exact ⟨k.ph.trans hp, k.seq.trans hq⟩
    · unfold BufferAfter; rw [hf]; exact ⟨k.bufHeld.trans hh, k.lb.trans hl⟩
  | hung t =>
    obtain ⟨k, hc, pre, p1, p2, pp, w⟩ := h
    exact .hung pre (b.fixed.trans k.fixed) (ho.kept k) ⟨p1, p2⟩ (b.went w) (by rw [← b.clean, hc]) (by rw [foundBy_ne hr]; exact pp.found hpn b.fixed.cfg)
      ⟨k.busy.trans hb, k.rsp.trans b.rsp, k.rsps.trans b.rsps⟩ (fun _ => ⟨k.ph.trans hp, k.seq.trans hq⟩) (fun x => absurd x hr) (.inl (k.lb.trans hl)) hd.1 hd.2
  | reset t =>
    obtain ⟨k, hc, hn, pre, p1, pp, w⟩ := h
    exact .reset pre t (b.fixed.trans k.fixed) p1 (b.went w) (by rw [← b.noReset, hn]) (by rw [foundBy_ne hr]; exact pp.found hpn b.fixed.cfg) (k.rsps.trans b.rsps) (.inl rfl) (fun x => absurd x hr) hd

/-- A wire word or a panel command run on its own. -/
theorem ends_word {i : Instr} {s : State} {f : Flow} (hi : isHost i = false) (hf : isFill i = false) (hr : i ≠ .runInit)
    (hx : operandsAfter i s = s.x) (h : f.Runs Kept (streamOf s.cfg i) { s with busy := true }) (hd : f.Draws { s with busy := true }) :
    Ends i s (finishWord s.busy f) := by
  have b : Begun s { s with busy := true } := ⟨⟨rfl, rfl, rfl⟩, rfl, rfl, rfl, rfl, rfl, rfl, rfl, rfl, rfl, rfl⟩
  have hd : f.Draws s := hd.after rfl (.of_eq rfl rfl)
  have ho : Registers i s { s with busy := true } := ⟨hx.symm, fun _ => rfl, fun _ => ⟨rfl, rfl, rfl, rfl, rfl⟩⟩
  cases f with
  | done t =>
    obtain ⟨k, ar⟩ := h
    refine .ok (b.fixed.trans (k.fixed.trans ⟨rfl, rfl, rfl⟩)) ⟨(ho.kept k).x, (ho.kept k).free, (ho.kept k).fill⟩ ((b.went ar.toWent).quietEnd rfl rfl rfl rfl rfl rfl)
      (fun x => ar.idle (b.idle x)) (fun x => ar.cs (by rw [b.pins, x])) ?_ ?_ ?_ ?_ (hd.2.to rfl rfl)
    · rw [hi]; exact ⟨k.rsp, rfl, k.rsps⟩
    · unfold SequencerAfter; rw [if_neg hr]; exact ⟨k.ph, k.seq⟩
    · unfold BufferAfter; rw [hf]; exact ⟨k.bufHeld, k.lb⟩
    · rw [if_neg hr]; exact ar.panel
  | raised r t =>
    obtain ⟨rfl, k, hc, pl, id, pre, p1, p2, w⟩ := h
    refine .failed pre (b.fixed.trans (k.fixed.trans ⟨rfl, rfl, rfl⟩)) ⟨(ho.kept k).x, (ho.kept k).free, (ho.kept k).fill⟩ ⟨p1, p2⟩
      ((b.went w).quietEnd rfl rfl rfl rfl rfl rfl) (fun x => id.1.1 (b.idle x)) (fun x => id.1.2 (by rw [b.pins, x])) (fun x => id.2 (by rw [b.fixed.cfg, x])) (by rw [← b.clean, hc])
      ⟨rfl, rfl, by show t.rsps ++ _ = _; rw [k.rsps]⟩ ?_ ?_ pl (drewFailed_to (hd.1 rfl) rfl rfl)
    · unfold SequencerAfter; rw [if_neg hr]; exact ⟨k.ph, k.seq⟩
    · unfold BufferAfter; rw [hf]; exact ⟨k.bufHeld, k.lb⟩
  | hung t =>
    obtain ⟨k, hc, pre, p1, p2, pp, w⟩ := h
    exact .hung pre (b.fixed.trans k.fixed) (ho.kept k) ⟨p1, p2⟩ (b.went w) (by rw [← b.clean, hc]) (by rw [foundBy_ne hr]; exact pp)
      ⟨k.busy, k.rsp, k.rsps⟩ (fun _ => ⟨k.ph, k.seq⟩) (fun x => absurd x hr) (.inl k.lb) hd.1 hd.2
  | reset t =>
    obtain ⟨k, hc, hn, pre, p1, pp, w⟩ := h
    exact .reset pre t (b.fixed.trans k.fixed) p1 (b.went w) (by rw [← b.noReset, hn]) (by rw [foundBy_ne hr]; exact pp) k.rsps (.inl rfl) (fun x => absurd x hr) hd

theorem settled_runs (c : Byte) (ds : List Byte) (ms : Nat) (s : State) :
    ((sendGroup c ds s).bind (waitMin ms)).Runs Kept (groupStream c ds ++ [.wait ms]) s :=
  Flow.runs_bind keeps_kept (sendGroup_runs c ds s) fun t _ _ _ => waitMin_runs ms t

theorem settled_draws (c : Byte) (ds : List Byte) (ms : Nat) (s : State) : ((sendGroup c ds s).bind (waitMin ms)).Draws s :=
  Flow.draws_bind (sendGroup_draws c ds s) (waitMin_draws ms)

/-- RUN_INIT. -/
theorem ends_init (s : State) : Ends .runInit s (finishInit (runSequence (acceptInit s))) := by
  have b : Begun s (runStart (restartReplay (acceptInit s))) := ⟨⟨rfl, rfl, rfl⟩, rfl, rfl, rfl, rfl, rfl, rfl, rfl, rfl, rfl, rfl⟩
  have h := runStates_runOrder (restartReplay (acceptInit s))
  have hq := runStates_runOrder_position (restartReplay (acceptInit s))
  have hd : (runStates s.cfg runOrder (setPosition Position.start (restartReplay (acceptInit s)))).Draws s :=
    (runStates_draws s.cfg runOrder _).after rfl (.of_eq rfl rfl)
  unfold runSequence
  rw [show (restartReplay (acceptInit s)).cfg = s.cfg from rfl] at *
  rw [show (acceptInit s).cfg = s.cfg from rfl]
  revert h hq hd
  cases runStates s.cfg runOrder (setPosition Position.start (restartReplay (acceptInit s))) with
  | done t =>
    intro ⟨k, ar⟩ hq hd
    have hph : ∀ u : State, (recoverPanel u).ph = u.ph ∧ (recoverPanel u).seq = u.seq ∧ (recoverPanel u).rsps = u.rsps ∧
        (recoverPanel u).logical = u.logical ∧ (recoverPanel u).wire = u.wire ∧ (recoverPanel u).pins = u.pins ∧
        (recoverPanel u).env = u.env ∧ (recoverPanel u).now = u.now ∧ (recoverPanel u).bitcnt = u.bitcnt ∧
        (recoverPanel u).bufHeld = u.bufHeld ∧ (recoverPanel u).lb = u.lb ∧ Fixed u (recoverPanel u) ∧
        (recoverPanel u).x = u.x ∧ (recoverPanel u).fwLeft = u.fwLeft ∧ (recoverPanel u).fwRow = u.fwRow := by
      intro u
      unfold recoverPanel
      split <;> exact ⟨rfl, rfl, rfl, rfl, rfl, rfl, rfl, rfl, rfl, rfl, rfl, ⟨rfl, rfl, rfl⟩, rfl, rfl, rfl⟩
    obtain ⟨h1, h2, h3, h4, h5, h6, h7, h8, h9, h10, h11, h12, h13, h14, h15⟩ := hph (setHandle (enterState .ready t))
    show Ends .runInit s (complete (enterReady t))
    unfold enterReady
    have hfix : Fixed t (complete (recoverPanel (setHandle (enterState .ready t)))) := ⟨h12.cfg, h12.plat, h12.inbox⟩
    refine .ok (b.fixed.trans ((⟨k.cfg, k.plat, k.inbox⟩ : Fixed _ t).trans hfix)) ⟨?_, fun x => absurd rfl x, fun _ => ⟨?_, ?_, ?_, ?_, ?_⟩⟩
      ((b.went ar.toWent).quietEnd h4 h5 h6 (by simp [h7]) (by simp [h7]) h8) ?_ ?_ ?_ ?_ ?_ ?_ (hd.2.to (by simp [h7]) (by simp [h7]))
    · rw [complete_x, h13]; exact k.x
    · rw [complete_fwLeft, h14]; exact k.fwLeft
    · rw [complete_fwRow, h15]; exact k.fwRow
    · rw [complete_bufHeld, h10]; exact k.bufHeld
    · rw [complete_lb, h11]; exact k.lb
    · rw [complete_env, h7]; exact k.allocs
    · intro x
      have := ar.idle (b.idle x)
      unfold State.BusIdle at *
      rw [complete_pins, complete_bitcnt, h6, h9]
      exact this
    · intro x
      rw [complete_pins, h6]
      exact ar.cs (by rw [b.pins, x])
    · rw [if_pos (by rfl)]
      refine ⟨rfl, rfl, ?_⟩
      show (recoverPanel _).rsps ++ _ = _
      rw [h3, setHandle_rsps, enterState_rsps, k.rsps, b.rsps]
    · unfold SequencerAfter
      rw [if_pos rfl]
      refine ⟨by rw [complete_ph, h1]; rfl, fun _ => ?_, fun x => by cases x⟩
      rw [complete_seq, h2]
      refine ⟨rfl, hq.2, fun wf => ?_⟩
      show t.seq.idx = _
      rw [hq.1]
      exact congrArg List.length (sent_eq_table wf)
    · exact ⟨by rw [complete_bufHeld, h10]; exact k.bufHeld, by rw [complete_lb, h11]; exact k.lb⟩
    · rw [if_pos rfl]
      refine ⟨_, t.free, rfl, ?_⟩
      have hp : t.panel = s.panel.restartReplay.onEvents s.cfg (initStream s.cfg) := ar.panel
      rw [← hp, complete_panel]
      unfold recoverPanel
      rw [show (setHandle (enterState .ready t)).panel = t.panel from rfl]
      have hc : (setHandle (enterState .ready t)).cfg = s.cfg := k.cfg
      split
      · rw [hc]; rfl
      · rfl
  | raised r t =>
    intro ⟨hr, k, hc, pl, id, pre, p1, p2, w⟩ _ hd
    subst hr
    refine .failed pre (b.fixed.trans ((⟨k.cfg, k.plat, k.inbox⟩ : Fixed _ t).trans ⟨rfl, rfl, rfl⟩))
      ⟨k.x, fun x => absurd rfl x, fun _ => ⟨k.fwLeft, k.fwRow, k.bufHeld, k.lb, k.allocs⟩⟩ ⟨p1, p2⟩
      ((b.went w).quietEnd rfl rfl rfl rfl rfl rfl) (fun x => id.1.1 (b.idle x)) (fun x => id.1.2 (by rw [b.pins, x])) (fun x => id.2 (by rw [b.fixed.cfg, x])) (by rw [← b.clean, hc])
      ⟨rfl, rfl, by show t.rsps ++ _ = _; rw [k.rsps, b.rsps]⟩ ?_ ⟨k.bufHeld, k.lb⟩ pl (drewFailed_to (hd.1 rfl) rfl rfl)
    unfold SequencerAfter
    rw [if_pos rfl]
    exact ⟨k.ph, (fun x => by cases x), fun _ => rfl⟩
  | hung t =>
    intro ⟨k, hc, pre, p1, p2, pp, w⟩ _ hd
    exact .hung pre (b.fixed.trans ⟨k.cfg, k.plat, k.inbox⟩)
      ⟨k.x, fun x => absurd rfl x, fun _ => ⟨k.fwLeft, k.fwRow, k.bufHeld, k.lb, k.allocs⟩⟩ ⟨p1, p2⟩ (b.went w) (by rw [← b.clean, hc]) pp
      ⟨k.busy, k.rsp.trans b.rsp, k.rsps.trans b.rsps⟩ (fun x => absurd rfl x) (fun _ => k.ph) (.inl k.lb) hd.1 hd.2
  | reset t =>
    intro ⟨k, hc, hn, pre, p1, pp, w⟩ _ hd
    exact .reset pre t (b.fixed.trans ⟨k.cfg, k.plat, k.inbox⟩) p1 (b.went w) (by rw [← b.noReset, hn]) pp
      (k.rsps.trans b.rsps) (.inr rfl) (fun _ => rfl) hd

/-- A fill, from the state in which its operands are in place. -/
theorem ends_fill {i : Instr} {s a : State} (hf : isFill i = true) (hi : isHost i = true) (hr : i ≠ .runInit)
    (hs : streamOf s.cfg i = rectStream a.cfg a.x.x0 a.x.y0 a.x.x1 a.x.y1 a.x.pix)
    (hv : ∀ p, i = .fillScreen p → s.cfg.sizeOk = true → validRect a.cfg a.x = true)
    (b : Begun s a) (hpn : a.panel = s.panel) (hrx : a.rx = s.rx) (hsh : a.sh = s.sh) (hb : a.busy = true) (hp : a.ph = s.ph) (hq : a.seq = s.seq)
    (hl : a.lb = s.lb) (hx : a.x = operandsAfter i s) (hfree : a.free = s.free)
    (hallocs : a.env.allocs = s.env.allocs) : Ends i s (finishFill (fill a)) := by
  have regs : ∀ t : State, t.x = a.x → t.free = a.free → Registers i s t := fun t h1 h2 =>
    ⟨h1.trans hx, fun _ => h2.trans hfree, fun h => by rw [hf] at h; cases h⟩
  have away : ∀ (r : Resp) (t : State), (r = .configurationError ∨ r = .notReady ∨ r = .allocationError) →
      Fixed s t → s.KeepsBus t → t.x = a.x → t.free = a.free → t.rsps = s.rsps → t.ph = s.ph → t.seq = s.seq →
      (r = .configurationError → ∀ p, i = .fillScreen p → s.cfg.sizeOk = false) → Calm s t → (r = .allocationError → s.env.allocs.head? = some false) →
      Ends i s (raise r (releaseBuffer t)) := by
    intro r t h1 h2 h3 g1 g2 h4 h5 h6 h7 h8 h9
    refine .away r (h2.trans ⟨rfl, rfl, rfl⟩) (regs _ g1 g2) hf h1 h3 ⟨rfl, rfl, ?_⟩ ⟨h5, h6⟩ ⟨rfl, rfl⟩ h7 (h8.to rfl rfl) h9
    show t.rsps ++ _ = _
    rw [h4]
  have hcalm : Calm s a := .of_eq b.words b.waits
  have hbus : s.KeepsBus a := ⟨b.logical, b.wire, hpn, hrx, b.pins, hsh, b.bitcnt, b.quietDue, b.now, b.words, b.waits⟩
  cases hc : fillCheck a with
  | some r =>
    rw [fill_refused hc]
    refine away r a ?_ b.fixed hbus rfl rfl b.rsps hp hq ?_ hcalm ?_
    · exact (fillCheck_refuses hc).imp id .inl
    · intro hre p hip
      cases hso : s.cfg.sizeOk with
      | false => rfl
      | true =>
        unfold fillCheck at hc
        rw [hv p hip hso, hre] at hc
        cases hph : a.ph <;> rw [hph] at hc <;> simp at hc
    · rintro rfl
      revert hc
      unfold fillCheck
      cases validRect a.cfg a.x <;> cases a.ph <;> simp
  | none =>
    cases ha : allocDraw a with
    | false =>
      rw [fill_noBuffer hc ha]
      refine away _ (popAlloc a) (.inr (.inr rfl)) (b.fixed.trans ⟨rfl, rfl, rfl⟩) hbus rfl rfl b.rsps hp hq
        (fun h => by cases h) (hcalm.to rfl rfl) fun _ => ?_
      unfold allocDraw at ha
      rw [← hallocs]
      cases hl : a.env.allocs with
      | nil => rw [hl] at ha; cases ha
      | cons x l => rw [hl] at ha; exact congrArg some ha
    | true =>
      have h := fill_runs hc ha
      have c : Begun s (fillStart a) ∧ (fillStart a).panel = s.panel ∧ (fillStart a).busy = a.busy ∧ (fillStart a).ph = a.ph ∧ (fillStart a).seq = a.seq ∧
          (fillStart a).x = a.x ∧ (fillStart a).free = a.free := by
        unfold fillStart
        refine ⟨⟨b.fixed.trans ?_, ?_, ?_, ?_, ?_, ?_, ?_, ?_, ?_, ?_, ?_⟩, ?_, ?_, ?_, ?_, ?_, ?_⟩ <;> cases a.cfg.fwVariant <;>
          first
          | exact ⟨rfl, rfl, rfl⟩ | exact b.logical | exact b.wire | exact b.pins | exact b.bitcnt | exact b.words | exact b.waits
          | exact b.now | exact b.quietDue | exact hpn | exact b.rsp | exact b.rsps | rfl
      have cl : (fillStart a).lb = s.lb ∨ ∃ p n, (fillStart a).lb = lineBuffer p n := by
        unfold fillStart
        cases a.cfg.fwVariant
        · exact .inl hl
        · exact .inr ⟨_, _, rfl⟩
      rw [← hs] at h
      obtain ⟨c, cn, cb, cp, cq, cx, cf⟩ := c
      have hd := (fill_draws a).after b.fixed.cfg hcalm
      revert h hd
      cases fill a with
      | done t =>
        intro ⟨k, ar⟩ hd
        refine .ok (c.fixed.trans ⟨k.cfg, k.plat, k.inbox⟩) (regs _ (k.x.trans cx) (k.free.trans cf))
          ((c.went ar.toWent).quietEnd rfl rfl rfl rfl rfl rfl)
          (fun x => ar.idle (c.idle x)) (fun x => ar.cs (by rw [c.pins, x])) ?_ ?_ ?_ ?_ (hd.2.to rfl rfl)
        · rw [if_pos hi]; exact ⟨rfl, rfl, by show t.rsps ++ _ = _; rw [k.rsps, c.rsps]⟩
        · unfold SequencerAfter; rw [if_neg hr]
          exact ⟨(k.ph.trans cp).trans hp, (k.seq.trans cq).trans hq⟩
        · unfold BufferAfter; rw [if_pos hf]; exact ⟨rfl, rfl⟩
        · rw [if_neg hr]; show t.panel = _; rw [ar.panel, cn, c.fixed.cfg]
      | raised r t =>
        intro ⟨hre, k, hcl, pl, id, pre, p1, p2, w⟩ hd
        subst hre
        refine .failed pre (c.fixed.trans ⟨k.cfg, k.plat, k.inbox⟩) (regs _ (k.x.trans cx) (k.free.trans cf)) ⟨p1, p2⟩
          ((c.went w).quietEnd rfl rfl rfl rfl rfl rfl) (fun x => id.1.1 (c.idle x)) (fun x => id.1.2 (by rw [c.pins, x])) (fun x => id.2 (by rw [c.fixed.cfg, x])) (by rw [← c.clean, hcl])
          ⟨rfl, rfl, by show t.rsps ++ _ = _; rw [k.rsps, c.rsps]⟩ ?_ ?_ pl (drewFailed_to (hd.1 rfl) rfl rfl)
        · unfold SequencerAfter; rw [if_neg hr]
          exact ⟨(k.ph.trans cp).trans hp, (k.seq.trans cq).trans hq⟩
        · unfold BufferAfter; rw [if_pos hf]; exact ⟨rfl, rfl⟩
      | hung t =>
        intro ⟨k, hcl, pre, p1, p2, pp, w⟩ hd
        exact .hung pre (c.fixed.trans ⟨k.cfg, k.plat, k.inbox⟩) (regs _ (k.x.trans cx) (k.free.trans cf)) ⟨p1, p2⟩ (c.went w) (by rw [← c.clean, hcl]) (by rw [foundBy_ne hr]; exact pp.found cn c.fixed.cfg)
          ⟨(k.busy.trans cb).trans hb, k.rsp.trans c.rsp, k.rsps.trans c.rsps⟩ (fun _ => ⟨(k.ph.trans cp).trans hp, (k.seq.trans cq).trans hq⟩)
          (fun x => absurd x hr) (cl.imp k.lb.trans fun ⟨p, n, h⟩ => ⟨p, n, k.lb.trans h⟩) hd.1 hd.2
      | reset t =>
        intro ⟨k, hcl, hn, pre, p1, pp, w⟩ hd
        exact .reset pre t (c.fixed.trans ⟨k.cfg, k.plat, k.inbox⟩) p1 (c.went w) (by rw [← c.noReset, hn]) (by rw [foundBy_ne hr]; exact pp.found cn c.fixed.cfg)
          (k.rsps.trans c.rsps) (.inl rfl) (fun x => absurd x hr) hd

theorem lastOf_toNat {n : Nat} (h1 : 1 ≤ n) (h2 : n ≤ 65536) : (BitVec.ofNat 16 (n - 1)).toNat = n - 1 := by
  rw [BitVec.toNat_ofNat]
  omega

theorem validRect_fullScreen {k : Config} (h : k.sizeOk = true) {x : Operands} (h0 : x.x0 = 0) (h1 : x.y0 = 0)
    (h2 : x.x1 = BitVec.ofNat 16 (k.width - 1)) (h3 : x.y1 = BitVec.ofNat 16 (k.height - 1)) :
    validRect k x = true := by
  simp only [Config.sizeOk, Bool.and_eq_true, decide_eq_true_eq] at h
  obtain ⟨⟨⟨w1, w2⟩, w3⟩, w4⟩ := h
  simp only [validRect, Bool.and_eq_true, decide_eq_true_eq, h0, h1, h2, h3, lastOf_toNat w1 w2, lastOf_toNat w3 w4]
  refine ⟨⟨⟨Nat.zero_le _, Nat.zero_le _⟩, ?_⟩, ?_⟩ <;> omega

/-- Every instruction answers a next state, and this is how it ended. -/
theorem exec_ends (i : Instr) (s : State) : ∃ t, exec i s = .next t ∧ Ends i s t := by
  cases i with
  | wrcmd c => exact ⟨_, rfl, ends_word rfl rfl (by simp) rfl (ptCmd_runs c _) (ptCmd_draws c _)⟩
  | wrcolor d => exact ⟨_, rfl, ends_word rfl rfl (by simp) rfl (ptDat_runs d _) (ptDat_draws d _)⟩
  | sendCommand c =>
    exact ⟨finish (ptCmd c (acceptByte opSendCommand c s)), rfl, ends_raw (a := acceptByte opSendCommand c s) rfl rfl (by simp)
      ⟨⟨rfl, rfl, rfl⟩, rfl, rfl, rfl, rfl, rfl, rfl, rfl, rfl, rfl, rfl⟩ rfl rfl rfl rfl rfl rfl
      ⟨rfl, fun _ => rfl, fun _ => ⟨rfl, rfl, rfl, rfl, rfl⟩⟩ (ptCmd_runs c _)
      ((ptCmd_draws c (acceptByte opSendCommand c s)).after rfl (.of_eq rfl rfl))⟩
  | sendData d =>
    exact ⟨finish (ptDat d (acceptByte opSendData d s)), rfl, ends_raw (a := acceptByte opSendData d s) rfl rfl (by simp)
      ⟨⟨rfl, rfl, rfl⟩, rfl, rfl, rfl, rfl, rfl, rfl, rfl, rfl, rfl, rfl⟩ rfl rfl rfl rfl rfl rfl
      ⟨rfl, fun _ => rfl, fun _ => ⟨rfl, rfl, rfl, rfl, rfl⟩⟩ (ptDat_runs d _)
      ((ptDat_draws d (acceptByte opSendData d s)).after rfl (.of_eq rfl rfl))⟩
  | runInit => exact ⟨_, rfl, ends_init s⟩
  | fillRect x0 y0 x1 y1 p =>
    exact ⟨_, rfl, ends_fill rfl rfl (by simp) rfl (fun p hp => by simp at hp)
      ⟨⟨rfl, rfl, rfl⟩, rfl, rfl, rfl, rfl, rfl, rfl, rfl, rfl, rfl, rfl⟩ rfl rfl rfl rfl rfl rfl rfl rfl rfl rfl⟩
  | fillScreen p =>
    exact ⟨_, rfl, ends_fill rfl rfl (by simp) rfl (fun p hp h => validRect_fullScreen h rfl rfl rfl rfl)
      ⟨⟨rfl, rfl, rfl⟩, rfl, rfl, rfl, rfl, rfl, rfl, rfl, rfl, rfl, rfl⟩ rfl rfl rfl rfl rfl rfl rfl rfl rfl rfl⟩
  | caset a b => exact ⟨_, rfl, ends_word rfl rfl (by simp) rfl (sendGroup_runs _ _ _) (sendGroup_draws _ _ _)⟩
  | raset a b => exact ⟨_, rfl, ends_word rfl rfl (by simp) rfl (sendGroup_runs _ _ _) (sendGroup_draws _ _ _)⟩
  | ramwr => exact ⟨_, rfl, ends_word rfl rfl (by simp) rfl (sendGroup_runs _ _ _) (sendGroup_draws _ _ _)⟩
  | slpout ps => exact ⟨_, rfl, ends_word rfl rfl (by simp) rfl (settled_runs _ _ _ _) (settled_draws _ _ _ _)⟩
  | dispon ps => exact ⟨_, rfl, ends_word rfl rfl (by simp) rfl (settled_runs _ _ _ _) (settled_draws _ _ _ _)⟩
  | vendor c ps => exact ⟨_, rfl, ends_word rfl rfl (by simp) rfl (sendGroup_runs _ _ _) (sendGroup_draws _ _ _)⟩

end Sys2Proof.Machine
end

