-- ==== Sys2Proof/Laws/Picture.lean ====
section
/-! SUPPORT. What the receiver makes of a whole fill and of a whole initialization. -/

namespace Sys2Proof.Machine

namespace Panel

/-- The rows of a ROW_BITMAP fill, one window each (42_frame_writer.md R175). -/
theorem takeEvents_rows {k : Config} (hk : k.cmdsDistinct = true) {x0 x1 : U16} (h1 : x0.toNat ≤ x1.toNat)
    (h3 : x1.toNat < k.width) (c : U16) (n y : Nat) (hy : y + n < k.height) (hb : y + n < 65536) {p : Panel} (h : p.Listening) :
    let q := p.takeEvents k (rowsStream k x0 x1 c y (n + 1))
    Listening q ∧ q.wr = false ∧ q.hi = none ∧ Painted k x0.toNat y x1.toNat (y + n) c p.gram q.gram := by
  induction n generalizing y p with
  | zero =>
    have hyn : (BitVec.ofNat 16 y).toNat = y := by rw [BitVec.toNat_ofNat]; omega
    have := takeEvents_filled hk h h1 (le_refl (BitVec.ofNat 16 y).toNat) h3 (by omega) c
    simp only [hyn, Nat.sub_self, Nat.zero_add, Nat.mul_one] at this
    simp only [rowsStream, rowStream, List.append_nil, Nat.add_zero]
    exact ⟨this.1, this.2.1, this.2.2.1, this.2.2.2.2.2.2.2.2.2.2⟩
  | succ n ih =>
    have hyn : (BitVec.ofNat 16 y).toNat = y := by rw [BitVec.toNat_ofNat]; omega
    have hf := takeEvents_filled hk h h1 (le_refl (BitVec.ofNat 16 y).toNat) h3 (by omega) c
    simp only [hyn, Nat.sub_self, Nat.zero_add, Nat.mul_one] at hf
    have hs : rowsStream k x0 x1 c y (n + 1 + 1)
        = rowStream k x0 (BitVec.ofNat 16 y) x1 c ++ rowsStream k x0 x1 c (y + 1) (n + 1) := rfl
    dsimp only
    rw [hs, takeEvents_append]
    obtain ⟨g1, g2, g3, g4⟩ := ih (y + 1) (by omega) (by omega) hf.1
    refine ⟨g1, g2, g3, ?_⟩
    have h5 := hf.2.2.2.2.2.2.2.2.2.2
    have e : y + 1 + n = y + (n + 1) := by omega
    rw [e] at g4
    exact Painted.trans h5 g4 (le_refl y) (by omega)

/-- The whole stream of a fill of a valid rectangle, in either variant, but for the order of the table. -/
theorem takeEvents_rect {k : Config} (hk : k.cmdsDistinct = true) {x0 y0 x1 y1 : U16} (h1 : x0.toNat ≤ x1.toNat)
    (h2 : y0.toNat ≤ y1.toNat) (h3 : x1.toNat < k.width) (h4 : y1.toNat < k.height) (c : U16) {p : Panel} (h : p.Listening) :
    let q := p.takeEvents k (rectStream k x0 y0 x1 y1 c)
    Listening q ∧ q.wr = false ∧ q.hi = none ∧ Painted k x0.toNat y0.toNat x1.toNat y1.toNat c p.gram q.gram := by
  unfold rectStream
  cases k.fwVariant with
  | singleWindow =>
    have := takeEvents_filled hk h h1 h2 h3 h4 c
    exact ⟨this.1, this.2.1, this.2.2.1, this.2.2.2.2.2.2.2.2.2.2⟩
  | rowBitmap =>
    have hlt := y1.isLt
    have e : y0.toNat + (y1.toNat - y0.toNat) = y1.toNat := by omega
    have := takeEvents_rows hk h1 h3 c (y1.toNat - y0.toNat) y0.toNat (by omega) (by omega) h
    rw [e] at this
    exact this

/-- A pixel of the panel after a rectangle was filled. -/
theorem pixelAt_painted {k : Config} {x0 y0 x1 y1 : Nat} {c : U16} {p q : Panel}
    (h : Painted k x0 y0 x1 y1 c p.gram q.gram) {row col : Nat} (hc : col < k.width) :
    q.pixelAt k row col = if x0 ≤ col ∧ col ≤ x1 ∧ y0 ≤ row ∧ row ≤ y1 then some c else p.pixelAt k row col := by
  unfold pixelAt Memory.readPixel
  have hW : 0 < k.width := by omega
  have a1 : pixelAddr k row col / 2 = row * k.width + col := by unfold pixelAddr; omega
  have a2 : (pixelAddr k row col + 1) / 2 = row * k.width + col := by unfold pixelAddr; omega
  have d1 : (row * k.width + col) / k.width = row := by
    rw [Nat.add_comm, Nat.add_mul_div_right _ _ hW, Nat.div_eq_of_lt hc, Nat.zero_add]
  have d2 : (row * k.width + col) % k.width = col := by
    rw [Nat.add_comm, Nat.add_mul_mod_self_right, Nat.mod_eq_of_lt hc]
  rw [h, h, a1, a2, d1, d2]
  have m1 : pixelAddr k row col % 2 = 0 := by unfold pixelAddr; omega
  have m2 : ¬ (pixelAddr k row col + 1) % 2 = 0 := by omega
  by_cases hr : x0 ≤ col ∧ col ≤ x1 ∧ y0 ≤ row ∧ row ≤ y1
  · rw [if_pos hr, if_pos hr, if_pos hr]
    unfold pixelByte
    rw [if_pos m1, if_neg m2]
    simp
  · rw [if_neg hr, if_neg hr, if_neg hr]

/-- A sleep-out group with its wait, whatever its parameters: the state is unknown, or the panel is awake. -/
theorem settled_sleepOut {k : Config} (hk : k.cmdsDistinct = true) (ps : List Byte) {ms : Nat} (hm : 120 ≤ ms) (p : Panel) :
    (p.takeEvents k (groupStream k.cmdSlpout ps ++ [.wait ms])).unknown = true ∨
      Listening (p.takeEvents k (groupStream k.cmdSlpout ps ++ [.wait ms])) ∧
      (p.takeEvents k (groupStream k.cmdSlpout ps ++ [.wait ms])).awake = true := by
  cases hu : p.unknown with
  | true => left; rw [takeEvents_unknown k _ hu, hu]
  | false =>
    cases hs : p.settling with
    | some w =>
      left
      unfold groupStream
      rw [List.cons_append, takeEvents_cons]
      have := takeEvent_owed (k := k) (p := p) (by rw [hs]; rfl) (.cmd k.cmdSlpout) (by simp)
      rw [takeEvents_unknown k _ this, this]
    | none =>
      cases ps with
      | nil => right; rw [takeEvents_sleepOut hk ⟨hu, hs⟩ hm]; exact ⟨⟨hu, hs⟩, rfl⟩
      | cons d ds =>
        left
        obtain ⟨-, -, -, -, -, -, -, d1, -⟩ := Config.distinct_of hk
        unfold groupStream
        rw [List.cons_append, takeEvents_cons]
        refine takeEvents_owed ?_
        simp [takeEvent, takeCmd_listening ⟨hu, hs⟩, obey, d1.symm]

/-- A display-on group with its wait, whatever its parameters: the state is unknown, or the panel is on and idle. -/
theorem settled_displayOn {k : Config} (hk : k.cmdsDistinct = true) (ps : List Byte) {ms : Nat} (hm : 10 ≤ ms) (p : Panel) :
    (p.takeEvents k (groupStream k.cmdDispon ps ++ [.wait ms])).unknown = true ∨
      Listening (p.takeEvents k (groupStream k.cmdDispon ps ++ [.wait ms])) ∧
      (p.takeEvents k (groupStream k.cmdDispon ps ++ [.wait ms])).on = true ∧
      (p.takeEvents k (groupStream k.cmdDispon ps ++ [.wait ms])).awake = p.awake ∧
      (p.takeEvents k (groupStream k.cmdDispon ps ++ [.wait ms])).wr = false ∧
      (p.takeEvents k (groupStream k.cmdDispon ps ++ [.wait ms])).hi = none := by
  cases hu : p.unknown with
  | true => left; rw [takeEvents_unknown k _ hu, hu]
  | false =>
    cases hs : p.settling with
    | some w =>
      left
      unfold groupStream
      rw [List.cons_append, takeEvents_cons]
      have := takeEvent_owed (k := k) (p := p) (by rw [hs]; rfl) (.cmd k.cmdDispon) (by simp)
      rw [takeEvents_unknown k _ this, this]
    | none =>
      cases ps with
      | nil => right; rw [takeEvents_displayOn hk ⟨hu, hs⟩ hm]; exact ⟨⟨hu, hs⟩, rfl, rfl, rfl, rfl⟩
      | cons d ds =>
        left
        obtain ⟨-, -, -, -, -, -, -, -, d1, d2⟩ := Config.distinct_of hk
        unfold groupStream
        rw [List.cons_append, takeEvents_cons]
        refine takeEvents_owed ?_
        simp [takeEvent, takeCmd_listening ⟨hu, hs⟩, obey, d1.symm, d2.symm]

end Panel

/-- The single entries of the two settle states (41_init_sequencer.md R131 condition 3). -/
theorem segment_sleepOut {k : Config} (hk : k.wf = true) :
    ∃ e, segment k .sleepOut = [e] ∧ e.cmd = k.cmdSlpout ∧ e.phase = .sleepOut := by
  simp only [Config.wf, Bool.and_eq_true] at hk
  have h := eq_of_beq (show (k.cmdsOf .sleepOut == [k.cmdSlpout]) = true from hk.1.1.1.1.1.1.2)
  unfold Config.cmdsOf at h
  obtain ⟨e, he, hc⟩ := List.map_eq_singleton_iff.1 h
  refine ⟨e, he, hc, ?_⟩
  have hm : e ∈ k.table.filter fun e => e.phase == .sleepOut := by rw [he]; exact List.mem_singleton.2 rfl
  simpa using (List.mem_filter.1 hm).2

theorem segment_displayOn {k : Config} (hk : k.wf = true) :
    ∃ e, segment k .displayOn = [e] ∧ e.cmd = k.cmdDispon ∧ e.phase = .displayOn := by
  simp only [Config.wf, Bool.and_eq_true] at hk
  have h := eq_of_beq (show (k.cmdsOf .displayOn == [k.cmdDispon]) = true from hk.1.1.1.1.1.2)
  unfold Config.cmdsOf at h
  obtain ⟨e, he, hc⟩ := List.map_eq_singleton_iff.1 h
  refine ⟨e, he, hc, ?_⟩
  have hm : e ∈ k.table.filter fun e => e.phase == .displayOn := by rw [he]; exact List.mem_singleton.2 rfl
  simpa using (List.mem_filter.1 hm).2

theorem Config.wf_waits {k : Config} (hk : k.wf = true) : 1000 ≤ k.tQuietNs ∧ 120 ≤ k.tSlpoutMs ∧ 10 ≤ k.tDisponMs := by
  simp only [Config.wf, Bool.and_eq_true, Config.waitsOk, decide_eq_true_eq] at hk
  exact ⟨hk.1.1.1.1.2.1.1, hk.1.1.1.1.2.1.2, hk.1.1.1.1.2.2⟩

/-- The end of every run: sleep-out, its wait, display-on, its wait (41_init_sequencer.md R141 to R144). -/
theorem initStream_tail {k : Config} (hk : k.wf = true) :
    ∃ (a : List Event) (e f : Entry), segment k .sleepOut = [e] ∧ segment k .displayOn = [f] ∧
      initStream k = a ++ (groupStream k.cmdSlpout e.params ++ [.wait (max k.tSlpoutMs e.delayMs)])
        ++ (groupStream k.cmdDispon f.params ++ [.wait (max k.tDisponMs f.delayMs)]) := by
  obtain ⟨e, he, hc, hp⟩ := segment_sleepOut hk
  obtain ⟨f, hf, gc, gp⟩ := segment_displayOn hk
  refine ⟨(runOrder.take 8).flatMap (stateStream k), e, f, he, hf, ?_⟩
  have h : runOrder = runOrder.take 8 ++ [.sleepOut, .settleDelay120, .displayOn, .settleDelay10] := rfl
  have h1 : stateStream k .sleepOut = groupStream k.cmdSlpout e.params := by
    simp [stateStream, he, entryStream, hc, hp]
  have h2 : stateStream k .displayOn = groupStream k.cmdDispon f.params := by
    simp [stateStream, hf, entryStream, gc, gp]
  have h3 : stateStream k .settleDelay120 = [.wait (max k.tSlpoutMs e.delayMs)] := by
    simp [stateStream, segmentDelay, he]
  have h4 : stateStream k .settleDelay10 = [.wait (max k.tDisponMs f.delayMs)] := by
    simp [stateStream, segmentDelay, hf]
  unfold initStream
  conv_lhs => rw [h]
  rw [List.flatMap_append]
  simp [h1, h2, h3, h4]

/-- But for the order: after the stream of a whole run the receiver is unknown, or awake, on, and out of write mode. -/
theorem takeEvents_initStream {k : Config} (hk : k.wf = true) (p : Panel) :
    (p.takeEvents k (initStream k)).unknown = true ∨
      Panel.Listening (p.takeEvents k (initStream k)) ∧ (p.takeEvents k (initStream k)).awake = true ∧
      (p.takeEvents k (initStream k)).on = true ∧ (p.takeEvents k (initStream k)).wr = false ∧
      (p.takeEvents k (initStream k)).hi = none := by
  obtain ⟨a, e, f, -, -, h⟩ := initStream_tail hk
  have hd := Config.wf_distinct hk
  obtain ⟨-, w1, w2⟩ := Config.wf_waits hk
  generalize hA : groupStream k.cmdSlpout e.params ++ [.wait (max k.tSlpoutMs e.delayMs)] = A at h
  generalize hB : groupStream k.cmdDispon f.params ++ [.wait (max k.tDisponMs f.delayMs)] = B at h
  rw [h, Panel.takeEvents_append, Panel.takeEvents_append]
  rcases Panel.settled_sleepOut hd e.params (ms := max k.tSlpoutMs e.delayMs) (by omega) (p.takeEvents k a) with h1 | ⟨h1, h2⟩ <;> rw [hA] at *
  · left; rw [Panel.takeEvents_unknown k _ h1, h1]
  · rcases Panel.settled_displayOn hd f.params (ms := max k.tDisponMs f.delayMs) (by omega)
      (Panel.takeEvents k A (p.takeEvents k a)) with g1 | ⟨g1, g2, g3, g4, g5⟩ <;> rw [hB] at *
    · left; exact g1
    · right; exact ⟨g1, by rw [g3, h2], g2, g4, g5⟩

/-- After the stream of a whole run the receiver is unknown, or awake, on, and out of write mode. -/
theorem onEvents_initStream {k : Config} (hk : k.wf = true) (p : Panel) :
    (p.onEvents k (initStream k)).unknown = true ∨
      Panel.Listening (p.onEvents k (initStream k)) ∧ (p.onEvents k (initStream k)).awake = true ∧
      (p.onEvents k (initStream k)).on = true ∧ (p.onEvents k (initStream k)).wr = false ∧
      (p.onEvents k (initStream k)).hi = none := by
  cases hu : (p.onEvents k (initStream k)).unknown with
  | true => exact .inl rfl
  | false =>
    right
    obtain ⟨-, h1, h2⟩ := Panel.onEvents_taken hu
    rcases takeEvents_initStream hk p with h | h
    · rw [h] at h1; cases h1
    · rw [h2]; exact h

theorem logged_entries (es : List Entry) (l : List (Byte × List Byte)) :
    Panel.logged (es.flatMap entryStream) l = l ++ es.map fun e => (e.cmd, e.params) := by
  induction es generalizing l with
  | nil => simp [Panel.logged]
  | cons e es ih =>
    have h : Panel.logged (entryStream e) l = l ++ [(e.cmd, e.params)] := by
      unfold entryStream
      rw [Panel.logged_append, Panel.logged_group]
      split <;> rfl
    rw [List.flatMap_cons, Panel.logged_append, h, ih]
    simp

theorem logged_wait (ms : Nat) (l : List (Byte × List Byte)) : Panel.logged [.wait ms] l = l := rfl

/-- A whole run logs the table (43_panel_receiver.md R200). -/
theorem logged_initStream {k : Config} (hk : k.wf = true) (l : List (Byte × List Byte)) :
    Panel.logged (initStream k) l = l ++ Panel.tableLog k := by
  unfold Panel.tableLog
  conv_rhs => rw [← segments_eq_table hk]
  simp only [initStream, runOrder, sendOrder, List.flatMap_cons, List.flatMap_nil, List.append_nil, Panel.logged_append,
    List.map_append, stateStream, logged_entries, logged_wait, List.append_assoc]

/-- A run that starts a replay afresh completes it, if the receiver stays known (43_panel_receiver.md R200). -/
theorem replayFrom_initStream {k : Config} (hk : k.wf = true) {p : Panel} (hp : p.replayFrom = p.log.length)
    (hu : (p.onEvents k (initStream k)).unknown = false) :
    (p.onEvents k (initStream k)).replayFrom = (p.onEvents k (initStream k)).log.length := by
  obtain ⟨a, e, f, -, -, h⟩ := initStream_tail hk
  have hl := logged_initStream hk p.log
  rw [h] at hu hl ⊢
  generalize a ++ (groupStream k.cmdSlpout e.params ++ [.wait (max k.tSlpoutMs e.delayMs)]) = A at *
  generalize max k.tDisponMs f.delayMs = ms at *
  rw [Panel.onEvents_append] at hu ⊢
  have hA := Panel.onEvents_known hu
  obtain ⟨-, ht, hq⟩ := Panel.onEvents_taken hA
  have hlog : (p.onEvents k A).log = Panel.logged A p.log := by rw [hq]; exact Panel.log_takeEvents A ht
  have hfrom : (p.onEvents k A).replayFrom = p.log.length := by
    have hn := congrArg List.length hl
    rw [Panel.logged_append, Panel.logged_append, Panel.logged_group, logged_wait, List.length_append, List.length_append,
      Panel.length_logged] at hn
    simp only [Panel.tableLog, List.length_map, List.length_singleton] at hn
    rw [Panel.replayFrom_short A hA (by rw [hp]; omega), hp]
  have hq2 := Panel.onEvents_taken hu
  generalize p.onEvents k A = q at *
  cases hps : f.params with
  | cons d ds =>
    exfalso
    have h1 := hq2.2.1
    rw [hps] at h1
    obtain ⟨-, -, -, -, -, -, -, -, d1, d2⟩ := Config.distinct_of (Config.wf_distinct hk)
    have hx : (q.takeEvents k (groupStream k.cmdDispon (d :: ds) ++ [.wait ms])).unknown = true := by
      cases hs : q.settling with
      | some w =>
        have := Panel.takeEvent_owed (k := k) (p := q) (by rw [hs]; rfl) (.cmd k.cmdDispon) (by simp)
        unfold groupStream
        rw [List.cons_append, Panel.takeEvents_cons, Panel.takeEvents_unknown k _ this, this]
      | none =>
        unfold groupStream
        rw [List.cons_append, Panel.takeEvents_cons]
        refine Panel.takeEvents_owed ?_
        simp [Panel.takeEvent, Panel.takeCmd_listening ⟨hA, hs⟩, Panel.obey, d1.symm, d2.symm]
    rw [hx] at h1; cases h1
  | nil =>
    rw [hps] at hu hl
    rw [Panel.logged_append, Panel.logged_append, Panel.logged_group, logged_wait, ← hlog] at hl
    have hk1 : (q.takeEvent k (.cmd k.cmdDispon)).unknown = false := by
      have h1 := Panel.onEvents_known (k := k) (es := [.wait ms]) (p := q.onEvent k (.cmd k.cmdDispon)) hu
      exact (Panel.onEvent_known h1).1
    obtain ⟨-, r1, r2⟩ := Panel.records_takeEvent hk1
    have hw := Panel.checkOrder_whole (l := p.log) (r1.trans hl) (r2.trans hfrom) hk1
    have hs : ∀ x : Panel, (x.onWait ms).replayFrom = x.replayFrom ∧ (x.onWait ms).log = x.log := by
      intro x
      unfold Panel.onWait
      split
      · exact ⟨rfl, rfl⟩
      split
      · split <;> exact ⟨rfl, rfl⟩
      · split <;> exact ⟨rfl, rfl⟩
      · exact ⟨rfl, rfl⟩
    show ((q.onCmd k k.cmdDispon).onWait ms).replayFrom = ((q.onCmd k k.cmdDispon).onWait ms).log.length
    rw [(hs _).1, (hs _).2, show q.onCmd k k.cmdDispon = Panel.checkOrder k (q.takeEvent k (.cmd k.cmdDispon)) from rfl, hw]

namespace Panel

theorem rowsStream_plain {k : Config} (hk : k.cmdsDistinct = true) (x0 x1 c : U16) (y n : Nat) :
    .cmd k.cmdSlpout ∉ rowsStream k x0 x1 c y n := by
  obtain ⟨-, -, d1, -, -, d2, -, d3, -⟩ := Config.distinct_of hk
  induction n generalizing y with
  | zero => simp [rowsStream]
  | succ n ih => simp [rowsStream, rowStream, windowStream, groupStream, d1.symm, d2.symm, d3.symm, ih]

/-- A fill sends no sleep-out. -/
theorem rectStream_plain {k : Config} (hk : k.cmdsDistinct = true) (x0 y0 x1 y1 c : U16) :
    .cmd k.cmdSlpout ∉ rectStream k x0 y0 x1 y1 c := by
  obtain ⟨-, -, d1, -, -, d2, -, d3, -⟩ := Config.distinct_of hk
  unfold rectStream
  cases k.fwVariant with
  | singleWindow => simp [fillStream, windowStream, groupStream, d1.symm, d2.symm, d3.symm]
  | rowBitmap => exact rowsStream_plain hk x0 x1 c _ _

/-- The sleep-out command is in the table (41_init_sequencer.md R131 condition 3). -/
theorem sleepOut_mem {k : Config} (hk : k.wf = true) : k.cmdSlpout ∈ k.table.map fun e => e.cmd := by
  obtain ⟨e, he, hc, -⟩ := segment_sleepOut hk
  have : e ∈ segment k .sleepOut := by rw [he]; exact List.mem_singleton.2 rfl
  exact List.mem_map.2 ⟨e, (List.mem_filter.1 this).1, hc⟩

/-- A fill keeps the order of the table at a receiver that has no sleep-out recorded. -/
theorem rectStream_keepsOrder {k : Config} (hk : k.wf = true) (x0 y0 x1 y1 c : U16) {p : Panel} (h : p.NoSleepOut k) :
    keepsOrder k (rectStream k x0 y0 x1 y1 c) p = true :=
  keepsOrder_noSleepOut (sleepOut_mem hk) _ (rectStream_plain (Config.wf_distinct hk) x0 y0 x1 y1 c) h

/-- The whole stream of a fill of a valid rectangle, in either variant (43_panel_receiver.md R199, 42_frame_writer.md R174). -/
theorem onEvents_rect {k : Config} (hk : k.cmdsDistinct = true) {x0 y0 x1 y1 : U16} (h1 : x0.toNat ≤ x1.toNat)
    (h2 : y0.toNat ≤ y1.toNat) (h3 : x1.toNat < k.width) (h4 : y1.toNat < k.height) (c : U16) {p : Panel} (h : p.Listening)
    (ho : keepsOrder k (rectStream k x0 y0 x1 y1 c) p = true) :
    let q := p.onEvents k (rectStream k x0 y0 x1 y1 c)
    Listening q ∧ q.wr = false ∧ q.hi = none ∧ Painted k x0.toNat y0.toNat x1.toNat y1.toNat c p.gram q.gram := by
  have ht := takeEvents_rect hk h1 h2 h3 h4 c h
  dsimp only at ht ⊢
  rw [onEvents_keepsOrder _ ho ht.1.1]
  exact ht

end Panel

end Sys2Proof.Machine
end

