-- ==== Sys2Proof/Laws/Frames.lean ====
section
/-! SUPPORT. What a stream, whole or cut short, leaves of the frame memory while the receiver's state stays known. -/

namespace Sys2Proof.Machine

/-- A receiver that stays known has the frame memory that the stream leaves but for the order of the table; what the laws below
say of `takeEvents` holds of it. -/
theorem gram_taken {k : Config} {es : List Event} {p : Panel} (h : (p.onEvents k es).unknown = false) :
    (p.takeEvents k es).unknown = false ∧ (p.onEvents k es).gram = (p.takeEvents k es).gram := by
  obtain ⟨-, h1, h2⟩ := Panel.onEvents_taken h
  exact ⟨h1, by rw [h2]⟩

/-- A command word stores nothing (43_panel_receiver.md R192). -/
theorem gram_command (k : Config) (c : Byte) (p : Panel) (h : (p.takeEvent k (.cmd c)).unknown = false) :
   (p.takeEvent k (.cmd c)).gram = p.gram ∧ (p.takeEvent k (.cmd c)).last = some c := by
  have hu := Panel.takeEvents_known (k := k) (es := [.cmd c]) h
  unfold Panel.takeEvent Panel.takeCmd at *
  dsimp only at *
  rw [hu] at h ⊢
  simp only [Bool.false_eq_true, if_false] at *
  split at h
  · cases h
  · next hs =>
    rw [if_neg hs]
    unfold Panel.obey at *
    split at h
    · next hr =>
      rw [if_pos hr]
      unfold Panel.enterWrite at *
      split at h
      · cases h
      · next hb => rw [if_neg hb]; exact ⟨rfl, rfl⟩
    · next hr =>
      rw [if_neg hr]
      split
      · exact ⟨rfl, rfl⟩
      · split <;> exact ⟨rfl, rfl⟩

/-- A data byte after a command other than memory-write stores nothing (43_panel_receiver.md R193 to R195, R200). -/
theorem gram_opaqueData (k : Config) (d c : Byte) (p : Panel) (hl : p.last = some c) (hc : c ≠ k.cmdRamwr) (h :
    (p.takeEvent k (.dat d)).unknown = false) :
   (p.takeEvent k (.dat d)).gram = p.gram ∧ (p.takeEvent k (.dat d)).last = some c := by
  have hu := Panel.takeEvents_known (k := k) (es := [.dat d]) h
  have cd : ∀ q : Panel, (Panel.countData q).gram = q.gram ∧ (Panel.countData q).last = q.last ∧
      (Panel.countData q).unknown = q.unknown := by
      intro q; unfold Panel.countData; split <;> exact ⟨rfl, rfl, rfl⟩
  have e : p.takeEvent k (.dat d) = if p.settling.isSome then Panel.lost else
      (let q := { p with log := Panel.appendData d p.log }
      if c = k.cmdCaset then Panel.countData (Panel.casetData d q)
      else if c = k.cmdRaset then Panel.countData (Panel.rasetData d q)
      else Panel.countData q) := by
    simp [Panel.takeEvent, Panel.takeDat, hu, hl, hc]
  rw [e] at h ⊢
  dsimp only at *
  split at h
  · cases h
  · next hs =>
    rw [if_neg hs]
    split at h
    · next h1 =>
      rw [if_pos h1, (cd _).1, (cd _).2.1]; rw [(cd _).2.2] at h
      unfold Panel.casetData at *
      split at h <;> first | exact ⟨rfl, hl⟩ | cases h
    · next h1 =>
      rw [if_neg h1]
      split at h
      · next h2 =>
        rw [if_pos h2, (cd _).1, (cd _).2.1]; rw [(cd _).2.2] at h
        unfold Panel.rasetData at *
        split at h <;> first | exact ⟨rfl, hl⟩ | cases h
      · next h2 => rw [if_neg h2, (cd _).1, (cd _).2.1]; exact ⟨rfl, hl⟩

/-- A wait stores nothing (43_panel_receiver.md R203). -/
theorem gram_wait (k : Config) (ms : Nat) (p : Panel) : (p.takeEvent k (.wait ms)).gram = p.gram ∧ (p.takeEvent k
    (.wait ms)).last = p.last := by
  unfold Panel.takeEvent Panel.onWait
  dsimp only
  split
  · exact ⟨rfl, rfl⟩
  split
  · split <;> exact ⟨rfl, rfl⟩
  · split <;> exact ⟨rfl, rfl⟩
  · exact ⟨rfl, rfl⟩

/-- What follows a command other than memory-write, up to the next command, stores nothing. -/
theorem gram_opaqueTail (k : Config) (c : Byte) (hc : c ≠ k.cmdRamwr) (es : List Event) (he : ∀ e ∈ es, ∀ x,
    e ≠ .cmd x) (p : Panel) (hl : p.last = some c)
   (h : (p.takeEvents k es).unknown = false) : (p.takeEvents k es).gram = p.gram := by
  induction es generalizing p with
  | nil => rfl
  | cons e es ih =>
    rw [Panel.takeEvents_cons] at *
    have h1 := Panel.takeEvents_known h
    have : (p.takeEvent k e).gram = p.gram ∧ (p.takeEvent k e).last = some c := by
      cases e with
      | cmd x => exact absurd rfl (he _ (by simp) x)
      | dat d => exact gram_opaqueData k d c p hl hc h1
      | wait ms => have := gram_wait k ms p; exact ⟨this.1, this.2.trans hl⟩
    rw [ih (fun e h => he e (by simp [h])) _ this.2 h, this.1]

/-- A first part of a command group stores nothing, unless it is memory-write with data. -/
theorem gram_group (k : Config) (c : Byte) (es : List Event) (he : ∀ e ∈ es, ∀ x, e ≠ .cmd x) (hc : c ≠ k.cmdRamwr ∨
    es = []) (q : List Event) (hq : q <+: .cmd c :: es) (p : Panel)
   (h : (p.takeEvents k q).unknown = false) : (p.takeEvents k q).gram = p.gram := by
  cases q with
  | nil => rfl
  | cons e q =>
    obtain ⟨rfl, hq2⟩ := List.cons_prefix_cons.1 hq
    rw [Panel.takeEvents_cons] at *
    have h1 := gram_command k c p (Panel.takeEvents_known h)
    rcases hc with hc | hc
    · rw [gram_opaqueTail k c hc q (fun e h => he e (hq2.subset h)) _ h1.2 h, h1.1]
    · subst hc
      have : q = [] := List.prefix_nil.1 hq2
      subst this; exact h1.1


/-- A first part of two lists in a row. -/
theorem prefix_append_cases {q A B : List Event} (h : q <+: A ++ B) : q <+: A ∨ ∃ q', q = A ++ q' ∧ q' <+: B := by
  rcases List.prefix_or_prefix_of_prefix h (List.prefix_append A B) with h1 | ⟨q', rfl⟩
  · exact .inl h1
  · exact .inr ⟨q', rfl, (List.prefix_append_right_inj A).1 h⟩

/-- A byte of no pixel of the rectangle. -/
def Outside (k : Config) (x0 y0 x1 y1 a : Nat) : Prop := ¬ (x0 ≤ a / 2 % k.width ∧ a / 2 % k.width ≤ x1 ∧
    y0 ≤ a / 2 / k.width ∧ a / 2 / k.width ≤ y1)

/-- Pixel data, whole or cut short, stores inside the window only (43_panel_receiver.md R197, R199). -/
theorem gram_pixels_outside {k : Config} (hk : k.cmdsDistinct = true) {x0 y0 x1 y1 : Nat} (ds : List Event)
    (hds : ∀ e ∈ ds, ∃ d, e = .dat d) (p : Panel) (hl : p.last = some k.cmdRamwr)
    (hw : p.wr = true → x0 ≤ p.xs.toNat ∧ p.xs.toNat ≤ p.col.toNat ∧ p.col.toNat ≤ p.xe.toNat ∧ p.xe.toNat ≤ x1 ∧
        p.xe.toNat < k.width ∧ y0 ≤ p.row.toNat ∧ p.row.toNat ≤ p.ye.toNat ∧ p.ye.toNat ≤ y1)
    (hu : (p.takeEvents k ds).unknown = false) (a : Nat) (ha : Outside k x0 y0 x1 y1 a) :
        (p.takeEvents k ds).gram.read a = p.gram.read a := by
  obtain ⟨d1, d2, d3, d4, d5, -⟩ := Config.distinct_of hk
  induction ds generalizing p with
  | nil => rfl
  | cons e ds ih =>
    obtain ⟨d, rfl⟩ := hds e (by simp)
    rw [Panel.takeEvents_cons] at *
    have h1 := Panel.takeEvents_known hu
    have h0 := Panel.takeEvents_known (k := k) (es := [.dat d]) h1
    have e1 : p.takeEvent k (.dat d) = if p.settling.isSome then Panel.lost else Panel.countData
        (Panel.pixelData k d { p with log := Panel.appendData d p.log }) := by
      simp [Panel.takeEvent, Panel.takeDat, h0, hl, d2.symm, d5.symm]
    have cl : Panel.countData Panel.lost = Panel.lost := rfl
    have cd : ∀ q : Panel, q.unknown = false → Panel.countData q = { q with n := q.n + 1 } := by
      intro q h; unfold Panel.countData; rw [h]; rfl
    rw [e1] at hu h1 ⊢
    split at h1
    · cases h1
    next hs =>
    rw [if_neg hs] at hu ⊢
    by_cases hwr : p.wr = true
    · obtain ⟨w1, w2, w3, w4, w5, w6, w7, w8⟩ := hw hwr
      rcases Option.eq_none_or_eq_some p.hi with hh | ⟨x, hh⟩
      · have e2 : Panel.countData
          (Panel.pixelData k d { p with log := Panel.appendData d p.log }) = { p with log := Panel.appendData d p.log, hi := some d, n := p.n + 1 } := by
          simp [Panel.pixelData, hwr, hh, cd, h0]
        rw [e2] at hu ⊢
        exact ih (fun e h => hds e (by simp [h])) _ hl (fun _ => ⟨w1, w2, w3, w4, w5, w6, w7, w8⟩) hu
      · have e2 : Panel.countData (Panel.pixelData k d { p with log := Panel.appendData d p.log }) = Panel.countData
          (Panel.advancePos { p with log := Panel.appendData d p.log, hi := none, gram := p.gram.writePixel (Panel.pixelAddr k p.row.toNat p.col.toNat) x d }) := by
          simp [Panel.pixelData, hwr, hh]
        rw [e2] at hu ⊢
        have hne : a ≠ Panel.pixelAddr k p.row.toNat p.col.toNat ∧ a ≠ Panel.pixelAddr k p.row.toNat p.col.toNat + 1 := by
          have hW : 0 < k.width := by omega
          have hc : p.col.toNat < k.width := by omega
          have dd : ∀ a, a / 2 = p.row.toNat * k.width + p.col.toNat → a / 2 % k.width = p.col.toNat ∧
              a / 2 / k.width = p.row.toNat := by
            intro a h; rw [h]
            constructor
            · rw [Nat.add_comm, Nat.add_mul_mod_self_right, Nat.mod_eq_of_lt hc]
            · rw [Nat.add_comm, Nat.add_mul_div_right _ _ hW, Nat.div_eq_of_lt hc, Nat.zero_add]
          constructor <;> intro h
          · have := dd a (by rw [h]; unfold Panel.pixelAddr; omega)
            exact ha ⟨by omega, by omega, by omega, by omega⟩
          · have := dd a (by rw [h]; unfold Panel.pixelAddr; omega)
            exact ha ⟨by omega, by omega, by omega, by omega⟩
        have wr : (p.gram.writePixel (Panel.pixelAddr k p.row.toNat p.col.toNat) x d).read a = p.gram.read a := by
          rw [Memory.read_writePixel, if_neg hne.2, if_neg hne.1]
        have xe := p.xe.isLt
        have ye := p.ye.isLt
        unfold Panel.advancePos at hu ⊢
        dsimp only at hu ⊢
        by_cases c1 : p.col.toNat < p.xe.toNat
        · rw [if_pos c1, cd _ (by exact h0)] at hu ⊢
          refine (ih (fun e h => hds e (by simp [h])) _ ?_ ?_ hu).trans wr
          · exact hl
          · refine fun _ => ⟨w1, ?_, ?_, w4, w5, w6, w7, w8⟩
            · show p.xs.toNat ≤ (p.col + 1).toNat
              rw [BitVec.toNat_add]; simp; omega
            · show (p.col + 1).toNat ≤ p.xe.toNat
              rw [BitVec.toNat_add]; simp; omega
        · rw [if_neg c1] at hu ⊢
          by_cases c2 : p.row.toNat < p.ye.toNat
          · rw [if_pos c2, cd _ (by exact h0)] at hu ⊢
            refine (ih (fun e h => hds e (by simp [h])) _ ?_ ?_ hu).trans wr
            · exact hl
            · refine fun _ => ⟨w1, le_rfl, ?_, w4, w5, ?_, ?_, w8⟩
              · show p.xs.toNat ≤ p.xe.toNat; omega
              · show y0 ≤ (p.row + 1).toNat
                rw [BitVec.toNat_add]; simp; omega
              · show (p.row + 1).toNat ≤ p.ye.toNat
                rw [BitVec.toNat_add]; simp; omega
          · rw [if_neg c2, cd _ (by exact h0)] at hu ⊢
            refine (ih (fun e h => hds e (by simp [h])) _ ?_ ?_ hu).trans wr
            · exact hl
            · exact fun x => by cases x
    · have : Panel.pixelData k d { p with log := Panel.appendData d p.log } = Panel.lost := by
        simp [Panel.pixelData, hwr]
      rw [this, cl, Panel.takeEvents_unknown _ _ rfl] at hu
      cases hu

/-- A receiver that takes a command and stays known was owed no settle wait (43_panel_receiver.md R203). -/
theorem listening_before {k : Config} {c : Byte} {es : List Event} {p : Panel} (h : (p.takeEvents k
    (.cmd c :: es)).unknown = false) : p.Listening := by
  have hu := Panel.takeEvents_known h
  refine ⟨hu, ?_⟩
  cases hs : p.settling with
  | none => rfl
  | some w =>
    rw [Panel.takeEvents_cons] at h
    have := Panel.takeEvents_known h
    rw [Panel.takeEvent_owed (by rw [hs]; rfl) (.cmd c) (by simp)] at this
    cases this

/-- A first part of the window commands and memory-write stores nothing. -/
theorem gram_window {k : Config} (hk : k.cmdsDistinct = true) (xs ys xe ye : U16) (q : List Event)
    (hq : q <+: windowStream k xs ys xe ye) (p : Panel) (h : (p.takeEvents k q).unknown = false) :
    (p.takeEvents k q).gram = p.gram := by
  obtain ⟨d1, d2, d3, d4, d5, -⟩ := Config.distinct_of hk
  have nocmd : ∀ ps : List Byte, ∀ e ∈ ps.map Event.dat, ∀ x, e ≠ .cmd x := by simp
  unfold windowStream at hq
  rcases prefix_append_cases hq with hq | ⟨q', rfl, hq2⟩
  · rcases prefix_append_cases hq with hq | ⟨q', rfl, hq2⟩
    · exact gram_group k _ _ (nocmd _) (.inl d2) q hq p h
    · rw [Panel.takeEvents_append] at *
      rw [gram_group k _ _ (nocmd _) (.inl d5) q' hq2 _ h]
      exact gram_group k _ _ (nocmd _) (.inl d2) _ (List.prefix_refl _) p (Panel.takeEvents_known h)
  · rw [Panel.takeEvents_append] at *
    rw [gram_group k _ [] (by simp) (.inr rfl) q' hq2 _ h]
    have h := Panel.takeEvents_known h
    rw [Panel.takeEvents_append] at *
    refine (gram_group k _ _ (nocmd _) (.inl d5) _ (List.prefix_refl _) _ h).trans ?_
    exact gram_group k _ _ (nocmd _) (.inl d2) _ (List.prefix_refl _) p (Panel.takeEvents_known h)

/-- A first part of a rectangle's stream stores inside the rectangle only. -/
theorem gram_rect_outside {k : Config} (hk : k.cmdsDistinct = true) {xs ys xe ye : U16} (h1 : xs.toNat ≤ xe.toNat)
    (h2 : ys.toNat ≤ ye.toNat) (h3 : xe.toNat < k.width) (h4 : ye.toNat < k.height)
   (ds : List Event) (hds : ∀ e ∈ ds, ∃ d, e = .dat d) (q : List Event) (hq : q <+: windowStream k xs ys xe ye ++ ds)
       (p : Panel) (h : (p.takeEvents k q).unknown = false) (a : Nat)
       (ha : Outside k xs.toNat ys.toNat xe.toNat ye.toNat a) : (p.takeEvents k q).gram.read a = p.gram.read a := by
  rcases prefix_append_cases hq with hq | ⟨q', rfl, hq2⟩
  · rw [gram_window hk _ _ _ _ q hq p h]
  · have hL : p.Listening := by
      rw [Panel.takeEvents_append] at h
      exact listening_before (Panel.takeEvents_known h)
    rw [Panel.takeEvents_append, Panel.takeEvents_window hk hL h1 h2 h3 h4] at *
    rw [gram_pixels_outside hk q' (fun e he => hds e (hq2.subset he)) _ (by rfl) (fun _ => ⟨le_rfl, le_rfl, h1, le_rfl,
        h3, le_rfl, h2, le_rfl⟩) h a ha]

/-- A first part of the rows of a ROW_BITMAP fill stores inside the rectangle only. -/
theorem gram_rows_outside {k : Config} (hk : k.cmdsDistinct = true) {x0 x1 c : U16} (h1 : x0.toNat ≤ x1.toNat)
    (h3 : x1.toNat < k.width) (n y : Nat) (hy : y + n ≤ k.height) (hb : y + n ≤ 65536)
   (q : List Event) (hq : q <+: rowsStream k x0 x1 c y n) (p : Panel) (h : (p.takeEvents k q).unknown = false) (a : Nat)
       (ha : Outside k x0.toNat y x1.toNat (y + n - 1) a) : (p.takeEvents k q).gram.read a = p.gram.read a := by
  induction n generalizing y q p with
  | zero => rw [List.prefix_nil.1 hq]; rfl
  | succ n ih =>
    have hyn : (BitVec.ofNat 16 y).toNat = y := by rw [BitVec.toNat_ofNat]; omega
    have ha1 : Outside k x0.toNat (BitVec.ofNat 16 y).toNat x1.toNat (BitVec.ofNat 16 y).toNat a := by
      rw [hyn]; intro hx; exact ha ⟨hx.1, hx.2.1, hx.2.2.1, by omega⟩
    have hd : ∀ e ∈ (pixelBytes c (x1.toNat - x0.toNat + 1)).map Event.dat, ∃ d, e = .dat d := by
      intro e he; obtain ⟨d, _, rfl⟩ := List.mem_map.1 he; exact ⟨d, rfl⟩
    rw [rowsStream] at hq
    rcases prefix_append_cases hq with hq | ⟨q', rfl, hq2⟩
    · exact gram_rect_outside hk h1 le_rfl h3 (by omega) _ hd q hq p h a ha1
    · rw [Panel.takeEvents_append] at *
      rw [ih (y + 1) (by omega) (by omega) q' hq2 _ h (by intro hx; exact ha ⟨hx.1, hx.2.1, by omega, by omega⟩)]
      exact gram_rect_outside hk h1 le_rfl h3 (by omega) _ hd _ (List.prefix_refl _) p (Panel.takeEvents_known h) a ha1

end Sys2Proof.Machine
end

