-- ==== Sys2Proof/Laws/PerInstr.lean ====
section
/-! SUPPORT. Statements for all instructions, one lemma per constructor: the form and the length of each instruction's code
(30_encoding.md R81). -/

namespace Sys2Proof.Laws.EncodedLength

/-- The code has the length of its form: 4 bytes for a wire word, 12 for a request, one command byte and its data bytes for
a panel command. -/
def Statement (i : Instr) : Prop :=
  ∀ k : Config,
    ((encode k i).1 = .w32 ∧ (encode k i).2.length = 4) ∨
    ((encode k i).1 = .req96 ∧ (encode k i).2.length = 12) ∨
    ((encode k i).1 = .cmd8 ∧ 1 ≤ (encode k i).2.length)

theorem wrcmd (c : Byte) : Statement (.wrcmd c) := fun _ => .inl ⟨rfl, rfl⟩
theorem wrcolor (d : Byte) : Statement (.wrcolor d) := fun _ => .inl ⟨rfl, rfl⟩
theorem sendCommand (c : Byte) : Statement (.sendCommand c) := fun _ => .inr (.inl ⟨rfl, rfl⟩)
theorem sendData (d : Byte) : Statement (.sendData d) := fun _ => .inr (.inl ⟨rfl, rfl⟩)
theorem runInit : Statement .runInit := fun _ => .inr (.inl ⟨rfl, rfl⟩)
theorem fillRect (x0 y0 x1 y1 p : U16) : Statement (.fillRect x0 y0 x1 y1 p) := fun _ => .inr (.inl ⟨rfl, rfl⟩)
theorem fillScreen (p : U16) : Statement (.fillScreen p) := fun _ => .inr (.inl ⟨rfl, rfl⟩)
theorem caset (a b : U16) : Statement (.caset a b) := fun _ => .inr (.inr ⟨rfl, Nat.le_add_left 1 _⟩)
theorem raset (a b : U16) : Statement (.raset a b) := fun _ => .inr (.inr ⟨rfl, Nat.le_add_left 1 _⟩)
theorem ramwr : Statement .ramwr := fun _ => .inr (.inr ⟨rfl, Nat.le_add_left 1 _⟩)
theorem slpout (ps : List Byte) : Statement (.slpout ps) := fun _ => .inr (.inr ⟨rfl, Nat.le_add_left 1 _⟩)
theorem dispon (ps : List Byte) : Statement (.dispon ps) := fun _ => .inr (.inr ⟨rfl, Nat.le_add_left 1 _⟩)
theorem vendor (c : Byte) (ps : List Byte) : Statement (.vendor c ps) := fun _ => .inr (.inr ⟨rfl, Nat.le_add_left 1 _⟩)

end Sys2Proof.Laws.EncodedLength
end

