-- ==== Sys2Proof/Laws/Position.lean ====
section
/-! SUPPORT. The sequencer's position inside a run (10_state.md R24; 41_init_sequencer.md R132, R146): what has gone out when
the position stands where it stands, between two entries and where a word never returned. -/

namespace Sys2Proof.Machine

@[simp] theorem withoutWaits_append (a b : List Event) : withoutWaits (a ++ b) = withoutWaits a ++ withoutWaits b :=
  List.filter_append ..

theorem withoutWaits_dats (ds : List Byte) : withoutWaits (ds.map .dat) = ds.map .dat := by
  simp [withoutWaits]

theorem withoutWaits_group (c : Byte) (ds : List Byte) : withoutWaits (groupStream c ds) = groupStream c ds := by
  simp [withoutWaits, groupStream]

theorem withoutWaits_entry (e : Entry) : withoutWaits (entryStream e) = groupStream e.cmd e.params := by
  unfold entryStream
  rw [withoutWaits_append, withoutWaits_group]
  split <;> simp [withoutWaits]

/-- The words of entries, in order (41_init_sequencer.md R132). -/
def wordsOf (es : List Entry) : List Event := es.flatMap fun e => groupStream e.cmd e.params

/-- The entries `es` went out from `s` on, and the position is past them. -/
def SentEntries (es : List Entry) (s t : State) : Prop :=
  t.seq.idx = s.seq.idx + es.length ∧ t.seq.pidx = 0 ∧
    withoutWaits t.logical = withoutWaits s.logical ++ wordsOf es

/-- A word of one of the entries `es` never returned: the position is that entry's, and what stands on the logical stream is
what goes out before the word. -/
def HungEntry (es : List Entry) (s t : State) : Prop :=
  ∃ a e b n, es = a ++ e :: b ∧ n ≤ e.params.length ∧ t.seq = ⟨e.phase, s.seq.idx + a.length, n - 1⟩ ∧
    withoutWaits t.logical = withoutWaits s.logical ++ (wordsOf a ++ (groupStream e.cmd e.params).take n)

theorem HungEntry.first {es fs : List Entry} {s t : State} (h : HungEntry es s t) : HungEntry (es ++ fs) s t := by
  obtain ⟨a, e, b, n, rfl, h⟩ := h
  exact ⟨a, e, b ++ fs, n, by simp, h⟩

theorem HungEntry.later {es fs : List Entry} {s t u : State} (h : SentEntries es s t) (g : HungEntry fs t u) :
    HungEntry (es ++ fs) s u := by
  obtain ⟨a, e, b, n, rfl, h1, h2, h3⟩ := g
  refine ⟨es ++ a, e, b, n, by simp, h1, ?_, ?_⟩
  · rw [h2, h.1, List.length_append, Nat.add_assoc]
  · rw [h3, h.2.2]
    simp [wordsOf]

theorem SentEntries.trans {es fs : List Entry} {s t u : State} (h : SentEntries es s t) (g : SentEntries fs t u) :
    SentEntries (es ++ fs) s u :=
  ⟨by rw [g.1, h.1, List.length_append, Nat.add_assoc], g.2.1, by rw [g.2.2, h.2.2]; simp [wordsOf]⟩

/-- A run of a sequence whose success is known hangs where its parts do. -/
theorem Flow.onHung_bind_of {P I : State → Prop} {f : Flow} {g : State → Flow} (hf : f.OnHung P) (hi : f.OnDone I)
    (hg : ∀ t, I t → (g t).OnHung P) : (f.bind g).OnHung P :=
  Flow.onHung_bind hf fun t e => hg t (by rw [e] at hi; exact hi)

/-- A word that never returned is not on the logical stream. -/
theorem Flow.Runs.hung_one {K : State → State → Prop} {e : Event} {s : State} {f : Flow} (h : f.Runs K [e] s) :
    f.OnHung fun t => K s t ∧ t.logical = s.logical := by
  cases f with
  | done t => trivial
  | raised r t => trivial
  | hung t =>
    obtain ⟨k, -, pre, -, p2, -, w⟩ := h
    have : pre = [] := List.length_eq_zero_iff.1 (by simpa using p2)
    exact ⟨k, by rw [w.logical, this, List.append_nil]⟩
  | reset t => trivial

/-- What a sequence that returned OK added to the logical stream. -/
theorem Flow.Runs.done_logical {K : State → State → Prop} {es : List Event} {s : State} {f : Flow} (h : f.Runs K es s) :
    f.OnDone fun t => K s t ∧ t.logical = s.logical ++ es := by
  cases f with
  | done t => exact ⟨h.1, h.2.logical⟩
  | raised r t => trivial
  | hung t => trivial
  | reset t => trivial

theorem waitMin_onHung (P : State → Prop) (ms : Nat) (s : State) : (waitMin ms s).OnHung P := by
  unfold waitMin; split <;> trivial

theorem sendParams_hung (bs : List Byte) (s : State) :
    (sendParams bs s).OnHung fun t => ∃ n, n < bs.length ∧ t.seq = ⟨s.seq.st, s.seq.idx, s.seq.pidx + n⟩ ∧
      t.logical = s.logical ++ (bs.map .dat).take n := by
  induction bs generalizing s with
  | nil => trivial
  | cons b bs ih =>
    refine Flow.onHung_bind_of ((ptDat_runs b s).hung_one.mono fun t h => ⟨0, by simp, ?_, by simp [h.2]⟩)
      (ptDat_runs b s).done_logical fun t ht => (ih (nextParam t)).mono fun u ⟨n, h1, h2, h3⟩ => ⟨n + 1, by simpa using h1, ?_, ?_⟩
    · rw [h.1.seq]; rfl
    · rw [h2]
      simp [ht.1.seq]
      omega
    · rw [h3, nextParam_logical, ht.2]
      simp

theorem sendEntry_hung (e : Entry) (s : State) (he : e.phase = s.seq.st) : (sendEntry e s).OnHung (HungEntry [e] s) := by
  have one : ∀ {t : State} {n : Nat}, n ≤ e.params.length → t.seq = ⟨s.seq.st, s.seq.idx, n - 1⟩ →
      t.logical = s.logical ++ (groupStream e.cmd e.params).take n → HungEntry [e] s t := by
    intro t n h1 h2 h3
    refine ⟨[], e, [], n, rfl, h1, by rw [h2, he]; rfl, ?_⟩
    have : withoutWaits ((groupStream e.cmd e.params).take n) = (groupStream e.cmd e.params).take n := by
      rw [withoutWaits, List.filter_eq_self]
      intro x hx
      have := List.mem_of_mem_take hx
      rw [← withoutWaits_group] at this
      exact (List.mem_filter.1 this).2
    rw [h3, withoutWaits_append, this]
    rfl
  have hc := ptCmd_runs e.cmd (startParams s)
  refine Flow.onHung_bind_of (hc.hung_one.mono fun t h => one (n := 0) (by simp) (by rw [h.1.seq]; rfl) (by rw [h.2]; simp))
    hc.done_logical fun t ht => ?_
  refine Flow.onHung_bind ((sendParams_hung e.params t).mono fun u ⟨n, h1, h2, h3⟩ => one (n := n + 1) h1 ?_ ?_) fun u _ => ?_
  · rw [h2, ht.1.seq]; simp
  · rw [h3, ht.2]; simp [groupStream]
  · refine Flow.onHung_bind ?_ fun v _ => trivial
    unfold entryDelay
    split
    · exact waitMin_onHung _ _ u
    · trivial

theorem sendEntry_sent (e : Entry) (s : State) :
    (sendEntry e s).OnDone fun t => SentEntries [e] s t ∧ t.seq.st = s.seq.st := by
  refine (Flow.onDone_and (sendEntry_runs e s).done_logical (sendEntry_position e s)).mono fun t ⟨⟨_, h1⟩, h2⟩ => ?_
  refine ⟨⟨by rw [h2]; rfl, by rw [h2], ?_⟩, by rw [h2]⟩
  rw [h1, withoutWaits_append, withoutWaits_entry]
  simp [wordsOf]

theorem sendSegment_sent (es : List Entry) (s : State) (h : s.seq.pidx = 0) :
    (sendSegment es s).OnDone fun t => SentEntries es s t ∧ t.seq.st = s.seq.st := by
  induction es generalizing s with
  | nil => exact ⟨⟨rfl, h, by simp [wordsOf]⟩, rfl⟩
  | cons e es ih =>
    exact Flow.onDone_bind (sendEntry_sent e s) fun t ht => (ih t ht.1.2.1).mono fun u hu =>
      ⟨ht.1.trans hu.1, hu.2.trans ht.2⟩

theorem sendSegment_hung (es : List Entry) (s : State) (he : ∀ e ∈ es, e.phase = s.seq.st) :
    (sendSegment es s).OnHung (HungEntry es s) := by
  induction es generalizing s with
  | nil => trivial
  | cons e es ih =>
    refine Flow.onHung_bind_of ((sendEntry_hung e s (he e (List.mem_cons_self ..))).mono fun _ h => h.first (fs := es))
      (sendEntry_sent e s) fun t ht => (ih t fun x hx => ?_).mono fun u hu => HungEntry.later ht.1 hu
    rw [ht.2]
    exact he x (List.mem_cons_of_mem _ hx)

theorem segment_phase {k : Config} {p : SeqState} {e : Entry} (h : e ∈ segment k p) : e.phase = p :=
  eq_of_beq (List.mem_filter.1 h).2

/-- The activity of a state that has been entered. -/
theorem activity_hung (k : Config) {p : SeqState} (hp : p ≠ .reset) (s : State) (hs : s.seq.st = p) :
    (activity k p s).OnHung (HungEntry (sentIn k p) s) := by
  have seg : p.sends = true → (sendSegment (segment k p) s).OnHung (HungEntry (sentIn k p) s) := fun h => by
    rw [sentIn, if_pos h]
    exact sendSegment_hung _ s fun e he => by rw [segment_phase he, hs]
  cases p with
  | reset => exact absurd rfl hp
  | powerWait => exact waitMin_onHung _ _ s
  | settleDelay120 => exact waitMin_onHung _ _ s
  | settleDelay10 => exact waitMin_onHung _ _ s
  | ready => trivial
  | pageUnlock => exact seg rfl
  | registerBurst => exact seg rfl
  | gammaPageUnlock => exact seg rfl
  | gammaBurst => exact seg rfl
  | pageLock => exact seg rfl
  | displayModeConfig => exact seg rfl
  | sleepOut => exact seg rfl
  | displayOn => exact seg rfl

theorem activity_sent (k : Config) {p : SeqState} (hp : p ≠ .reset) (s : State) (h : s.seq.pidx = 0) :
    (activity k p s).OnDone (SentEntries (sentIn k p) s) := by
  have wait : ∀ ms, (waitMin ms s).OnDone (SentEntries [] s) := fun ms =>
    (waitMin_runs ms s).done_logical.mono fun t ht => ⟨by rw [ht.1.seq]; rfl, by rw [ht.1.seq, h], by rw [ht.2]; simp [wordsOf, withoutWaits]⟩
  have seg := (sendSegment_sent (segment k p) s h).mono fun _ h => h.1
  cases p with
  | reset => exact absurd rfl hp
  | powerWait => exact wait _
  | settleDelay120 => exact wait _
  | settleDelay10 => exact wait _
  | ready => exact ⟨rfl, h, by simp [wordsOf, sentIn, SeqState.sends]⟩
  | pageUnlock => exact seg
  | registerBurst => exact seg
  | gammaPageUnlock => exact seg
  | gammaBurst => exact seg
  | pageLock => exact seg
  | displayModeConfig => exact seg
  | sleepOut => exact seg
  | displayOn => exact seg

theorem runStates_hung (k : Config) (ps : List SeqState) (hp : .reset ∉ ps) (s : State) (h : s.seq.pidx = 0) :
    (runStates k ps s).OnHung (HungEntry (ps.flatMap (sentIn k)) s) := by
  induction ps generalizing s with
  | nil => trivial
  | cons p ps ih =>
    rw [List.mem_cons, not_or] at hp
    rw [List.flatMap_cons]
    exact Flow.onHung_bind_of ((activity_hung k (Ne.symm hp.1) (enterState p s) rfl).mono fun _ h => HungEntry.first h)
      (activity_sent k (Ne.symm hp.1) (enterState p s) h) fun t ht => (ih hp.2 t ht.2.1).mono fun u hu =>
        HungEntry.later (s := enterState p s) ht hu

/-- A run whose word never returned (41_init_sequencer.md R130, R132): where it stands in the table. -/
theorem runStates_runOrder_hung (s : State) (h : s.cfg.wf = true) :
    (runStates s.cfg runOrder (setPosition Position.start s)).OnHung (HungEntry s.cfg.table (runStart s)) := by
  have e : runStates s.cfg runOrder (setPosition Position.start s)
      = (sendSegment (segment s.cfg .reset) (runStart s)).bind (runStates s.cfg runOrder.tail) := rfl
  rw [e, ← sent_eq_table h]
  exact Flow.onHung_bind_of
    ((sendSegment_hung _ (runStart s) fun e he => segment_phase he).mono fun _ h =>
      h.first (fs := runOrder.tail.flatMap (sentIn s.cfg)))
    (sendSegment_sent _ (runStart s) rfl) fun t ht =>
      (runStates_hung s.cfg runOrder.tail (by decide) t ht.1.2.1).mono fun u hu => HungEntry.later ht.1 hu

end Sys2Proof.Machine
end

