-- ==== Sys2Proof/Laws/Step.lean ====
section
/-! SUPPORT. What a step can do: run the instruction whose code is presented, or one of the moves of the outside world. -/

namespace Sys2Proof.Machine

/-- The ways from `s` to a next state `t`. -/
inductive Stepped (s t : State) : Prop
  /-- An instruction ran. -/
  | ran (i : Instr) (f : Format) (bytes : List Byte) (r : List Input) (idle : s.busy = false)
      (inbox : s.inbox = .code f bytes :: r) (decoded : decode s.cfg f bytes = .ok i)
      (fetched : fetch s = .run i { s with inbox := r }) (ran : exec i { s with inbox := r } = .next t)
  /-- Nothing was presented. -/
  | waited (idle : s.busy = false) (inbox : s.inbox = []) (is : t = s)
  /-- An unassigned operation code was answered. -/
  | answered (r : List Input) (idle : s.busy = false) (is : t = raise .configurationError { s with inbox := r })
  /-- The block's reset was asserted between operations, or on a hung block. -/
  | reset (r : List Input) (presented : .reset ∈ s.inbox) (is : t = resetBlock { s with inbox := r })
  /-- Time passed. -/
  | idled (ns : Nat) (r : List Input) (idle : s.busy = false) (is : t = advance ns { s with inbox := r })
  /-- A platform device was set, which takes the time `ns`, none but for the self-test ramp. -/
  | device (r : List Input) (p : Platform) (ns : Nat) (idle : s.busy = false)
      (is : t = advance ns { s with inbox := r, plat := p })

theorem fetch_wf {s : State} (h : s.cfg.wf = false) : fetch s = .refuse .illFormedConfiguration := by
  unfold fetch; cases s.busy <;> rw [h]

theorem fetch_idle {s : State} (h : s.cfg.wf = true) (hb : s.busy = false) : fetch s = fetchIdle s := by
  unfold fetch; rw [h, hb]

theorem fetch_busy {s : State} (h : s.cfg.wf = true) (hb : s.busy = true) : fetch s = fetchBusy s := by
  unfold fetch; rw [h, hb]

/-- A step is one of these. -/
theorem step_cases {s t : State} (h : step s = .next t) : s.cfg.wf = true ∧ Stepped s t := by
  cases hw : s.cfg.wf with
  | false => unfold step at h; rw [fetch_wf hw] at h; cases h
  | true =>
    refine ⟨rfl, ?_⟩
    cases hb : s.busy with
    | true =>
      unfold step at h
      rw [fetch_busy hw hb] at h
      unfold fetchBusy at h
      split at h
      · next hf =>
        split at hf
        · next hc =>
          cases hf
        · cases hf
      · next u hf =>
        split at hf
        · next hc =>
          cases hf
          cases h
          exact .reset _ (by simpa using hc) rfl
        · cases hf
      · cases h
      · cases h
    | false =>
      have hf := fetch_idle hw hb
      unfold step at h
      unfold fetchIdle at hf
      rw [hf] at h
      revert h
      cases hi : s.inbox with
      | nil => intro h; cases h; exact .waited hb hi rfl
      | cons x r =>
        rw [hi] at hf
        cases x with
        | code f bytes =>
          intro h
          simp only [fetchCode] at h hf
          cases hd : decode s.cfg f bytes with
          | ok i =>
            have hd' : decode ({ s with inbox := r } : State).cfg f bytes = .ok i := hd
            rw [hd] at h hf
            exact .ran i f bytes r hb hi hd hf h
          | error e =>
            rw [hd] at h
            simp only [fetchUndecoded] at h
            cases e <;> first | (cases h; done) | skip
            cases h
            exact .answered r hb rfl
        | reset => intro h; cases h; exact .reset r (by rw [hi]; exact List.mem_cons_self ..) rfl
        | idle ns => intro h; cases h; exact .idled ns r hb rfl
        | expander addr a b => intro h; cases h; exact .device r (s.plat.enableExpander (addr == s.cfg.expAddr) a b) 0 hb rfl
        | backlight p c z n => intro h; cases h; exact .device r (s.plat.initBacklight s.cfg p c z n) 0 hb rfl
        | setDuty c d => intro h; cases h; exact .device r (s.plat.writeDuty c d) 0 hb rfl
        | selfTest c =>
          intro h
          cases h
          unfold selfTest
          split
          · exact .device r (s.plat.runSelfTest s.cfg) _ hb rfl
          · exact .device r (s.plat.leaveDuty .configurationError) 0 hb rfl

end Sys2Proof.Machine
end

