-- ==== Sys2Proof/Laws/Trace.lean ====
section
/-! SUPPORT. What an operation that returned OK adds to the wire trace, event by event (40_transport.md R101, R110), and the
time its last quiet interval takes. -/

namespace Sys2Proof.Machine

/-- A sequence that returned OK added `tr` to the wire trace. -/
structure Traced (tr : List WireEvent) (s t : State) : Prop where
  cfg : t.cfg = s.cfg
  wire : t.wire = s.wire ++ tr

theorem Traced.refl (s : State) : Traced [] s s := ⟨rfl, by simp⟩

theorem wireOf_append (k : Config) (a b : List Event) : wireOf k (a ++ b) = wireOf k a ++ wireOf k b := by
  unfold wireOf
  cases k.profile <;> simp [traceOf]

theorem wireOf_cons (k : Config) (e : Event) (b : List Event) : wireOf k (e :: b) = wireOf k [e] ++ wireOf k b :=
  wireOf_append k [e] b

theorem wireOf_nil (k : Config) : wireOf k [] = [] := by unfold wireOf; cases k.profile <;> rfl

/-- Sequencing: the traces append. -/
theorem traced_bind {a b : List WireEvent} {s : State} {f : Flow} {g : State → Flow} (hf : f.OnDone (Traced a s))
    (hg : ∀ t, t.cfg = s.cfg → (g t).OnDone (Traced b t)) : (f.bind g).OnDone (Traced (a ++ b) s) :=
  Flow.onDone_bind hf fun t ht => (hg t ht.cfg).mono fun u hu =>
    ⟨hu.cfg.trans ht.cfg, by rw [hu.wire, ht.wire, List.append_assoc]⟩

/-- A change of registers before a sequence. -/
theorem traced_after {a : List WireEvent} {s t : State} {f : Flow} (hc : t.cfg = s.cfg) (hw : t.wire = s.wire)
    (hf : f.OnDone (Traced a t)) : f.OnDone (Traced a s) :=
  hf.mono fun _ hu => ⟨hu.cfg.trans hc, by rw [hu.wire, hw]⟩

theorem sendWord_traced (w : Word) (e : Event) (s : State) : (sendWord w e s).OnDone (Traced [.word w] s) := by
  have hb := (bitsOnly_loadWord w (popWord s)).trans (bitsOnly_clockBits 32 _)
  unfold sendWord
  split
  · exact ⟨by simp [hb.cfg], by simp [hb.wire]⟩
  · trivial
  · trivial
  · trivial

/-- What passes of an owed quiet interval leaves no trace, and nothing is owed after it. -/
theorem awaitQuiet_passes (s : State) :
    (awaitQuiet s).OnDone fun t => Traced [] s t ∧ s.now + s.quietDue ≤ t.now := by
  unfold awaitQuiet
  split
  · exact ⟨Traced.refl s, by omega⟩
  · split
    · exact ⟨⟨rfl, by simp⟩, by simp only [advance_now, popWait_now]; omega⟩
    · trivial

/-- Words under one assertion of chip-select, and the quiet interval after it. -/
theorem framed_traced {tr : List WireEvent} {s : State} {g : State → Flow}
    (hg : ∀ t, t.cfg = s.cfg → (g t).OnDone (Traced tr t)) :
    (framed g s).OnDone (Traced ([.csAssert] ++ tr ++ [.csRelease, .quiet s.cfg.tQuietNs]) s) := by
  refine Flow.onDone_bind (awaitQuiet_passes s) fun a ⟨ha, _⟩ => Flow.onDone_bind (hg (assertCs a) ha.cfg) fun t ht => ?_
  unfold quiet
  split
  · have hc : (releaseCs t).cfg = s.cfg := (kept_releaseCs t).cfg.trans (ht.cfg.trans ha.cfg)
    refine ⟨hc, ?_⟩
    simp only [emitWire_wire, advance_wire, popWait_wire, releaseCs_wire, ht.wire, assertCs_wire, ha.wire, hc]
    simp
  · trivial

/-- What is owed of a quiet interval passes before the word, and the word's own quiet interval after it (40_transport.md R103,
R114; 70_reset_and_hazards.md R265). -/
theorem framed_time {s : State} {g : State → Flow} (hg : ∀ t, (g t).OnDone fun u => Kept t u) :
    (framed g s).OnDone fun u => s.now + s.quietDue + s.cfg.tQuietNs ≤ u.now ∧ u.quietDue = 0 := by
  refine Flow.onDone_bind (awaitQuiet_passes s) fun a ⟨ha, h0⟩ => Flow.onDone_bind (hg (assertCs a)) fun t ht => ?_
  have h1 : a.now ≤ t.now := ht.now
  have h2 := kept_releaseCs t
  have h3 : (releaseCs t).cfg = s.cfg := h2.cfg.trans (ht.cfg.trans ha.cfg)
  unfold quiet
  split
  · refine ⟨?_, ?_⟩
    · show s.now + s.quietDue + s.cfg.tQuietNs ≤ (releaseCs t).now + ((releaseCs t).cfg.tQuietNs + _)
      have := h2.now
      rw [h3]
      omega
    · show (releaseCs t).quietDue - ((releaseCs t).cfg.tQuietNs + _) = 0
      rw [releaseCs_quietDue, h2.cfg]
      omega
  · trivial

theorem nativeSend_traced (e : Event) (s : State) : (nativeSend e s).OnDone (Traced [] s) := by
  unfold nativeSend
  split
  · exact ⟨rfl, by simp⟩
  · trivial
  · trivial
  · trivial

theorem sendWord_kept (w : Word) (e : Event) (s : State) : (sendWord w e s).OnDone fun u => Kept s u := by
  have hb := (bitsOnly_loadWord w (popWord s)).trans (bitsOnly_clockBits 32 _)
  unfold sendWord
  split
  · exact (kept_popWord s).trans (hb.toKept.trans ((kept_emitWire _ _).trans (kept_emit _ _)))
  · trivial
  · trivial
  · trivial

theorem ptCmd_time (c : Byte) (s : State) (h : s.cfg.profile = .bridge) :
    (ptCmd c s).OnDone fun u => s.now + s.quietDue + s.cfg.tQuietNs ≤ u.now ∧ u.quietDue = 0 := by
  unfold ptCmd
  rw [h]
  exact framed_time fun t => sendWord_kept _ _ t

theorem ptDat_time (d : Byte) (s : State) (h : s.cfg.profile = .bridge) :
    (ptDat d s).OnDone fun u => s.now + s.quietDue + s.cfg.tQuietNs ≤ u.now ∧ u.quietDue = 0 := by
  unfold ptDat
  rw [h]
  exact framed_time fun t => sendWord_kept _ _ t

theorem ptCmd_traced (c : Byte) (s : State) : (ptCmd c s).OnDone (Traced (wireOf s.cfg [.cmd c]) s) := by
  unfold ptCmd wireOf
  cases s.cfg.profile with
  | bridge => exact framed_traced fun t _ => sendWord_traced _ _ t
  | native => exact nativeSend_traced _ s

theorem ptDat_traced (d : Byte) (s : State) : (ptDat d s).OnDone (Traced (wireOf s.cfg [.dat d]) s) := by
  unfold ptDat wireOf
  cases s.cfg.profile with
  | bridge => exact framed_traced fun t _ => sendWord_traced _ _ t
  | native => exact nativeSend_traced _ s

theorem sendBytes_traced (ds : List Byte) (s : State) : (sendBytes ds s).OnDone (Traced (wireOf s.cfg (ds.map .dat)) s) := by
  induction ds generalizing s with
  | nil => rw [List.map_nil, wireOf_nil]; exact Traced.refl s
  | cons d ds ih =>
    rw [List.map_cons, wireOf_cons]
    exact traced_bind (ptDat_traced d s) fun t ht => by rw [← ht]; exact ih t

theorem sendGroup_traced (c : Byte) (ds : List Byte) (s : State) :
    (sendGroup c ds s).OnDone (Traced (wireOf s.cfg (groupStream c ds)) s) := by
  unfold groupStream
  rw [wireOf_cons]
  exact traced_bind (ptCmd_traced c s) fun t ht => by rw [← ht]; exact sendBytes_traced ds t

theorem waitMin_traced (ms : Nat) (s : State) : (waitMin ms s).OnDone (Traced (wireOf s.cfg [.wait ms]) s) := by
  unfold waitMin
  split
  · refine ⟨(recordWait_cfg _ _).trans rfl, ?_⟩
    unfold wireOf
    cases h : s.cfg.profile with
    | bridge => rw [panelTakes_wire, recordWait_bridge ms (advance _ (popWait s)) h]; rfl
    | native => rw [panelTakes_wire, recordWait_native ms (advance _ (popWait s)) h]; simp
  · trivial

/-! ### The Frame Writer -/

theorem openWindow_traced (k : Config) (xs ys xe ye : U16) (s : State) :
    (openWindow k xs ys xe ye s).OnDone (Traced (wireOf s.cfg (windowStream k xs ys xe ye)) s) := by
  unfold windowStream
  rw [List.append_assoc, wireOf_append, wireOf_append]
  refine traced_bind (sendGroup_traced _ _ s) fun t ht => ?_
  refine traced_bind (by rw [← ht]; exact sendGroup_traced _ _ t) fun u hu => ?_
  rw [← ht, ← hu]
  exact ptCmd_traced _ u

/-- The bytes of pixels, by a path whose single byte is known. -/
theorem sendPixels_traced {send : Byte → State → Flow} {one : Config → Byte → List WireEvent}
    (hs : ∀ d s, (send d s).OnDone (Traced (one s.cfg d) s)) :
    ∀ (ds : List Byte) (s : State), (sendPixels send ds s).OnDone (Traced (ds.flatMap (one s.cfg)) s)
  | [], s => Traced.refl s
  | [d], s => by rw [List.flatMap_singleton]; exact hs d s
  | hi :: lo :: ds, s => by
    rw [List.flatMap_cons, List.flatMap_cons]
    refine traced_bind (hs hi s) fun t ht => traced_bind (by rw [← ht]; exact hs lo t) fun u hu => ?_
    rw [← ht, ← hu]
    exact traced_after (t := countPixel u) rfl rfl (sendPixels_traced hs ds (countPixel u))

/-- One assertion and one quiet interval for all the bytes (40_transport.md R110). -/
theorem ptBurst_traced (ds : List Byte) (s : State) (h : s.cfg.profile = .bridge) :
    (ptBurst ds s).OnDone (Traced (burstTrace s.cfg ds) s) := by
  unfold ptBurst burstTrace
  rw [h]
  refine framed_traced fun t _ => ?_
  have h := sendPixels_traced (send := burstWord) (one := fun _ d => [.word (datWord d)]) (fun d s => sendWord_traced _ _ s) ds t
  rwa [← List.map_eq_flatMap] at h

theorem wireOf_dats (k : Config) (ds : List Byte) : wireOf k (ds.map .dat) = ds.flatMap fun d => wireOf k [.dat d] := by
  induction ds with
  | nil => exact wireOf_nil k
  | cons d ds ih => rw [List.map_cons, wireOf_cons, ih, List.flatMap_cons]

/-- Step 4 by the per-word path (42_frame_writer.md R166). -/
theorem streamBytes_traced {k : Config} (ds : List Byte) (s : State) (h : k.fwBurst = false) :
    (streamBytes k ds s).OnDone (Traced (wireOf s.cfg (ds.map .dat)) s) := by
  unfold streamBytes
  rw [h, wireOf_dats]
  exact sendPixels_traced (one := fun k d => wireOf k [.dat d]) (fun d t => ptDat_traced d t) ds s

/-- Step 4 by the bulk path, in the bridge profile (42_frame_writer.md R167). -/
theorem streamBytes_traced_burst {k : Config} (ds : List Byte) (s : State) (h : k.fwBurst = true)
    (hb : s.cfg.profile = .bridge) : (streamBytes k ds s).OnDone (Traced (burstTrace s.cfg ds) s) := by
  unfold streamBytes
  rw [h]
  exact ptBurst_traced ds s hb

/-- `draw_bitmap` by the per-word path (42_frame_writer.md R177). -/
theorem drawBitmap_traced {k : Config} (xs ys xe ye : U16) (bs : List Byte) (s : State) (h : k.fwBurst = false) :
    (drawBitmap k xs ys xe ye bs s).OnDone (Traced (wireOf s.cfg (windowStream k xs ys xe ye ++ bs.map .dat)) s) := by
  rw [wireOf_append]
  exact traced_bind (openWindow_traced k xs ys xe ye s) fun t ht => by rw [← ht]; exact streamBytes_traced bs t h

/-- A bitmap draw keeps the registers the row loop runs on. -/
theorem drawBitmap_kept (k : Config) (xs ys xe ye : U16) (bs : List Byte) (s : State) :
    (drawBitmap k xs ys xe ye bs s).OnDone (KeptPixels s) :=
  (drawBitmap_runs k xs ys xe ye bs s).onDone.mono fun _ h => h

/-- The rows of ROW_BITMAP by the per-word path (42_frame_writer.md R175, R177): every word has its own assertion of
chip-select (40_transport.md R102). -/
theorem rowLoop_traced {k : Config} (x : Operands) (h : k.fwBurst = false) (n : Nat) (s : State)
    (hl : s.lb = lineBuffer x.pix x.columns) (hr : s.fwRow.toNat + n = x.y1.toNat + 1) :
    (rowLoop k x n s).OnDone (Traced (wireOf s.cfg (rowsStream k x.x0 x.x1 x.pix s.fwRow.toNat n)) s) := by
  induction n generalizing s with
  | zero => rw [rowsStream, wireOf_nil]; exact Traced.refl s
  | succ n ih =>
    have hrow : BitVec.ofNat 16 s.fwRow.toNat = s.fwRow := by simp
    unfold rowLoop rowsStream rowStream
    rw [hl, lineBuffer_bytes, hrow, wireOf_append]
    refine Flow.onDone_bind (Flow.onDone_and (drawBitmap_traced _ _ _ _ _ s h) (drawBitmap_kept k _ _ _ _ _ s)) fun t ht => ?_
    have hk : t.fwRow = s.fwRow := ht.2.fwRow
    have step : ∀ {f : Flow} {es : List Event}, f.OnDone (Traced (wireOf t.cfg es) t) →
        f.OnDone (Traced (wireOf s.cfg _ ++ wireOf s.cfg es) s) := fun hf => hf.mono fun u hu =>
      ⟨hu.cfg.trans ht.1.cfg, by rw [hu.wire, ht.1.wire, ht.1.cfg, List.append_assoc]⟩
    split
    · next he =>
      have : n = 0 := by rw [hk] at he; rw [he] at hr; omega
      subst this
      exact step (by rw [rowsStream, wireOf_nil]; exact Traced.refl t)
    · next he =>
      have h1 : (t.fwRow + 1).toNat = s.fwRow.toNat + 1 := by
        have : s.fwRow.toNat ≠ x.y1.toNat := fun h => he (hk.trans (BitVec.eq_of_toNat_eq h))
        have hy := x.y1.isLt
        rw [hk, BitVec.toNat_add]
        simp
        omega
      have := ih { t with fwRow := t.fwRow + 1 } (ht.2.lb.trans hl) (by show (t.fwRow + 1).toNat + n = _; omega)
      rw [show ({ t with fwRow := t.fwRow + 1 } : State).fwRow = t.fwRow + 1 from rfl, h1] at this
      exact step (this.mono fun _ hu => ⟨hu.cfg, hu.wire⟩)

/-- A fill by the per-word path, in either variant (42_frame_writer.md R166, R177; 40_transport.md R102). -/
theorem fill_traced {s : State} (h : fillCheck s = none) (ha : allocDraw s = true) (hb : s.cfg.fwBurst = false) :
    (fill s).OnDone (Traced (wireOf s.cfg (rectStream s.cfg s.x.x0 s.x.y0 s.x.x1 s.x.y1 s.x.pix)) s) := by
  have hv := (fillCheck_none.1 h).1
  simp only [validRect, Bool.and_eq_true, decide_eq_true_eq] at hv
  unfold fill rectStream
  rw [h]
  simp only [ha, if_true]
  cases s.cfg.fwVariant with
  | singleWindow =>
    refine traced_after (t := obtainBuffer (popAlloc s)) rfl rfl ?_
    unfold fillStream
    rw [wireOf_append]
    refine traced_bind (openWindow_traced _ _ _ _ _ (obtainBuffer (popAlloc s))) fun t ht => ?_
    have := streamBytes_traced (pixelBytes s.x.pix s.x.pixels) (loadCount s.x t) hb
    rw [show (loadCount s.x t).cfg = s.cfg from ht] at this
    exact this.mono fun _ hu => ⟨hu.cfg, hu.wire⟩
  | rowBitmap =>
    have hy : (startRows s.x (obtainBuffer (popAlloc s))).fwRow.toNat + s.x.rows = s.x.y1.toNat + 1 := by
      show s.x.y0.toNat + s.x.rows = _
      unfold Operands.rows
      omega
    have := rowLoop_traced s.x hb s.x.rows _ rfl hy
    exact this.mono fun _ hu => ⟨hu.cfg, hu.wire⟩

/-! ### The sequencer -/

theorem sendParams_traced (bs : List Byte) (s : State) :
    (sendParams bs s).OnDone (Traced (wireOf s.cfg (bs.map .dat)) s) := by
  induction bs generalizing s with
  | nil => rw [List.map_nil, wireOf_nil]; exact Traced.refl s
  | cons b bs ih =>
    rw [List.map_cons, wireOf_cons]
    refine traced_bind (ptDat_traced b s) fun t ht => ?_
    refine traced_after (t := nextParam t) rfl rfl ?_
    rw [← ht]
    exact ih _

theorem sendEntry_traced (e : Entry) (s : State) : (sendEntry e s).OnDone (Traced (wireOf s.cfg (entryStream e)) s) := by
  unfold sendEntry entryStream groupStream
  rw [List.cons_append, wireOf_cons, wireOf_append]
  refine traced_bind (traced_after (t := startParams s) rfl rfl (ptCmd_traced _ _)) fun t ht => ?_
  refine traced_bind (by rw [← ht]; exact sendParams_traced _ t) fun u hu => ?_
  rw [← ht, ← hu]
  refine Flow.onDone_bind (P := Traced (wireOf u.cfg
    (if 0 < e.delayMs ∧ e.phase ≠ .sleepOut ∧ e.phase ≠ .displayOn then [.wait e.delayMs] else [])) u) ?_
    fun v hv => (show Traced _ u (nextEntry v) from ⟨hv.cfg, hv.wire⟩)
  unfold entryDelay
  split
  · exact waitMin_traced _ u
  · rw [wireOf_nil]; exact Traced.refl u

theorem sendSegment_traced (es : List Entry) (s : State) :
    (sendSegment es s).OnDone (Traced (wireOf s.cfg (es.flatMap entryStream)) s) := by
  induction es generalizing s with
  | nil => rw [List.flatMap_nil, wireOf_nil]; exact Traced.refl s
  | cons e es ih =>
    rw [List.flatMap_cons, wireOf_append]
    exact traced_bind (sendEntry_traced e s) fun t ht => by rw [← ht]; exact ih t

theorem activity_traced (k : Config) (p : SeqState) (s : State) :
    (activity k p s).OnDone (Traced (wireOf s.cfg (stateStream k p)) s) := by
  cases p with
  | reset => exact traced_after (t := setPosition Position.start (clearHandle s)) rfl rfl (sendSegment_traced _ _)
  | powerWait => exact waitMin_traced _ s
  | settleDelay120 => exact waitMin_traced _ s
  | settleDelay10 => exact waitMin_traced _ s
  | ready => rw [stateStream, wireOf_nil]; exact Traced.refl s
  | pageUnlock => exact sendSegment_traced _ s
  | registerBurst => exact sendSegment_traced _ s
  | gammaPageUnlock => exact sendSegment_traced _ s
  | gammaBurst => exact sendSegment_traced _ s
  | pageLock => exact sendSegment_traced _ s
  | displayModeConfig => exact sendSegment_traced _ s
  | sleepOut => exact sendSegment_traced _ s
  | displayOn => exact sendSegment_traced _ s

/-- The states of a run, in order (41_init_sequencer.md R130). -/
theorem runStates_traced (k : Config) (ps : List SeqState) (s : State) :
    (runStates k ps s).OnDone (Traced (wireOf s.cfg (ps.flatMap (stateStream k))) s) := by
  induction ps generalizing s with
  | nil => rw [List.flatMap_nil, wireOf_nil]; exact Traced.refl s
  | cons p ps ih =>
    rw [List.flatMap_cons, wireOf_append]
    refine traced_bind (traced_after (t := enterState p s) rfl rfl (activity_traced k p _)) fun t ht => ?_
    rw [← ht]
    exact ih t

end Sys2Proof.Machine
end

