-- ==== Sys2Proof/Tests/Slice0.lean ====
section
/-! SUPPORT. The model's own tests. Expected values are those of spec/95_test_vectors.md (the vectors are named) or of the
rule named beside the test; and, for every statement with hypotheses, a concrete state and operands that meet them. -/

namespace Sys2Proof.Tests

open Sys2Proof Sys2Proof.Machine

/-! ### Helpers -/

/-- The fixture table of 95_test_vectors.md section 3.1. -/
def fixtureTable : List Entry :=
  [⟨0xF0#8, [0x01#8], 0, .pageUnlock⟩, ⟨0xB0#8, [0x11#8], 0, .registerBurst⟩,
    ⟨0xB1#8, [0x22#8, 0x33#8], 0, .registerBurst⟩, ⟨0xF0#8, [0x02#8], 0, .gammaPageUnlock⟩,
    ⟨0xE0#8, [0x44#8, 0x55#8, 0x66#8], 0, .gammaBurst⟩, ⟨0xF0#8, [0x00#8], 0, .pageLock⟩,
    ⟨0x3A#8, [0x55#8], 0, .displayModeConfig⟩, ⟨0x11#8, [], 120, .sleepOut⟩, ⟨0x29#8, [], 10, .displayOn⟩]

/-- The fixture configuration of 95_test_vectors.md section 3.1. -/
def fixture : Config := { Config.atReset with table := fixtureTable }

/-- A receiver whose state is known, with nothing latched. -/
def known : Panel := { Panel.lost with unknown := false, awake := true, on := true }

/-- A receiver in write mode in the window of V40, at its first pixel. -/
def writing : Panel :=
  { known with last := some 0x2C#8, wr := true, xs := 10, xe := 12, ys := 20, ye := 21, col := 10, row := 20 }

/-- The block with the fixture, after reset. -/
def fresh : State := { State.reset with cfg := fixture }

/-- The block with the fixture after a good run, on a receiver whose state is known. -/
def ready : State := { fresh with ph := true, seq := ⟨.ready, 9, 0⟩, panel := known }

/-- With these draws for the words to come. -/
def withWords (ws : List WordDraw) (s : State) : State := { s with env := { s.env with words := ws } }

/-- With these inputs. -/
def withInputs (is : List Input) (s : State) : State := { s with inbox := is }

/-- The next state, if there is one. -/
def got : Host.Outcome State Fault Refusal → State
  | .next t => t
  | .fault _ => State.reset
  | .refused _ => State.reset

/-- There is a next state. -/
def isNext : Host.Outcome State Fault Refusal → Bool
  | .next _ => true
  | .fault _ => false
  | .refused _ => false

theorem next_got {o : Host.Outcome State Fault Refusal} (h : isNext o = true) : o = .next (got o) := by
  cases o with
  | next t => rfl
  | fault f => cases h
  | refused r => cases h

/-- One word as the per-word path sends it. -/
def perWord (w : Word) : List WireEvent := [.csAssert, .word w, .csRelease, .quiet 1000]

/-- The 22 events of 95_test_vectors.md section 3.2. -/
def initEvents : List Event :=
  [.wait 5, .cmd 0xF0#8, .dat 0x01#8, .cmd 0xB0#8, .dat 0x11#8, .cmd 0xB1#8, .dat 0x22#8, .dat 0x33#8]
    ++ [.cmd 0xF0#8, .dat 0x02#8, .cmd 0xE0#8, .dat 0x44#8, .dat 0x55#8, .dat 0x66#8, .cmd 0xF0#8, .dat 0x00#8]
    ++ [.cmd 0x3A#8, .dat 0x55#8, .cmd 0x11#8, .wait 120, .cmd 0x29#8, .wait 10]

/-- The first eleven events of V40 (95_test_vectors.md section 2.5). -/
def rectWindow : List Event :=
  [.cmd 0x2A#8, .dat 0#8, .dat 0x0A#8, .dat 0#8, .dat 0x0C#8, .cmd 0x2B#8, .dat 0#8, .dat 0x14#8, .dat 0#8, .dat 0x15#8,
    .cmd 0x2C#8]

/-- The twelve pixel bytes of V40. -/
def rectPixels : List Event :=
  [.dat 0x07#8, .dat 0xE0#8, .dat 0x07#8, .dat 0xE0#8, .dat 0x07#8, .dat 0xE0#8, .dat 0x07#8, .dat 0xE0#8,
    .dat 0x07#8, .dat 0xE0#8, .dat 0x07#8, .dat 0xE0#8]

/-! ### Well-formed configurations: one ill-formed term for each check -/

theorem test_fixture_wf : fixture.wf = true := by decide +kernel
theorem test_reset_wf : Config.atReset.wf = true := by decide +kernel

theorem test_repeated_command_byte_refused :
    ({ fixture with cmdRaset := 0x2A#8 } : Config).cmdsDistinct = false ∧
      ({ fixture with cmdRaset := 0x2A#8 } : Config).wf = false := by decide +kernel

/-- V39: a phase that sends nothing. -/
theorem test_phase_that_sends_nothing_refused :
    ({ fixture with table := ⟨0xF0#8, [], 0, .powerWait⟩ :: fixtureTable } : Config).phasesSend = false ∧
      ({ fixture with table := ⟨0xF0#8, [], 0, .powerWait⟩ :: fixtureTable } : Config).wf = false := by decide +kernel

/-- V39: phases that decrease. -/
theorem test_decreasing_phases_refused :
    ({ fixture with table := fixtureTable ++ [⟨0xF0#8, [], 0, .pageLock⟩] } : Config).phasesOrdered = false ∧
      ({ fixture with table := fixtureTable ++ [⟨0xF0#8, [], 0, .pageLock⟩] } : Config).wf = false := by decide +kernel

/-- V39: an empty sleep-out segment. -/
theorem test_no_sleep_out_refused :
    ({ fixture with table := [⟨0x29#8, [], 10, .displayOn⟩] } : Config).sleepOutOnce = false ∧
      ({ fixture with table := [⟨0x29#8, [], 10, .displayOn⟩] } : Config).wf = false := by decide +kernel

/-- 41_init_sequencer.md R131 condition 3: a display-on entry of another command. -/
theorem test_wrong_display_on_refused :
    ({ fixture with table := [⟨0x11#8, [], 0, .sleepOut⟩, ⟨0x28#8, [], 10, .displayOn⟩] } : Config).displayOnOnce = false ∧
      ({ fixture with table := [⟨0x11#8, [], 0, .sleepOut⟩, ⟨0x28#8, [], 10, .displayOn⟩] } : Config).wf = false := by
  decide +kernel

theorem test_short_waits_refused :
    ({ fixture with tQuietNs := 999 } : Config).wf = false ∧ ({ fixture with tSlpoutMs := 119 } : Config).wf = false ∧
      ({ fixture with tDisponMs := 9 } : Config).wf = false := by decide +kernel

theorem test_fast_clock_refused :
    ({ fixture with sclkBridgeHz := 5000001 } : Config).clockOk = false ∧
      ({ fixture with sclkBridgeHz := 5000001 } : Config).wf = false := by decide +kernel

theorem test_empty_or_huge_panel_refused :
    ({ fixture with width := 0 } : Config).wf = false ∧ ({ fixture with width := 65537 } : Config).wf = false ∧
      ({ fixture with height := 0 } : Config).wf = false ∧ ({ fixture with height := 65537 } : Config).wf = false := by
  decide +kernel

theorem test_native_widths_refused :
    ({ fixture with native := { fixture.native with cmdBits := 31 } } : Config).wf = false ∧
      ({ fixture with native := { fixture.native with paramBits := 9 } } : Config).wf = false := by decide +kernel

theorem test_other_documented_values_refused :
    ({ fixture with opcWrcmd := 0x03#8 } : Config).documentedOk = false ∧ ({ fixture with opcWrcmd := 0x03#8 } : Config).wf = false ∧
      ({ fixture with opcWrcolor := 0x33#8 } : Config).wf = false ∧ ({ fixture with wordBits := 31 } : Config).wf = false ∧
      ({ fixture with sclkBridgeMaxHz := 6000000 } : Config).wf = false ∧ ({ fixture with coordBits := 15 } : Config).wf = false ∧
      ({ fixture with pixelBits := 18 } : Config).wf = false := by decide +kernel

theorem test_vendor_with_a_named_byte_refused :
    Instr.wf fixture (.vendor 0x2C#8 []) = false ∧ Instr.wf fixture (.vendor 0x11#8 [1#8]) = false := by decide +kernel

/-! ### Decoding: words written out from the encodings -/

theorem test_decode_wrcmd : decodeWord 0x02B10000#32 = .ok (.wrcmd 0xB1#8) := by decide +kernel
theorem test_decode_wrcolor : decodeWord 0x32670000#32 = .ok (.wrcolor 0x67#8) := by decide +kernel

theorem test_decode_sendCommand :
    decode fixture .req96 [0x10#8, 0x2C#8, 0, 0, 0, 0, 0, 0, 0, 0, 0, 0] = .ok (.sendCommand 0x2C#8) := by decide +kernel

theorem test_decode_sendData :
    decode fixture .req96 [0x11#8, 0x67#8, 0, 0, 0, 0, 0, 0, 0, 0, 0, 0] = .ok (.sendData 0x67#8) := by decide +kernel

/-- The fields RUN_INIT does not use are ignored (30_encoding.md R74). -/
theorem test_decode_runInit :
    decode fixture .req96 [0x20#8, 1#8, 2#8, 3#8, 4#8, 5#8, 6#8, 7#8, 8#8, 9#8, 10#8, 11#8] = .ok .runInit := by
  decide +kernel

/-- `0x300007E0000A0014000C0015`. -/
theorem test_decode_fillRect :
    decode fixture .req96 [0x30#8, 0x00#8, 0x07#8, 0xE0#8, 0x00#8, 0x0A#8, 0x00#8, 0x14#8, 0x00#8, 0x0C#8, 0x00#8, 0x15#8]
      = .ok (.fillRect 10 20 12 21 0x07E0#16) := by decide +kernel

theorem test_decode_fillScreen :
    decode fixture .req96 [0x31#8, 0, 0xF8#8, 0, 0, 0, 0, 0, 0, 0, 0, 0] = .ok (.fillScreen 0xF800#16) := by decide +kernel

/-- V42's column bytes. -/
theorem test_decode_caset :
    decode fixture .cmd8 [0x2A#8, 0x01#8, 0x2C#8, 0x01#8, 0x67#8] = .ok (.caset 300 359) := by decide +kernel

theorem test_decode_raset :
    decode fixture .cmd8 [0x2B#8, 0x00#8, 0x14#8, 0x00#8, 0x15#8] = .ok (.raset 20 21) := by decide +kernel

theorem test_decode_ramwr : decode fixture .cmd8 [0x2C#8] = .ok .ramwr := by decide +kernel
theorem test_decode_slpout : decode fixture .cmd8 [0x11#8] = .ok (.slpout []) := by decide +kernel
theorem test_decode_dispon : decode fixture .cmd8 [0x29#8] = .ok (.dispon []) := by decide +kernel

theorem test_decode_vendor :
    decode fixture .cmd8 [0xB1#8, 0x22#8, 0x33#8] = .ok (.vendor 0xB1#8 [0x22#8, 0x33#8]) := by decide +kernel

/-- V9, and the codes of another length. -/
theorem test_no_code_refused_by_name :
    decodeWord 0x02B10001#32 = .error (.reservedNotZero 1#16) ∧ decodeWord 0x03000000#32 = .error (.undefinedOpcode 3#8) ∧
    decodeWord 0x32000100#32 = .error (.reservedNotZero 0x100#16) ∧
    decode fixture .req96 [0x7F#8, 0, 0, 0, 0, 0, 0, 0, 0, 0, 0, 0] = .error (.unassignedOp 0x7F#8) ∧
    decode fixture .req96 [0x10#8] = .error (.wrongLength .req96 1) ∧ decode fixture .cmd8 [] = .error (.wrongLength .cmd8 0) ∧
    decode fixture .cmd8 [0x2A#8, 0, 0, 0] = .error (.windowParameters 3) ∧
    decode fixture .cmd8 [0x2C#8, 0] = .error (.memoryWriteParameters 1) := by decide +kernel

/-- The match values of spec/opcode_table.json, with their numbers of bits. -/
def tableRows : List (Nat × Nat) :=
  [(32, 0x02000000), (32, 0x32000000), (96, 0x100000000000000000000000), (96, 0x110000000000000000000000),
    (96, 0x200000000000000000000000), (96, 0x300000000000000000000000), (96, 0x310000000000000000000000),
    (8, 0x2A), (8, 0x2B), (8, 0x2C), (8, 0x11), (8, 0x29), (8, 0x00)]

theorem test_table_rows_decode :
    tableRows.map (fun r => decodeTableWord r.1 r.2)
      = [some (.wrcmd 0), some (.wrcolor 0), some (.sendCommand 0), some (.sendData 0), some .runInit,
          some (.fillRect 0 0 0 0 0), some (.fillScreen 0), some (.caset 0 0), some (.raset 0 0), some .ramwr,
          some (.slpout []), some (.dispon []), some (.vendor 0 [])] := by decide +kernel

theorem test_table_rows_run_first_after_reset :
    tableRows.all (fun r => isNext (step (State.reset.withFetchWord r.1 r.2))
      && decide ((State.reset.withFetchWord r.1 r.2).inbox.length = 1)) = true := by decide +kernel

/-! ### Instructions -/

/-- V1. -/
theorem test_wrcmd :
    (got (exec (.wrcmd 0x2A#8) ready)).wire = perWord 0x022A0000#32 ∧
      (got (exec (.wrcmd 0x2A#8) ready)).logical = [.cmd 0x2A#8] ∧ (got (exec (.wrcmd 0x2A#8) ready)).rsps = [] := by
  decide +kernel

/-- V2. -/
theorem test_wrcolor :
    (got (exec (.wrcolor 0xF8#8) ready)).wire = perWord 0x32F80000#32 ∧
      (got (exec (.wrcolor 0xF8#8) ready)).logical = [.dat 0xF8#8] := by decide +kernel

/-- V20. -/
theorem test_sendCommand :
    let t := got (exec (.sendCommand 0x2C#8) fresh)
    t.wire = perWord 0x022C0000#32 ∧ t.logical = [.cmd 0x2C#8] ∧ t.rsps = [.ok] ∧ t.pins.cs = false ∧ t.ph = false ∧
      t.busy = false := by decide +kernel

/-- V24. -/
theorem test_sendCommand_hangs :
    let t := got (exec (.sendCommand 0x2A#8) (withWords [.hang 7 false] fresh))
    t.wire = [.csAssert] ∧ t.rsps = [] ∧ t.busy = true ∧ t.pins.cs = true ∧ t.logical = [] := by decide +kernel

/-- V21. -/
theorem test_sendData :
    let t := got (exec (.sendData 0x67#8) fresh)
    t.wire = perWord 0x32670000#32 ∧ t.logical = [.dat 0x67#8] ∧ t.rsps = [.ok] := by decide +kernel

/-- V23. -/
theorem test_sendData_fails :
    let t := got (exec (.sendData 0x00#8) (withWords [.failed 3] ready))
    t.wire = [.csAssert, .wordFailed, .csRelease] ∧ t.logical = [] ∧ t.rsps = [.transportError] ∧ t.ph = true ∧
      t.pins.cs = false ∧ t.panel.unknown = true := by decide +kernel

/-- 70_reset_and_hazards.md R265: after a failed word the call ends at once, and the next word begins a quiet interval later,
or sooner by what has passed; its own interval follows it. -/
theorem test_quiet_after_a_failed_word :
    let t := got (exec (.sendData 0x00#8) (withWords [.failed 4] ready))
    let u := got (exec (.sendData 0x00#8) t)
    t.quietDue = 1000 ∧ t.now = ready.now ∧ u.quietDue = 0 ∧ t.now + 1000 + 1000 = u.now ∧
      (got (step (withInputs [.idle 400] t))).quietDue = 600 := by decide +kernel

/-- 70_reset_and_hazards.md R251: a reset in what a failed word left owed, before the next request's word: no word is in flight,
so nothing is on the wire; the response of the failed one is the only one. -/
theorem test_reset_in_an_owed_interval :
    let t := got (exec (.sendData 0x00#8) (withWords [.failed 4] ready))
    let u := got (exec (.sendData 0x00#8) { t with env := { t.env with waits := [.reset] } })
    u.wire = t.wire ∧ u.rsps = [.transportError] ∧ u.busy = false ∧ u.ph = false ∧ u.pins = Pins.idle ∧
      u.quietDue = 1000 := by decide +kernel

/-- 00_scope.md R14: what is owed is a minimum. -/
theorem test_owed_interval_is_a_minimum :
    let s := { ready with quietDue := 400, env := { ready.env with waits := [.elapsed 7, .elapsed 5] } }
    let t := got (exec (.sendData 0x00#8) s)
    t.now = s.now + 400 + 7 + 1000 + 5 ∧ t.quietDue = 0 ∧ t.rsps = [.ok] ∧ t.env.waits = [] := by decide +kernel

/-- 70_reset_and_hazards.md R265: a reset inside a word leaves the interval owed, and the reset between words owes none. -/
theorem test_quiet_after_a_reset :
    (got (exec (.sendData 0x00#8) (withWords [.reset 3] ready))).quietDue = 1000 ∧
      (got (step (withInputs [.reset] ready))).quietDue = 0 := by decide +kernel

/-- V30 and V80; 79 wire events (95_test_vectors.md section 3.2). -/
theorem test_runInit :
    let t := got (exec .runInit fresh)
    t.logical = initEvents ∧ t.rsps = [.ok] ∧ t.ph = true ∧ t.seq = ⟨.ready, 9, 0⟩ ∧ t.wire.length = 79 ∧
      t.panel.unknown = false ∧ t.panel.awake = true ∧ t.panel.on = true ∧ 135000000 ≤ t.now := by decide +kernel

/-- V32, from the state of V33. -/
theorem test_runInit_fails :
    let t := got (exec .runInit (withWords (List.replicate 7 .sent ++ [.failed 0]) ready))
    t.logical = initEvents.take 8 ∧ t.rsps = [.transportError] ∧ t.ph = false ∧ t.seq = ⟨.reset, 0, 0⟩ := by decide +kernel

/-- V40, V70; 92 wire events. -/
theorem test_fillRect :
    let t := got (exec (.fillRect 10 20 12 21 0x07E0#16) ready)
    t.logical = rectWindow ++ rectPixels ∧ t.rsps = [.ok] ∧ t.wire.length = 92 ∧ t.panel.wr = false ∧ t.panel.hi = none ∧
      t.panel.pixelAt fixture 21 12 = some 0x07E0#16 ∧ t.panel.pixelAt fixture 20 13 = none := by decide +kernel

/-- V47. -/
theorem test_fillRect_by_rows :
    let t := got (exec (.fillRect 10 20 12 21 0x07E0#16) { ready with cfg := { fixture with fwVariant := .rowBitmap } })
    t.logical.length = 34 ∧ t.rsps = [.ok] ∧ (t.logical.drop 17).take 10
      = [.cmd 0x2A#8, .dat 0#8, .dat 0x0A#8, .dat 0#8, .dat 0x0C#8, .cmd 0x2B#8, .dat 0#8, .dat 0x15#8, .dat 0#8,
          .dat 0x15#8] := by decide +kernel

/-- 42_frame_writer.md R177, 40_transport.md R102: word by word, a fill by rows has one assertion for each of its 34 words. -/
theorem test_fillRect_by_rows_wire :
    let t := got (exec (.fillRect 10 20 12 21 0x07E0#16) { ready with cfg := { fixture with fwVariant := .rowBitmap } })
    t.wire.length = 4 * 34 ∧ t.wire.take 8 = perWord 0x022A0000#32 ++ perWord 0x32000000#32 ∧
      (t.wire.drop 44).take 8 = perWord 0x32070000#32 ++ perWord 0x32E00000#32 ∧
      (t.wire.drop 68).take 4 = perWord 0x022A0000#32 := by decide +kernel

/-- 40_transport.md R111, R112: a word that fails ends a fill and a run of the table; the draws after it stay untaken. -/
theorem test_failed_word_is_the_last :
    let t := got (exec (.fillRect 10 20 12 21 0x07E0#16) (withWords (List.replicate 12 .sent ++ [.failed 9, .sent]) ready))
    let u := got (exec .runInit (withWords [.sent, .failed 32, .failed 1] ready))
    t.rsps = [.transportError] ∧ t.env.words = [.sent] ∧ u.rsps = [.transportError] ∧ u.env.words = [.failed 1] := by
  decide +kernel

/-- 40_transport.md R113, in the native profile: a run of the table that never returns, and the word after it. -/
theorem test_hang_is_the_last :
    let t := got (exec .runInit
      (withWords [.sent, .hang 0 false, .sent] { ready with cfg := { fixture with profile := .native } }))
    t.rsps = [] ∧ t.busy = true ∧ t.env.words = [.sent] := by decide +kernel

/-- V45 on a panel of two columns and one row (42_frame_writer.md R168). -/
theorem test_fillScreen :
    let t := got (exec (.fillScreen 0xF800#16) { ready with cfg := { fixture with width := 2, height := 1 } })
    t.logical = [.cmd 0x2A#8, .dat 0#8, .dat 0#8, .dat 0#8, .dat 1#8, .cmd 0x2B#8, .dat 0#8, .dat 0#8, .dat 0#8, .dat 0#8,
        .cmd 0x2C#8, .dat 0xF8#8, .dat 0#8, .dat 0xF8#8, .dat 0#8] ∧ t.x.x1 = 1 ∧ t.x.y1 = 0 ∧ t.rsps = [.ok] := by
  decide +kernel

/-- V57. -/
theorem test_fillScreen_without_the_handle :
    let t := got (exec (.fillScreen 0xF800#16) fresh)
    t.rsps = [.notReady] ∧ t.logical = [] ∧ t.wire = [] := by decide +kernel

/-- V70, event 4. -/
theorem test_caset :
    let t := got (exec (.caset 10 12) ready)
    t.panel.xs = 10 ∧ t.panel.xe = 12 ∧ t.logical = rectWindow.take 5 := by decide +kernel

/-- V70, event 9. -/
theorem test_raset :
    let t := got (exec (.raset 20 21) ready)
    t.panel.ys = 20 ∧ t.panel.ye = 21 ∧ t.logical = (rectWindow.drop 5).take 5 := by decide +kernel

/-- V70, event 10. -/
theorem test_ramwr :
    let t := got (exec .ramwr { ready with panel := { known with xs := 10, xe := 12, ys := 20, ye := 21 } })
    t.panel.wr = true ∧ t.panel.row = 20 ∧ t.panel.col = 10 ∧ t.logical = [.cmd 0x2C#8] := by decide +kernel

/-- V75. -/
theorem test_ramwr_of_a_malformed_window :
    (got (exec .ramwr { ready with panel := { known with xs := 12, xe := 10 } })).panel.unknown = true := by decide +kernel

/-- V77, first half. -/
theorem test_slpout :
    let t := got (exec (.slpout []) { ready with panel := { known with awake := false } })
    t.logical = [.cmd 0x11#8, .wait 120] ∧ t.panel.awake = true ∧ t.panel.unknown = false ∧ 120000000 ≤ t.now := by
  decide +kernel

/-- V77, second half. -/
theorem test_dispon :
    let t := got (exec (.dispon []) { ready with panel := { known with on := false } })
    t.logical = [.cmd 0x29#8, .wait 10] ∧ t.panel.on = true ∧ t.panel.unknown = false := by decide +kernel

/-- A table sent raw, each entry with its wait. -/
def sentRaw (l : List Entry) : List Event := l.flatMap fun e => .cmd e.cmd :: e.params.map .dat ++ [.wait e.delayMs]

/-- 43_panel_receiver.md R200, R202: the fixture table in sequence, twice; with the page select of entries 0 and 3 exchanged;
and rotated. -/
theorem test_replay_in_another_order :
    (known.onEvents fixture (sentRaw (fixtureTable ++ fixtureTable))).unknown = false ∧
    (known.onEvents fixture (sentRaw ((fixtureTable.drop 3).take 1 ++ (fixtureTable.drop 1).take 2 ++ fixtureTable.take 1
      ++ fixtureTable.drop 4))).unknown = true ∧
    (known.onEvents fixture (sentRaw (fixtureTable.drop 1 ++ fixtureTable.take 1))).unknown = true := by decide +kernel

/-- 43_panel_receiver.md R200, V77, V79: some entries of the table, repeated or in another sequence, are no replay of it. -/
theorem test_part_of_the_table :
    (known.onEvents fixture [.cmd 0xB1#8, .dat 0x22#8, .dat 0x33#8, .cmd 0xB1#8, .dat 0x22#8, .dat 0x33#8]).unknown = false ∧
    (known.onEvents fixture [.cmd 0x29#8, .wait 10, .cmd 0xB1#8, .dat 0x22#8, .dat 0x33#8]).unknown = false ∧
    (known.onEvents fixture [.cmd 0x29#8, .wait 10, .cmd 0x11#8, .wait 120]).unknown = false := by decide +kernel

/-- V79. -/
theorem test_vendor :
    let t := got (exec (.vendor 0xB1#8 [0x22#8, 0x33#8]) ready)
    t.logical = [.cmd 0xB1#8, .dat 0x22#8, .dat 0x33#8] ∧ t.panel.log = [(0xB1#8, [0x22#8, 0x33#8])] ∧
      t.panel.last = some 0xB1#8 ∧ t.panel.n = 2 := by decide +kernel

/-- V72 and V78, at the receiver. -/
theorem test_receiver :
    (writing.onEvents fixture [.dat 0x07#8, .cmd 0x2A#8]).hi = none ∧
    (known.onEvents fixture [.cmd 0x11#8, .cmd 0x29#8]).unknown = true ∧
    (known.onEvents fixture [.cmd 0x2A#8, .dat 0#8, .dat 0#8, .dat 0#8, .dat 5#8, .dat 9#8]).unknown = true := by
  decide +kernel

/-! ### Witnesses: a state and operands that meet the hypotheses of a statement -/

/-- The codes of 95_test_vectors.md section 2.1 that the witnesses use. -/
def sendCode : Input := .code .req96 [0x10#8, 0x2C#8, 0, 0, 0, 0, 0, 0, 0, 0, 0, 0]
def initCode : Input := .code .req96 [0x20#8, 0, 0, 0, 0, 0, 0, 0, 0, 0, 0, 0]
def unassignedCode : Input := .code .req96 [0x7F#8, 0, 0, 0, 0, 0, 0, 0, 0, 0, 0, 0]

/-- A hung block: chip-select asserted, busy. -/
def hungState : State := got (exec (.sendCommand 0x2A#8) (withWords [.hang 7 false] fresh))

/-- DecodeInvertsEncode: every constructor has a well-formed term. -/
theorem witness_DecodeInvertsEncode :
    fixture.cmdsDistinct = true ∧
    [Instr.wrcmd 1, .wrcolor 2, .sendCommand 3, .sendData 4, .runInit, .fillRect 1 2 3 4 5, .fillScreen 6, .caset 1 2,
        .raset 3 4, .ramwr, .slpout [7], .dispon [8], .vendor 0xB1#8 [9]].all (Instr.wf fixture) = true := by decide +kernel

/-- MasksIdentifyTheTwoWords: a word of each kind, and one of neither (V9). -/
theorem witness_MasksIdentifyTheTwoWords :
    0x02B10000#32 = cmdWord 0xB1#8 ∧ 0x32670000#32 = datWord 0x67#8 ∧
      (∀ c, 0x02B10001#32 ≠ cmdWord c) ∧ (∀ d, 0x02B10001#32 ≠ datWord d) := by decide +kernel

theorem witness_WordIsSentBitByBit : State.reset.rx.cnt = 0 ∧ (31 : Nat) < 32 := by decide +kernel

theorem witness_StepRunsDecodedInstruction :
    fixture.wf = true ∧ (withInputs [sendCode] ready).busy = false ∧
      (withInputs [sendCode] ready).inbox = .code .req96 [0x10#8, 0x2C#8, 0, 0, 0, 0, 0, 0, 0, 0, 0, 0] :: [] ∧
      decode fixture .req96 [0x10#8, 0x2C#8, 0, 0, 0, 0, 0, 0, 0, 0, 0, 0] = .ok (.sendCommand 0x2C#8) := by decide +kernel

theorem witness_UnassignedOperationAnswered :
    (withInputs [unassignedCode] ready).cfg.wf = true ∧ (withInputs [unassignedCode] ready).busy = false ∧
      (withInputs [unassignedCode] ready).inbox = .code .req96 (0x7F#8 :: List.replicate 11 0#8) :: [] ∧
      (List.replicate 11 (0#8 : Byte)).length = 11 ∧
      0x7F#8 ∉ [0x10#8, 0x11#8, 0x20#8, 0x30#8, 0x31#8] := by decide +kernel

/-- EveryRequestAnsweredOnceOrHangs: a request that is answered, one that hangs, and one that a reset abandons. -/
theorem witness_EveryRequestAnsweredOnceOrHangs :
    fixture.wf = true ∧ ready.busy = false ∧ (withInputs [sendCode] ready).inbox = [sendCode] ∧
    (got (step (withInputs [sendCode] ready))).rsps = [.ok] ∧
    (got (step (withInputs [sendCode] (withWords [.hang 0 true] ready)))).busy = true ∧
    (got (step (withInputs [sendCode] (withWords [.reset 4] ready)))).rsps = [] ∧
    (got (step (withInputs [sendCode] (withWords [.reset 4] ready)))).busy = false ∧
    (withWords [.reset 4] ready).env.noReset = false := by decide +kernel

/-- IllFormedConfigurationRefused: a configuration for each clause, the waits one below their minimum. -/
theorem witness_IllFormedConfigurationRefused :
    ({ fixture with tSlpoutMs := 119 } : Config).tSlpoutMs < 120 ∧
    ({ fixture with tDisponMs := 9 } : Config).tDisponMs < 10 ∧
    ({ fixture with tQuietNs := 999 } : Config).tQuietNs < 1000 ∧
    5000000 < ({ fixture with sclkBridgeHz := 5000001 } : Config).sclkBridgeHz ∧
    ¬ ([0x2A#8, 0x2A#8, 0x2C#8, 0x11#8, 0x29#8] : List Byte).Nodup ∧
    (∃ e ∈ [(⟨0xF0#8, [], 0, .ready⟩ : Entry)],
      e.phase = .powerWait ∨ e.phase = .settleDelay120 ∨ e.phase = .settleDelay10 ∨ e.phase = .ready) ∧
    (∃ a b c d e, [(⟨0x29#8, [], 0, .displayOn⟩ : Entry), ⟨0x11#8, [], 0, .sleepOut⟩] = a ++ d :: b ++ e :: c ∧
      e.phase.rank < d.phase.rank) ∧
    (∀ e, segment { fixture with table := [] } .sleepOut = [e] → e.cmd ≠ 0x11#8) ∧
    (∀ e, segment { fixture with table := [⟨0x28#8, [], 0, .displayOn⟩] } .displayOn = [e] → e.cmd ≠ 0x29#8) ∧
    ({ fixture with opcWrcmd := 0x03#8 } : Config).opcWrcmd ≠ 0x02#8 ∧
    ({ fixture with opcWrcolor := 0x33#8 } : Config).opcWrcolor ≠ 0x32#8 ∧
    ({ fixture with wordBits := 31 } : Config).wordBits ≠ 32 ∧ ({ fixture with coordBits := 15 } : Config).coordBits ≠ 16 ∧
    ({ fixture with pixelBits := 18 } : Config).pixelBits ≠ 16 ∧
    ({ fixture with native := { fixture.native with cmdBits := 31 } } : Config).native.cmdBits ≠ 32 ∧
    ({ fixture with native := { fixture.native with paramBits := 9 } } : Config).native.paramBits ≠ 8 ∧
    ({ fixture with sclkBridgeMaxHz := 4000000 } : Config).sclkBridgeMaxHz ≠ 5000000 ∧
    ({ fixture with width := 0 } : Config).width = 0 ∧ 65536 < ({ fixture with width := 65537 } : Config).width ∧
    ({ fixture with height := 0 } : Config).height = 0 ∧ 65536 < ({ fixture with height := 65537 } : Config).height := by
  refine ⟨by decide, by decide, by decide, by decide, by decide, by decide, ⟨[], [], [], _, _, rfl, by decide⟩, ?_, ?_,
    by decide +kernel⟩
  · intro e h
    cases h
  · intro e h
    have h' : [(⟨0x28#8, [], 0, .displayOn⟩ : Entry)] = [e] := h
    cases h'
    decide

/-- ResetOfTheBlock: a reset between operations, one on a hung block behind a held request, and a busy block without one. -/
theorem witness_ResetOfTheBlock :
    fixture.wf = true ∧ (withInputs [.reset] ready).inbox.head? = some .reset ∧ (withInputs [.reset] ready).pins.cs = false ∧
    hungState.cfg.wf = true ∧ (withInputs [sendCode, .reset] hungState).busy = true ∧
      .reset ∈ (withInputs [sendCode, .reset] hungState).inbox ∧ hungState.pins.cs = true ∧
    (withInputs [sendCode] hungState).busy = true ∧ .reset ∉ (withInputs [sendCode] hungState).inbox := by decide +kernel

/-- The block whose second wait of the next operation is cut short by a reset. -/
def cutInAWait : State := { fresh with env := ⟨[], [.elapsed 0, .reset], []⟩ }

/-- ResetInsideAnOperation: the first word of a raw operation; a run cut short inside a wait; a fill cut short inside a word. -/
theorem witness_ResetInsideAnOperation :
    (withWords [.reset 31] ready).cfg.profile = .bridge ∧ (withWords [.reset 31] ready).env.words = .reset 31 :: [] ∧
    (∃ t, exec .runInit cutInAWait = .next t ∧ cutInAWait.env.words = [] ++ t.env.words ∧
      cutInAWait.env.waits = [.elapsed 0, .reset] ++ t.env.waits) ∧
    (∃ t, exec (.fillRect 10 20 12 21 0x07E0#16) (withWords [.sent, .reset 5] ready) = .next t ∧
      (withWords [.sent, .reset 5] ready).env.words = [.sent, .reset 5] ++ t.env.words) ∧
    (got (exec (.fillRect 10 20 12 21 0x07E0#16) (withWords [.sent, .reset 5] ready))).wire
      = perWord 0x022A0000#32 ++ [.csAssert, .csRelease] :=
  ⟨rfl, rfl, ⟨_, next_got (by decide +kernel), by decide +kernel, by decide +kernel⟩,
    ⟨_, next_got (by decide +kernel), by decide +kernel⟩, by decide +kernel⟩

/-- The block after a failed word, with a reset drawn in what is owed before the next. -/
def owedReset : State := { ready with quietDue := 1000, env := ⟨[.hang 0 true], [.reset], []⟩ }

/-- ResetInsideAnOperation, the reset in an owed interval; and the premise of the draws of a first word, where nothing is owed
and where an owed interval elapses (also SendCommandResult, SendDataResult, HangHoldsTheBlock). -/
theorem witness_owed_intervals :
    owedReset.cfg.profile = .bridge ∧ owedReset.pins.cs = false ∧ 0 < owedReset.quietDue ∧
      owedReset.env.waits = .reset :: [] ∧ ready.QuietPasses ∧
      State.QuietPasses { owedReset with env := ⟨[.failed 0], [.elapsed 3, .reset], []⟩ } :=
  ⟨rfl, rfl, by decide +kernel, rfl, fun _ => .inl rfl, fun _ => .inr (by decide +kernel)⟩

/-- A state that meets every invariant and makes a step: StepKeepsRest, StepKeepsTraceImage, StepKeepsFraming,
StepKeepsMemories, StepKeepsReceiver, OnlyTheTwoWordsAreSent, ConfigurationNeverChanges and RecordsOnlyGrow. -/
theorem witness_invariants :
    let s := withInputs [sendCode] ready
    s.AtRest ∧ s.TraceIsImage ∧ s.Framed ∧ s.MemoriesWf ∧ s.panel.WritesInWindow s.cfg ∧ s.panel.GramInPanel s.cfg ∧
      s.panel.LostIsBlank ∧ (∃ t, step s = .next t) ∧ s.env.noReset = true ∧ .reset ∉ s.inbox := by
  refine ⟨fun _ => ⟨⟨rfl, rfl, rfl⟩, ⟨rfl, rfl⟩, .inl ⟨rfl, rfl⟩⟩, fun _ => rfl, ⟨rfl, fun _ => rfl⟩, ⟨rfl, rfl⟩, ?_, ?_, ?_,
    ⟨_, next_got (by decide +kernel)⟩, by decide +kernel, by decide +kernel⟩
  · intro h
    cases h
  · intro c h
    cases h
  · intro h
    cases h

/-- StepKeepsReceiver, in write mode, where `WritesInWindow` says something. -/
theorem witness_StepKeepsReceiver :
    let s := withInputs [sendCode] { ready with panel := writing }
    s.panel.wr = true ∧ s.panel.WritesInWindow s.cfg ∧ ∃ t, step s = .next t :=
  ⟨rfl, fun _ => by decide +kernel, _, next_got (by decide +kernel)⟩

/-- ResponsesByInstruction: one instruction for each response it names. -/
theorem witness_ResponsesByInstruction :
    (got (exec (.sendData 0#8) ready)).rsps = [.ok] ∧
    (got (exec (.sendData 0#8) (withWords [.failed 0] ready))).rsps = [.transportError] ∧
    (got (exec (.fillRect 5 5 4 5 0x001F#16) ready)).rsps = [.configurationError] ∧
    (got (exec (.fillScreen 0#16) fresh)).rsps = [.notReady] ∧
    (got (exec (.fillScreen 0#16) { ready with env := ⟨[], [], [false]⟩ })).rsps = [.allocationError] := by decide +kernel

/-- HandleChangesOnlyByRunInitOrReset: the handle granted, taken away by a failed run, and taken away by a reset. -/
theorem witness_HandleChangesOnlyByRunInitOrReset :
    fresh.ph = false ∧ (got (step (withInputs [initCode] fresh))).ph = true ∧
    ready.ph = true ∧ (got (step (withInputs [initCode] (withWords [.failed 0] ready)))).ph = false ∧
    (got (step (withInputs [.reset] ready))).ph = false ∧
    (got (step (withInputs [sendCode] (withWords [.reset 4] ready)))).ph = false := by decide +kernel

theorem witness_UnknownEndsOnlyByRunInit :
    fresh.panel.unknown = true ∧ isNext (step (withInputs [initCode] fresh)) = true ∧
      (got (step (withInputs [initCode] fresh))).panel.unknown = false := by decide +kernel

/-- BlockNeverReadsThePanel: two states that differ in the receiver, and a step of each outcome. -/
theorem witness_BlockNeverReadsThePanel :
    ready.blockView = ({ ready with panel := writing, rx := ⟨1, 1⟩, free := 6 } : State).blockView ∧
    (∃ t, step (withInputs [sendCode] ready) = .next t) ∧ (∃ f, step hungState = .fault f) ∧
      ∃ e, step (withInputs [.code .cmd8 []] ready) = .refused e := by
  refine ⟨rfl, ⟨_, next_got (by decide +kernel)⟩, ?_, ?_⟩
  · have h : (match step hungState with | .fault _ => true | .next _ => false | .refused _ => false) = true := by
      decide +kernel
    revert h
    cases step hungState with
    | next t => intro h; cases h
    | fault f => intro _; exact ⟨f, rfl⟩
    | refused r => intro h; cases h
  · have h : (match step (withInputs [.code .cmd8 []] ready) with
        | .refused _ => true | .next _ => false | .fault _ => false) = true := by decide +kernel
    revert h
    cases step (withInputs [.code .cmd8 []] ready) with
    | next t => intro h; cases h
    | fault f => intro h; cases h
    | refused r => intro _; exact ⟨r, rfl⟩

/-- SendCommandResult, SendDataResult, WireWordResult: an environment without a failure; a failed word; the bridge. -/
theorem witness_words :
    ready.env.clean = true ∧ (withWords [.failed 31] ready).env.words = .failed 31 :: [] ∧ ready.cfg.profile = .bridge ∧
      ready.BusIdle := ⟨by decide +kernel, rfl, rfl, rfl, rfl, rfl⟩

/-- The block in which the second byte of the third pixel of a fill hangs. -/
def midFill : State := withWords (List.replicate 16 .sent ++ [.hang 3 false]) ready

/-- HangHoldsTheBlock: the first word of a raw operation, and a word in the middle of a fill. -/
theorem witness_HangHoldsTheBlock :
    (withWords [.hang 0 true] ready).cfg.profile = .bridge ∧ (withWords [.hang 0 true] ready).cfg.wf = true ∧
      (withWords [.hang 0 true] ready).env.words = .hang 0 true :: [] ∧ .reset ∉ [sendCode] ∧
    (midFill).cfg.wf = true ∧ midFill.busy = false ∧
    (∃ t, exec (.fillRect 10 20 12 21 0x07E0#16) midFill = .next t ∧ t.busy = true ∧
      midFill.env.words = (List.replicate 16 .sent ++ [.hang 3 false]) ++ t.env.words) ∧
    ∃ t, exec .runInit (withWords [.hang 0 false] { ready with cfg := { fixture with profile := .native } }) = .next t ∧
      t.env.words = [] :=
  ⟨rfl, by decide +kernel, rfl, by decide +kernel, by decide +kernel, rfl,
    ⟨_, next_got (by decide +kernel), by decide +kernel, by decide +kernel⟩, _, next_got (by decide +kernel), by decide +kernel⟩

/-- ErrorsArePrecise, the draw of a failed word: inside a panel command, in the bridge and in the native profile. -/
theorem witness_ErrorsArePrecise :
    (∃ t, exec (.caset 1 2) (withWords [.sent, .failed 5] ready) = .next t ∧
      (withWords [.sent, .failed 5] ready).env.words = [.sent, .failed 5] ++ t.env.words ∧
      t.rsps = ready.rsps ++ [.transportError]) ∧
    ∃ t, exec (.fillScreen 0#16) (withWords [.failed 0] { ready with cfg := { fixture with profile := .native } }) = .next t ∧
      t.env.words = [] ∧ t.rsps = [] ++ [.transportError] :=
  ⟨⟨_, next_got (by decide +kernel), by decide +kernel, by decide +kernel⟩, _, next_got (by decide +kernel), by decide +kernel,
    by decide +kernel⟩

/-- ErrorsArePrecise, RunInitFailure and FillFailure: a run and a fill that fail. -/
theorem witness_failures :
    (∃ t, exec .runInit (withWords [.failed 0] ready) = .next t ∧ t.rsps = [] ++ [.transportError]) ∧
    (∃ t, exec (.fillRect 10 20 12 21 0x07E0#16) (withWords (List.replicate 12 .sent ++ [.failed 0]) ready) = .next t ∧
      t.rsps = [] ++ [.transportError]) ∧
    (∃ t, exec (.fillScreen 0#16) (withWords [.failed 0] ready) = .next t ∧ t.rsps = [] ++ [.transportError]) ∧
    ∃ t, exec (.fillRect 5 5 4 5 0x001F#16) ready = .next t ∧ t.rsps = [] ++ [.configurationError] :=
  ⟨⟨_, next_got (by decide +kernel), by decide +kernel⟩, ⟨_, next_got (by decide +kernel), by decide +kernel⟩,
    ⟨_, next_got (by decide +kernel), by decide +kernel⟩, ⟨_, next_got (by decide +kernel), by decide +kernel⟩⟩

theorem witness_RegistersFrame :
    ready.env.noReset = true ∧ (∃ t, exec .ramwr ready = .next t) ∧ ∃ t, exec (.fillScreen 0#16) fresh = .next t :=
  ⟨by decide +kernel, ⟨_, rfl⟩, _, rfl⟩

/-- FrameMemoryFrame: a data byte that stores, and a command that does not. -/
theorem witness_FrameMemoryFrame :
    let s := { ready with panel := { writing with hi := some 0x07#8 } }
    s.env.noReset = true ∧ s.cfg.wf = true ∧ Instr.wf s.cfg (.sendData 0xE0#8) = true ∧
      s.panel.storesAt s.cfg = some 14420 ∧ (got (exec (.sendData 0xE0#8) s)).panel.unknown = false ∧
      Instr.wf s.cfg (.vendor 0xB1#8 [1#8]) = true ∧ (got (exec (.vendor 0xB1#8 [1#8]) s)).panel.unknown = false := by
  decide +kernel

/-- SEND_DATA of the low byte of a pixel, with this hang drawn. -/
def hangs (n : Nat) (high : Bool) : State :=
  withInputs [.code .req96 [0x11#8, 0xE0#8, 0, 0, 0, 0, 0, 0, 0, 0, 0, 0]]
    (withWords [.hang n high] { ready with panel := { writing with hi := some 0x07#8 } })

/-- FrameMemoryFrame, a word that hangs as late as it can: nothing on the logical stream, and nothing of it in the receiver
(20_memory.md R50), which has counted 31 edges; a RUN_INIT that hangs, and one that recovers the receiver. -/
theorem witness_FrameMemoryFrame_writes :
    (∃ t, step (hangs 32 true) = .next t ∧ t.busy = true ∧ t.rx.cnt = 31 ∧ t.logical = (hangs 32 true).logical ++ [] ∧
      t.panel = (hangs 32 true).panel) ∧
    (got (step (hangs 30 true))).rx.cnt = 31 ∧ (got (step (hangs 30 true))).panel = (hangs 30 true).panel ∧
    (got (step (withInputs [initCode] (withWords [.sent, .hang 9 true] ready)))).panel.last = some 0xF0#8 ∧
    isNext (step (withInputs [initCode] fresh)) = true :=
  ⟨⟨_, next_got (by decide +kernel), by decide +kernel⟩, by decide +kernel⟩

/-- DataByteStoresThePixel: pixel (20, 10) of 360 columns is at 2 * (20 * 360 + 10). -/
theorem witness_DataByteStoresThePixel :
    let s := { ready with panel := { writing with hi := some 0x07#8 } }
    s.env.clean = true ∧ s.cfg.cmdsDistinct = true ∧ s.panel.storesAt s.cfg = some 14420 ∧ s.panel.hi = some 0x07#8 ∧
      s.panel.keepsOrder s.cfg [.dat 0xE0#8] = true := by
  decide +kernel

/-- The receiver of V40 at a place of its window, with a high byte pending. -/
def pendingAt (row col : U16) : State :=
  { ready with panel := { writing with hi := some 0x07#8, row := row, col := col } }

/-- DataByteStoresThePixel, row-major (43_panel_receiver.md R199): inside a row, at its last column, at the last pixel. -/
theorem witness_DataByteStoresThePixel_position :
    let p := fun row col => (got (exec (.sendData 0xE0#8) (pendingAt row col))).panel
    ((p 20 11).row = 20 ∧ (p 20 11).col = 12 ∧ (p 20 11).wr = true) ∧
    ((p 20 12).row = 21 ∧ (p 20 12).col = 10 ∧ (p 20 12).wr = true) ∧
    ((p 21 11).row = 21 ∧ (p 21 11).col = 12 ∧ (p 21 11).wr = true) ∧ (p 21 12).wr = false ∧
    [(20, 11), (20, 12), (21, 11), (21, 12)].all (fun a =>
      let s := pendingAt a.1 a.2
      (s.panel.storesAt s.cfg).isSome && s.panel.keepsOrder s.cfg [.dat 0xE0#8]) = true := by
  decide +kernel

/-- The fixture where the run's word `n` hangs. -/
def midRun (n : Nat) : State := withWords (List.replicate n .sent ++ [.hang 3 false]) ready

/-- RunInitResult, inside a run (95_test_vectors.md section 3.2, position during the run): word 0, the words 4 to 6 of the
entry at index 2, and the last word; the handle that the run before had granted is cleared. -/
theorem witness_RunInitResult_position :
    (midRun 0).cfg.wf = true ∧ (midRun 0).busy = false ∧ (midRun 0).ph = true ∧
    (∃ t, exec .runInit (midRun 6) = .next t ∧ t.busy = true ∧ t.ph = false ∧ t.seq = ⟨.registerBurst, 2, 1⟩ ∧
      t.logical = [] ++ [.wait 5, .cmd 0xF0#8, .dat 0x01#8, .cmd 0xB0#8, .dat 0x11#8, .cmd 0xB1#8, .dat 0x22#8]) ∧
    (got (exec .runInit (midRun 0))).seq = ⟨.pageUnlock, 0, 0⟩ ∧ (got (exec .runInit (midRun 0))).busy = true ∧
    (got (exec .runInit (midRun 4))).seq = ⟨.registerBurst, 2, 0⟩ ∧
    (got (exec .runInit (midRun 5))).seq = ⟨.registerBurst, 2, 0⟩ ∧
    (got (exec .runInit (midRun 18))).seq = ⟨.displayOn, 8, 0⟩ ∧ (got (exec .runInit (midRun 18))).ph = false :=
  ⟨by decide +kernel, by decide +kernel, by decide +kernel,
    ⟨_, next_got (by decide +kernel), by decide +kernel⟩, by decide +kernel⟩

/-- RunInitResult, RunInitMakesThePanelReady, InitStreamIsTheTable, EveryRunSettles. -/
theorem witness_runs : ready.cfg.wf = true ∧ ready.env.clean = true ∧ fresh.cfg.wf = true ∧ fresh.env.clean = true := by
  decide +kernel

/-- RerunSendsTheSameStream: a first run and a run again (V34). -/
theorem witness_RerunSendsTheSameStream :
    fresh.cfg = ready.cfg ∧ (∃ t, exec .runInit fresh = .next t ∧ t.rsps = [] ++ [.ok]) ∧
      ∃ v, exec .runInit ready = .next v ∧ v.rsps = [] ++ [.ok] :=
  ⟨rfl, ⟨_, next_got (by decide +kernel), by decide +kernel⟩, _, next_got (by decide +kernel), by decide +kernel⟩

theorem witness_RunInitFrame :
    ready.cfg.wf = true ∧ (∃ t, exec .runInit ready = .next t ∧ t.rsps = [] ++ [.ok]) ∧
      (∀ e ∈ ready.cfg.table, e.cmd ≠ ready.cfg.cmdRamwr) ∧
      (ready.panel.restartReplay.onEvents ready.cfg (initStream ready.cfg)).unknown = false :=
  ⟨by decide +kernel, ⟨_, next_got (by decide +kernel), by decide +kernel⟩, by decide +kernel, by decide +kernel⟩

/-- FillRectResult, FillWireTrace, FillPaintsTheRectangle, FillFrame: one pixel in the last corner (V42); both settings of
FW_BURST. -/
theorem witness_fills :
    let s := ready
    s.cfg.profile = .bridge ∧ s.cfg.fwVariant = .singleWindow ∧ s.cfg.cmdsDistinct = true ∧ s.ph = true ∧
      s.env.clean = true ∧ s.env.noReset = true ∧ s.env.buffers = true ∧ (359#16).toNat ≤ (359#16).toNat ∧
      (359#16).toNat < s.cfg.width ∧ (359#16).toNat < s.cfg.height ∧ s.panel.unknown = false ∧ s.panel.settling = none ∧
      s.cfg.fwBurst = false ∧ ({ fixture with fwBurst := true } : Config).fwBurst = true ∧
      (got (exec (.fillRect 359 359 359 359 0x1234#16) s)).panel.unknown = false ∧ s.cfg.wf = true ∧
      s.cfg.cmdSlpout ∉ (s.panel.log.drop s.panel.replayFrom).map Prod.fst ∧
      s.panel.keepsOrder s.cfg (rectStream s.cfg 359 359 359 359 0x1234#16) = true := by decide +kernel

/-- FillRectByRows, over the whole height of a panel of the last rows, and FillWireTrace there, by the per-word path. -/
theorem witness_FillRectByRows :
    let s := { ready with cfg := { fixture with fwVariant := .rowBitmap } }
    s.cfg.profile = .bridge ∧ s.cfg.fwBurst = false ∧ s.cfg.fwVariant = .rowBitmap ∧ s.ph = true ∧ s.env.clean = true ∧ s.env.buffers = true ∧
      (0#16).toNat ≤ (359#16).toNat ∧ (359#16).toNat < s.cfg.width ∧ (359#16).toNat < s.cfg.height := by decide +kernel

/-- FillScreenResult, at the smallest and the largest size. -/
theorem witness_FillScreenResult :
    ready.cfg.sizeOk = true ∧ ready.ph = true ∧ ready.env.clean = true ∧ ready.env.buffers = true ∧
      ({ fixture with width := 1, height := 1 } : Config).sizeOk = true ∧
      ({ fixture with width := 65536, height := 65536 } : Config).sizeOk = true := by decide +kernel

theorem witness_FillCounts :
    fixture.fwVariant = .singleWindow ∧ fixture.width = 360 ∧ fixture.height = 360 ∧
      ({ fixture with fwVariant := .rowBitmap } : Config).fwVariant = .rowBitmap := by decide +kernel

/-- MalformedRectangleRejected: each clause at its boundary (V50, V51, V52, V54). -/
theorem witness_MalformedRectangleRejected :
    (4#16).toNat < (5#16).toNat ∧ ready.cfg.width ≤ (360#16).toNat ∧ ready.cfg.height ≤ (360#16).toNat ∧
      (got (exec (.fillRect 5 5 5 4 0x001F#16) ready)).rsps = [.configurationError] ∧
      (got (exec (.fillRect 0 0 360 0 0xFFFF#16) ready)).rsps = [.configurationError] ∧
      (got (exec (.fillRect 0 0 0 360 0xFFFF#16) ready)).rsps = [.configurationError] ∧
      (got (exec (.fillRect 0xFFFF#16 0 0 0 0) ready)).rsps = [.configurationError] := by decide +kernel

/-- NotReadyWithoutTheHandle (V56, V57). -/
theorem witness_NotReadyWithoutTheHandle :
    fresh.ph = false ∧ (0#16).toNat ≤ (359#16).toNat ∧ (359#16).toNat < fresh.cfg.width ∧ (359#16).toNat < fresh.cfg.height ∧
      fresh.cfg.sizeOk = true := by decide +kernel

/-- AllocationFailureEndsTheFill (V58). -/
theorem witness_AllocationFailureEndsTheFill :
    let s := { ready with env := ⟨[], [], [false]⟩ }
    s.ph = true ∧ s.env.allocs = false :: [] ∧ (0#16).toNat ≤ (359#16).toNat ∧ (359#16).toNat < s.cfg.width ∧
      (359#16).toNat < s.cfg.height ∧ s.cfg.sizeOk = true ∧ s.env.clean = true ∧
      ∃ t, exec (.fillRect 10 20 12 21 0x07E0#16) s = .next t ∧ t.rsps = [] ++ [.allocationError] :=
  ⟨rfl, rfl, by decide, by decide +kernel, by decide +kernel, by decide +kernel, by decide +kernel, _,
    next_got (by decide +kernel), by decide +kernel⟩

/-- The block in the ROW_BITMAP variant, in which the thirty-first word hangs. -/
def midRow : State :=
  withWords (List.replicate 30 .sent ++ [.hang 0 false]) { ready with cfg := { fixture with fwVariant := .rowBitmap } }

/-- FillCountsItsPixels, in both variants and by both paths: where the second byte of the third pixel hangs, four pixels
remain of six; where the first byte of the second row's second pixel hangs, two do, and the row is 21. -/
theorem witness_FillCountsItsPixels :
    midFill.busy = false ∧
    (∃ t, exec (.fillRect 10 20 12 21 0x07E0#16) midFill = .next t ∧ t.busy = true ∧
      t.logical = [] ++ (rectWindow ++ rectPixels.take 5) ∧ t.fwLeft = 4) ∧
    (got (exec (.fillRect 10 20 12 21 0x07E0#16) { midFill with cfg := { fixture with fwBurst := true } })).fwLeft = 4 ∧
    (∃ t, exec (.fillRect 10 20 12 21 0x07E0#16) midRow = .next t ∧ t.busy = true ∧ t.logical.length = 30 ∧ t.fwLeft = 2 ∧
      t.fwRow = 21) :=
  ⟨rfl, ⟨_, next_got (by decide +kernel), by decide +kernel⟩, by decide +kernel,
    ⟨_, next_got (by decide +kernel), by decide +kernel⟩⟩

/-- A configuration whose table is one entry, sleep-out and display-on. -/
def oneEntry (c : Byte) (ps : List Byte) : Config :=
  { fixture with
    table := [⟨c, ps, 0, .displayModeConfig⟩, ⟨0x11#8, [], 120, .sleepOut⟩, ⟨0x29#8, [], 10, .displayOn⟩] }

/-- A receiver that got sleep-out and display-on, and the entry whose place is before them not yet. -/
def late : Panel := { known with log := [(0x11#8, []), (0x29#8, [])] }

/-- WindowCommandsResult, MemoryWriteResult, SettledCommandsResult and VendorResult: the commands in order, and each as the last
of a table in another order; a sleep-out with a parameter byte leaves the receiver unknown. -/
theorem witness_panel_commands :
    (ready.env.clean = true ∧ ready.cfg.cmdsDistinct = true ∧ ready.cfg.wf = true ∧ ready.panel.unknown = false ∧
      ready.panel.settling = none ∧ Instr.wf ready.cfg (.vendor 0xB1#8 [0x22#8, 0x33#8]) = true) ∧
    ((got (exec (.slpout [0#8]) ready)).panel.unknown = true ∧ (got (exec (.dispon [0#8]) ready)).panel.unknown = true) ∧
    ([groupStream 0x2A#8 (coordBytes 10 12), groupStream 0x2B#8 (coordBytes 20 21), [.cmd 0x2C#8], [.cmd 0x11#8], [.cmd 0x29#8],
      groupStream 0xB1#8 [0x22#8, 0x33#8]].all fun es => ready.panel.keepsOrder ready.cfg es) = true ∧
    (oneEntry 0x2A#8 (coordBytes 10 12)).wf = true ∧
    (late.keepsOrder (oneEntry 0x2A#8 (coordBytes 10 12)) (groupStream 0x2A#8 (coordBytes 10 12)) = false ∧
      late.keepsOrder (oneEntry 0x2B#8 (coordBytes 20 21)) (groupStream 0x2B#8 (coordBytes 20 21)) = false ∧
      late.keepsOrder (oneEntry 0x2C#8 []) [.cmd 0x2C#8] = false ∧
      late.keepsOrder (oneEntry 0xB1#8 [0x22#8]) (groupStream 0xB1#8 [0x22#8]) = false ∧
      { known with log := [(0x29#8, []), (0xB1#8, [])] }.keepsOrder (oneEntry 0xB1#8 []) [.cmd 0x11#8] = false ∧
      { known with log := [(0x11#8, []), (0xB1#8, [])] }.keepsOrder (oneEntry 0xB1#8 []) [.cmd 0x29#8] = false) ∧
    (known.log.length + 1 < known.replayFrom + fixture.table.length) := by
  decide +kernel

/-- MemoryWriteResult: a window that ends in the last column and row, and a malformed one for each clause, at its boundary. -/
theorem witness_MemoryWriteResult :
    (got (exec .ramwr { ready with panel := { known with xe := 359, ye := 359 } })).panel.wr = true ∧
    (got (exec .ramwr { ready with panel := { known with xs := 1 } })).panel.unknown = true ∧
    (got (exec .ramwr { ready with panel := { known with ys := 1 } })).panel.unknown = true ∧
    (got (exec .ramwr { ready with panel := { known with xe := 360 } })).panel.unknown = true ∧
    (got (exec .ramwr { ready with panel := { known with ye := 360 } })).panel.unknown = true := by decide +kernel

theorem witness_HalfPixelStaysPending :
    fixture.cmdsDistinct = true ∧ writing.unknown = false ∧ writing.settling = none ∧ writing.last = some fixture.cmdRamwr ∧
      writing.wr = true ∧ writing.hi = none ∧ 0x2A#8 ≠ fixture.cmdRamwr ∧
      writing.keepsOrder fixture [.dat 7#8] = true ∧ writing.keepsOrder fixture [.dat 7#8, .cmd 0x2A#8] = true ∧
      writing.keepsOrder fixture [.dat 7#8, .dat 8#8] = true := by decide +kernel

/-- ReceiverBecomesUnknown: a receiver for each clause, the window bytes at the fifth. -/
theorem witness_ReceiverBecomesUnknown :
    known.last = none ∧ ({ known with last := some 0x2A#8, n := 4 } : Panel).last = some fixture.cmdCaset ∧
    ({ known with last := some 0x2B#8, n := 4 } : Panel).last = some fixture.cmdRaset ∧
    ({ writing with wr := false } : Panel).last = some fixture.cmdRamwr ∧
    ({ known with settling := some .sleepOut } : Panel).settling ≠ none ∧
    (∀ b, 0x32000100#32 ≠ cmdWord b) ∧ (∀ b, 0x32000100#32 ≠ datWord b) ∧
    (late.onEvent (oneEntry 0xB1#8 []) (.cmd 0xB1#8)).unknown = true ∧
    ({ late with last := some 0xB1#8, log := late.log ++ [(0xB1#8, [])] }.onEvent (oneEntry 0xB1#8 [0x22#8]) (.dat 0x22#8)).unknown
      = true ∧
    ([(0x11#8, []), (0x29#8, []), (0xB1#8, [0x22#8])] : List (Byte × List Byte)).Perm
      (Panel.tableLog (oneEntry 0xB1#8 [0x22#8])) ∧
    Panel.lost.unknown = true := by decide +kernel

/-- The backlight of the figures of S13, set up on channel 2. -/
def lit : State := got (step (withInputs [.backlight 9 2 5000 8] fresh))

/-- PlatformDevices: both transactions accepted, at the expander's address and at another; either one rejected; the figures
of S13; the largest duty, one above it, and a channel that is not configured. -/
theorem witness_PlatformDevices :
    (got (step (withInputs [.expander 0x20#7 true true] fresh))).plat.expOut = 0xFF#8 ∧
    (got (step (withInputs [.expander 0x21#7 true true] fresh))).plat.expOut = 0x00#8 ∧
    (got (step (withInputs [.expander 0x21#7 true true] fresh))).plat.expRsp = .ok ∧
    (got (step (withInputs [.expander 0x20#7 false true] fresh))).plat.expRsp = .busError ∧
    (got (step (withInputs [.expander 0x20#7 true false] fresh))).plat.expRsp = .busError ∧
    lit.plat.duty = 204 ∧ lit.plat.pwmOn = true ∧
    (got (step (withInputs [.setDuty 2 255] lit))).plat.duty = 255 ∧
    isNext (step (withInputs [.setDuty 2 256] lit)) = true ∧
    (got (step (withInputs [.setDuty 2 256] lit))).plat.pwmRsp = .ok ∧
    (got (step (withInputs [.setDuty 0 0] lit))).plat.pwmRsp = .configurationError ∧
    (got (step (withInputs [.setDuty 0 0] fresh))).plat.pwmRsp = .configurationError ∧
    (got (step (withInputs [.selfTest 2] lit))).plat.pwmRsp = .ok ∧
    (got (step (withInputs [.selfTest 0] lit))).plat.pwmRsp = .configurationError ∧
    (got (step (withInputs [.selfTest 2] fresh))).plat.pwmRsp = .configurationError := by
  decide +kernel

/-- The backlight with a ramp of one level on its way, half, to dim, a fifth, 1000 ns a duty, and another brightness set. -/
def ramping : State :=
  withInputs [.selfTest 2]
    { lit with cfg := { fixture with rampLevels := [50], rampDim := 20, rampDelayNs := 1000 }, plat := { lit.plat with duty := 7 } }

/-- The self-test (60_exceptions.md R240): full, dim, full three times, then the steady-state duty; the block is as before. -/
theorem test_selfTest :
    let t := got (step ramping)
    t.plat.ramp = [255, 127, 51, 127, 255, 127, 51, 127, 255, 127, 51, 127, 255] ∧ t.plat.duty = 204 ∧
      t.now = ramping.now + 13 * 1000 ∧ t.ph = ramping.ph ∧ t.rsps = ramping.rsps := by decide +kernel

end Sys2Proof.Tests
end

section
/-! The encoding family (30_encoding.md): a pixel and its two bytes. -/

namespace Sys2Proof
open Machine

theorem pixelBytes_one (p : U16) : pixelBytes p 1 = [hiByte p, loByte p] := rfl

/-- The inverse of the split, `p = hi * 256 + lo` (30_encoding.md R80). -/
theorem toNat_eq_hiByte_loByte (p : U16) : p.toNat = (hiByte p).toNat * 256 + (loByte p).toNat := by
  rw [← u16_toNat, u16_hi_lo]

/-- Settles O4: joining the two bytes of a pixel gives it back (`u16_hi_lo`), so the value of the join is the pixel's. -/
theorem pixelBytesRoundTrip : Obligations.PixelBytesRoundTrip := fun p =>
  ⟨pixelBytes_one p, toNat_eq_hiByte_loByte p, u16_hi_lo p⟩

end Sys2Proof
end

section
/-! The receiver family (43_panel_receiver.md): the block never reads the receiver (R201). An instruction does not depend on it
(`exec_blind`); here the same is said of what a step finds, and with it of the step. -/

namespace Sys2Proof.Machine

/-- What a step finds, seen without the receiver. -/
def Fetched.blockView : Fetched → Fetched
  | .run i s => .run i s.blockView
  | .stay s => .stay s.blockView
  | .stuck f => .stuck f
  | .refuse r => .refuse r

/-- How a step ends, seen without the receiver. -/
def outcomeView : Host.Outcome State Fault Refusal → Host.Outcome State Fault Refusal
  | .next s => .next s.blockView
  | .fault f => .fault f
  | .refused r => .refused r

theorem outcomeView_eq_next {o : Host.Outcome State Fault Refusal} {t : State} :
    outcomeView o = .next t ↔ ∃ v, o = .next v ∧ v.blockView = t := by
  cases o <;> simp [outcomeView]

theorem outcomeView_eq_fault {o : Host.Outcome State Fault Refusal} {f : Fault} :
    outcomeView o = .fault f ↔ o = .fault f := by
  cases o <;> simp [outcomeView]

theorem outcomeView_eq_refused {o : Host.Outcome State Fault Refusal} {r : Refusal} :
    outcomeView o = .refused r ↔ o = .refused r := by
  cases o <;> simp [outcomeView]

/-! ### What a step finds -/

theorem blind_selfTest (chan : Nat) : BlindOp State.blockView (selfTest chan) := by
  intro s
  have hplat : s.blockView.plat = s.plat := rfl
  unfold selfTest
  rw [hplat]
  split <;> rfl

theorem fetchUndecoded_view (e : DecodeError) (s : State) :
    (fetchUndecoded e s).blockView = (fetchUndecoded e s.blockView).blockView := by
  cases e <;> rfl

theorem fetchCode_view (f : Format) (bytes : List Byte) (s : State) :
    (fetchCode f bytes s).blockView = (fetchCode f bytes s.blockView).blockView := by
  have hcfg : s.blockView.cfg = s.cfg := rfl
  unfold fetchCode
  rw [hcfg]
  cases decode s.cfg f bytes with
  | ok i => rfl
  | error e => exact fetchUndecoded_view e s

theorem fetchIdle_view (s : State) : (fetchIdle s).blockView = (fetchIdle s.blockView).blockView := by
  have hinbox : s.blockView.inbox = s.inbox := rfl
  unfold fetchIdle
  rw [hinbox]
  cases s.inbox with
  | nil => rfl
  | cons x r =>
    cases x with
    | code f bytes => exact fetchCode_view f bytes { s with inbox := r }
    | selfTest chan => exact congrArg Fetched.stay (blind_selfTest chan { s with inbox := r })
    | reset => rfl
    | idle ns => rfl
    | expander addr dirAck outAck => rfl
    | backlight pin chan hz bits => rfl
    | setDuty chan duty => rfl

theorem fetchBusy_view (s : State) : (fetchBusy s).blockView = (fetchBusy s.blockView).blockView := by
  have hinbox : s.blockView.inbox = s.inbox := rfl
  unfold fetchBusy
  rw [hinbox]
  split <;> rfl

theorem fetch_view (s : State) : (fetch s).blockView = (fetch s.blockView).blockView := by
  cases hw : s.cfg.wf with
  | false => rw [fetch_wf hw, fetch_wf (s := s.blockView) hw]
  | true =>
    cases hb : s.busy with
    | true => rw [fetch_busy hw hb, fetch_busy (s := s.blockView) hw hb, fetchBusy_view]
    | false => rw [fetch_idle hw hb, fetch_idle (s := s.blockView) hw hb, fetchIdle_view]

/-! ### The step -/

/-- What a step does with what it finds. -/
def perform : Fetched → Host.Outcome State Fault Refusal
  | .run i t => exec i t
  | .stay t => .next t
  | .stuck f => .fault f
  | .refuse r => .refused r

theorem step_eq_perform (s : State) : step s = perform (fetch s) := by
  unfold step
  cases fetch s <;> rfl

theorem exec_view (i : Instr) (s : State) : outcomeView (exec i s) = outcomeView (exec i s.blockView) := by
  obtain ⟨t, u, ht, hu, htu⟩ := exec_blind i s
  rw [ht, hu]
  exact congrArg Host.Outcome.next htu

theorem perform_view (q : Fetched) : outcomeView (perform q) = outcomeView (perform q.blockView) := by
  cases q with
  | run i s => exact exec_view i s
  | stay s => rfl
  | stuck f => rfl
  | refuse r => rfl

/-- A step depends on what is seen without the receiver alone. -/
theorem step_view (s : State) : outcomeView (step s) = outcomeView (step s.blockView) := by
  rw [step_eq_perform, step_eq_perform, perform_view, fetch_view, ← perform_view]

theorem outcomeView_step_congr {s u : State} (h : s.blockView = u.blockView) :
    outcomeView (step s) = outcomeView (step u) := by
  rw [step_view s, h, ← step_view u]

end Sys2Proof.Machine

namespace Sys2Proof
open Machine

/-- Settles O25: two states that look alike without the receiver make steps that look alike so (`outcomeView_step_congr`), and
that view keeps which of the three ends a step has, with the reason of a fault or a refusal. -/
theorem blockNeverReadsThePanel : Obligations.BlockNeverReadsThePanel := by
  intro s u h
  have hstep : outcomeView (step u) = outcomeView (step s) := (outcomeView_step_congr h).symm
  refine ⟨fun t ht => ?_, fun f hf => ?_, fun e he => ?_⟩
  · rw [ht] at hstep
    exact outcomeView_eq_next.1 hstep
  · rw [hf] at hstep
    exact outcomeView_eq_fault.1 hstep
  · rw [he] at hstep
    exact outcomeView_eq_refused.1 hstep

end Sys2Proof
end

section
/-! The exceptions family (60_exceptions.md): the buffer a fill cannot obtain (R213). A fill that passes its checks either is
refused its buffer, and then its end is written out here, or runs, and with a clean environment returns OK; that nothing else
ends in ALLOCATION_ERROR is read off the ends of an instruction (`exec_ends`). -/

namespace Sys2Proof.Machine

/-! ### Responses -/

/-- The end of an instruction, from the state it answered. -/
theorem ends_of_exec {i : Instr} {s t : State} (h : exec i s = .next t) : Ends i s t := by
  obtain ⟨u, hu, hends⟩ := exec_ends i s
  cases hu.symm.trans h
  exact hends

/-- An operation delivers one response. -/
theorem State.Answered.unique {r r' : Resp} {s t : State} (h : State.Answered r s t) (h' : t.rsps = s.rsps ++ [r']) : r = r' := by
  obtain ⟨-, -, hrsps⟩ := h
  simpa using hrsps.symm.trans h'

theorem rsps_ne_append {s t : State} (r : Resp) (h : t.rsps = s.rsps) : t.rsps ≠ s.rsps ++ [r] := by
  simp [h]

/-! ### A fill that was accepted -/

/-- A fill once its request is accepted and its operands are in place. -/
def acceptFill (i : Instr) (s : State) : State := { s with x := operandsAfter i s, busy := true }

theorem isFill_cases {i : Instr} (h : isFill i = true) :
    (∃ x0 y0 x1 y1 p, i = .fillRect x0 y0 x1 y1 p) ∨ ∃ p, i = .fillScreen p := by
  cases i with
  | fillRect x0 y0 x1 y1 p => exact .inl ⟨x0, y0, x1, y1, p, rfl⟩
  | fillScreen p => exact .inr ⟨p, rfl⟩
  | _ => cases h

theorem exec_fill {i : Instr} (h : isFill i = true) (s : State) : exec i s = .next (finishFill (fill (acceptFill i s))) := by
  obtain ⟨x0, y0, x1, y1, p, rfl⟩ | ⟨p, rfl⟩ := isFill_cases h <;> rfl

theorem validRect_fillRect {x0 y0 x1 y1 : U16} (p : U16) {s : State} (hx : x0.toNat ≤ x1.toNat) (hy : y0.toNat ≤ y1.toNat)
    (hw : x1.toNat < s.cfg.width) (hh : y1.toNat < s.cfg.height) :
    validRect s.cfg (operandsAfter (.fillRect x0 y0 x1 y1 p) s) = true := by
  simp [validRect, operandsAfter, hx, hy, hw, hh]

theorem validRect_fillScreen (p : U16) {s : State} (h : s.cfg.sizeOk = true) :
    validRect s.cfg (operandsAfter (.fillScreen p) s) = true :=
  validRect_fullScreen h rfl rfl rfl rfl

/-- The rectangle of a fill comes from its request and the configuration alone. -/
theorem validRect_of_cfg_eq {i : Instr} (h : isFill i = true) {s t : State} (hc : t.cfg = s.cfg)
    (hv : validRect s.cfg (operandsAfter i s) = true) : validRect t.cfg (operandsAfter i t) = true := by
  obtain ⟨x0, y0, x1, y1, p, rfl⟩ | ⟨p, rfl⟩ := isFill_cases h <;>
    (unfold validRect operandsAfter; rw [hc]; exact hv)

theorem fillCheck_acceptFill {i : Instr} {s : State} (hv : validRect s.cfg (operandsAfter i s) = true) (hp : s.ph = true) :
    fillCheck (acceptFill i s) = none :=
  fillCheck_none.2 ⟨hv, hp⟩

theorem allocDraw_of_buffers {s : State} (h : ∀ b ∈ s.env.allocs, b = true) : allocDraw s = true := by
  unfold allocDraw
  cases hl : s.env.allocs with
  | nil => rfl
  | cons b bs => exact h b (by simp [hl])

/-! ### With and without the buffer -/

/-- What a fill that was refused its buffer leaves. -/
def afterRefusal (i : Instr) (s : State) : State :=
  raise .allocationError (releaseBuffer (popAlloc (acceptFill i s)))

@[simp] theorem afterRefusal_cfg (i : Instr) (s : State) : (afterRefusal i s).cfg = s.cfg := rfl

theorem exec_fill_noBuffer {i : Instr} (hf : isFill i = true) {s : State} (hv : validRect s.cfg (operandsAfter i s) = true)
    (hp : s.ph = true) (ha : allocDraw s = false) : exec i s = .next (afterRefusal i s) := by
  rw [exec_fill hf, fill_noBuffer (fillCheck_acceptFill hv hp) ha]
  rfl

/-- A fill that passes its checks, gets its buffer and meets a clean environment returns OK (42_frame_writer.md R160, R175). -/
theorem exec_fill_ok {i : Instr} (hf : isFill i = true) {s : State} (hv : validRect s.cfg (operandsAfter i s) = true)
    (hp : s.ph = true) (ha : allocDraw s = true) (hc : s.env.clean = true) :
    ∃ u, exec i s = .next u ∧ State.Answered .ok s u := by
  have hstart : (fillStart (acceptFill i s)).env.clean = true ∧ (fillStart (acceptFill i s)).rsps = s.rsps := by
    unfold fillStart
    cases (acceptFill i s).cfg.fwVariant <;> exact ⟨hc, rfl⟩
  obtain ⟨hclean, hrsps⟩ := hstart
  obtain ⟨t, ht, hkept, -⟩ := (fill_runs (fillCheck_acceptFill hv hp) ha).done_of_clean hclean
  refine ⟨complete (releaseBuffer t), by rw [exec_fill hf, ht]; rfl, rfl, rfl, ?_⟩
  rw [complete_rsps, releaseBuffer_rsps, hkept.rsps, hrsps]

/-- A fill that passes its checks and is refused its buffer: its answer, what it keeps, and the same request again. -/
theorem fill_refused_then_retried {i : Instr} (hf : isFill i = true) {s : State} {more : List Bool}
    (hv : validRect s.cfg (operandsAfter i s) = true) (hp : s.ph = true) (ha : s.env.allocs = false :: more) :
    ∃ t, exec i s = .next t ∧ State.Answered .allocationError s t ∧ s.KeepsBus t ∧ s.KeepsSequencer t ∧ t.bufHeld = false ∧
      t.env.allocs = more ∧
      (s.env.clean = true → (∀ b ∈ more, b = true) → ∃ u, exec i t = .next u ∧ State.Answered .ok t u) := by
  have hallocs : (afterRefusal i s).env.allocs = more := congrArg List.tail ha
  refine ⟨afterRefusal i s, exec_fill_noBuffer hf hv hp (by simp [allocDraw, ha]), ⟨rfl, rfl, rfl⟩,
    ⟨rfl, rfl, rfl, rfl, rfl, rfl, rfl, rfl, rfl, rfl, rfl⟩, ⟨rfl, rfl⟩, rfl, hallocs, fun hc hmore => ?_⟩
  exact exec_fill_ok hf (validRect_of_cfg_eq hf (afterRefusal_cfg i s) hv) hp (allocDraw_of_buffers (hallocs ▸ hmore)) hc

/-- Only a fill that was refused its buffer answers ALLOCATION_ERROR (60_exceptions.md R213). -/
theorem Ends.of_allocationError {i : Instr} {s t : State} (h : Ends i s t) (hr : t.rsps = s.rsps ++ [.allocationError]) :
    isFill i = true ∧ s.KeepsBus t ∧ s.KeepsSequencer t ∧ s.env.allocs.head? = some false := by
  cases h with
  | ok _ _ _ _ _ answer =>
    split at answer
    · cases answer.unique hr
    · exact absurd hr (rsps_ne_append _ answer.2.2)
  | failed _ _ _ _ _ _ _ _ _ answer => cases answer.unique hr
  | away r _ _ fill _ bus answer seq _ _ _ refused => exact ⟨fill, bus, seq, refused (answer.unique hr)⟩
  | hung _ _ _ _ _ _ _ held => exact absurd hr (rsps_ne_append _ held.2.2)
  | reset _ u _ _ _ _ _ rsps is =>
    have hsame : t.rsps = s.rsps := by rcases is with rfl | rfl <;> simp [rsps]
    exact absurd hr (rsps_ne_append _ hsame)

end Sys2Proof.Machine

namespace Sys2Proof
open Machine

/-- Settles O49: both fills are one case (`fill_refused_then_retried`), each with its own reason why its rectangle is valid;
the converse goes through the ends of an instruction (`Ends.of_allocationError`). -/
theorem allocationFailureEndsTheFill : Obligations.AllocationFailureEndsTheFill := by
  refine ⟨rfl, fun x0 y0 x1 y1 p s more hp ha => ⟨fun hx hy hw hh => ?_, fun hsize => ?_⟩, fun i s t he hr => ?_⟩
  · exact fill_refused_then_retried rfl (validRect_fillRect p hx hy hw hh) hp ha
  · exact fill_refused_then_retried rfl (validRect_fillScreen p hsize) hp ha
  · obtain ⟨hfill, hbus, hseq, hdraw⟩ := (ends_of_exec he).of_allocationError hr
    exact ⟨isFill_cases hfill, hbus, hseq, hdraw⟩

end Sys2Proof
end

section
/-! The encoding family (30_encoding.md): the match and mask values of the two words, and the decoder on the encoder's codes. -/

namespace Sys2Proof
open Machine

/-! ### The two wire words -/

theorem w32_getLsbD (opcode b : Byte) (i : Nat) :
    (w32 opcode b).getLsbD i = if i < 16 then false else if i < 24 then b.getLsbD (i - 16) else opcode.getLsbD (i - 24) := by
  simp only [w32, BitVec.getLsbD_append, BitVec.getLsbD_zero, Nat.sub_sub]
  by_cases h16 : i < 16
  · simp [h16]
  · by_cases h24 : i < 24
    · simp [h16, h24, show i - 16 < 8 by omega]
    · simp [h16, h24, show ¬ i - 16 < 8 by omega]

/-- The mask of R72 keeps all bits but those of the payload. -/
theorem mask_getLsbD (w : Word) {i : Nat} (hi : i < 32) :
    (w &&& 0xFF00FFFF#32).getLsbD i = if 16 ≤ i ∧ i < 24 then false else w.getLsbD i := by
  have hmask : ∀ j < 32, (0xFF00FFFF#32).getLsbD j = !decide (16 ≤ j ∧ j < 24) := by decide
  rw [BitVec.getLsbD_and, hmask i hi]
  by_cases h : 16 ≤ i ∧ i < 24 <;> simp [h]

/-- The mask of R72 leaves a word's opcode and reserved bits, so what it leaves is a row's match value exactly when the word is that
row's word of its own payload. -/
theorem mask_eq_iff (opcode : Byte) (w : Word) :
    w &&& 0xFF00FFFF#32 = w32 opcode 0 ↔ w = w32 opcode (w.extractLsb' 16 8) := by
  have hpayload : ∀ i, 16 ≤ i → i < 24 → (w.extractLsb' 16 8).getLsbD (i - 16) = w.getLsbD i := by
    intro i h1 h2
    rw [BitVec.getLsbD_extractLsb', Nat.add_sub_cancel' h1, decide_eq_true (by omega), Bool.true_and]
  have hbit : ∀ i < 32, (w &&& 0xFF00FFFF#32).getLsbD i = (w32 opcode 0).getLsbD i ↔
      w.getLsbD i = (w32 opcode (w.extractLsb' 16 8)).getLsbD i := by
    intro i hi
    rw [mask_getLsbD w hi, w32_getLsbD, w32_getLsbD]
    by_cases h16 : i < 16
    · simp [h16, show ¬ 16 ≤ i by omega]
    · by_cases h24 : i < 24
      · simp [h16, h24, hpayload i (by omega) h24, show 16 ≤ i by omega]
      · simp [h16, h24]
  exact ⟨fun h => BitVec.eq_of_getLsbD_eq fun i hi => (hbit i hi).1 (by rw [h]),
    fun h => BitVec.eq_of_getLsbD_eq fun i hi => (hbit i hi).2 (congrArg (BitVec.getLsbD · i) h)⟩

theorem mask_eq_iff_exists (opcode : Byte) (w : Word) : w &&& 0xFF00FFFF#32 = w32 opcode 0 ↔ ∃ b, w = w32 opcode b := by
  rw [mask_eq_iff]
  refine ⟨fun h => ⟨_, h⟩, ?_⟩
  rintro ⟨b, rfl⟩
  rw [w32_payload]

theorem mask_eq_cmd (w : Word) : w &&& 0xFF00FFFF#32 = 0x02000000#32 ↔ ∃ c, w = cmdWord c :=
  mask_eq_iff_exists Config.wrcmdOpcode w

theorem mask_eq_dat (w : Word) : w &&& 0xFF00FFFF#32 = 0x32000000#32 ↔ ∃ d, w = datWord d :=
  mask_eq_iff_exists Config.wrcolorOpcode w

theorem decodeWord_cmdWord (c : Byte) : decodeWord (cmdWord c) = .ok (.wrcmd c) := by
  rw [decodeWord, if_pos ((mask_eq_cmd _).2 ⟨c, rfl⟩), cmdWord_payload]

theorem decodeWord_datWord (d : Byte) : decodeWord (datWord d) = .ok (.wrcolor d) := by
  have hne : ¬ ∃ c, datWord d = cmdWord c := fun ⟨c, hc⟩ => datWord_ne_cmdWord d c hc
  rw [decodeWord, if_neg (hne ∘ (mask_eq_cmd _).1), if_pos ((mask_eq_dat _).2 ⟨d, rfl⟩), datWord_payload]

theorem decodeWord_error {w : Word} (hc : ∀ c, w ≠ cmdWord c) (hd : ∀ d, w ≠ datWord d) : ∃ e, decodeWord w = .error e := by
  rw [decodeWord, if_neg fun h => ((mask_eq_cmd w).1 h).elim hc, if_neg fun h => ((mask_eq_dat w).1 h).elim hd]
  split <;> exact ⟨_, rfl⟩

/-- Settles O3: what the mask leaves decides the row (`mask_eq_iff`), and the decoder tests exactly that. -/
theorem masksIdentifyTheTwoWords : Obligations.MasksIdentifyTheTwoWords := by
  intro w
  refine ⟨mask_eq_cmd w, mask_eq_dat w, ?_, ?_, decodeWord_error⟩
  · rintro c rfl
    exact decodeWord_cmdWord c
  · rintro d rfl
    exact decodeWord_datWord d

/-! ### The decoder on codes -/

theorem decode_w32 (k : Config) (b3 b2 b1 b0 : Byte) : decode k .w32 [b3, b2, b1, b0] = decodeWord (b3 ++ b2 ++ (b1 ++ b0)) := rfl

theorem decode_reqBytes (k : Config) (op byte : Byte) (pixel x0 y0 x1 y1 : U16) :
    decode k .req96 (reqBytes op byte pixel x0 y0 x1 y1) = decodeFields op byte pixel x0 y0 x1 y1 := by
  have h : ∀ v, u16 (hiByte v) (loByte v) = v := u16_hi_lo
  show decodeFields op byte (u16 _ _) (u16 _ _) (u16 _ _) (u16 _ _) (u16 _ _) = _
  rw [h, h, h, h, h]

theorem decode_cmd8 (k : Config) (c : Byte) (ps : List Byte) : decode k .cmd8 (c :: ps) = decodeGroup k c ps := rfl

theorem decodeWindow_coordBytes (mk : U16 → U16 → Instr) (a b : U16) : decodeWindow mk (coordBytes a b) = .ok (mk a b) := by
  show Except.ok (mk (u16 (hiByte a) (loByte a)) (u16 (hiByte b) (loByte b))) = _
  rw [u16_hi_lo, u16_hi_lo]

/-- Settles O2, by the rows of the table: a wire word by its mask, a request by its operation code, a panel command by its command
byte, which is none of those that have precedence, as the five named bytes are pairwise different. -/
theorem decodeInvertsEncode : Obligations.DecodeInvertsEncode := by
  intro k i hk hi
  obtain ⟨hcr, hcw, hcs, hcd, hrw, hrs, hrd, hws, hwd, hsd⟩ := Config.distinct_of hk
  cases i with
  | wrcmd c => exact decodeWord_cmdWord c
  | wrcolor d => exact decodeWord_datWord d
  | sendCommand c => exact decode_reqBytes ..
  | sendData d => exact decode_reqBytes ..
  | runInit => exact decode_reqBytes ..
  | fillRect x0 y0 x1 y1 p => exact decode_reqBytes ..
  | fillScreen p => exact decode_reqBytes ..
  | caset a b => simp [encode, decode_cmd8, decodeGroup, decodeWindow_coordBytes]
  | raset a b => simp [encode, decode_cmd8, decodeGroup, decodeWindow_coordBytes, hcr.symm]
  | ramwr => simp [encode, decode_cmd8, decodeGroup, hcw.symm, hrw.symm]
  | slpout ps => simp [encode, decode_cmd8, decodeGroup, hcs.symm, hrs.symm, hws.symm]
  | dispon ps => simp [encode, decode_cmd8, decodeGroup, hcd.symm, hrd.symm, hwd.symm, hsd.symm]
  | vendor c ps =>
    obtain ⟨hcaset, hraset, hramwr, hslpout, hdispon⟩ :
        c ≠ k.cmdCaset ∧ c ≠ k.cmdRaset ∧ c ≠ k.cmdRamwr ∧ c ≠ k.cmdSlpout ∧ c ≠ k.cmdDispon := by
      simpa [Instr.wf, Config.namedCmds] using hi
    simp [encode, decode_cmd8, decodeGroup, hcaset, hraset, hramwr, hslpout, hdispon]

/-- Settles O1: each code is evaluated. -/
theorem specCodesDecode : Obligations.SpecCodesDecode := by
  refine ⟨?_, ?_, ?_, ?_, ?_, ?_, ?_, ?_, ?_, ?_, ?_, ?_, ?_⟩ <;> rfl

end Sys2Proof
end

section
/-! The transport family (40_transport.md): the bit loop (R108) and the receiver's count of edges (43_panel_receiver.md R190). -/

namespace Sys2Proof.Machine

/-- The pins after a whole bit (40_transport.md R108). -/
theorem clkFall_clkRise_pins (s : State) :
    (clkFall (clkRise s)).pins = { s.pins with d0 := some s.sh.msb, sclk := false } := by
  show { (clkRise s).pins with sclk := false } = _
  rw [clkRise_pins]

/-- Only data line 0 and the clock are driven (40_transport.md R108). -/
theorem clockBits_lines (n : Nat) (s : State) :
    (clockBits n s).pins = { s.pins with d0 := (clockBits n s).pins.d0, sclk := (clockBits n s).pins.sclk } := by
  induction n with
  | zero => rfl
  | succ n ih =>
    rw [clockBits_succ, clkFall_clkRise_pins, ih]

theorem msb_shiftLeft (w : Word) {n : Nat} (hn : n < 32) : (w <<< n).msb = w.getLsbD (31 - n) := by
  rw [BitVec.msb_eq_getLsbD_last, BitVec.getLsbD_shiftLeft]
  simp [show n ≤ 31 by omega]

/-- The pins when the clock has risen for bit `n` of a word. -/
theorem clkRise_pins_bit (w : Word) (s : State) {n : Nat} (hn : n < 32) :
    (clkRise (clockBits n (loadWord w s))).pins = { s.pins with d0 := some (w.getLsbD (31 - n)), sclk := true } := by
  rw [clkRise_pins, clockBits_sh, clockBits_lines]
  show { s.pins with d0 := some (w <<< n).msb, sclk := true } = _
  rw [msb_shiftLeft w hn]

/-- Settles O5: the transmitter's register after `n` bits is the word shifted by `n` (`clockBits_sh`), so its top bit is bit
`31 - n`; what the receiver has taken is `clockBits_partial` and `clockBits_word`. -/
theorem wordIsSentBitByBit : Obligations.WordIsSentBitByBit := by
  intro w s hcnt
  obtain ⟨hpanel, hrx⟩ := clockBits_word w s hcnt
  have hlast : (clockBits 32 (loadWord w s)).pins = { s.pins with d0 := some (w.getLsbD 0), sclk := false } := by
    rw [clockBits_succ]
    show { (clkRise (clockBits 31 (loadWord w s))).pins with sclk := false } = _
    rw [clkRise_pins_bit w s (by decide)]
  refine ⟨fun n hn => ⟨?_, ?_, clockBits_bitcnt n _, (clockBits_partial n (loadWord w s) hcnt hn).2⟩, hlast, ?_, hrx, hpanel⟩
  · rw [clkRise_pins_bit w s hn]
  · rw [clkRise_pins_bit w s hn]
  · exact clockBits_bitcnt 32 _

end Sys2Proof.Machine
end

section
/-! The invariants (10_state.md, 40_transport.md, 43_panel_receiver.md): what every end of an instruction, and with it every step,
says of the records, of the receiver and of a block at rest. -/

namespace Sys2Proof.Machine

/-! ### The records -/

/-- What was added to the records between two states: `pre` to the logical stream, and its image to the wire trace. -/
structure Recorded (pre : List Event) (s t : State) : Prop where
  logical : t.logical = s.logical ++ pre
  image : s.cfg.profile = .bridge → imageOf t.wire = imageOf s.wire ++ pre
  grows : Grows s.wire t.wire

theorem Went.recorded {pre : List Event} {s t : State} (h : Went pre s t) : Recorded pre s t := ⟨h.logical, h.image, h.grows⟩

/-- Nothing was added. -/
theorem Recorded.same {s t : State} (hl : t.logical = s.logical) (hw : t.wire = s.wire) : Recorded [] s t where
  logical := by rw [hl, List.append_nil]
  image _ := by rw [hw, List.append_nil]
  grows := .of_eq hw

/-- A reset adds at most the release of chip-select, which stands for no event (log 16). -/
theorem Recorded.resetBlock {pre : List Event} {s u : State} (h : Recorded pre s u) : Recorded pre s (resetBlock u) := by
  refine ⟨h.logical, fun hb => ?_, ?_⟩ <;> rw [resetBlock_wire] <;> split
  · rw [imageOf_append, h.image hb]
    exact List.append_nil _
  · exact h.image hb
  · exact h.grows.trans (.others [.csRelease] rfl (by simp))
  · exact h.grows

theorem Ends.fixed {i : Instr} {s t : State} (h : Ends i s t) : Fixed s t := by
  cases h with
  | ok fixed => exact fixed
  | failed _ fixed => exact fixed
  | away _ fixed => exact fixed
  | hung _ fixed => exact fixed
  | reset _ u fixed _ _ _ _ _ is => rcases is with rfl | rfl <;> exact fixed.trans ⟨rfl, rfl, rfl⟩

/-- What an instruction adds to the logical stream is a first part of its own (60_exceptions.md R219). -/
theorem Ends.recorded {i : Instr} {s t : State} (h : Ends i s t) : ∃ pre, pre <+: streamOf s.cfg i ∧ Recorded pre s t := by
  cases h with
  | ok _ _ went => exact ⟨_, List.prefix_refl _, went.recorded⟩
  | failed pre _ _ strict went => exact ⟨pre, strict.1, went.recorded⟩
  | away _ _ _ _ _ bus => exact ⟨[], List.nil_prefix, .same bus.1 bus.2.1⟩
  | hung pre _ _ strict went => exact ⟨pre, strict.1, went.recorded⟩
  | reset pre u _ strict went _ _ _ is =>
    refine ⟨pre, strict, ?_⟩
    rcases is with rfl | rfl
    · exact went.recorded.resetBlock
    · exact (Recorded.mk (t := losePanel u) went.logical went.image went.grows).resetBlock

theorem Stepped.recorded {s t : State} (h : Stepped s t) : ∃ pre, Recorded pre s t := by
  cases h with
  | ran i f bytes r _ _ _ _ ran =>
    obtain ⟨pre, -, hrec⟩ := (ends_of_exec ran).recorded
    exact ⟨pre, hrec.logical, hrec.image, hrec.grows⟩
  | waited _ _ is => exact ⟨[], .same (by rw [is]) (by rw [is])⟩
  | answered r _ is => exact ⟨[], .same (by rw [is]; rfl) (by rw [is]; rfl)⟩
  | reset r _ is =>
    subst is
    exact ⟨[], Recorded.resetBlock (.same rfl rfl)⟩
  | idled ns r _ is => exact ⟨[], .same (by rw [is]; rfl) (by rw [is]; rfl)⟩
  | device r p ns _ is => exact ⟨[], .same (by rw [is]; rfl) (by rw [is]; rfl)⟩

theorem Stepped.cfg {s t : State} (h : Stepped s t) : t.cfg = s.cfg := by
  cases h with
  | ran i f bytes r _ _ _ _ ran => exact (ends_of_exec ran).fixed.cfg
  | waited _ _ is => rw [is]
  | answered r _ is => rw [is]; rfl
  | reset r _ is => rw [is]; rfl
  | idled ns r _ is => rw [is]; rfl
  | device r p ns _ is => rw [is]; rfl

theorem stepped {s t : State} (h : step s = .next t) : Stepped s t := (step_cases h).2

/-- Settles O15: what a step adds to the wire trace has what it adds to the logical stream as its image (`Stepped.recorded`). -/
theorem stepKeepsTraceImage : Obligations.StepKeepsTraceImage := by
  intro s t hs h hb
  obtain ⟨pre, hrec⟩ := (stepped h).recorded
  have hb' : s.cfg.profile = .bridge := (stepped h).cfg ▸ hb
  rw [hrec.logical, hrec.image hb', hs hb']

/-- Settles O20. -/
theorem configurationNeverChanges : Obligations.ConfigurationNeverChanges := fun _ _ h => (stepped h).cfg

theorem w32_reserved (opcode b : Byte) : (w32 opcode b).extractLsb' 0 16 = 0 := by
  refine BitVec.eq_of_getLsbD_eq fun i hi => ?_
  rw [BitVec.getLsbD_extractLsb', w32_getLsbD]
  simp [hi]

theorem w32_opcode (opcode b : Byte) : (w32 opcode b).extractLsb' 24 8 = opcode := by
  refine BitVec.eq_of_getLsbD_eq fun i hi => ?_
  rw [BitVec.getLsbD_extractLsb', w32_getLsbD]
  simp [hi, show ¬ 24 + i < 16 by omega]

/-- Settles O19: the wire trace grows by words of the two forms alone (`Grows`), and each has its opcode and zero reserved bits. -/
theorem onlyTheTwoWordsAreSent : Obligations.OnlyTheTwoWordsAreSent := by
  intro s t h
  obtain ⟨pre, hrec⟩ := (stepped h).recorded
  obtain ⟨new, hnew, hforms⟩ := hrec.grows
  refine ⟨new, hnew, fun w hw => ?_⟩
  obtain ⟨c, rfl | rfl⟩ := hforms w hw
  · exact ⟨w32_reserved _ c, .inl (w32_opcode _ c)⟩
  · exact ⟨w32_reserved _ c, .inr (w32_opcode _ c)⟩

/-! ### The responses -/

/-- What an instruction delivers: nothing, or one response, which is its last (60_exceptions.md R211 to R216). -/
theorem Ends.responses {i : Instr} {s t : State} (h : Ends i s t) :
    t.rsps = s.rsps ∨ ∃ r, State.Answered r s t ∧
      (r = .ok ∨ r = .transportError ∨
        (r = .configurationError ∨ r = .notReady ∨ r = .allocationError) ∧ isFill i = true ∧
          (r = .configurationError → ∀ p, i = .fillScreen p → s.cfg.sizeOk = false)) := by
  cases h with
  | ok _ _ _ _ _ answer =>
    split at answer
    · exact .inr ⟨.ok, answer, .inl rfl⟩
    · exact .inl answer.2.2
  | failed _ _ _ _ _ _ _ _ _ answer => exact .inr ⟨.transportError, answer, .inr (.inl rfl)⟩
  | away r _ _ fill why _ answer _ _ valid => exact .inr ⟨r, answer, .inr (.inr ⟨why, fill, valid⟩)⟩
  | hung _ _ _ _ _ _ _ held => exact .inl held.2.2
  | reset _ u _ _ _ _ _ rsps is => exact .inl (by rcases is with rfl | rfl <;> exact rsps)

/-- Settles O22: the responses of `Ends.responses`, with their numbers. -/
theorem responsesByInstruction : Obligations.ResponsesByInstruction := by
  refine ⟨⟨rfl, rfl, rfl, rfl, rfl, rfl, fun r => by cases r <;> decide⟩, fun i s t he => ?_⟩
  refine (ends_of_exec he).responses.imp id ?_
  rintro ⟨r, ⟨hrsp, hbusy, hrsps⟩, hr⟩
  refine ⟨r, hrsps, hrsp, hbusy, ?_, fun hok hte => ?_⟩
  · rintro rfl
    simp at hr
  · obtain ⟨-, hfill, hvalid⟩ := (hr.resolve_left hok).resolve_left hte
    obtain hrect | ⟨p, rfl⟩ := isFill_cases hfill
    · exact .inl hrect
    · exact .inr ⟨p, rfl, fun hsize hre => by simp [hvalid hre p rfl] at hsize⟩

theorem Ends.rsps_prefix {i : Instr} {s t : State} (h : Ends i s t) : s.rsps <+: t.rsps := by
  obtain hr | ⟨r, ⟨-, -, hr⟩, -⟩ := h.responses
  · rw [hr]
  · exact ⟨[r], hr.symm⟩

theorem Stepped.rsps_prefix {s t : State} (h : Stepped s t) : s.rsps <+: t.rsps := by
  cases h with
  | ran i f bytes r _ _ _ _ ran => exact (ends_of_exec ran).rsps_prefix
  | waited _ _ is => rw [is]
  | answered r _ is => rw [is]; exact List.prefix_append ..
  | reset r _ is => rw [is]; exact List.prefix_refl _
  | idled ns r _ is => rw [is]; exact List.prefix_refl _
  | device r p ns _ is => rw [is]; exact List.prefix_refl _

/-- Time does not run backwards where no reset is drawn (10_state.md R27). -/
theorem Ends.now_le {i : Instr} {s t : State} (h : Ends i s t) (hn : s.env.noReset = true) : s.now ≤ t.now := by
  have hwent : ∀ {pre}, Went pre s t → s.now ≤ t.now := fun w => Nat.le_trans (Nat.le_add_right ..) w.time
  cases h with
  | ok _ _ went => exact hwent went
  | failed _ _ _ _ went => exact hwent went
  | away _ _ _ _ _ bus =>
    obtain ⟨-, -, -, -, -, -, -, -, hnow, -⟩ := bus
    exact hnow.ge
  | hung _ _ _ _ went => exact hwent went
  | reset _ _ _ _ _ drawn => simp [drawn] at hn

theorem Stepped.now_le {s t : State} (h : Stepped s t) (hn : s.env.noReset = true) (hi : .reset ∉ s.inbox) : s.now ≤ t.now := by
  cases h with
  | ran i f bytes r _ _ _ _ ran => exact (ends_of_exec ran).now_le hn
  | waited _ _ is => rw [is]
  | answered r _ is => rw [is]; exact Nat.le_refl _
  | reset r presented _ => exact absurd presented hi
  | idled ns r _ is => rw [is]; exact Nat.le_add_right ..
  | device r p ns _ is => rw [is]; exact Nat.le_add_right ..

/-- A step of an idle block with an accepted configuration is what its first input makes of it. -/
theorem step_idle {s : State} (hwf : s.cfg.wf = true) (hb : s.busy = false) : step s = perform (fetchIdle s) := by
  rw [step_eq_perform, fetch_idle hwf hb]

/-- Settles O21: each record begins the record after the step, and time that passes is an input of its own. -/
theorem recordsOnlyGrow : Obligations.RecordsOnlyGrow := by
  refine ⟨fun s t h => ?_, fun s ns r hwf hb hi => ?_⟩
  · obtain ⟨pre, hrec⟩ := (stepped h).recorded
    exact ⟨(stepped h).rsps_prefix, ⟨pre, hrec.logical.symm⟩, hrec.grows.isPrefix, (stepped h).now_le⟩
  · rw [step_idle hwf hb, fetchIdle, hi]
    rfl

/-! ### The receiver -/

/-- The receiver after an instruction that added `pre` to the logical stream (43_panel_receiver.md R191, R202, R204). -/
def PanelAfter (i : Instr) (pre : List Event) (s t : State) : Prop :=
  t.panel = Panel.lost ∨ t.panel = (foundBy i s).panel.onEvents s.cfg pre ∨
    i = .runInit ∧ t.rsps = s.rsps ++ [.ok] ∧ ((foundBy i s).panel.onEvents s.cfg pre).unknown = true ∧
      ∃ f, t.panel = Panel.recovered s.cfg f

theorem foundBy_cfg (i : Instr) (s : State) : (foundBy i s).cfg = s.cfg := by
  unfold foundBy
  split <;> rfl

theorem Delivered.panelAfter {i : Instr} {pre : List Event} {s t : State} (h : Delivered pre (foundBy i s) t) :
    PanelAfter i pre s t := by
  unfold Delivered at h
  rw [foundBy_cfg] at h
  exact h.imp id .inl

theorem Ends.panelAfter {i : Instr} {s t : State} (h : Ends i s t) {pre : List Event} (hl : t.logical = s.logical ++ pre) :
    PanelAfter i pre s t := by
  have hpre : ∀ {pre' : List Event} {u : State}, u.logical = s.logical ++ pre' → t.logical = u.logical → pre' = pre := fun h1 h2 =>
    List.append_cancel_left (h1.symm.trans (h2.symm.trans hl))
  cases h with
  | ok _ _ went _ _ answer _ _ panel =>
    obtain rfl := hpre went.logical rfl
    by_cases hi : i = .runInit
    · subst hi
      obtain ⟨p, f, rfl, hpanel⟩ := panel
      by_cases hu : (s.panel.restartReplay.onEvents s.cfg (initStream s.cfg)).unknown = true
      · rw [if_pos hu] at hpanel
        exact .inr (.inr ⟨rfl, answer.2.2, hu, f, hpanel⟩)
      · rw [if_neg hu] at hpanel
        exact .inr (.inl hpanel)
    · rw [if_neg hi] at panel
      exact .inr (.inl (by rw [panel, foundBy_ne hi]))
  | failed _ _ _ _ _ _ _ _ _ _ _ _ panel => exact .inl panel
  | away r _ _ fill _ bus =>
    obtain ⟨hlog, -, hpanel, -⟩ := bus
    obtain rfl := hpre (pre' := []) (u := s) (List.append_nil _).symm hlog
    have hi : i ≠ .runInit := by rintro rfl; cases fill
    exact .inr (.inl (by rw [hpanel, foundBy_ne hi]; rfl))
  | hung _ _ _ _ went _ panel =>
    obtain rfl := hpre went.logical rfl
    exact panel.panelAfter
  | reset _ u _ _ went _ panel _ is =>
    rcases is with rfl | rfl
    · obtain rfl := hpre went.logical rfl
      by_cases hcs : u.pins.cs = true
      · exact .inl (by rw [resetBlock_panel, if_pos hcs])
      · exact Delivered.panelAfter (by unfold Delivered; rw [resetBlock_panel, if_neg hcs]; exact panel)
    · exact .inl (by rw [resetBlock_panel]; exact ite_self _)

/-- A property of the receiver that its moves keep is kept by every step. -/
theorem Stepped.panel_induct {P : Panel → Prop} {s t : State} (h : Stepped s t) (hs : P s.panel) (hlost : P Panel.lost)
    (hrecovered : ∀ f, P (Panel.recovered s.cfg f)) (hrestart : ∀ p, P p → P p.restartReplay)
    (hevents : ∀ es p, P p → P (p.onEvents s.cfg es)) : P t.panel := by
  cases h with
  | ran i f bytes r _ _ _ _ ran =>
    have hends := ends_of_exec ran
    obtain ⟨pre, -, hrec⟩ := hends.recorded
    have hfound : P (foundBy i { s with inbox := r }).panel := by
      unfold foundBy
      split
      · exact hrestart _ hs
      · exact hs
    rcases hends.panelAfter hrec.logical with hp | hp | ⟨-, -, -, f, hp⟩ <;> rw [hp]
    · exact hlost
    · exact hevents _ _ hfound
    · exact hrecovered f
  | waited _ _ is => rw [is]; exact hs
  | answered r _ is => rw [is]; exact hs
  | reset r _ is =>
    rw [is, resetBlock_panel]
    split
    · exact hlost
    · exact hs
  | idled ns r _ is => rw [is]; exact hs
  | device r p ns _ is => rw [is]; exact hs

theorem Panel.good_restartReplay {k : Config} {p : Panel} (h : p.Good k) : p.restartReplay.Good k where
  gram := h.gram
  window := h.window
  blank hu := by rw [h.blank hu]; rfl

/-- Settles O18: the receiver's moves keep its invariant (`Panel.Good`). -/
theorem stepKeepsReceiver : Obligations.StepKeepsReceiver := by
  intro s t hwindow hgram hblank h
  obtain ⟨hwf, hst⟩ := step_cases h
  have hgood := hst.panel_induct (P := Panel.Good s.cfg) ⟨hgram, hwindow, hblank⟩ (Panel.good_lost _) (Panel.good_recovered _)
    (fun _ => Panel.good_restartReplay) fun es _ hp => Panel.good_onEvents (Config.wf_distinct hwf) hp es
  rw [hst.cfg]
  exact ⟨hgood.window, hgood.gram, hgood.blank⟩

/-! ### The line buffer -/

theorem BufferAfter.lb {i : Instr} {s t : State} (h : BufferAfter i s t) : t.lb = s.lb ∨ t.lb = [] := by
  unfold BufferAfter at h
  split at h
  · exact .inr h.2
  · exact .inl h.2

theorem Ends.wf_lb {i : Instr} {s t : State} (h : Ends i s t) (hs : s.lb.wf = true) : t.lb.wf = true := by
  have hafter : t.lb = s.lb ∨ t.lb = [] → t.lb.wf = true := by rintro (hl | hl) <;> rw [hl]; exacts [hs, rfl]
  cases h with
  | ok _ _ _ _ _ _ _ buffer => exact hafter buffer.lb
  | failed _ _ _ _ _ _ _ _ _ _ _ buffer => exact hafter buffer.lb
  | away _ _ _ _ _ _ _ _ buffer => exact hafter (.inr buffer.2)
  | hung _ _ _ _ _ _ _ _ _ _ lb =>
    obtain hl | ⟨p, n, hl⟩ := lb
    · exact hafter (.inl hl)
    · rw [hl]
      exact lineBuffer_wf p n
  | reset _ u _ _ _ _ _ _ is => rcases is with rfl | rfl <;> rfl

theorem Stepped.wf_lb {s t : State} (h : Stepped s t) (hs : s.lb.wf = true) : t.lb.wf = true := by
  cases h with
  | ran i f bytes r _ _ _ _ ran => exact (ends_of_exec ran).wf_lb hs
  | waited _ _ is => rw [is]; exact hs
  | answered r _ is => rw [is]; exact hs
  | reset r _ is => rw [is]; rfl
  | idled ns r _ is => rw [is]; exact hs
  | device r p ns _ is => rw [is]; exact hs

/-- Settles O17: an event of the stream writes pixels at most (`Panel.wf_onEvents`), a fill its line buffer (`lineBuffer_wf`). -/
theorem stepKeepsMemories : Obligations.StepKeepsMemories := by
  rintro s t ⟨hgram, hlb⟩ h
  exact ⟨(stepped h).panel_induct (P := fun p => p.gram.wf = true) hgram rfl (fun _ => rfl) (fun _ hp => hp)
    fun es _ hp => Panel.wf_onEvents s.cfg es hp, (stepped h).wf_lb hlb⟩

/-! ### A block at rest -/

theorem BufferAfter.free {i : Instr} {s t : State} (h : BufferAfter i s t) (hs : s.BufferFree) : t.BufferFree := by
  unfold BufferAfter at h
  split at h
  · exact h
  · exact ⟨h.1.trans hs.1, h.2.trans hs.2⟩

theorem State.PositionAtRest.of_kept {s t : State} (hs : s.PositionAtRest) (hc : t.cfg = s.cfg) (h : s.KeepsSequencer t) :
    t.PositionAtRest := by
  unfold State.PositionAtRest at *
  rw [h.1, h.2, hc]
  exact hs

theorem SequencerAfter.atRest {i : Instr} {ok : Bool} {s t : State} (h : SequencerAfter i ok s t) (hc : t.cfg = s.cfg)
    (hwf : s.cfg.wf = true) (hs : s.PositionAtRest) : t.PositionAtRest := by
  unfold SequencerAfter at h
  split at h
  · obtain ⟨hph, hok, hfailed⟩ := h
    cases ok with
    | true =>
      obtain ⟨hst, hpidx, hidx⟩ := hok rfl
      exact .inl ⟨hph, by rw [hc, ← hidx hwf, ← hst, ← hpidx]⟩
    | false => exact .inr ⟨hph, hfailed rfl⟩
  · exact hs.of_kept hc h

theorem atRest_resetBlock (s : State) : (resetBlock s).AtRest := fun _ => ⟨⟨rfl, rfl, rfl⟩, ⟨rfl, rfl⟩, .inr ⟨rfl, rfl⟩⟩

theorem Ends.atRest {i : Instr} {s t : State} (h : Ends i s t) (hwf : s.cfg.wf = true) (hidle : s.BusIdle)
    (hbuffer : s.BufferFree) (hpos : s.PositionAtRest) : t.AtRest := by
  intro hb
  have hc := h.fixed.cfg
  cases h with
  | ok _ _ _ idle _ _ seq buffer => exact ⟨idle hidle, buffer.free hbuffer, seq.atRest hc hwf hpos⟩
  | failed _ _ _ _ _ idle _ _ _ _ seq buffer => exact ⟨idle hidle, buffer.free hbuffer, seq.atRest hc hwf hpos⟩
  | away _ _ _ _ _ bus _ seq buffer =>
    obtain ⟨-, -, -, -, hpins, -, hbitcnt, -⟩ := bus
    refine ⟨?_, buffer, hpos.of_kept hc seq⟩
    unfold State.BusIdle at *
    rw [hpins, hbitcnt]
    exact hidle
  | hung _ _ _ _ _ _ _ held => simp [held.1] at hb
  | reset _ u _ _ _ _ _ _ is => rcases is with rfl | rfl <;> exact atRest_resetBlock _ hb

/-- Settles O14: an idle block is at rest, and each end of an instruction leaves it so, or busy (`Ends.atRest`). -/
theorem stepKeepsRest : Obligations.StepKeepsRest := by
  intro s t hs h
  obtain ⟨hwf, hst⟩ := step_cases h
  cases hst with
  | ran i f bytes r idle _ _ _ ran =>
    obtain ⟨hidle, hbuffer, hpos⟩ := hs idle
    exact (ends_of_exec ran).atRest hwf hidle hbuffer hpos
  | waited _ _ is => rw [is]; exact hs
  | answered r idle is => rw [is]; exact fun _ => hs idle
  | reset r _ is => rw [is]; exact atRest_resetBlock _
  | idled ns r _ is => rw [is]; exact hs
  | device r p ns _ is => rw [is]; exact hs

/-! ### The framing of the wire trace -/

theorem framed_resetBlock {s : State} (h : framing false s.wire = some s.pins.cs) : (resetBlock s).Framed := by
  refine ⟨?_, fun _ => rfl⟩
  rw [resetBlock_wire]
  split
  · next hcs =>
    rw [framing_append, h, hcs]
    rfl
  · next hcs =>
    rw [h, eq_false_of_ne_true hcs]
    rfl

theorem Ends.framed {i : Instr} {s t : State} (h : Ends i s t) (hcs : s.pins.cs = false)
    (hf : framing false s.wire = some false) : t.Framed := by
  cases h with
  | ok _ _ went _ cs => exact ⟨went.framed hcs hf, fun _ => cs hcs⟩
  | failed _ _ _ _ went _ cs => exact ⟨went.framed hcs hf, fun _ => cs hcs⟩
  | away _ _ _ _ _ bus =>
    obtain ⟨-, hwire, -, -, hpins, -⟩ := bus
    exact ⟨by rw [hwire, hpins, hf, hcs], fun _ => by rw [hpins, hcs]⟩
  | hung _ _ _ _ went _ _ held => exact ⟨went.framed hcs hf, fun hb => by simp [held.1] at hb⟩
  | reset _ u _ _ went _ _ _ is => rcases is with rfl | rfl <;> exact framed_resetBlock (went.framed hcs hf)

/-- Settles O16: a block that takes an instruction has released chip-select, and each end leaves the trace framed. -/
theorem stepKeepsFraming : Obligations.StepKeepsFraming := by
  intro s t hs h
  obtain ⟨hframing, hreleased⟩ := hs
  cases stepped h with
  | ran i f bytes r idle _ _ _ ran =>
    have hcs := hreleased idle
    exact (ends_of_exec ran).framed hcs (hframing.trans (congrArg some hcs))
  | waited _ _ is => rw [is]; exact ⟨hframing, hreleased⟩
  | answered r idle is => rw [is]; exact ⟨hframing, fun _ => hreleased idle⟩
  | reset r _ is => rw [is]; exact framed_resetBlock hframing
  | idled ns r _ is => rw [is]; exact ⟨hframing, hreleased⟩
  | device r p ns _ is => rw [is]; exact ⟨hframing, hreleased⟩

/-- Settles O13. -/
theorem resetMeetsTheInvariants : Obligations.ResetMeetsTheInvariants := by
  refine ⟨fun _ => ⟨⟨rfl, rfl, rfl⟩, ⟨rfl, rfl⟩, .inr ⟨rfl, rfl⟩⟩, fun _ => rfl, ⟨rfl, fun _ => rfl⟩, ⟨rfl, rfl⟩, ?_, ?_, ?_, by decide⟩
  · exact (Panel.good_lost _).window
  · exact (Panel.good_lost _).gram
  · exact (Panel.good_lost Config.atReset).blank

end Sys2Proof.Machine
end

section
/-! The step (00_scope.md R16), the block's reset (70_reset_and_hazards.md R250 to R253), the platform devices (60_exceptions.md R236
to R241) and the configurations that are refused. -/

namespace Sys2Proof.Machine

/-! ### A code presented to an idle block -/

theorem step_code {s : State} {f : Format} {bytes : List Byte} {r : List Input} (hwf : s.cfg.wf = true) (hb : s.busy = false)
    (hi : s.inbox = .code f bytes :: r) : step s = perform (fetchCode f bytes { s with inbox := r }) := by
  rw [step_idle hwf hb, fetchIdle, hi]

theorem fetchCode_ok {s : State} {f : Format} {bytes : List Byte} {i : Instr} (h : decode s.cfg f bytes = .ok i) :
    fetchCode f bytes s = .run i s := by
  rw [fetchCode, h]

theorem fetchCode_unassigned {s : State} {f : Format} {bytes : List Byte} {op : Byte}
    (h : decode s.cfg f bytes = .error (.unassignedOp op)) : fetchCode f bytes s = .stay (raise .configurationError s) := by
  rw [fetchCode, h]
  rfl

/-- Settles O6. -/
theorem stepRunsDecodedInstruction : Obligations.StepRunsDecodedInstruction := by
  intro s f bytes r i hwf hb hi hd
  rw [step_code hwf hb hi, fetchCode_ok (s := { s with inbox := r }) hd]
  rfl

/-- The five assigned operation codes, as the decoder tests them (30_encoding.md R75). -/
theorem decodeFields_unassigned {op : Byte} (h : op ∉ [0x10#8, 0x11#8, 0x20#8, 0x30#8, 0x31#8]) (byte : Byte)
    (pixel x0 y0 x1 y1 : U16) : decodeFields op byte pixel x0 y0 x1 y1 = .error (.unassignedOp op) := by
  simp only [List.mem_cons, List.not_mem_nil, or_false, not_or] at h
  obtain ⟨h1, h2, h3, h4, h5⟩ := h
  simp only [decodeFields, opSendCommand, opSendData, opRunInit, opFillRect, opFillScreen, h1, h2, h3, h4, h5, if_false]

theorem decode_req96 (k : Config) {bytes : List Byte} (h : bytes.length = 12) :
    ∃ op byte pixel x0 y0 x1 y1, bytes.head? = some op ∧ decode k .req96 bytes = decodeFields op byte pixel x0 y0 x1 y1 := by
  match bytes, h with
  | [op, byte, p1, p0, a1, a0, b1, b0, c1, c0, d1, d0], _ => exact ⟨op, byte, _, _, _, _, _, rfl, rfl⟩

/-- A request is a host operation, or its code is not assigned (30_encoding.md R75, R83). -/
theorem decodeFields_cases (op byte : Byte) (pixel x0 y0 x1 y1 : U16) :
    (∃ i, isHost i = true ∧ decodeFields op byte pixel x0 y0 x1 y1 = .ok i) ∨
      decodeFields op byte pixel x0 y0 x1 y1 = .error (.unassignedOp op) := by
  unfold decodeFields
  split_ifs
  · exact .inl ⟨_, rfl, rfl⟩
  · exact .inl ⟨_, rfl, rfl⟩
  · exact .inl ⟨_, rfl, rfl⟩
  · exact .inl ⟨_, rfl, rfl⟩
  · exact .inl ⟨_, rfl, rfl⟩
  · exact .inr rfl

/-- Settles O7: the decoder names the code, and the fetch answers it. -/
theorem unassignedOperationAnswered : Obligations.UnassignedOperationAnswered := by
  intro s op fields r hwf hb hi hlen hop
  obtain ⟨op', byte, pixel, x0, y0, x1, y1, hop', hd⟩ := decode_req96 s.cfg (bytes := op :: fields) (by simp [hlen])
  obtain rfl : op = op' := Option.some.inj hop'
  rw [decodeFields_unassigned hop] at hd
  rw [step_code hwf hb hi, fetchCode_unassigned (s := { s with inbox := r }) hd]
  exact congrArg Host.Outcome.next (by simp [raise, deliver, hb])

/-- How a host operation ends: answered once, hung, or abandoned by a reset. -/
theorem Ends.answeredOnceOrNot {i : Instr} {s t : State} (h : Ends i s t) (hi : isHost i = true) :
    (t.busy = false ∧ t.rsps = s.rsps ++ [t.rsp]) ∨
      (t.busy = true ∧ t.rsps = s.rsps ∧ s.env.clean = false) ∨
      (t.busy = false ∧ t.rsps = s.rsps ∧ t.ph = false ∧ t.seq = ⟨.reset, 0, 0⟩ ∧ s.env.noReset = false) := by
  have hans : ∀ {r}, State.Answered r s t → t.busy = false ∧ t.rsps = s.rsps ++ [t.rsp] := by
    rintro r ⟨hrsp, hbusy, hrsps⟩
    exact ⟨hbusy, by rw [hrsp, hrsps]⟩
  cases h with
  | ok _ _ _ _ _ answer => rw [if_pos hi] at answer; exact .inl (hans answer)
  | failed _ _ _ _ _ _ _ _ _ answer => exact .inl (hans answer)
  | away _ _ _ _ _ _ answer => exact .inl (hans answer)
  | hung _ _ _ _ _ unclean _ held => exact .inr (.inl ⟨held.1, held.2.2, unclean⟩)
  | reset _ u _ _ _ drawn _ rsps is =>
    exact .inr (.inr (by rcases is with rfl | rfl <;> exact ⟨rfl, rsps, rfl, rfl, drawn⟩))

/-- Settles O8: a request decodes to a host operation, which ends in one of three ways, or is answered by the decoder. -/
theorem everyRequestAnsweredOnceOrHangs : Obligations.EveryRequestAnsweredOnceOrHangs := by
  intro s bytes r hwf hb hi hlen
  obtain ⟨op, byte, pixel, x0, y0, x1, y1, -, hd⟩ := decode_req96 s.cfg hlen
  rw [step_code hwf hb hi]
  obtain ⟨i, hhost, hok⟩ | herr := decodeFields_cases op byte pixel x0 y0 x1 y1
  · obtain ⟨t, ht, hends⟩ := exec_ends i { s with inbox := r }
    rw [fetchCode_ok (s := { s with inbox := r }) (hd.trans hok)]
    exact ⟨t, ht, hends.fixed.inbox, hends.answeredOnceOrNot hhost⟩
  · rw [fetchCode_unassigned (s := { s with inbox := r }) (hd.trans herr)]
    exact ⟨_, rfl, rfl, .inl ⟨rfl, rfl⟩⟩

/-! ### Configurations that are refused -/

theorem step_illFormed {s : State} (h : s.cfg.wf = false) : step s = .refused .illFormedConfiguration := by
  rw [step_eq_perform, fetch_wf h]
  rfl

/-- The checks of a configuration, each as the condition it stands for. -/
structure Accepted (k : Config) : Prop where
  cmds : k.namedCmds.Nodup
  sends : ∀ e ∈ k.table, e.phase.sends = true
  ordered : (k.table.map fun e => e.phase.rank).Pairwise (· ≤ ·)
  sleepOut : k.cmdsOf .sleepOut = [k.cmdSlpout]
  displayOn : k.cmdsOf .displayOn = [k.cmdDispon]
  waits : 1000 ≤ k.tQuietNs ∧ 120 ≤ k.tSlpoutMs ∧ 10 ≤ k.tDisponMs
  clock : k.sclkBridgeHz ≤ k.sclkBridgeMaxHz
  size : (1 ≤ k.width ∧ k.width ≤ 65536) ∧ 1 ≤ k.height ∧ k.height ≤ 65536
  native : k.native.cmdBits = 32 ∧ k.native.paramBits = 8
  documented : k.opcWrcmd = 0x02#8 ∧ k.opcWrcolor = 0x32#8 ∧ k.wordBits = 32 ∧ k.sclkBridgeMaxHz = 5000000 ∧ k.coordBits = 16 ∧
    k.pixelBits = 16

theorem accepted_of_wf {k : Config} (h : k.wf = true) : Accepted k := by
  simp only [Config.wf, Config.cmdsDistinct, Config.phasesSend, Config.phasesOrdered, Config.sleepOutOnce, Config.displayOnOnce,
    Config.waitsOk, Config.clockOk, Config.sizeOk, Config.nativeOk, Config.documentedOk, Bool.and_eq_true, decide_eq_true_eq,
    List.all_eq_true, beq_iff_eq] at h
  obtain ⟨⟨⟨⟨⟨⟨⟨⟨⟨h1, h2⟩, h3⟩, h4⟩, h5⟩, ⟨⟨h6, h7⟩, h8⟩⟩, h9⟩, ⟨⟨⟨h10, h11⟩, h12⟩, h13⟩⟩, h14, h15⟩,
    ⟨⟨⟨⟨⟨h16, h17⟩, h18⟩, h19⟩, h20⟩, h21⟩⟩ := h
  exact ⟨h1, h2, h3, h4, h5, ⟨h6, h7, h8⟩, h9, ⟨⟨h10, h11⟩, h12, h13⟩, ⟨h14, h15⟩, ⟨h16, h17, h18, h19, h20, h21⟩⟩

theorem sends_false_of_settling {p : SeqState}
    (h : p = .powerWait ∨ p = .settleDelay120 ∨ p = .settleDelay10 ∨ p = .ready) : p.sends = false := by
  rcases h with rfl | rfl | rfl | rfl <;> rfl

theorem rank_le_of_ordered {l a b c : List Entry} {d e : Entry} (h : (l.map fun e => e.phase.rank).Pairwise (· ≤ ·))
    (hl : l = a ++ d :: b ++ e :: c) : d.phase.rank ≤ e.phase.rank := by
  rw [List.pairwise_map, hl, List.append_assoc, List.pairwise_append] at h
  obtain ⟨-, h, -⟩ := h
  exact List.rel_of_pairwise_cons h (by simp)

/-- Settles O9: each clause denies a condition that an accepted configuration keeps (`accepted_of_wf`). -/
theorem illFormedConfigurationRefused : Obligations.IllFormedConfigurationRefused := by
  intro s h
  cases hwf : s.cfg.wf with
  | false => exact step_illFormed hwf
  | true =>
    exfalso
    have ha := accepted_of_wf hwf
    obtain ⟨e, he, hecmd, -⟩ := segment_sleepOut hwf
    obtain ⟨f, hf, hfcmd, -⟩ := segment_displayOn hwf
    obtain ⟨hquiet, hslpout, hdispon⟩ := ha.waits
    obtain ⟨⟨hw1, hw2⟩, hh1, hh2⟩ := ha.size
    obtain ⟨hn1, hn2⟩ := ha.native
    obtain ⟨hd1, hd2, hd3, hd4, hd5, hd6⟩ := ha.documented
    have hclock := ha.clock
    rcases h with h | h | h | h | h | ⟨g, hg, h⟩ | ⟨a, b, c, d, g, hl, h⟩ | h | h | h | h | h | h | h | h | h | h | h | h | h | h
    · omega
    · omega
    · omega
    · omega
    · exact h ha.cmds
    · exact absurd (ha.sends g hg) (by simp [sends_false_of_settling h])
    · exact absurd (rank_le_of_ordered ha.ordered hl) (by omega)
    · exact h e he hecmd
    · exact h f hf hfcmd
    · exact h hd1
    · exact h hd2
    · exact h hd3
    · exact h hd5
    · exact h hd6
    · exact h hn1
    · exact h hn2
    · exact h hd4
    · omega
    · omega
    · omega
    · omega

/-! ### The block's reset -/

/-- Settles O10: the reset state is a fixed state, and an idle block with nothing presented waits. -/
theorem resetValues : Obligations.ResetValues :=
  ⟨rfl, rfl, rfl, rfl, rfl, rfl, rfl, rfl, rfl, rfl, rfl, step_idle (s := State.reset) (by decide) rfl⟩

/-- A step that takes the block's reset. -/
theorem step_reset {s : State} (hwf : s.cfg.wf = true)
    (h : s.inbox.head? = some .reset ∨ s.busy = true ∧ .reset ∈ s.inbox) :
    step s = .next (resetBlock { s with inbox := s.inbox.erase .reset }) := by
  cases hb : s.busy with
  | true =>
    have hmem : .reset ∈ s.inbox := h.elim (fun hh => List.mem_of_head? hh) And.right
    rw [step_eq_perform, fetch_busy hwf hb, fetchBusy, if_pos (by simpa using hmem)]
    rfl
  | false =>
    obtain ⟨r, hr⟩ : ∃ r, s.inbox = .reset :: r := List.head?_eq_some_iff.1 (h.resolve_right (by simp [hb]))
    rw [step_idle hwf hb, fetchIdle, hr, List.erase_cons_head]
    rfl

theorem step_busHang {s : State} (hwf : s.cfg.wf = true) (hb : s.busy = true) (hr : .reset ∉ s.inbox) :
    step s = .fault .busHang := by
  rw [step_eq_perform, fetch_busy hwf hb, fetchBusy, if_neg (by simpa using hr)]
  rfl

/-- Settles O11: the values are those of `resetBlock`, which asks only whether chip-select was asserted. -/
theorem resetOfTheBlock : Obligations.ResetOfTheBlock := by
  intro s hwf
  refine ⟨fun h => ⟨_, step_reset hwf h, rfl, rfl, rfl, rfl, rfl, rfl, rfl, rfl, rfl, rfl, rfl, fun hcs => ?_, fun hcs => ?_⟩,
    step_busHang hwf⟩
  · rw [resetBlock_panel, resetBlock_wire, resetBlock_quietDue]
    simp [hcs]
  · rw [resetBlock_panel, resetBlock_wire, resetBlock_quietDue]
    simp [hcs, Panel.lost]

/-! ### The handle and the unknown receiver -/

/-- The end of an instruction that ran to its end. -/
structure Completed (i : Instr) (s t : State) : Prop where
  fixed : Fixed s t
  regs : Registers i s t
  went : Went (streamOf s.cfg i) s t
  idle : s.BusIdle → t.BusIdle
  answer : if isHost i then State.Answered .ok s t else t.rsp = s.rsp ∧ t.busy = s.busy ∧ t.rsps = s.rsps
  seq : SequencerAfter i true s t
  buffer : BufferAfter i s t
  panel : if i = .runInit then
      ∃ p f, p = s.panel.restartReplay.onEvents s.cfg (initStream s.cfg) ∧ t.panel = if p.unknown then Panel.recovered s.cfg f else p
    else t.panel = s.panel.onEvents s.cfg (streamOf s.cfg i)

/-- An instruction that answered OK ran to its end. -/
theorem Ends.completed_of_answer {i : Instr} {s t : State} (h : Ends i s t) (hr : t.rsps = s.rsps ++ [.ok]) : Completed i s t := by
  cases h with
  | ok fixed regs went idle _ answer seq buffer panel => exact ⟨fixed, regs, went, idle, answer, seq, buffer, panel⟩
  | failed _ _ _ _ _ _ _ _ _ answer => cases answer.unique hr
  | away r _ _ _ why _ answer =>
    cases answer.unique hr
    simp at why
  | hung _ _ _ _ _ _ _ held => exact absurd hr (rsps_ne_append _ held.2.2)
  | reset _ u _ _ _ _ _ rsps is => exact absurd hr (rsps_ne_append _ (by rcases is with rfl | rfl <;> exact rsps))

theorem Env.noReset_of_clean {e : Env} (h : e.clean = true) : e.noReset = true := by
  simp only [Env.clean, Env.noReset, Bool.and_eq_true, List.all_eq_true, beq_iff_eq] at h ⊢
  exact ⟨fun o ho => by rw [h.1 o ho], h.2⟩

/-- In a clean environment every instruction but a fill, which has checks and a buffer of its own, runs to its end. -/
theorem Ends.completed_of_clean {i : Instr} {s t : State} (h : Ends i s t) (hf : isFill i = false) (hc : s.env.clean = true) :
    Completed i s t := by
  cases h with
  | ok fixed regs went idle _ answer seq buffer panel => exact ⟨fixed, regs, went, idle, answer, seq, buffer, panel⟩
  | failed _ _ _ _ _ _ _ _ unclean => simp [hc] at unclean
  | away _ _ _ fill => simp [hf] at fill
  | hung _ _ _ _ _ unclean => simp [hc] at unclean
  | reset _ _ _ _ _ drawn => simp [Env.noReset_of_clean hc] at drawn

/-- The handle is granted by a RUN_INIT that ends with OK (10_state.md R22). -/
theorem Ends.granted {i : Instr} {s t : State} (h : Ends i s t) (h0 : s.ph = false) (h1 : t.ph = true) :
    i = .runInit ∧ State.Answered .ok s t := by
  have hkept : t.ph ≠ s.ph := by simp [h0, h1]
  cases h with
  | ok _ _ _ _ _ answer seq =>
    unfold SequencerAfter at seq
    split at seq
    · next hi => subst hi; exact ⟨rfl, answer⟩
    · exact absurd seq.1 hkept
  | failed _ _ _ _ _ _ _ _ _ _ seq =>
    unfold SequencerAfter at seq
    split at seq
    · simp [seq.1] at h1
    · exact absurd seq.1 hkept
  | away _ _ _ _ _ _ _ seq => exact absurd seq.1 hkept
  | hung _ _ _ _ _ _ _ _ ph phInit =>
    by_cases hi : i = .runInit
    · simp [phInit hi] at h1
    · exact absurd (ph hi).1 hkept
  | reset _ u _ _ _ _ _ _ is => rcases is with rfl | rfl <;> cases h1

/-- The values of 10_state.md R33, with nothing answered. -/
def WasReset (s t : State) : Prop :=
  t.seq = ⟨.reset, 0, 0⟩ ∧ t.pins = Pins.idle ∧ t.busy = false ∧ t.rsps = s.rsps ∧ t.now = 0

theorem wasReset_resetBlock {s u : State} (h : u.rsps = s.rsps) : WasReset s (resetBlock u) := ⟨rfl, rfl, rfl, h, rfl⟩

/-- The handle is taken away by a RUN_INIT or by a reset (10_state.md R22). -/
theorem Ends.taken {i : Instr} {s t : State} (h : Ends i s t) (h0 : s.ph = true) (h1 : t.ph = false) :
    i = .runInit ∨ WasReset s t := by
  by_cases hi : i = .runInit
  · exact .inl hi
  have hkept : t.ph ≠ s.ph := by simp [h0, h1]
  cases h with
  | ok _ _ _ _ _ _ seq => exact absurd ((if_neg hi).mp seq).1 hkept
  | failed _ _ _ _ _ _ _ _ _ _ seq => exact absurd ((if_neg hi).mp seq).1 hkept
  | away _ _ _ _ _ _ _ seq => exact absurd seq.1 hkept
  | hung _ _ _ _ _ _ _ _ ph => exact absurd (ph hi).1 hkept
  | reset _ u _ _ _ _ _ rsps is => exact .inr (by rcases is with rfl | rfl <;> exact wasReset_resetBlock rsps)

/-- Settles O23: only the ends of RUN_INIT and a reset write the handle. -/
theorem handleChangesOnlyByRunInitOrReset : Obligations.HandleChangesOnlyByRunInitOrReset := by
  intro s t h
  by_cases hph : t.ph = s.ph
  · exact ⟨fun h0 h1 => by simp [hph, h0] at h1, fun h0 h1 => by simp [hph, h0] at h1⟩
  cases stepped h with
  | ran i f bytes r _ _ _ fetched ran =>
    refine ⟨fun h0 h1 => ?_, fun h0 h1 => ?_⟩
    · obtain ⟨rfl, hrsp, -, hrsps⟩ := (ends_of_exec ran).granted h0 h1
      exact ⟨⟨_, fetched⟩, hrsp, hrsps⟩
    · obtain rfl | hreset := (ends_of_exec ran).taken h0 h1
      · exact .inl ⟨_, fetched⟩
      · exact .inr hreset
  | waited _ _ is => exact absurd (by rw [is]) hph
  | answered r _ is => exact absurd (by rw [is]; rfl) hph
  | reset r _ is =>
    subst is
    exact ⟨fun _ h1 => (Bool.false_ne_true h1).elim, fun _ _ => .inr (wasReset_resetBlock rfl)⟩
  | idled ns r _ is => exact absurd (by rw [is]; rfl) hph
  | device r p ns _ is => exact absurd (by rw [is]; rfl) hph

theorem foundBy_unknown {i : Instr} {s : State} (h : s.panel.unknown = true) : (foundBy i s).panel.unknown = true := by
  unfold foundBy
  split <;> exact h

/-- Settles O24: of the ways the receiver can stand after an instruction (`PanelAfter`), only the recovery makes an unknown one
known. -/
theorem unknownEndsOnlyByRunInit : Obligations.UnknownEndsOnlyByRunInit := by
  intro s t hu h hk
  have hstill : t.panel ≠ s.panel := fun he => by simp [he, hu] at hk
  cases stepped h with
  | ran i f bytes r _ _ _ fetched ran =>
    have hends := ends_of_exec ran
    obtain ⟨pre, -, hrec⟩ := hends.recorded
    rcases hends.panelAfter hrec.logical with hp | hp | ⟨rfl, hok, -, -⟩
    · rw [hp] at hk
      cases hk
    · have hfound : (foundBy i { s with inbox := r }).panel.unknown = true := foundBy_unknown hu
      rw [hp, Panel.onEvents_unknown _ _ hfound, hfound] at hk
      cases hk
    · have hcompleted := hends.completed_of_answer hok
      exact ⟨⟨_, fetched⟩, hok, ((if_pos rfl).mp hcompleted.seq).1⟩
  | waited _ _ is => exact absurd (by rw [is]) hstill
  | answered r _ is => exact absurd (by rw [is]; rfl) hstill
  | reset r _ is =>
    rw [is, resetBlock_panel] at hk
    split at hk
    · cases hk
    · simp [hu] at hk
  | idled ns r _ is => exact absurd (by rw [is]; rfl) hstill
  | device r p ns _ is => exact absurd (by rw [is]; rfl) hstill

end Sys2Proof.Machine
end

section
/-! The raw operations and the wire words (40_transport.md R104 to R107): what one word does when it is sent, fails, never returns or
is cut short. -/

namespace Sys2Proof.Machine

/-! ### One word that goes out -/

/-- With a clean environment a sequence returns OK, with all that is known of its success. -/
theorem Flow.Runs.done_with {K P : State → State → Prop} {es : List Event} {s : State} {f : Flow} (h : f.Runs K es s)
    (hc : s.env.clean = true) (hp : f.OnDone (P s)) : ∃ t, f = .done t ∧ K s t ∧ Arrived es s t ∧ P s t := by
  obtain ⟨t, rfl, hk, ha⟩ := h.done_of_clean hc
  exact ⟨t, rfl, hk, ha, hp⟩

theorem Kept.keepsSequencer {s t : State} (h : Kept s t) : s.KeepsSequencer t := ⟨h.ph, h.seq⟩

theorem Kept.keepsFrameWriter {s t : State} (h : Kept s t) : s.KeepsFrameWriter t := ⟨h.fwLeft, h.fwRow, h.bufHeld, h.lb⟩

theorem Kept.keepsOutside {s t : State} (h : Kept s t) : s.KeepsOutside t := ⟨h.cfg, h.plat, h.inbox, h.allocs, h.free⟩

/-- What is known of the time and the trace of a word that was sent (40_transport.md R101, R103). -/
def WordDone (e : Event) (s t : State) : Prop :=
  Traced (wireOf s.cfg [e]) s t ∧
    (s.cfg.profile = .bridge → s.now + s.quietDue + s.cfg.tQuietNs ≤ t.now ∧ t.quietDue = 0)

theorem onDone_wordDone {e : Event} {s : State} {f : Flow} (ht : f.OnDone (Traced (wireOf s.cfg [e]) s))
    (hn : s.cfg.profile = .bridge → f.OnDone fun t => s.now + s.quietDue + s.cfg.tQuietNs ≤ t.now ∧ t.quietDue = 0) :
    f.OnDone (WordDone e s) := by
  cases f with
  | done t => exact ⟨ht, hn⟩
  | raised r t => trivial
  | hung t => trivial
  | reset t => trivial

theorem ptCmd_wordDone (c : Byte) (s : State) : (ptCmd c s).OnDone (WordDone (.cmd c) s) :=
  onDone_wordDone (ptCmd_traced c s) (ptCmd_time c s)

theorem ptDat_wordDone (d : Byte) (s : State) : (ptDat d s).OnDone (WordDone (.dat d) s) :=
  onDone_wordDone (ptDat_traced d s) (ptDat_time d s)

/-- A raw operation that was answered OK (40_transport.md R106, R107). -/
structure RawDone (e : Event) (s t : State) : Prop where
  answered : State.Answered .ok s t
  logical : t.logical = s.logical ++ [e]
  wire : t.wire = s.wire ++ wireOf s.cfg [e]
  panel : t.panel = s.panel.onEvents s.cfg [e]
  sequencer : s.KeepsSequencer t
  frameWriter : s.KeepsFrameWriter t
  outside : s.KeepsOutside t
  idle : s.BusIdle → t.BusIdle
  time : s.cfg.profile = .bridge → s.now + s.quietDue + s.cfg.tQuietNs ≤ t.now ∧ t.quietDue = 0

theorem finish_rawDone {op b : Byte} {e : Event} {s : State} {f : Flow} (hr : f.Runs Kept [e] (acceptByte op b s))
    (hd : f.OnDone (WordDone e (acceptByte op b s))) (hc : s.env.clean = true) : RawDone e s (finish f) := by
  obtain ⟨t, rfl, hk, ha, htraced, htime⟩ := hr.done_with hc hd
  exact ⟨⟨rfl, rfl, congrArg (· ++ [Resp.ok]) hk.rsps⟩, ha.logical, htraced.wire, ha.panel, hk.keepsSequencer, hk.keepsFrameWriter,
    hk.keepsOutside, ha.idle, htime⟩

/-! ### One word that does not go out -/

theorem wordDraw_of_cons {s : State} {o : WordDraw} {ws : List WordDraw} (h : s.env.words = o :: ws) : wordDraw s = o := by
  unfold wordDraw
  rw [h]
  rfl

/-- Where no reset is drawn in what is owed, a word begins with the assertion of chip-select (40_transport.md R103). -/
theorem txWord_begins {s : State} (hb : s.cfg.profile = .bridge) (hq : s.QuietPasses) (w : Word) (e : Event) :
    ∃ u, Kept s u ∧ u.wire = s.wire ∧ u.logical = s.logical ∧ u.env.words = s.env.words ∧
      txWord w e s = (sendWord w e (assertCs u)).bind fun v => quiet (releaseCs v) := by
  obtain ⟨now, waits, hdone, hnow⟩ := awaitQuiet_done hb hq
  refine ⟨{ s with now := now, quietDue := 0, env := { s.env with waits := waits } }, ?_, rfl, rfl, rfl, ?_⟩
  swap
  · rw [txWord, framed, hdone, Flow.bind]
  exact ⟨rfl, rfl, rfl, rfl, rfl, rfl, rfl, rfl, rfl, rfl, rfl, rfl, rfl, rfl, rfl, Nat.le_trans (Nat.le_add_right ..) hnow⟩

/-- A word that fails (40_transport.md R101, R111). -/
theorem txWord_failed {s : State} {n : Nat} {ws : List WordDraw} (hb : s.cfg.profile = .bridge) (hq : s.QuietPasses)
    (hw : s.env.words = .failed n :: ws) (w : Word) (e : Event) :
    ∃ t, txWord w e s = .raised .transportError t ∧ t.wire = s.wire ++ [.csAssert, .wordFailed, .csRelease] := by
  obtain ⟨u, -, hwire, -, hwords, htx⟩ := txWord_begins hb hq w e
  have hdraw : wordDraw (assertCs u) = .failed n := wordDraw_of_cons (hwords.trans hw)
  rw [htx, sendWord, hdraw]
  refine ⟨_, rfl, ?_⟩
  have hbits := (bitsOnly_loadWord w (popWord (assertCs u))).trans (bitsOnly_clockBits (min n 32) _)
  show (releaseCs _).wire = _
  rw [releaseCs_wire, emitWire_wire, hbits.wire, popWord_wire]
  show u.wire ++ _ ++ _ ++ _ = _
  simp [hwire]

/-- A word that never returns (40_transport.md R113). -/
theorem txWord_hung {s : State} {n : Nat} {high : Bool} {ws : List WordDraw} (hb : s.cfg.profile = .bridge) (hq : s.QuietPasses)
    (hw : s.env.words = .hang n high :: ws) (w : Word) (e : Event) :
    ∃ t, txWord w e s = .hung t ∧ t.wire = s.wire ++ [.csAssert] ∧ t.pins.cs = true := by
  obtain ⟨u, -, hwire, -, hwords, htx⟩ := txWord_begins hb hq w e
  have hdraw : wordDraw (assertCs u) = .hang n high := wordDraw_of_cons (hwords.trans hw)
  have hbits := bitsOnly_cutWord n high w (popWord (assertCs u))
  rw [htx, sendWord, hdraw]
  exact ⟨_, rfl, by rw [hbits.wire, ← hwire]; rfl, hbits.cs⟩

/-- A word that the block's reset cuts short (70_reset_and_hazards.md R251). -/
theorem txWord_reset {s : State} {n : Nat} {ws : List WordDraw} (hb : s.cfg.profile = .bridge) (hq : s.QuietPasses)
    (hw : s.env.words = .reset n :: ws) (w : Word) (e : Event) :
    ∃ t, txWord w e s = .reset t ∧ Kept s t ∧ t.logical = s.logical ∧ t.wire = s.wire ++ [.csAssert] ∧ t.pins.cs = true := by
  obtain ⟨u, hk, hwire, hlog, hwords, htx⟩ := txWord_begins hb hq w e
  have hdraw : wordDraw (assertCs u) = .reset n := wordDraw_of_cons (hwords.trans hw)
  have hbits := bitsOnly_cutWord n false w (popWord (assertCs u))
  rw [htx, sendWord, hdraw]
  exact ⟨_, rfl, (hk.trans ((kept_assertCs u).trans (kept_popWord _))).trans hbits.toKept, hbits.logical.trans hlog,
    by rw [hbits.wire, ← hwire]; rfl, hbits.cs⟩

theorem nativeSend_failed {s : State} {n : Nat} {ws : List WordDraw} (hw : s.env.words = .failed n :: ws) (e : Event) :
    nativeSend e s = .raised .transportError (losePanel (popWord s)) := by
  rw [nativeSend, wordDraw_of_cons hw]

/-- The flow of a single word, by the profile. -/
def sendOne (w : Word) (e : Event) (s : State) : Flow :=
  match s.cfg.profile with
  | .bridge => txWord w e s
  | .native => nativeSend e s

theorem ptCmd_eq (c : Byte) (s : State) : ptCmd c s = sendOne (cmdWord c) (.cmd c) s := by
  unfold ptCmd sendOne
  cases s.cfg.profile <;> rfl

theorem ptDat_eq (d : Byte) (s : State) : ptDat d s = sendOne (datWord d) (.dat d) s := by
  unfold ptDat sendOne
  cases s.cfg.profile <;> rfl

theorem sendOne_bridge {s : State} (hb : s.cfg.profile = .bridge) (w : Word) (e : Event) : sendOne w e s = txWord w e s := by
  rw [sendOne, hb]

theorem sendOne_failed {s : State} {n : Nat} {ws : List WordDraw} (hq : s.QuietPasses) (hw : s.env.words = .failed n :: ws)
    (w : Word) (e : Event) :
    ∃ t, sendOne w e s = .raised .transportError t ∧
      (s.cfg.profile = .bridge → t.wire = s.wire ++ [.csAssert, .wordFailed, .csRelease]) := by
  cases hp : s.cfg.profile with
  | bridge =>
    obtain ⟨t, ht, hwire⟩ := txWord_failed hp hq hw w e
    exact ⟨t, by rw [sendOne_bridge hp, ht], fun _ => hwire⟩
  | native => exact ⟨_, by rw [sendOne, hp]; exact nativeSend_failed hw e, fun h => by cases h⟩

/-- A raw operation whose word failed (40_transport.md R111). -/
structure RawFailed (s t : State) : Prop where
  answered : State.Answered .transportError s t
  logical : t.logical = s.logical
  wire : s.cfg.profile = .bridge → t.wire = s.wire ++ [.csAssert, .wordFailed, .csRelease] ∧ t.quietDue = s.cfg.tQuietNs
  panel : t.panel.unknown = true
  sequencer : s.KeepsSequencer t
  frameWriter : s.KeepsFrameWriter t
  outside : s.KeepsOutside t
  idle : s.BusIdle → t.BusIdle

theorem finish_rawFailed {op b : Byte} {w : Word} {e : Event} {s : State} {n : Nat} {ws : List WordDraw}
    (hr : (sendOne w e (acceptByte op b s)).Runs Kept [e] (acceptByte op b s)) (hq : s.QuietPasses)
    (hw : s.env.words = .failed n :: ws) : RawFailed s (finish (sendOne w e (acceptByte op b s))) := by
  obtain ⟨t, ht, hwire⟩ := sendOne_failed (s := acceptByte op b s) hq hw w e
  rw [ht] at hr ⊢
  obtain ⟨-, hk, -, hpanel, ⟨⟨hidle, -⟩, hlast⟩, pre, -, hlen, hwent⟩ := hr
  obtain rfl : pre = [] := List.length_eq_zero_iff.1 (Nat.lt_one_iff.1 hlen)
  refine ⟨⟨rfl, rfl, congrArg (· ++ [Resp.transportError]) hk.rsps⟩, ?_, fun hb => ⟨hwire hb, ?_⟩, ?_, hk.keepsSequencer,
    hk.keepsFrameWriter, hk.keepsOutside, hidle⟩
  · exact hwent.logical.trans (List.append_nil _)
  · exact (hlast hb).2.trans (congrArg Config.tQuietNs hk.cfg)
  · rw [finish, raise_panel, hpanel]
    rfl

/-- The two raw operations: the request's byte goes out as one word (40_transport.md R106, R107). -/
theorem exec_raw {i : Instr} {b : Byte} (s : State) (h : i = .sendCommand b ∨ i = .sendData b) :
    ∃ op w e, streamOf s.cfg i = [e] ∧ exec i s = .next (finish (sendOne w e (acceptByte op b s))) ∧
      (sendOne w e (acceptByte op b s)).Runs Kept [e] (acceptByte op b s) := by
  obtain rfl | rfl := h
  · refine ⟨opSendCommand, cmdWord b, .cmd b, rfl, ?_, ?_⟩ <;> rw [← ptCmd_eq]
    · rfl
    · exact ptCmd_runs b _
  · refine ⟨opSendData, datWord b, .dat b, rfl, ?_, ?_⟩ <;> rw [← ptDat_eq]
    · rfl
    · exact ptDat_runs b _

theorem exec_raw_failed {i : Instr} {b : Byte} {s : State} (h : i = .sendCommand b ∨ i = .sendData b) {n : Nat}
    {ws : List WordDraw} (hq : s.QuietPasses) (hw : s.env.words = .failed n :: ws) :
    ∃ t, exec i s = .next t ∧ RawFailed s t := by
  obtain ⟨op, w, e, -, hexec, hr⟩ := exec_raw s h
  exact ⟨_, hexec, finish_rawFailed hr hq hw⟩

/-- Settles O26: the word goes out (`RawDone`), or fails (`RawFailed`). -/
theorem sendCommandResult : Obligations.SendCommandResult := by
  refine fun c s => ⟨fun hc => ?_, fun n ws hq hw => ?_⟩
  · have h := finish_rawDone (op := opSendCommand) (b := c) (ptCmd_runs c _) (ptCmd_wordDone c _) hc
    exact ⟨_, rfl, h.answered, h.logical, h.wire, h.panel, h.sequencer, h.frameWriter, h.outside, h.idle, h.time⟩
  · obtain ⟨t, ht, h⟩ := exec_raw_failed (.inl rfl) hq hw
    exact ⟨t, ht, h.answered, h.logical, h.wire, h.panel, h.sequencer, h.frameWriter, h.outside, h.idle⟩

/-- Settles O27, as O26. -/
theorem sendDataResult : Obligations.SendDataResult := by
  refine fun d s => ⟨fun hc => ?_, fun n ws hq hw => ?_⟩
  · have h := finish_rawDone (op := opSendData) (b := d) (ptDat_runs d _) (ptDat_wordDone d _) hc
    exact ⟨_, rfl, h.answered, h.logical, h.wire, h.panel, h.sequencer, h.frameWriter, h.outside, h.idle, h.time⟩
  · obtain ⟨t, ht, h⟩ := exec_raw_failed (.inr rfl) hq hw
    exact ⟨t, ht, h.answered, h.logical, h.wire, h.panel, h.sequencer, h.frameWriter, h.outside, h.idle⟩

/-! ### A word or a panel command run on its own -/

/-- An instruction that writes no register of the block and sent `es` (log 2). -/
structure RanAlone (es : List Event) (s t : State) : Prop where
  x : t.x = s.x
  rsp : t.rsp = s.rsp
  rsps : t.rsps = s.rsps
  busy : t.busy = s.busy
  logical : t.logical = s.logical ++ es
  wire : t.wire = s.wire ++ wireOf s.cfg es
  panel : t.panel = s.panel.onEvents s.cfg es
  sequencer : s.KeepsSequencer t
  frameWriter : s.KeepsFrameWriter t
  outside : s.KeepsOutside t
  idle : s.BusIdle → t.BusIdle

/-- The start of an instruction run on its own. -/
def startAlone (s : State) : State := { s with busy := true }

theorem finishWord_ranAlone {es : List Event} {s : State} {f : Flow} (hr : f.Runs Kept es (startAlone s))
    (hd : f.OnDone (Traced (wireOf s.cfg es) (startAlone s))) (hc : s.env.clean = true) :
    RanAlone es s (finishWord s.busy f) := by
  obtain ⟨t, rfl, hk, ha, htraced⟩ := hr.done_with (P := fun a b => Traced (wireOf s.cfg es) a b) hc hd
  exact ⟨hk.x, hk.rsp, hk.rsps, rfl, ha.logical, htraced.wire, ha.panel, hk.keepsSequencer, hk.keepsFrameWriter, hk.keepsOutside,
    ha.idle⟩

theorem finishWord_time {s : State} {f : Flow} {e : Event} (hr : f.Runs Kept [e] (startAlone s))
    (hd : f.OnDone (WordDone e (startAlone s))) (hc : s.env.clean = true) (hb : s.cfg.profile = .bridge) :
    s.now + s.quietDue + s.cfg.tQuietNs ≤ (finishWord s.busy f).now ∧ (finishWord s.busy f).quietDue = 0 := by
  obtain ⟨t, rfl, -, -, -, htime⟩ := hr.done_with hc hd
  exact htime hb

/-- Settles O28. -/
theorem wireWordResult : Obligations.WireWordResult := by
  intro b s hc
  have hcmd := finishWord_ranAlone (s := s) (ptCmd_runs b _) (ptCmd_traced b _) hc
  have hdat := finishWord_ranAlone (s := s) (ptDat_runs b _) (ptDat_traced b _) hc
  exact ⟨⟨_, rfl, hcmd.logical, hcmd.wire, hcmd.panel, hcmd.x, hcmd.rsp, hcmd.rsps, hcmd.busy, hcmd.sequencer, hcmd.frameWriter,
      hcmd.outside, hcmd.idle, finishWord_time (ptCmd_runs b _) (ptCmd_wordDone b _) hc⟩,
    ⟨_, rfl, hdat.logical, hdat.wire, hdat.panel, hdat.x, hdat.rsp, hdat.rsps, hdat.busy, hdat.sequencer, hdat.frameWriter,
      hdat.outside, hdat.idle, finishWord_time (ptDat_runs b _) (ptDat_wordDone b _) hc⟩⟩

/-! ### A reset inside an operation -/

/-- No reset is among the draws of an operation that took none. -/
theorem Drew.no_reset {last uw : List WordDraw} {ut : List WaitDraw} {s t : State} (h : Drew last s t)
    (hl : ∀ n, .reset n ∉ last) (hw : s.env.words = uw ++ t.env.words) (ht : s.env.waits = ut ++ t.env.waits) :
    ¬ ((∃ n, .reset n ∈ uw) ∨ .reset ∈ ut) := by
  rintro (⟨n, hn⟩ | hr)
  · obtain ⟨us, rfl, hsent⟩ := h.words hw
    rcases List.mem_append.1 hn with hm | hm
    · cases hsent _ hm
    · exact hl n hm
  · exact h.waits ht hr

/-- A reset that was drawn for a word cut that word short. -/
theorem Cut.of_word {uw : List WordDraw} {s t : State} {n : Nat} (h : Cut s t) (hw : s.env.words = uw ++ t.env.words)
    (hn : .reset n ∈ uw) : (s.cfg.profile = .bridge → t.pins.cs = true) ∧ (s.cfg.profile = .native → t.panel = Panel.lost) := by
  obtain ⟨m, -, hbridge, hnative⟩ | ⟨us, ut, htook, hsent, -⟩ := h
  · exact ⟨hbridge, hnative⟩
  · obtain rfl : uw = us := List.append_cancel_right (hw.symm.trans htook.words)
    cases hsent _ hn

/-- The state after an operation that a reset ended, from the state in which it came. -/
theorem ends_eq_resetBlock {t u : State} (h : t = resetBlock u ∨ t = resetBlock (losePanel u)) :
    ∃ v, t = resetBlock v ∧ (v = u ∨ v = losePanel u) := by
  obtain rfl | rfl := h
  · exact ⟨u, rfl, .inl rfl⟩
  · exact ⟨losePanel u, rfl, .inr rfl⟩

/-- The instructions that send one word: what they start from, and what a reset makes of them. -/
theorem exec_single {i : Instr} {b : Byte} (s : State)
    (hi : i = .wrcmd b ∨ i = .wrcolor b ∨ i = .sendCommand b ∨ i = .sendData b) :
    ∃ (a : State) (w : Word) (e : Event) (fin : Flow → State), Begun s a ∧ a.panel = s.panel ∧ exec i s = .next (fin (sendOne w e a)) ∧
      ∀ u, fin (.reset u) = resetBlock u := by
  have alone : Begun s (startAlone s) := ⟨⟨rfl, rfl, rfl⟩, rfl, rfl, rfl, rfl, rfl, rfl, rfl, rfl, rfl, rfl⟩
  have raw : ∀ op, Begun s (acceptByte op b s) := fun op => ⟨⟨rfl, rfl, rfl⟩, rfl, rfl, rfl, rfl, rfl, rfl, rfl, rfl, rfl, rfl⟩
  obtain rfl | rfl | hraw := hi
  · exact ⟨_, cmdWord b, .cmd b, finishWord s.busy, alone, rfl, by rw [← ptCmd_eq]; rfl, fun _ => rfl⟩
  · exact ⟨_, datWord b, .dat b, finishWord s.busy, alone, rfl, by rw [← ptDat_eq]; rfl, fun _ => rfl⟩
  · obtain ⟨op, w, e, -, hexec, -⟩ := exec_raw s hraw
    exact ⟨_, w, e, finish, raw op, rfl, hexec, fun _ => rfl⟩

/-- Settles O12: the first word of a raw operation and the interval owed before it are run to their ends (`txWord_reset`,
`awaitQuiet_reset`); of any instruction, only the end by a reset has taken a draw of one (`Drew.no_reset`). -/
theorem resetInsideAnOperation : Obligations.ResetInsideAnOperation := by
  refine ⟨fun i b s n ws hb hq hw hi => ?_, fun i b s ws hb hcs h0 hw hi => ?_, fun i s t uw ut he hw ht hr => ?_⟩
  · obtain ⟨op, w, e, -, hexec, -⟩ := exec_raw s hi
    obtain ⟨u, hu, hk, hlog, hwire, hcs⟩ := txWord_reset (s := acceptByte op b s) hb hq hw w e
    rw [hexec, sendOne_bridge (s := acceptByte op b s) hb, hu]
    refine ⟨_, rfl, hk.rsps, rfl, rfl, rfl, rfl, hlog, ?_, ?_, hk.cfg, ?_⟩
    · rw [finish, resetBlock_wire, if_pos hcs, hwire]
      simp
    · rw [finish, resetBlock_panel, if_pos hcs]
      rfl
    · rw [finish, resetBlock_quietDue, if_pos hcs, hk.cfg]
      rfl
  · obtain ⟨a, w, e, fin, hbegun, hpanel, hexec, hfin⟩ := exec_single s hi
    have hreset := awaitQuiet_reset (s := a) (hbegun.quietDue ▸ h0) (hbegun.waits.trans hw)
    rw [sendOne_bridge (by rw [hbegun.fixed.cfg, hb]), txWord, framed, hreset, Flow.bind, hfin] at hexec
    have hacs : ¬ a.pins.cs = true := by rw [hbegun.pins, hcs]; exact Bool.false_ne_true
    refine ⟨_, hexec, hbegun.rsps, rfl, rfl, rfl, rfl, hbegun.logical, ?_, ?_, hbegun.fixed.cfg, ?_, hbegun.words, rfl⟩
    · rw [resetBlock_wire, if_neg hacs, hbegun.wire]
    · rw [resetBlock_panel, if_neg hacs, hpanel]
    · rw [resetBlock_quietDue, if_neg hacs, hbegun.quietDue]
  · cases ends_of_exec he with
    | ok _ _ _ _ _ _ _ _ _ calm => exact absurd hr (Drew.no_reset calm (by simp) hw ht)
    | failed _ _ _ _ _ _ _ _ _ _ _ _ _ drew =>
      obtain ⟨n, drew⟩ := drew
      exact absurd hr (drew.no_reset (by simp) hw ht)
    | away _ _ _ _ _ _ _ _ _ _ calm => exact absurd hr (Drew.no_reset calm (by simp) hw ht)
    | hung _ _ _ _ _ _ _ _ _ _ _ drew =>
      obtain ⟨n, high, drew⟩ := drew
      exact absurd hr (drew.no_reset (by simp) hw ht)
    | reset pre u fixed strict went _ _ rsps is init cut =>
      have hpanel : i = .runInit → t.panel.unknown = true := by
        intro h
        rw [init h, resetBlock_panel, losePanel_panel, ite_self]
        rfl
      obtain ⟨v, rfl, hv⟩ := ends_eq_resetBlock is
      have hvu : v.cfg = u.cfg ∧ v.plat = u.plat ∧ v.inbox = u.inbox ∧ v.rsps = u.rsps ∧ v.logical = u.logical ∧
          v.pins = u.pins ∧ v.env = u.env ∧ (u.panel = Panel.lost → v.panel = Panel.lost) := by
        obtain rfl | rfl := hv
        · exact ⟨rfl, rfl, rfl, rfl, rfl, rfl, rfl, id⟩
        · exact ⟨rfl, rfl, rfl, rfl, rfl, rfl, rfl, fun _ => rfl⟩
      obtain ⟨hcfg, hplat, hinbox, hrsps, hlog, hpins, henv, hlost⟩ := hvu
      refine ⟨hrsps.trans rsps, rfl, rfl, rfl, rfl, rfl, rfl, hcfg.trans fixed.cfg, hplat.trans fixed.plat,
        hinbox.trans fixed.inbox, ⟨pre, strict, hlog.trans went.logical⟩, hpanel, fun ⟨n, hn⟩ => ?_⟩
      obtain ⟨hbridge, hnative⟩ := cut.of_word (uw := uw) (by rw [hw, resetBlock_env, henv]) hn
      cases hp : s.cfg.profile with
      | bridge =>
        have hcs : v.pins.cs = true := by rw [hpins, hbridge hp]
        refine ⟨by rw [resetBlock_panel, if_pos hcs]; rfl, fun _ => ⟨⟨v.wire, by rw [resetBlock_wire, if_pos hcs]⟩, ?_⟩⟩
        rw [resetBlock_quietDue, if_pos hcs, hcfg, fixed.cfg]
      | native =>
        refine ⟨?_, fun h => by cases h⟩
        rw [resetBlock_panel, hlost (hnative hp), ite_self]
        rfl

end Sys2Proof.Machine
end

section
/-! The exceptions (60_exceptions.md R211 to R219): hangs, failed words, and what every instruction leaves unchanged. All are read off
the ends of an instruction (`exec_ends`). -/

namespace Sys2Proof.Machine

/-! ### A word that never returned -/

/-- The end of an instruction whose word never returned (40_transport.md R113). -/
structure Hung (i : Instr) (s t : State) : Prop where
  cfg : t.cfg = s.cfg
  held : t.busy = true ∧ t.rsp = s.rsp ∧ t.rsps = s.rsps
  stream : ∃ pre, pre <+: streamOf s.cfg i ∧ pre.length < (streamOf s.cfg i).length ∧ t.logical = s.logical ++ pre
  asserted : s.cfg.profile = .bridge → t.pins.cs = true
  drew : DrewHang s t

/-- A block that an instruction leaves busy has hung. -/
theorem Ends.hung_of_busy {i : Instr} {s t : State} (h : Ends i s t) (hs : s.busy = false) (ht : t.busy = true) : Hung i s t := by
  have hbusy : t.busy ≠ false := by simp [ht]
  cases h with
  | ok _ _ _ _ _ answer =>
    split at answer
    · exact absurd answer.2.1 hbusy
    · exact absurd (answer.2.1.trans hs) hbusy
  | failed _ _ _ _ _ _ _ _ _ answer => exact absurd answer.2.1 hbusy
  | away _ _ _ _ _ _ answer => exact absurd answer.2.1 hbusy
  | hung pre fixed _ strict went _ _ held _ _ _ drew asserted =>
    exact ⟨fixed.cfg, held, ⟨pre, strict.1, strict.2, went.logical⟩, asserted, drew⟩
  | reset _ u _ _ _ _ _ _ is => rcases is with rfl | rfl <;> cases ht

/-- An instruction that drew a hang has hung. -/
theorem Ends.hung_of_draw {i : Instr} {s t : State} (h : Ends i s t) {uw : List WordDraw} {n : Nat} {high : Bool}
    (hw : s.env.words = uw ++ t.env.words) (hn : .hang n high ∈ uw) : Hung i s t := by
  have hcalm : ¬ Calm s t := fun hc => by cases Calm.words hc hw _ hn
  cases h with
  | ok _ _ _ _ _ _ _ _ _ calm => exact absurd calm hcalm
  | failed _ _ _ _ _ _ _ _ _ _ _ _ _ drew =>
    obtain ⟨m, drew⟩ := drew
    obtain ⟨us, rfl, hsent⟩ := drew.words hw
    rcases List.mem_append.1 hn with hm | hm
    · cases hsent _ hm
    · simp at hm
  | away _ _ _ _ _ _ _ _ _ _ calm => exact absurd calm hcalm
  | hung pre fixed _ strict went _ _ held _ _ _ drew asserted =>
    exact ⟨fixed.cfg, held, ⟨pre, strict.1, strict.2, went.logical⟩, asserted, drew⟩
  | reset _ u _ _ _ _ _ _ is _ cut =>
    have henv : t.env = u.env := by rcases is with rfl | rfl <;> rfl
    rcases cut.words (by rw [hw, henv]) _ hn with hm | ⟨m, hm⟩ <;> cases hm

/-- Whatever is presented to a hung block, short of a reset, it makes no step (40_transport.md R113). -/
theorem step_hung {t : State} (hwf : t.cfg.wf = true) (hb : t.busy = true) (later : List Input) (h : .reset ∉ later) :
    step { t with inbox := later } = .fault .busHang :=
  step_busHang (s := { t with inbox := later }) hwf hb h

/-- Settles O29: the first word of a raw operation is run to its hang (`txWord_hung`); the rest is the end by a hang, which is
known by the block it leaves busy, and by the draw. -/
theorem hangHoldsTheBlock : Obligations.HangHoldsTheBlock := by
  refine ⟨fun i b s n high ws hb hwf hq hw hi => ?_, fun i s t hb hwf hidle he ht => ?_, fun i s t uw n high he hw hn => ?_⟩
  · obtain ⟨op, w, e, -, hexec, hr⟩ := exec_raw s hi
    obtain ⟨t, ht, hwire, hcs⟩ := txWord_hung (s := acceptByte op b s) hb hq hw w e
    rw [sendOne_bridge (s := acceptByte op b s) hb, ht] at hexec hr
    obtain ⟨hk, -, pre, -, hlen, -, hwent⟩ := hr
    obtain rfl : pre = [] := List.length_eq_zero_iff.1 (Nat.lt_one_iff.1 hlen)
    exact ⟨t, hexec, hk.busy, hcs, hk.rsps, hwent.logical.trans (List.append_nil _), hwire, hk.keepsSequencer,
      step_hung (hk.cfg ▸ hwf) hk.busy⟩
  · have h := (ends_of_exec he).hung_of_busy hidle ht
    exact ⟨h.asserted hb, h.held.2.2, h.held.2.1, h.stream, step_hung (h.cfg ▸ hwf) ht⟩
  · have h := (ends_of_exec he).hung_of_draw hw hn
    obtain ⟨hbusy, hrsp, hrsps⟩ := h.held
    obtain ⟨m, high', drew⟩ := h.drew
    obtain ⟨us, rfl, hsent⟩ := drew.words hw
    obtain hm | hm := List.mem_append.1 hn
    · cases hsent _ hm
    · obtain hm := List.mem_singleton.1 hm
      exact ⟨hbusy, hrsps, hrsp, h.asserted, us, by rw [hm], hsent⟩

/-! ### A word that failed -/

/-- The end of an instruction whose word failed (40_transport.md R111, R112). -/
structure Failed (i : Instr) (s t : State) : Prop where
  cfg : t.cfg = s.cfg
  answer : State.Answered .transportError s t
  stream : ∃ pre, pre <+: streamOf s.cfg i ∧ pre.length < (streamOf s.cfg i).length ∧ Went pre s t
  idle : s.BusIdle → t.BusIdle
  last : s.cfg.profile = .bridge → FailedLast t
  seq : SequencerAfter i false s t
  buffer : BufferAfter i s t
  panel : t.panel = Panel.lost
  drew : DrewFailed s t

theorem Ends.failed_of_answer {i : Instr} {s t : State} (h : Ends i s t) (hr : t.rsps = s.rsps ++ [.transportError]) :
    Failed i s t := by
  cases h with
  | ok _ _ _ _ _ answer =>
    split at answer
    · cases answer.unique hr
    · exact absurd hr (rsps_ne_append _ answer.2.2)
  | failed pre fixed _ strict went idle _ last _ answer seq buffer panel drew =>
    exact ⟨fixed.cfg, answer, ⟨pre, strict.1, strict.2, went⟩, idle, last, seq, buffer, panel, drew⟩
  | away r _ _ _ why _ answer =>
    cases answer.unique hr
    simp at why
  | hung _ _ _ _ _ _ _ held => exact absurd hr (rsps_ne_append _ held.2.2)
  | reset _ u _ _ _ _ _ rsps is => exact absurd hr (rsps_ne_append _ (by rcases is with rfl | rfl <;> exact rsps))

theorem Ends.failed_of_draw {i : Instr} {s t : State} (h : Ends i s t) {uw : List WordDraw} {n : Nat}
    (hw : s.env.words = uw ++ t.env.words) (hn : .failed n ∈ uw) : Failed i s t := by
  have hcalm : ¬ Calm s t := fun hc => by cases Calm.words hc hw _ hn
  cases h with
  | ok _ _ _ _ _ _ _ _ _ calm => exact absurd calm hcalm
  | failed pre fixed _ strict went idle _ last _ answer seq buffer panel drew =>
    exact ⟨fixed.cfg, answer, ⟨pre, strict.1, strict.2, went⟩, idle, last, seq, buffer, panel, drew⟩
  | away _ _ _ _ _ _ _ _ _ _ calm => exact absurd calm hcalm
  | hung _ _ _ _ _ _ _ _ _ _ _ drew =>
    obtain ⟨m, high, drew⟩ := drew
    obtain ⟨us, rfl, hsent⟩ := drew.words hw
    rcases List.mem_append.1 hn with hm | hm
    · cases hsent _ hm
    · simp at hm
  | reset _ u _ _ _ _ _ _ is _ cut =>
    have henv : t.env = u.env := by rcases is with rfl | rfl <;> rfl
    rcases cut.words (by rw [hw, henv]) _ hn with hm | ⟨m, hm⟩ <;> cases hm

/-- An error other than that of a failed word is given without a transport call. -/
theorem Ends.untouched_of_error {i : Instr} {s t : State} (h : Ends i s t) {r : Resp} (hr : t.rsps = s.rsps ++ [r]) (hok : r ≠ .ok)
    (hte : r ≠ .transportError) : s.KeepsBus t := by
  cases h with
  | ok _ _ _ _ _ answer =>
    split at answer
    · exact absurd (answer.unique hr).symm hok
    · exact absurd hr (rsps_ne_append _ answer.2.2)
  | failed _ _ _ _ _ _ _ _ _ answer => exact absurd (answer.unique hr).symm hte
  | away _ _ _ _ _ bus => exact bus
  | hung _ _ _ _ _ _ _ held => exact absurd hr (rsps_ne_append _ held.2.2)
  | reset _ u _ _ _ _ _ rsps is => exact absurd hr (rsps_ne_append _ (by rcases is with rfl | rfl <;> exact rsps))

/-- Settles O30: a failed word is known by its draw and by its answer, and each gives the end it belongs to (`Failed`). -/
theorem errorsArePrecise : Obligations.ErrorsArePrecise := by
  refine ⟨fun i s t uw n he hw hn => ?_, fun i s t uw he hw hr => ?_, fun i s t r he hr hok => ⟨fun hte => ?_, ?_⟩⟩
  · have h := (ends_of_exec he).failed_of_draw hw hn
    obtain ⟨m, drew⟩ := h.drew
    obtain ⟨us, rfl, hsent⟩ := drew.words hw
    obtain hm | hm := List.mem_append.1 hn
    · cases hsent _ hm
    · obtain hm := List.mem_singleton.1 hm
      exact ⟨h.answer.2.2, us, by rw [hm], hsent⟩
  · obtain ⟨n, drew⟩ := ((ends_of_exec he).failed_of_answer hr).drew
    obtain ⟨us, rfl, -⟩ := drew.words hw
    exact ⟨n, by simp⟩
  · obtain ⟨hlog, hwire, hpanel, -⟩ := (ends_of_exec he).untouched_of_error hr hok hte
    exact ⟨hlog, hwire, hpanel⟩
  · rintro rfl
    have h := (ends_of_exec he).failed_of_answer hr
    obtain ⟨pre, hpre, hlen, hwent⟩ := h.stream
    refine ⟨pre, hpre, hlen, hwent.logical, hwent.grows.isPrefix, fun hb => ⟨(h.last hb).1, hwent.image hb, ?_⟩, ?_, h.answer.2.1,
      h.idle⟩
    · rw [(h.last hb).2, h.cfg]
    · rw [h.panel]
      rfl

/-- Settles O37: RUN_INIT is one of the instructions of which `Failed` speaks. -/
theorem runInitFailure : Obligations.RunInitFailure := by
  intro s t he hr
  have h := (ends_of_exec he).failed_of_answer hr
  obtain ⟨pre, hpre, hlen, hwent⟩ := h.stream
  obtain ⟨hph, -, hseq⟩ := (if_pos rfl).mp h.seq
  exact ⟨hph, hseq rfl, h.answer.1, h.answer.2.1, pre, hpre, hlen, hwent.logical⟩

/-- Settles O50: so are the fills. -/
theorem fillFailure : Obligations.FillFailure := by
  intro i s t hi he hr
  have h := (ends_of_exec he).failed_of_answer hr
  obtain ⟨pre, hpre, hlen, hwent⟩ := h.stream
  have hfill : isFill i = true ∧ i ≠ .runInit := by
    obtain ⟨x0, y0, x1, y1, p, rfl⟩ | ⟨p, rfl⟩ := hi <;> exact ⟨rfl, by simp⟩
  obtain ⟨hheld, hlb⟩ := (if_pos hfill.1).mp h.buffer
  exact ⟨h.answer.1, h.answer.2.1, hheld, hlb, (if_neg hfill.2).mp h.seq, pre, hpre, hlen, hwent.logical⟩

/-- Settles O38: a run that answered OK sent the whole stream of its configuration (`Ends.completed_of_answer`). -/
theorem rerunSendsTheSameStream : Obligations.RerunSendsTheSameStream := by
  intro s t u v hc ht hv hrt hrv
  have hst := (ends_of_exec ht).completed_of_answer hrt
  have huv := (ends_of_exec hv).completed_of_answer hrv
  exact ⟨_, hst.went.logical, by rw [hc]; exact huv.went.logical⟩

/-! ### What an instruction leaves unchanged -/

theorem SequencerAfter.kept {i : Instr} {ok : Bool} {s t : State} (h : SequencerAfter i ok s t) (hi : i ≠ .runInit) :
    s.KeepsSequencer t :=
  (if_neg hi).mp h

/-- The registers after an instruction that no reset ended. -/
theorem Ends.registers {i : Instr} {s t : State} (h : Ends i s t) (hn : s.env.noReset = true) :
    Registers i s t ∧ (i ≠ .runInit → s.KeepsSequencer t) := by
  cases h with
  | ok _ regs _ _ _ _ seq => exact ⟨regs, seq.kept⟩
  | failed _ _ regs _ _ _ _ _ _ _ seq => exact ⟨regs, seq.kept⟩
  | away _ _ regs _ _ _ _ seq => exact ⟨regs, fun _ => seq⟩
  | hung _ _ regs _ _ _ _ _ ph => exact ⟨regs, ph⟩
  | reset _ _ _ _ _ drawn => simp [drawn] at hn

/-- Settles O31. -/
theorem registersFrame : Obligations.RegistersFrame := by
  intro i s t hn he
  have hends := ends_of_exec he
  obtain ⟨hregs, hseq⟩ := hends.registers hn
  refine ⟨hregs.x, hends.fixed.cfg, hends.fixed.plat, hends.fixed.inbox, fun hi => ⟨hseq hi, hregs.free hi⟩, fun hrect hscreen => ?_⟩
  have hfill : isFill i = false := by
    cases i with
    | fillRect x0 y0 x1 y1 p => exact absurd rfl (hrect x0 y0 x1 y1 p)
    | fillScreen p => exact absurd rfl (hscreen p)
    | _ => rfl
  obtain ⟨hleft, hrow, hheld, hlb, hallocs⟩ := hregs.fill hfill
  exact ⟨⟨hleft, hrow, hheld, hlb⟩, hallocs⟩

end Sys2Proof.Machine
end

section
/-! The receiver (43_panel_receiver.md): a data byte in write mode (R197 to R199), when the state becomes unknown (R202), and what an
instruction makes of a receiver whose state stays known. -/

namespace Sys2Proof.Machine

namespace Panel

/-! ### A data byte in write mode -/

/-- A receiver that takes data bytes as pixel data (43_panel_receiver.md R196). -/
structure InWriteMode (k : Config) (p : Panel) : Prop where
  known : p.Listening
  last : p.last = some k.cmdRamwr
  wr : p.wr = true

/-- A data byte after memory-write is pixel data (43_panel_receiver.md R193). -/
theorem takeDat_ramwr {k : Config} (hk : k.cmdsDistinct = true) {p : Panel} (h : p.Listening) (hl : p.last = some k.cmdRamwr)
    (d : Byte) : p.takeDat k d = countData (pixelData k d { p with log := appendData d p.log }) := by
  obtain ⟨hu, hs⟩ := h
  obtain ⟨-, hcw, -, -, hrw, -⟩ := Config.distinct_of hk
  simp [takeDat, hu, hs, hl, hcw.symm, hrw.symm]

/-- The first byte of a pixel is kept (43_panel_receiver.md R197, R198). -/
theorem takeDat_high {k : Config} (hk : k.cmdsDistinct = true) {p : Panel} (h : p.InWriteMode k) (hi : p.hi = none) (d : Byte) :
    p.takeDat k d = { p with hi := some d, n := p.n + 1, log := appendData d p.log } := by
  rw [takeDat_ramwr hk h.known h.last]
  simp [pixelData, h.wr, hi, countData, h.known.1]

theorem advancePos_countData {p : Panel} (hu : p.unknown = false) : countData (advancePos p) = advancePos { p with n := p.n + 1 } := by
  unfold countData advancePos
  split_ifs <;> simp_all

/-- The second byte completes the pixel and stores it (43_panel_receiver.md R197). -/
theorem takeDat_low {k : Config} (hk : k.cmdsDistinct = true) {p : Panel} (h : p.InWriteMode k) {x : Byte} (hi : p.hi = some x)
    (d : Byte) :
    p.takeDat k d = advancePos { p with
      gram := p.gram.writePixel (pixelAddr k p.row.toNat p.col.toNat) x d, hi := none, n := p.n + 1
      log := appendData d p.log } := by
  rw [takeDat_ramwr hk h.known h.last]
  simp only [pixelData, h.wr, hi, Bool.true_eq_false, if_false]
  exact advancePos_countData h.known.1

/-- Advancing leaves all but the position and write mode. -/
theorem advancePos_eq (p : Panel) :
    advancePos p = { p with col := (advancePos p).col, row := (advancePos p).row, wr := (advancePos p).wr } := by
  unfold advancePos
  split_ifs <;> rfl

theorem advancePos_gram (p : Panel) : (advancePos p).gram = p.gram := by rw [advancePos_eq]

theorem advancePos_unknown (p : Panel) : (advancePos p).unknown = p.unknown := by rw [advancePos_eq]

/-- Row-major order (43_panel_receiver.md R199): the next column. -/
theorem advancePos_column {p : Panel} (h : p.col.toNat < p.xe.toNat) :
    (advancePos p).wr = p.wr ∧ (advancePos p).row = p.row ∧ (advancePos p).col.toNat = p.col.toNat + 1 := by
  have hlt := p.xe.isLt
  rw [advancePos, if_pos h]
  refine ⟨rfl, rfl, ?_⟩
  show (p.col + 1).toNat = _
  rw [BitVec.toNat_add]
  simp
  omega

/-- Row-major order: the first column of the next row. -/
theorem advancePos_row {p : Panel} (hc : p.xe.toNat ≤ p.col.toNat) (h : p.row.toNat < p.ye.toNat) :
    (advancePos p).wr = p.wr ∧ (advancePos p).row.toNat = p.row.toNat + 1 ∧ (advancePos p).col = p.xs := by
  have hlt := p.ye.isLt
  rw [advancePos, if_neg (by omega), if_pos h]
  refine ⟨rfl, ?_, rfl⟩
  show (p.row + 1).toNat = _
  rw [BitVec.toNat_add]
  simp
  omega

/-- Row-major order: the window is full. -/
theorem advancePos_full {p : Panel} (hc : p.xe.toNat ≤ p.col.toNat) (hr : p.ye.toNat ≤ p.row.toNat) : (advancePos p).wr = false := by
  rw [advancePos, if_neg (by omega), if_neg (by omega)]

/-- What `storesAt` says of a receiver. -/
theorem storesAt_eq_some {k : Config} {p : Panel} {a : Nat} (h : p.storesAt k = some a) :
    p.InWriteMode k ∧ p.hi.isSome = true ∧ a = pixelAddr k p.row.toNat p.col.toNat := by
  unfold storesAt at h
  split at h
  · next hc =>
    obtain ⟨hu, hs, hl, hw, hi⟩ := hc
    exact ⟨⟨⟨hu, hs⟩, hl, hw⟩, hi, (Option.some.inj h).symm⟩
  · cases h

/-! ### When the state becomes unknown -/

theorem onEvent_of_taken {k : Config} {e : Event} {p : Panel} (h : (p.takeEvent k e).unknown = true) :
    (p.onEvent k e).unknown = true :=
  onEvents_of_taken (es := [e]) h

theorem takeDat_noCommand {k : Config} {p : Panel} (hl : p.last = none) (d : Byte) : (p.takeDat k d).unknown = true := by
  unfold takeDat
  split_ifs with hu
  · exact hu
  · rfl
  · rw [hl]
    rfl

theorem casetData_full {p : Panel} (hn : 4 ≤ p.n) (d : Byte) : casetData d p = lost := by
  obtain ⟨m, hm⟩ := Nat.exists_eq_add_of_le' hn
  rw [casetData, hm]
  rfl

theorem rasetData_full {p : Panel} (hn : 4 ≤ p.n) (d : Byte) : rasetData d p = lost := by
  obtain ⟨m, hm⟩ := Nat.exists_eq_add_of_le' hn
  rw [rasetData, hm]
  rfl

/-- A fifth window byte (43_panel_receiver.md R194, R195). -/
theorem takeDat_fifth {k : Config} {p : Panel} (hl : p.last = some k.cmdCaset ∨ p.last = some k.cmdRaset) (hn : 4 ≤ p.n)
    (d : Byte) : (p.takeDat k d).unknown = true := by
  have hlost : (countData lost).unknown = true := rfl
  unfold takeDat
  split_ifs with hu
  · exact hu
  · rfl
  obtain hl | hl := hl <;> rw [hl] <;> dsimp only
  · rw [if_pos rfl, casetData_full (by exact hn)]
    exact hlost
  · by_cases hrc : k.cmdRaset = k.cmdCaset
    · rw [if_pos hrc, casetData_full (by exact hn)]
      exact hlost
    · rw [if_neg hrc, if_pos rfl, rasetData_full (by exact hn)]
      exact hlost

/-- Pixel data after the window is full (43_panel_receiver.md R197). -/
theorem takeDat_windowFull {k : Config} (hk : k.cmdsDistinct = true) {p : Panel} (hl : p.last = some k.cmdRamwr)
    (hw : p.wr = false) (d : Byte) : (p.takeDat k d).unknown = true := by
  by_cases hu : p.unknown = true
  · exact congrArg Panel.unknown (takeEvent_unknown k (.dat d) hu) |>.trans hu
  by_cases hs : p.settling.isSome = true
  · exact takeEvent_owed hs (.dat d) fun _ h => by cases h
  rw [takeDat_ramwr hk ⟨eq_false_of_ne_true hu, by simpa using hs⟩ hl, pixelData, if_pos hw]
  rfl

theorem onWord_other {k : Config} {p : Panel} {w : Word} (hc : ∀ b, w ≠ cmdWord b) (hd : ∀ b, w ≠ datWord b) :
    p.onWord k w = lost := by
  rw [onWord, if_neg (hc _), if_neg (hd _)]

/-- All entries of the table, in another sequence, as the last of its entries to come (43_panel_receiver.md R200, R202). -/
theorem outOfOrder_of_suffix {k : Config} {p : Panel} {l : List (Byte × List Byte)} (hperm : l.Perm (tableLog k))
    (hne : l ≠ tableLog k)
    (hl : l <:+ (p.log.drop p.replayFrom).filter fun g => (tableLog k).contains g) : p.outOfOrder k = true := by
  have hlast : lastEntries k p = l := by
    rw [lastEntries, ← hperm.length_eq]
    exact (List.suffix_iff_eq_drop.1 hl).symm
  rw [outOfOrder, hlast, List.isPerm_iff.2 hperm, bne_iff_ne.2 hne]
  rfl

/-- An event whose record replays the table in another order makes the state unknown. -/
theorem onEvent_outOfOrder {k : Config} {e : Event} {p : Panel} {l : List (Byte × List Byte)} (he : ∀ ms, e ≠ .wait ms)
    (hperm : l.Perm (tableLog k)) (hne : l ≠ tableLog k)
    (hl : l <:+ ((logged [e] p.log).drop p.replayFrom).filter fun g => (tableLog k).contains g) :
    (p.onEvent k e).unknown = true := by
  cases hu : (p.takeEvent k e).unknown with
  | true => exact onEvent_of_taken hu
  | false =>
    obtain ⟨-, hlog, hfrom⟩ := records_takeEvent hu
    obtain heq | ⟨⟨ms, hw⟩, -⟩ := onEvent_eq k e p
    · rw [heq]
      exact checkOrder_outOfOrder (outOfOrder_of_suffix hperm hne (by rw [hlog, hfrom]; exact hl))
    · exact absurd hw (he ms)

end Panel

/-- Settles O58, a lemma for each cause of R202. -/
theorem receiverBecomesUnknown : Obligations.ReceiverBecomesUnknown := by
  intro k p d c w es hk
  refine ⟨fun hl => ?_, fun hl hn => ?_, fun hl hw => ?_, fun hs => ?_, fun hc hd => ?_, fun l hperm hne => ⟨fun hl => ?_, fun hl => ?_⟩,
    Panel.onEvents_unknown k es⟩
  · exact Panel.onEvent_of_taken (e := .dat d) (Panel.takeDat_noCommand hl d)
  · exact Panel.onEvent_of_taken (e := .dat d) (Panel.takeDat_fifth hl hn d)
  · exact Panel.onEvent_of_taken (e := .dat d) (Panel.takeDat_windowFull hk hl hw d)
  · have howed := Panel.takeEvent_owed (k := k) (Option.isSome_iff_ne_none.2 hs)
    exact ⟨Panel.onEvent_of_taken (howed _ fun _ h => by cases h), Panel.onEvent_of_taken (howed _ fun _ h => by cases h)⟩
  · rw [Panel.onWord_other hc hd]
    rfl
  · exact Panel.onEvent_outOfOrder (e := .cmd c) (fun _ h => by cases h) hperm hne hl
  · exact Panel.onEvent_outOfOrder (e := .dat d) (fun _ h => by cases h) hperm hne hl

/-! ### Half pixels and whole ones -/

namespace Panel

/-- A command other than memory-write, at a listening receiver: nothing is stored, and a half pixel is dropped (43_panel_receiver.md
R192, R198). -/
theorem takeCmd_plain {k : Config} {p : Panel} (h : p.Listening) {c : Byte} (hc : c ≠ k.cmdRamwr) :
    ∃ w, p.takeCmd k c = { latch c p with settling := w } := by
  rw [takeCmd_listening h, obey, if_neg hc]
  split_ifs
  · exact ⟨some .sleepOut, rfl⟩
  · exact ⟨some .displayOn, rfl⟩
  · exact ⟨p.settling, rfl⟩

end Panel

/-- Settles O57. -/
theorem halfPixelStaysPending : Obligations.HalfPixelStaysPending := by
  intro k p d e c hk hu hs hl hw hi
  have hmode : p.InWriteMode k := ⟨⟨hu, hs⟩, hl, hw⟩
  have hhigh : p.takeEvent k (.dat d) = { p with hi := some d, n := p.n + 1, log := Panel.appendData d p.log } :=
    Panel.takeDat_high hk hmode hi d
  have hhigh' : p.takeEvents k [.dat d] = { p with hi := some d, n := p.n + 1, log := Panel.appendData d p.log } := hhigh
  refine ⟨fun ho => ?_, fun hc ho => ?_, fun ho => ?_⟩
  · have hq := Panel.onEvents_keepsOrder [.dat d] ho (by rw [hhigh']; exact hu)
    rw [hhigh'] at hq
    show (p.onEvents k [.dat d]).gram = _ ∧ (p.onEvents k [.dat d]).hi = _ ∧ (p.onEvents k [.dat d]).wr = _
    rw [hq]
    exact ⟨rfl, rfl, hw⟩
  · obtain ⟨w, hcmd⟩ := Panel.takeCmd_plain (k := k) (p := p.takeEvent k (.dat d)) (c := c) (by rw [hhigh]; exact ⟨hu, hs⟩) hc
    have htaken : p.takeEvents k [.dat d, .cmd c] = { Panel.latch c (p.takeEvent k (.dat d)) with settling := w } := hcmd
    rw [hhigh] at htaken
    have hq := Panel.onEvents_keepsOrder [.dat d, .cmd c] ho (by rw [htaken]; exact hu)
    rw [htaken] at hq
    rw [hq]
    exact ⟨rfl, rfl, rfl⟩
  · have hlow := Panel.takeDat_low (k := k) (p := p.takeEvent k (.dat d)) (x := d) hk (by rw [hhigh]; exact ⟨⟨hu, hs⟩, hl, hw⟩)
      (by rw [hhigh]) e
    have htaken : p.takeEvents k [.dat d, .dat e] = _ := hlow
    have hq := Panel.onEvents_keepsOrder [.dat d, .dat e] ho (by rw [htaken, Panel.advancePos_unknown, hhigh]; exact hu)
    rw [hq, htaken]
    show (Panel.advancePos _).gram = _
    rw [Panel.advancePos_gram, hhigh]

theorem exec_sendData_clean (d : Byte) {s : State} (hc : s.env.clean = true) :
    ∃ t, exec (.sendData d) s = .next t ∧ RawDone (.dat d) s t :=
  ⟨_, rfl, finish_rawDone (op := opSendData) (b := d) (ptDat_runs d _) (ptDat_wordDone d _) hc⟩

/-- Settles O33: the byte completes the pixel (`Panel.takeDat_low`), and the position advances by one of the three rules of R199. -/
theorem dataByteStoresThePixel : Obligations.DataByteStoresThePixel := by
  intro d s a x hc hk hstore hx ho
  obtain ⟨hmode, -, rfl⟩ := Panel.storesAt_eq_some hstore
  obtain ⟨t, hexec, hdone⟩ := exec_sendData_clean d hc
  refine ⟨t, hexec, hdone.answered, ?_⟩
  have htaken : s.panel.takeEvents s.cfg [.dat d] = _ := Panel.takeDat_low hk hmode hx d
  have hpanel := Panel.onEvents_keepsOrder [.dat d] ho (by rw [htaken, Panel.advancePos_unknown]; exact hmode.known.1)
  rw [← hdone.panel, htaken] at hpanel
  have hgram : t.panel.gram = s.panel.gram.writePixel (Panel.pixelAddr s.cfg s.panel.row.toNat s.panel.col.toNat) x d := by
    rw [hpanel]
    exact Panel.advancePos_gram _
  have hread : ∀ b, t.panel.gram.read b =
      if b = Panel.pixelAddr s.cfg s.panel.row.toNat s.panel.col.toNat + 1 then some d
      else if b = Panel.pixelAddr s.cfg s.panel.row.toNat s.panel.col.toNat then some x else s.panel.gram.read b := by
    intro b
    rw [hgram, Memory.read_writePixel]
  refine ⟨by simp [hread], by simp [hread], ?_, ?_, ?_, ?_, ?_, fun h => ?_, fun h1 h2 => ?_, fun h1 h2 => ?_,
    fun b h1 h2 => by simp [hread, h1, h2]⟩
  · rw [hpanel, Panel.advancePos_eq]
  · rw [hpanel, Panel.advancePos_eq]
  · rw [hpanel, Panel.advancePos_eq]
  · rw [hpanel, Panel.advancePos_eq]
  · rw [hpanel, Panel.advancePos_eq]
  · rw [hpanel, ← hmode.wr]
    exact Panel.advancePos_column h
  · rw [hpanel, ← hmode.wr]
    exact Panel.advancePos_row h1 h2
  · rw [hpanel]
    exact Panel.advancePos_full h1 h2

/-! ### The frame memory -/

/-- A data byte stores nothing but at `storesAt` (43_panel_receiver.md R197). -/
theorem gram_data {k : Config} (hk : k.cmdsDistinct = true) {p : Panel} {d : Byte} (hu : (p.takeDat k d).unknown = false) {a : Nat}
    (ha : ∀ b, p.storesAt k = some b → a ≠ b ∧ a ≠ b + 1) : (p.takeDat k d).gram.read a = p.gram.read a := by
  cases hl : p.last with
  | none => simp [Panel.takeDat_noCommand hl] at hu
  | some c =>
    by_cases hc : c = k.cmdRamwr
    · subst hc
      have hknown : p.Listening := by
        refine ⟨Panel.takeEvents_known (es := [.dat d]) hu, Option.not_isSome_iff_eq_none.1 fun hs => ?_⟩
        exact Bool.false_ne_true (hu.symm.trans (Panel.takeEvent_owed (k := k) hs (.dat d) fun _ h => by cases h))
      cases hw : p.wr with
      | false => simp [Panel.takeDat_windowFull hk hl hw] at hu
      | true =>
        have hmode : p.InWriteMode k := ⟨hknown, hl, hw⟩
        cases hi : p.hi with
        | none => rw [Panel.takeDat_high hk hmode hi]
        | some x =>
          obtain ⟨h1, h2⟩ := ha _ (if_pos ⟨hknown.1, hknown.2, hl, hw, by rw [hi]; rfl⟩)
          rw [Panel.takeDat_low hk hmode hi, Panel.advancePos_gram]
          exact (Memory.read_writePixel ..).trans (by rw [if_neg h2, if_neg h1])
    · exact congrArg (Memory.read · a) (gram_opaqueData k d c p hl hc hu).1

/-- A receiver that is known after an instruction other than RUN_INIT is what a first part of its stream made of it. -/
theorem Ends.panel_of_known {i : Instr} {s t : State} (h : Ends i s t) (hi : i ≠ .runInit) (hk : t.panel.unknown = false) :
    ∃ pre, pre <+: streamOf s.cfg i ∧ t.panel = s.panel.onEvents s.cfg pre := by
  obtain ⟨pre, hpre, hrec⟩ := h.recorded
  obtain hp | hp | ⟨hr, -⟩ := h.panelAfter hrec.logical
  · rw [hp] at hk
    cases hk
  · rw [foundBy_ne hi] at hp
    exact ⟨pre, hpre, hp⟩
  · exact absurd hr hi

/-- The streams of one command, with no memory-write data (30_encoding.md R77). -/
theorem stream_of_command {k : Config} (hk : k.cmdsDistinct = true) {i : Instr} (hwf : i.wf k = true)
    (hi : (∃ c, i = .wrcmd c ∨ i = .sendCommand c) ∨ (∃ x y, i = .caset x y ∨ i = .raset x y) ∨ i = .ramwr ∨
      (∃ ps, i = .slpout ps ∨ i = .dispon ps) ∨ ∃ c ps, i = .vendor c ps) :
    i ≠ .runInit ∧ ∃ c es, streamOf k i = .cmd c :: es ∧ (∀ e ∈ es, ∀ x, e ≠ .cmd x) ∧ (c ≠ k.cmdRamwr ∨ es = []) := by
  obtain ⟨-, hcw, -, -, hrw, -, -, hws, hwd, -⟩ := Config.distinct_of hk
  have hdats : ∀ ds : List Byte, ∀ e ∈ ds.map Event.dat, ∀ x, e ≠ .cmd x := by simp
  have hsettled : ∀ (ds : List Byte) (ms : Nat), ∀ e ∈ ds.map Event.dat ++ [.wait ms], ∀ x, e ≠ .cmd x := by
    intro ds ms e he x
    obtain he | he := List.mem_append.1 he
    · exact hdats ds e he x
    · rw [List.mem_singleton.1 he]
      exact fun h => by cases h
  obtain ⟨c, rfl | rfl⟩ | ⟨x, y, rfl | rfl⟩ | rfl | ⟨ps, rfl | rfl⟩ | ⟨c, ps, rfl⟩ := hi <;> refine ⟨by simp, ?_⟩
  · exact ⟨c, [], rfl, by simp, .inr rfl⟩
  · exact ⟨c, [], rfl, by simp, .inr rfl⟩
  · exact ⟨_, _, rfl, hdats _, .inl hcw⟩
  · exact ⟨_, _, rfl, hdats _, .inl hrw⟩
  · exact ⟨_, [], rfl, by simp, .inr rfl⟩
  · exact ⟨_, _, rfl, hsettled ps _, .inl hws.symm⟩
  · exact ⟨_, _, rfl, hsettled ps _, .inl hwd.symm⟩
  · have hc : c ≠ k.cmdRamwr := by
      rintro rfl
      simp [Instr.wf, Config.namedCmds] at hwf
    exact ⟨_, _, rfl, hdats _, .inl hc⟩

/-- A step that runs no instruction sends nothing, and leaves the receiver or loses it. -/
theorem Stepped.unsent_or_ran {s t : State} (h : Stepped s t) :
    (∃ i r, fetch s = .run i { s with inbox := r } ∧ exec i { s with inbox := r } = .next t) ∨
      t.logical = s.logical ∧ (t.panel = s.panel ∨ t.panel = Panel.lost) := by
  cases h with
  | ran i f bytes r _ _ _ fetched ran => exact .inl ⟨i, r, fetched, ran⟩
  | waited _ _ is => exact .inr (by rw [is]; exact ⟨rfl, .inl rfl⟩)
  | answered r _ is => exact .inr (by rw [is]; exact ⟨rfl, .inl rfl⟩)
  | reset r _ is =>
    refine .inr ⟨by rw [is]; rfl, ?_⟩
    rw [is, resetBlock_panel]
    split
    · exact .inr rfl
    · exact .inl rfl
  | idled ns r _ is => exact .inr (by rw [is]; exact ⟨rfl, .inl rfl⟩)
  | device r p ns _ is => exact .inr (by rw [is]; exact ⟨rfl, .inl rfl⟩)

theorem panel_after_step {s t : State} {pre : List Event} (h : step s = .next t) (hl : t.logical = s.logical ++ pre) :
    t.panel.unknown = true ∨ t.panel = s.panel.onEvents s.cfg pre ∨
      ((∃ u, fetch s = .run .runInit u) ∧
        (t.panel = s.panel.restartReplay.onEvents s.cfg pre ∨
          (t.rsps = s.rsps ++ [.ok] ∧ (s.panel.restartReplay.onEvents s.cfg pre).unknown = true ∧
            ∃ free, t.panel = Panel.recovered s.cfg free))) := by
  obtain ⟨i, r, hfetch, hexec⟩ | ⟨hlog, hpanel⟩ := (stepped h).unsent_or_ran
  · have hafter := (ends_of_exec hexec).panelAfter hl
    by_cases hi : i = .runInit
    · subst hi
      obtain hp | hp | ⟨-, hok, hu, hrec⟩ := hafter
      · exact .inl (by rw [hp]; rfl)
      · exact .inr (.inr ⟨⟨_, hfetch⟩, .inl hp⟩)
      · exact .inr (.inr ⟨⟨_, hfetch⟩, .inr ⟨hok, hu, hrec⟩⟩)
    · unfold PanelAfter at hafter
      rw [foundBy_ne hi] at hafter
      obtain hp | hp | ⟨hr, -⟩ := hafter
      · exact .inl (by rw [hp]; rfl)
      · exact .inr (.inl hp)
      · exact absurd hr hi
  · obtain rfl : pre = [] := by simpa [hlog] using hl
    obtain hp | hp := hpanel
    · exact .inr (.inl hp)
    · exact .inl (by rw [hp]; rfl)

/-- Settles O32: what a step does to the receiver (`panel_after_step`), and of a known one what a first part of the stream can store
(`gram_data`, `gram_group`). -/
theorem frameMemoryFrame : Obligations.FrameMemoryFrame := by
  refine ⟨fun s t pre => panel_after_step, fun i s t _ hwf he hcfg hk => ⟨?_, fun hi a => ?_⟩⟩
  · rintro ⟨d, hi⟩ a ha
    have hstream : i ≠ .runInit ∧ streamOf s.cfg i = [.dat d] := by obtain rfl | rfl := hi <;> exact ⟨by simp, rfl⟩
    obtain ⟨pre, hpre, hp⟩ := (ends_of_exec he).panel_of_known hstream.1 hk
    rw [hstream.2, List.prefix_cons_iff] at hpre
    rw [hp] at hk ⊢
    obtain rfl | ⟨l, rfl, hl⟩ := hpre
    · rfl
    · obtain rfl := List.prefix_nil.1 hl
      obtain ⟨hu, hgram⟩ := gram_taken hk
      rw [hgram]
      exact gram_data (Config.wf_distinct hcfg) hu ha
  · obtain ⟨hi, c, es, hstream, hes, hc⟩ := stream_of_command (Config.wf_distinct hcfg) hwf hi
    obtain ⟨pre, hpre, hp⟩ := (ends_of_exec he).panel_of_known hi hk
    rw [hp] at hk ⊢
    obtain ⟨hu, hgram⟩ := gram_taken hk
    rw [hgram, gram_group s.cfg c es hes hc pre (hstream ▸ hpre) _ hu]

end Sys2Proof.Machine
end

section
/-! The panel commands run on their own (42_frame_writer.md R169 to R171; 41_init_sequencer.md R153 to R155), and what a known receiver
makes of each. -/

namespace Sys2Proof.Machine

theorem runGroup_ranAlone (c : Byte) (ds : List Byte) {s : State} (hc : s.env.clean = true) :
    RanAlone (groupStream c ds) s (runGroup c ds s) :=
  finishWord_ranAlone (s := s) (sendGroup_runs c ds _) (sendGroup_traced c ds _) hc

theorem settled_traced (c : Byte) (ds : List Byte) (ms : Nat) (s : State) :
    ((sendGroup c ds s).bind (waitMin ms)).OnDone (Traced (wireOf s.cfg (groupStream c ds ++ [.wait ms])) s) := by
  rw [wireOf_append]
  refine traced_bind (sendGroup_traced c ds s) fun t ht => ?_
  rw [← ht]
  exact waitMin_traced ms t

theorem runSettled_ranAlone (c : Byte) (ds : List Byte) (ms : Nat) {s : State} (hc : s.env.clean = true) :
    RanAlone (groupStream c ds ++ [.wait ms]) s (runSettled c ds ms s) :=
  finishWord_ranAlone (s := s) (settled_runs c ds ms _) (settled_traced c ds ms _) hc

/-- The settle wait of a command run on its own really passes (00_scope.md R14). -/
theorem runSettled_time (c : Byte) (ds : List Byte) (ms : Nat) {s : State} (hc : s.env.clean = true) :
    s.now + 1000000 * ms ≤ (runSettled c ds ms s).now := by
  obtain ⟨t, ht, -, harrived⟩ := (settled_runs c ds ms (startAlone s)).done_of_clean hc
  have hwait : waitMs (groupStream c ds ++ [.wait ms]) = ms := by
    rw [waitMs_append]
    show waitMs (ds.map .dat) + _ = _
    rw [waitMs_dats]
    simp [waitMs]
  have htime := harrived.time
  rw [hwait] at htime
  unfold runSettled
  rw [show (sendGroup c ds { s with busy := true }).bind (waitMin ms) = .done t from ht]
  exact htime

namespace Panel

/-- A receiver that a stream leaves known but for the order, which the stream keeps, is what the stream makes of it. -/
theorem onEvents_eq_of_taken {k : Config} {es : List Event} {p q : Panel} (ho : keepsOrder k es p = true)
    (ht : p.takeEvents k es = q) (hq : q.unknown = false) :
    p.onEvents k es = { q with replayFrom := (p.onEvents k es).replayFrom } := by
  have h := onEvents_keepsOrder es ho (by rw [ht]; exact hq)
  rw [ht] at h
  exact h

/-- Memory-write with a malformed window (43_panel_receiver.md R196). -/
theorem takeEvents_ramwr_malformed {k : Config} {p : Panel} (h : p.Listening)
    (hw : p.xe.toNat < p.xs.toNat ∨ p.ye.toNat < p.ys.toNat ∨ k.width ≤ p.xe.toNat ∨ k.height ≤ p.ye.toNat) :
    (p.takeEvents k [.cmd k.cmdRamwr]).unknown = true := by
  show (p.takeCmd k k.cmdRamwr).unknown = true
  rw [takeCmd_listening h, obey, if_pos rfl, enterWrite, if_pos (by exact hw)]
  rfl

/-- After sleep-out or display-on a settle wait is owed, or the state is unknown (43_panel_receiver.md R203). -/
theorem takeCmd_settles {k : Config} (hk : k.cmdsDistinct = true) {c : Byte} (hc : c = k.cmdSlpout ∨ c = k.cmdDispon) (p : Panel) :
    (p.takeCmd k c).unknown = true ∨ (p.takeCmd k c).settling.isSome = true := by
  obtain ⟨-, -, -, -, -, -, -, hws, hwd, hsd⟩ := Config.distinct_of hk
  unfold takeCmd
  split_ifs with hu
  · exact .inl hu
  · exact .inl rfl
  · obtain rfl | rfl := hc
    · simp [obey, hws.symm]
    · simp [obey, hwd.symm, hsd.symm]

/-- A parameter of sleep-out or display-on is a data word while the settle wait is owed (log 5). -/
theorem takeEvents_settled_params {k : Config} (hk : k.cmdsDistinct = true) {c : Byte} (hc : c = k.cmdSlpout ∨ c = k.cmdDispon)
    {ds : List Byte} (hds : ds ≠ []) (es : List Event) (p : Panel) : (p.takeEvents k (groupStream c ds ++ es)).unknown = true := by
  obtain ⟨d, ds, rfl⟩ := List.exists_cons_of_ne_nil hds
  show ((p.takeCmd k c).takeEvents k ((d :: ds).map .dat ++ es)).unknown = true
  obtain hu | hs := takeCmd_settles hk hc p
  · rw [takeEvents_unknown _ _ hu, hu]
  · exact takeEvents_owed hs

/-- A stream whose first part breaks the order leaves the receiver unknown. -/
theorem onEvents_append_breaksOrder {k : Config} {es : List Event} {p : Panel} (ho : keepsOrder k es p = false) (fs : List Event) :
    (p.onEvents k (es ++ fs)).unknown = true := by
  have hu := onEvents_breaksOrder es ho
  rw [onEvents_append, onEvents_unknown _ _ hu, hu]

theorem keepsOrder_cmd_wait {k : Config} {c : Byte} {p : Panel} (h : keepsOrder k [.cmd c] p = true) (ms : Nat) :
    keepsOrder k [.cmd c, .wait ms] p = true := h

/-- An event loses the receiver, or adds no command to the record but its own, and leaves where a replay is looked for. -/
theorem takeEvent_lost_or_recorded (k : Config) (e : Event) (p : Panel) :
    p.takeEvent k e = lost ∨
      (p.takeEvent k e).log.length ≤ p.log.length + (commandsOf [e]).length ∧ (p.takeEvent k e).replayFrom = p.replayFrom := by
  cases hu : p.unknown with
  | true =>
    rw [takeEvent_unknown k e hu]
    exact .inr ⟨Nat.le_add_right .., rfl⟩
  | false =>
    obtain ⟨-, hlog, hfrom⟩ | hlost := takeEvent_cases (k := k) e hu
    · exact .inr ⟨by rw [hlog, length_logged], hfrom⟩
    · exact .inl hlost

theorem commandsOf_cons (e : Event) (es : List Event) : commandsOf (e :: es) = commandsOf [e] ++ commandsOf es := by
  rw [← List.singleton_append]
  exact List.filterMap_append

/-- The order is kept by a stream whose first event keeps it and starts no new replay. -/
theorem keepsOrder_cons {k : Config} {e : Event} {es : List Event} {p : Panel}
    (h : (p.takeEvent k e).outOfOrder k = false ∧ (p.takeEvent k e).checkOrder k = p.takeEvent k e)
    (hes : keepsOrder k es (p.takeEvent k e) = true) : keepsOrder k (e :: es) p = true := by
  obtain ⟨horder, hcheck⟩ := h
  cases e with
  | wait ms => exact hes
  | cmd c =>
    show (!(p.takeEvent k (.cmd c)).outOfOrder k && keepsOrder k es ((p.takeEvent k (.cmd c)).checkOrder k)) = true
    rw [horder, hcheck, hes]
    rfl
  | dat d =>
    show (!(p.takeEvent k (.dat d)).outOfOrder k && keepsOrder k es ((p.takeEvent k (.dat d)).checkOrder k)) = true
    rw [horder, hcheck, hes]
    rfl

theorem outOfOrder_of_emptyTable {k : Config} (h : k.table = []) (p : Panel) : p.outOfOrder k = false := by
  have htable : tableLog k = [] := by rw [tableLog, h]; rfl
  simp [outOfOrder, lastEntries, htable]

theorem keepsOrder_of_emptyTable {k : Config} (h : k.table = []) (es : List Event) (p : Panel) : keepsOrder k es p = true := by
  induction es generalizing p with
  | nil => rfl
  | cons e es ih => cases e <;> simp [keepsOrder, outOfOrder_of_emptyTable h, ih]

theorem keepsOrder_lost {k : Config} (h : k.table ≠ []) (es : List Event) : keepsOrder k es lost = true := by
  induction es with
  | nil => rfl
  | cons e es ih =>
    have hlost : lost.takeEvent k e = lost := takeEvent_unknown k e rfl
    have hshort := checkOrder_short (k := k) (p := lost) (List.length_pos_iff.2 h)
    exact keepsOrder_cons (by rw [hlost]; exact hshort) (by rw [hlost]; exact ih)

/-- A stream too short to complete a replay keeps the order of the table. -/
theorem keepsOrder_short {k : Config} (es : List Event) {p : Panel}
    (h : p.log.length + (commandsOf es).length < p.replayFrom + k.table.length) : keepsOrder k es p = true := by
  by_cases htable : k.table = []
  · exact keepsOrder_of_emptyTable htable es p
  have hpos := List.length_pos_iff.2 htable
  induction es generalizing p with
  | nil => rfl
  | cons e es ih =>
    rw [commandsOf_cons, List.length_append] at h
    obtain hlost | ⟨hlog, hfrom⟩ := takeEvent_lost_or_recorded k e p
    · exact keepsOrder_cons (by rw [hlost]; exact checkOrder_short hpos) (by rw [hlost]; exact keepsOrder_lost htable es)
    · exact keepsOrder_cons (checkOrder_short (by rw [hfrom]; omega)) (ih (by rw [hfrom]; omega))

theorem commandsOf_group (c : Byte) (ds : List Byte) : (commandsOf (groupStream c ds)).length = 1 := by
  have hdats : ∀ l : List Byte, commandsOf (l.map .dat) = [] := fun l => by simp [commandsOf, List.filterMap_map]
  unfold groupStream
  rw [commandsOf_cons, hdats]
  rfl

end Panel

/-- Settles O53: the five words go out (`RanAlone`), and the receiver takes the window from them (`Panel.takeEvents_caset`,
`Panel.takeEvents_raset`). -/
theorem windowCommandsResult : Obligations.WindowCommandsResult := by
  intro a b s hc hk
  have hcaset := runGroup_ranAlone s.cfg.cmdCaset (coordBytes a b) hc
  have hraset := runGroup_ranAlone s.cfg.cmdRaset (coordBytes a b) hc
  refine ⟨⟨_, rfl, hcaset.x, hcaset.rsp, hcaset.rsps, hcaset.busy, hcaset.logical, hcaset.wire, hcaset.sequencer, hcaset.frameWriter,
      hcaset.outside, hcaset.idle, fun hu hs ho => ?_, fun ho => ?_⟩,
    ⟨_, rfl, hraset.x, hraset.rsp, hraset.rsps, hraset.busy, hraset.logical, hraset.wire, hraset.sequencer, hraset.frameWriter,
      hraset.outside, hraset.idle, fun hu hs ho => ?_, fun ho => ?_⟩⟩
  · rw [hcaset.panel]
    exact Panel.onEvents_eq_of_taken ho (Panel.takeEvents_caset hk ⟨hu, hs⟩ a b) hu
  · rw [hcaset.panel]
    exact Panel.onEvents_breaksOrder _ ho
  · rw [hraset.panel]
    exact Panel.onEvents_eq_of_taken ho (Panel.takeEvents_raset hk ⟨hu, hs⟩ a b) hu
  · rw [hraset.panel]
    exact Panel.onEvents_breaksOrder _ ho

/-- Settles O54. -/
theorem memoryWriteResult : Obligations.MemoryWriteResult := by
  intro s hc
  have h := runGroup_ranAlone s.cfg.cmdRamwr [] hc
  refine ⟨_, rfl, h.x, h.rsp, h.rsps, h.busy, h.logical, h.wire, h.sequencer, h.frameWriter, h.outside, h.idle,
    fun hu hs => ⟨fun ⟨hx, hy, hw, hh⟩ ho => ?_, fun hbad => ?_⟩⟩
  · rw [h.panel]
    exact Panel.onEvents_eq_of_taken ho (Panel.takeEvents_ramwr ⟨hu, hs⟩ hx hy hw hh) hu
  · rw [h.panel]
    obtain ho | hwindow := hbad
    · exact Panel.onEvents_breaksOrder _ ho
    · exact Panel.onEvents_of_taken (Panel.takeEvents_ramwr_malformed ⟨hu, hs⟩ hwindow)

/-- Settles O55: the group and its wait go out; without parameters the wait is satisfied, with parameters a word comes first. -/
theorem settledCommandsResult : Obligations.SettledCommandsResult := by
  intro ps s hc hwf
  have hk := Config.wf_distinct hwf
  obtain ⟨-, hslp, hdis⟩ := Config.wf_waits hwf
  have hs := runSettled_ranAlone s.cfg.cmdSlpout ps s.cfg.tSlpoutMs hc
  have hd := runSettled_ranAlone s.cfg.cmdDispon ps s.cfg.tDisponMs hc
  have hunknown : ∀ {c ms}, (c = s.cfg.cmdSlpout ∨ c = s.cfg.cmdDispon) →
      (ps ≠ [] ∨ s.panel.keepsOrder s.cfg [.cmd c] = false) →
        (s.panel.onEvents s.cfg (groupStream c ps ++ [.wait ms])).unknown = true := by
    intro c ms hcmd hbad
    obtain hps | ho := hbad
    · exact Panel.onEvents_of_taken (Panel.takeEvents_settled_params hk hcmd hps _ _)
    · exact Panel.onEvents_append_breaksOrder (es := [.cmd c]) ho (ps.map .dat ++ [.wait ms])
  refine ⟨⟨_, rfl, hs.x, hs.rsp, hs.rsps, hs.busy, ?_, hs.wire, runSettled_time _ _ _ hc, hs.sequencer, hs.frameWriter, hs.outside,
      hs.idle, fun hu hset hps ho => ?_, fun hbad => ?_⟩,
    ⟨_, rfl, hd.x, hd.rsp, hd.rsps, hd.busy, ?_, hd.wire, runSettled_time _ _ _ hc, hd.sequencer, hd.frameWriter, hd.outside,
      hd.idle, fun hu hset hps ho => ?_, fun hbad => ?_⟩⟩
  · rw [hs.logical, List.append_assoc]
    rfl
  · subst hps
    rw [hs.panel]
    exact Panel.onEvents_eq_of_taken (Panel.keepsOrder_cmd_wait ho _) (Panel.takeEvents_sleepOut hk ⟨hu, hset⟩ hslp) hu
  · rw [hs.panel]
    exact hunknown (.inl rfl) hbad
  · rw [hd.logical, List.append_assoc]
    rfl
  · subst hps
    rw [hd.panel]
    exact Panel.onEvents_eq_of_taken (Panel.keepsOrder_cmd_wait ho _) (Panel.takeEvents_displayOn hk ⟨hu, hset⟩ hdis) hu
  · rw [hd.panel]
    exact hunknown (.inr rfl) hbad

/-- Settles O56. -/
theorem vendorResult : Obligations.VendorResult := by
  intro c ps s hc hwf
  have h := runGroup_ranAlone c ps hc
  have hnamed : s.cfg.namedCmds.contains c = false := by simpa [Instr.wf] using hwf
  refine ⟨_, rfl, h.x, h.rsp, h.rsps, h.busy, h.logical, h.wire, h.sequencer, h.frameWriter, h.outside, h.idle,
    fun hu hs ho => ?_, fun ho => ?_, fun hlen => Panel.keepsOrder_short _ ?_⟩
  · rw [h.panel]
    exact Panel.onEvents_eq_of_taken ho (Panel.takeEvents_vendor hnamed ps ⟨hu, hs⟩) hu
  · rw [h.panel]
    exact Panel.onEvents_breaksOrder _ ho
  · rw [Panel.commandsOf_group]
    omega

end Sys2Proof.Machine
end

section
/-! RUN_INIT (41_init_sequencer.md R130 to R155): the table and the settle waits in its stream, the position inside a run, and what the
receiver is after one. -/

namespace Sys2Proof.Machine

/-! ### The stream of a run -/

theorem withoutWaits_entries (es : List Entry) : withoutWaits (es.flatMap entryStream) = wordsOf es := by
  induction es with
  | nil => rfl
  | cons e es ih =>
    rw [List.flatMap_cons, withoutWaits_append, withoutWaits_entry, ih]
    rfl

/-- The command and data part of a state's stream is the words of the entries it sends. -/
theorem withoutWaits_stateStream (k : Config) (p : SeqState) : withoutWaits (stateStream k p) = wordsOf (sentIn k p) := by
  cases p with
  | powerWait | settleDelay120 | settleDelay10 | ready => rfl
  | reset | pageUnlock | registerBurst | gammaPageUnlock | gammaBurst | pageLock | displayModeConfig | sleepOut | displayOn =>
    exact withoutWaits_entries _

theorem withoutWaits_states (k : Config) (ps : List SeqState) :
    withoutWaits (ps.flatMap (stateStream k)) = wordsOf (ps.flatMap (sentIn k)) := by
  induction ps with
  | nil => rfl
  | cons p ps ih => rw [List.flatMap_cons, withoutWaits_append, withoutWaits_stateStream, ih, List.flatMap_cons, wordsOf, wordsOf,
      wordsOf, List.flatMap_append]

/-- Settles O35: state by state, and the segments in run order are the table (`sent_eq_table`). -/
theorem initStreamIsTheTable : Obligations.InitStreamIsTheTable := by
  intro k hk
  rw [initStream, withoutWaits_states, sent_eq_table hk]
  rfl

theorem mem_table_of_segment {k : Config} {p : SeqState} {e : Entry} (h : segment k p = [e]) : e ∈ k.table ∧ e.phase = p := by
  have he : e ∈ segment k p := by simp [h]
  exact ⟨List.mem_of_mem_filter he, segment_phase he⟩

/-- Settles O36. -/
theorem everyRunSettles : Obligations.EveryRunSettles := by
  intro k hk
  obtain ⟨before, e, f, he, hf, hstream⟩ := initStream_tail hk
  obtain ⟨-, hslpout, hdispon⟩ := Config.wf_waits hk
  obtain ⟨hemem, hephase⟩ := mem_table_of_segment he
  obtain ⟨hfmem, hfphase⟩ := mem_table_of_segment hf
  refine ⟨before, e, f, _, _, hemem, hephase, hfmem, hfphase, rfl, le_max_of_le_left hslpout, rfl, le_max_of_le_left hdispon, ?_⟩
  rw [hstream]
  simp only [groupStream, List.append_assoc]

/-! ### The run -/

/-- The sending part of a run, from the state in which the request was accepted. -/
def runFlow (s : State) : Flow := runStates s.cfg runOrder (setPosition Position.start (restartReplay (acceptInit s)))

theorem exec_runInit (s : State) :
    exec .runInit s = .next (finishInit ((runFlow s).bind fun t => .done (enterReady t))) := rfl

theorem runFlow_runs (s : State) :
    (runFlow s).Runs KeptRun (initStream s.cfg) (runStart (restartReplay (acceptInit s))) :=
  runStates_runOrder (restartReplay (acceptInit s))

theorem runFlow_traced (s : State) :
    (runFlow s).OnDone (Traced (wireOf s.cfg (initStream s.cfg)) (runStart (restartReplay (acceptInit s)))) :=
  (runStates_traced s.cfg runOrder (setPosition Position.start (restartReplay (acceptInit s)))).mono fun _ h => ⟨h.cfg, h.wire⟩

/-- A run that leaves the block busy is one whose word never returned. -/
theorem runFlow_hung {s t : State} (h : exec .runInit s = .next t) (ht : t.busy = true) : runFlow s = .hung t := by
  have ht' : finishInit ((runFlow s).bind fun t => .done (enterReady t)) = t := by
    rw [exec_runInit] at h
    exact Host.Outcome.next.inj h
  subst ht'
  cases hf : runFlow s with
  | hung u => rfl
  | done u => rw [hf] at ht; cases ht
  | raised r u => rw [hf] at ht; cases ht
  | reset u => rw [hf] at ht; cases ht

theorem runInit_position {s t : State} {pre : List Event} (hk : s.cfg.wf = true) (h : exec .runInit s = .next t)
    (ht : t.busy = true) (hpre : t.logical = s.logical ++ pre) :
    t.ph = false ∧ ∃ a e b n, s.cfg.table = a ++ e :: b ∧ n ≤ e.params.length ∧
      withoutWaits pre = wordsOf a ++ (groupStream e.cmd e.params).take n ∧ t.seq = ⟨e.phase, a.length, n - 1⟩ := by
  have hflow := runFlow_hung h ht
  have hkept := runFlow_runs s
  have hhung : (runFlow s).OnHung (HungEntry s.cfg.table (runStart (restartReplay (acceptInit s)))) :=
    runStates_runOrder_hung (restartReplay (acceptInit s)) hk
  rw [hflow] at hkept hhung
  obtain ⟨a, e, b, n, htable, hn, hseq, hlogical⟩ := hhung
  refine ⟨hkept.1.ph, a, e, b, n, htable, hn, ?_, ?_⟩
  · rw [hpre, withoutWaits_append] at hlogical
    exact List.append_cancel_left hlogical
  · rw [hseq]
    show (⟨e.phase, 0 + a.length, n - 1⟩ : Position) = _
    rw [Nat.zero_add]

@[simp] theorem recoverPanel_wire (s : State) : (recoverPanel s).wire = s.wire := by
  unfold recoverPanel
  split <;> rfl

/-- The wire trace of a run that no draw disturbs (41_init_sequencer.md R148). -/
theorem runInit_wire {s t : State} (hc : s.env.clean = true) (h : exec .runInit s = .next t) :
    t.wire = s.wire ++ wireOf s.cfg (initStream s.cfg) := by
  obtain ⟨u, hu, -, -, htraced⟩ := (runFlow_runs s).done_with (P := Traced _) hc (runFlow_traced s)
  rw [exec_runInit, hu] at h
  obtain rfl := Host.Outcome.next.inj h
  exact (recoverPanel_wire _).trans htraced.wire

/-- Settles O34. -/
theorem runInitResult : Obligations.RunInitResult := by
  refine ⟨fun s t pre hk _ h ht hpre => runInit_position hk h ht hpre, fun s hk hc => ⟨_, exec_runInit s, ?_⟩⟩
  have h := (ends_of_exec (exec_runInit s)).completed_of_clean rfl hc
  obtain ⟨hph, hseq, -⟩ := (if_pos rfl).mp h.seq
  obtain ⟨hst, hpidx, hidx⟩ := hseq rfl
  obtain ⟨hleft, hrow, hheld, hlb, -⟩ := h.regs.fill rfl
  refine ⟨h.answer, hph, ?_, h.went.logical, runInit_wire hc (exec_runInit s), ⟨hleft, hrow, hheld, hlb⟩, h.regs.x, h.fixed.cfg,
    h.fixed.plat, h.fixed.inbox, h.idle, h.went.time⟩
  rw [← hst, ← hpidx, ← hidx hk]

/-! ### The receiver after a run -/

/-- Settles O39: a receiver that the stream leaves unknown is recovered, a known one has taken the end of the stream. -/
theorem runInitMakesThePanelReady : Obligations.RunInitMakesThePanelReady := by
  intro s hk hc
  have h := (ends_of_exec (exec_runInit s)).completed_of_clean rfl hc
  obtain ⟨p, free, hp, hpanel⟩ := (if_pos rfl).mp h.panel
  refine ⟨_, exec_runInit s, h.answer.1, ?_⟩
  rw [hpanel]
  cases hu : p.unknown with
  | true =>
    rw [if_pos rfl]
    exact ⟨rfl, rfl, rfl, rfl, rfl, rfl, rfl⟩
  | false =>
    rw [if_neg (by simp)]
    subst hp
    obtain hlost | ⟨⟨-, hset⟩, hawake, hon, hwr, hhi⟩ := onEvents_initStream hk s.panel.restartReplay
    · simp [hlost] at hu
    · exact ⟨hu, hawake, hon, hwr, hhi, hset, replayFrom_initStream hk rfl hu⟩

namespace Panel

/-- A stream with which no receiver that stays known stores a byte. -/
def StoresNothing (k : Config) (es : List Event) : Prop :=
  ∀ p : Panel, (p.takeEvents k es).unknown = false → (p.takeEvents k es).gram = p.gram

theorem StoresNothing.append {k : Config} {es fs : List Event} (h : StoresNothing k es) (g : StoresNothing k fs) :
    StoresNothing k (es ++ fs) := by
  intro p hu
  rw [takeEvents_append] at hu ⊢
  rw [g _ hu, h _ (takeEvents_known hu)]

theorem StoresNothing.flatMap {α : Type} {k : Config} {f : α → List Event} {l : List α} (h : ∀ a ∈ l, StoresNothing k (f a)) :
    StoresNothing k (l.flatMap f) := by
  induction l with
  | nil => exact fun _ _ => rfl
  | cons a l ih => exact (h a (by simp)).append (ih fun b hb => h b (by simp [hb]))

theorem storesNothing_wait (k : Config) (ms : Nat) : StoresNothing k [.wait ms] := fun p _ => (gram_wait k ms p).1

theorem storesNothing_group {k : Config} {c : Byte} (hc : c ≠ k.cmdRamwr) (ds : List Byte) : StoresNothing k (groupStream c ds) :=
  fun p hu => gram_group k c (ds.map .dat) (by simp) (.inl hc) _ (List.prefix_rfl) p hu

theorem storesNothing_entry {k : Config} {e : Entry} (he : e.cmd ≠ k.cmdRamwr) : StoresNothing k (entryStream e) := by
  refine (storesNothing_group he e.params).append ?_
  split
  · exact storesNothing_wait k e.delayMs
  · exact fun _ _ => rfl

theorem storesNothing_segment {k : Config} (hk : ∀ e ∈ k.table, e.cmd ≠ k.cmdRamwr) (p : SeqState) :
    StoresNothing k ((segment k p).flatMap entryStream) :=
  .flatMap fun e he => storesNothing_entry (hk e (List.mem_of_mem_filter he))

theorem storesNothing_state {k : Config} (hk : ∀ e ∈ k.table, e.cmd ≠ k.cmdRamwr) (p : SeqState) :
    StoresNothing k (stateStream k p) := by
  cases p with
  | powerWait | settleDelay120 | settleDelay10 => exact storesNothing_wait k _
  | ready => exact fun _ _ => rfl
  | reset | pageUnlock | registerBurst | gammaPageUnlock | gammaBurst | pageLock | displayModeConfig | sleepOut | displayOn =>
    exact storesNothing_segment hk _

end Panel

/-- Settles O40: no entry's stream stores a byte, and a known receiver is not recovered. -/
theorem runInitFrame : Obligations.RunInitFrame := by
  intro s t _ he hr hramwr hu
  have h := (ends_of_exec he).completed_of_answer hr
  obtain ⟨p, free, hp, hpanel⟩ := (if_pos rfl).mp h.panel
  subst hp
  rw [if_neg (by simp [hu])] at hpanel
  have hnothing : Panel.StoresNothing s.cfg (initStream s.cfg) :=
    .flatMap fun p _ => Panel.storesNothing_state hramwr p
  obtain ⟨htaken, hgram⟩ := gram_taken hu
  refine ⟨hpanel, fun a => ?_⟩
  rw [hpanel, hgram, hnothing _ htaken]
  rfl

end Sys2Proof.Machine
end

section
/-! The fills (42_frame_writer.md R160 to R180): the stream and the wire trace of one that completes, the checks that refuse one, and
FILL_SCREEN as FILL_RECT. -/

namespace Sys2Proof.Machine

/-! ### The streams -/

theorem pixelBytes_dats (p : U16) (n : Nat) :
    (pixelBytes p n).map Event.dat = (List.replicate n [Event.dat (hiByte p), .dat (loByte p)]).flatten := by
  induction n with
  | zero => rfl
  | succ n ih =>
    rw [pixelBytes, List.map_cons, List.map_cons, ih, List.replicate_succ, List.flatten_cons]
    rfl

@[simp] theorem pixelBytes_length (p : U16) (n : Nat) : (pixelBytes p n).length = 2 * n := by
  induction n with
  | zero => rfl
  | succ n ih =>
    rw [pixelBytes, List.length_cons, List.length_cons, ih]
    omega

@[simp] theorem windowStream_length (k : Config) (xs ys xe ye : U16) : (windowStream k xs ys xe ye).length = 11 := rfl

theorem rowsStream_eq_flatMap (k : Config) (x0 x1 p : U16) (y n : Nat) :
    rowsStream k x0 x1 p y n = (List.range n).flatMap fun j => rowStream k x0 (BitVec.ofNat 16 (y + j)) x1 p := by
  induction n generalizing y with
  | zero => rfl
  | succ n ih =>
    rw [rowsStream, ih, List.range_succ_eq_map, List.flatMap_cons, List.flatMap_map]
    exact congrArg _ (List.flatMap_congr fun j _ => by rw [Nat.add_right_comm, Nat.add_assoc])

theorem rowsStream_length (k : Config) (x0 x1 p : U16) (y n : Nat) :
    (rowsStream k x0 x1 p y n).length = n * (11 + 2 * (x1.toNat - x0.toNat + 1)) := by
  induction n generalizing y with
  | zero => simp [rowsStream]
  | succ n ih =>
    rw [rowsStream, List.length_append, ih, rowStream, List.length_append, List.length_map, windowStream_length, pixelBytes_length]
    ring

theorem rectStream_single {k : Config} (hk : k.fwVariant = .singleWindow) (x0 y0 x1 y1 p : U16) :
    rectStream k x0 y0 x1 y1 p = fillStream k x0 y0 x1 y1 p := by
  rw [rectStream, hk]

theorem rectStream_rows {k : Config} (hk : k.fwVariant = .rowBitmap) (x0 y0 x1 y1 p : U16) :
    rectStream k x0 y0 x1 y1 p = rowsStream k x0 x1 p y0.toNat (y1.toNat - y0.toNat + 1) := by
  rw [rectStream, hk]

theorem rectStream_single_length {k : Config} (hk : k.fwVariant = .singleWindow) (x0 y0 x1 y1 p : U16) :
    (rectStream k x0 y0 x1 y1 p).length = 11 + 2 * ((x1.toNat - x0.toNat + 1) * (y1.toNat - y0.toNat + 1)) := by
  rw [rectStream_single hk, fillStream, List.length_append, List.length_map, windowStream_length, pixelBytes_length]

/-- Settles O46. -/
theorem fillCounts : Obligations.FillCounts := by
  refine ⟨fun k x0 y0 x1 y1 p => ⟨fun hk => rectStream_single_length hk .., fun hk => ?_⟩, fun k hk hw hh => ?_⟩
  · rw [rectStream_rows hk, rowsStream_length]
    ring
  · rw [streamOf, rectStream_single_length hk, hw, hh]
    rfl

/-! ### A fill that completes -/

theorem fill_done {i : Instr} {s : State} (hv : validRect s.cfg (operandsAfter i s) = true) (hp : s.ph = true)
    (ha : allocDraw s = true) (hc : s.env.clean = true) : ∃ u, fill (acceptFill i s) = .done u := by
  have hclean : (fillStart (acceptFill i s)).env.clean = true := by
    unfold fillStart
    cases (acceptFill i s).cfg.fwVariant <;> exact hc
  obtain ⟨u, hu, -⟩ := (fill_runs (fillCheck_acceptFill hv hp) ha).done_of_clean hclean
  exact ⟨u, hu⟩

/-- A fill of a valid rectangle, with the handle, a buffer and no failing word, runs to its end. -/
theorem exec_fill_completed {i : Instr} (hf : isFill i = true) {s : State} (hv : validRect s.cfg (operandsAfter i s) = true)
    (hp : s.ph = true) (hb : s.env.buffers = true) (hc : s.env.clean = true) : ∃ t, exec i s = .next t ∧ Completed i s t := by
  have ha : allocDraw s = true := allocDraw_of_buffers (by simpa [Env.buffers] using hb)
  obtain ⟨t, ht, -, -, hrsps⟩ := exec_fill_ok hf hv hp ha hc
  exact ⟨t, ht, (ends_of_exec ht).completed_of_answer hrsps⟩

/-- Settles O41. -/
theorem fillRectResult : Obligations.FillRectResult := by
  intro x0 y0 x1 y1 p s hvar hp hc hb hx hy hw hh
  obtain ⟨t, ht, h⟩ := exec_fill_completed rfl (validRect_fillRect p hx hy hw hh) hp hb hc
  refine ⟨t, ht, h.answer, ?_, h.seq.kept (by simp), h.buffer.1, h.buffer.2, h.fixed.cfg, h.fixed.plat, h.fixed.inbox, h.regs.x,
    h.idle⟩
  rw [h.went.logical, streamOf, rectStream_single hvar, fillStream, pixelBytes_dats]
  simp [windowStream, groupStream, coordBytes]

/-- Settles O42. -/
theorem fillRectByRows : Obligations.FillRectByRows := by
  intro x0 y0 x1 y1 p s hvar hp hc hb hx hy hw hh
  obtain ⟨t, ht, h⟩ := exec_fill_completed rfl (validRect_fillRect p hx hy hw hh) hp hb hc
  refine ⟨t, ht, h.answer, ?_, h.seq.kept (by simp), h.buffer.1, h.buffer.2, h.fixed.cfg, h.fixed.plat, h.fixed.inbox, h.regs.x,
    h.idle⟩
  rw [h.went.logical, streamOf, rectStream_rows hvar, rowsStream_eq_flatMap]
  refine congrArg _ (List.flatMap_congr fun j _ => ?_)
  rw [rowStream, pixelBytes_dats]
  rfl

/-- Settles O45. -/
theorem fillScreenResult : Obligations.FillScreenResult := by
  intro p s hsize hp hc hb
  obtain ⟨t, ht, h⟩ := exec_fill_completed rfl (validRect_fillScreen p hsize) hp hb hc
  exact ⟨t, ht, h.answer, h.went.logical, h.seq.kept (by simp), h.buffer.1, h.buffer.2, h.idle, h.regs.x⟩

/-- What a fill that completed put on the wire is what its sequence did. -/
theorem exec_fill_wire {i : Instr} (hf : isFill i = true) {s t : State} {tr : List WireEvent} (ht : exec i s = .next t)
    (hdone : ∃ u, fill (acceptFill i s) = .done u) (htr : (fill (acceptFill i s)).OnDone (Traced tr (acceptFill i s))) :
    t.wire = s.wire ++ tr := by
  obtain ⟨u, hu⟩ := hdone
  rw [exec_fill hf, hu] at ht
  obtain rfl := Host.Outcome.next.inj ht
  rw [hu] at htr
  exact htr.wire

/-- A fill by the bulk path (42_frame_writer.md R167; 40_transport.md R110). -/
theorem fill_traced_burst {s : State} (h : fillCheck s = none) (ha : allocDraw s = true) (hb : s.cfg.profile = .bridge)
    (hvar : s.cfg.fwVariant = .singleWindow) (hburst : s.cfg.fwBurst = true) :
    (fill s).OnDone (Traced (wireOf s.cfg (windowStream s.cfg s.x.x0 s.x.y0 s.x.x1 s.x.y1)
      ++ burstTrace s.cfg (pixelBytes s.x.pix s.x.pixels)) s) := by
  rw [fill_variant h ha, hvar]
  refine traced_after (t := obtainBuffer (popAlloc s)) rfl rfl ?_
  refine traced_bind (openWindow_traced _ _ _ _ _ (obtainBuffer (popAlloc s))) fun t ht => ?_
  have hcfg : t.cfg = s.cfg := ht
  have hstream := streamBytes_traced_burst (pixelBytes s.x.pix s.x.pixels) (loadCount s.x t) hburst (by rw [← hb, ← hcfg]; rfl)
  rw [show (loadCount s.x t).cfg = s.cfg from hcfg] at hstream
  exact hstream.mono fun _ hu => ⟨hu.cfg, hu.wire⟩

theorem wireOf_bridge {k : Config} (h : k.profile = .bridge) (es : List Event) : wireOf k es = traceOf k es := by
  rw [wireOf, h]

/-- Settles O43: each path from its trace (`fill_traced`, `fill_traced_burst`). -/
theorem fillWireTrace : Obligations.FillWireTrace := by
  intro x0 y0 x1 y1 p s hbridge hp hc hb hx hy hw hh
  have hv := validRect_fillRect p hx hy hw hh
  have ha : allocDraw s = true := allocDraw_of_buffers (by simpa [Env.buffers] using hb)
  have hcheck := fillCheck_acceptFill hv hp
  obtain ⟨t, ht, h⟩ := exec_fill_completed rfl hv hp hb hc
  have hdone := fill_done hv hp ha hc
  refine ⟨t, ht, h.answer, h.went.logical, fun hburst => ?_, fun hvar hburst => ?_⟩
  · rw [← wireOf_bridge hbridge]
    have htraced := fill_traced (s := acceptFill (.fillRect x0 y0 x1 y1 p) s) hcheck ha hburst
    exact exec_fill_wire rfl ht hdone htraced
  · rw [← wireOf_bridge hbridge, List.append_assoc]
    have htraced := fill_traced_burst (s := acceptFill (.fillRect x0 y0 x1 y1 p) s) hcheck ha hbridge hvar hburst
    exact exec_fill_wire rfl ht hdone htraced

/-! ### A fill that is refused -/

/-- A fill that fails a check is answered, and nothing else happens but that its request was accepted. -/
theorem exec_fill_refused {i : Instr} (hf : isFill i = true) {s : State} {r : Resp} (h : fillCheck (acceptFill i s) = some r) :
    exec i s = .next (raise r (releaseBuffer (acceptFill i s))) := by
  rw [exec_fill hf, fill_refused h]
  rfl

theorem fillCheck_invalid {i : Instr} {s : State} (h : validRect s.cfg (operandsAfter i s) = false) :
    fillCheck (acceptFill i s) = some .configurationError := by
  rw [fillCheck, show validRect (acceptFill i s).cfg (acceptFill i s).x = false from h]
  rfl

theorem fillCheck_notReady {i : Instr} {s : State} (hv : validRect s.cfg (operandsAfter i s) = true) (hp : s.ph = false) :
    fillCheck (acceptFill i s) = some .notReady := by
  rw [fillCheck, show validRect (acceptFill i s).cfg (acceptFill i s).x = true from hv, show (acceptFill i s).ph = false from hp]
  rfl

theorem validRect_iff {k : Config} {x : Operands} :
    validRect k x = true ↔
      x.x0.toNat ≤ x.x1.toNat ∧ x.y0.toNat ≤ x.y1.toNat ∧ x.x1.toNat < k.width ∧ x.y1.toNat < k.height := by
  simp [validRect, and_assoc]

theorem validRect_fillRect_iff {x0 y0 x1 y1 p : U16} {s : State} :
    validRect s.cfg (operandsAfter (.fillRect x0 y0 x1 y1 p) s) = true ↔
      x0.toNat ≤ x1.toNat ∧ y0.toNat ≤ y1.toNat ∧ x1.toNat < s.cfg.width ∧ y1.toNat < s.cfg.height :=
  validRect_iff

/-- Settles O47. -/
theorem malformedRectangleRejected : Obligations.MalformedRectangleRejected := by
  intro x0 y0 x1 y1 p s hbad
  have hv : validRect s.cfg (operandsAfter (.fillRect x0 y0 x1 y1 p) s) = false := by
    rw [Bool.eq_false_iff, Ne, validRect_fillRect_iff]
    omega
  exact ⟨_, exec_fill_refused rfl (fillCheck_invalid hv), ⟨rfl, rfl, rfl⟩,
    ⟨rfl, rfl, rfl, rfl, rfl, rfl, rfl, rfl, rfl, rfl, rfl⟩, ⟨rfl, rfl⟩, ⟨rfl, rfl, rfl, rfl, rfl⟩, rfl, rfl⟩

/-- Settles O48: both fills have a valid rectangle and fail at the handle. -/
theorem notReadyWithoutTheHandle : Obligations.NotReadyWithoutTheHandle := by
  intro x0 y0 x1 y1 p s hp
  refine ⟨fun hx hy hw hh => ⟨_, exec_fill_refused rfl (fillCheck_notReady (validRect_fillRect p hx hy hw hh) hp), ⟨rfl, rfl, rfl⟩,
      ⟨rfl, rfl, rfl, rfl, rfl, rfl, rfl, rfl, rfl, rfl, rfl⟩, ⟨rfl, rfl⟩, ⟨rfl, rfl, rfl, rfl, rfl⟩⟩,
    fun hsize => ⟨_, exec_fill_refused rfl (fillCheck_notReady (validRect_fillScreen p hsize) hp), ⟨rfl, rfl, rfl⟩,
      ⟨rfl, rfl, rfl, rfl, rfl, rfl, rfl, rfl, rfl, rfl, rfl⟩, ⟨rfl, rfl⟩, ⟨rfl, rfl, rfl, rfl, rfl⟩⟩⟩

/-! ### FILL_SCREEN as FILL_RECT -/

/-- The state in which a sequence ended, whatever its end. -/
def Flow.state : Flow → State
  | .done s => s
  | .raised _ s => s
  | .hung s => s
  | .reset s => s

theorem Flow.Runs.kept_state {K : State → State → Prop} {es : List Event} {s : State} {f : Flow} (h : f.Runs K es s) : K s f.state := by
  cases f with
  | done t => exact h.1
  | raised r t => exact h.2.1
  | hung t => exact h.1
  | reset t => exact h.1

/-- A fill does not write the operand registers, whatever its end. -/
theorem fill_x (s : State) : (fill s).state.x = s.x := by
  cases hc : fillCheck s with
  | some r => rw [fill_refused hc]; rfl
  | none =>
    cases ha : allocDraw s with
    | false => rw [fill_noBuffer hc ha]; rfl
    | true =>
      rw [(fill_runs hc ha).kept_state.x]
      unfold fillStart
      cases s.cfg.fwVariant <;> rfl

theorem Flow.view_operandView_state (f : Flow) : f.view (State.operandView f.state.x) = f := by
  cases f <;> rfl

/-- The end of a fill whose sequence differs from another's in the operation code alone. -/
theorem finishFill_operandView {f : Flow} {x : Operands} (h : x = { f.state.x with op := x.op }) :
    finishFill (f.view (State.operandView x))
      = { finishFill f with x := { (finishFill f).x with op := (finishFill (f.view (State.operandView x))).x.op } } := by
  cases f with
  | done s => exact congrArg (fun x => { finishFill (.done s) with x := x }) h
  | raised r s => exact congrArg (fun x => { finishFill (.raised r s) with x := x }) h
  | hung s => exact congrArg (fun x => { finishFill (.hung s) with x := x }) h
  | reset s => rfl

/-- Settles O44: the two accepted requests differ in the operation code alone, which a fill does not read (`fill_operands`). -/
theorem fillScreenIsFillRect : Obligations.FillScreenIsFillRect := by
  intro p s
  let screen := acceptFill (.fillScreen p) s
  let rect := acceptFill (.fillRect 0 0 (BitVec.ofNat 16 (s.cfg.width - 1)) (BitVec.ofNat 16 (s.cfg.height - 1)) p) s
  have hview : fill screen = (fill rect).view (State.operandView screen.x) := by
    have hscreen := Flow.view_operandView_state (fill screen)
    rw [fill_x] at hscreen
    exact hscreen.symm.trans (fill_operands screen.x rfl rfl)
  refine ⟨finishFill (fill screen), finishFill (fill rect), exec_fill rfl s, exec_fill rfl s, ?_⟩
  rw [hview]
  exact finishFill_operandView (by rw [fill_x]; rfl)

end Sys2Proof.Machine
end

section
/-! What a fill leaves of the frame memory (43_panel_receiver.md R196 to R199), and its counters where a word of it never returned
(10_state.md R25). -/

namespace Sys2Proof.Machine

/-! ### The picture -/

/-- Settles O51: the receiver takes the whole stream of the rectangle (`Panel.onEvents_rect`). -/
theorem fillPaintsTheRectangle : Obligations.FillPaintsTheRectangle := by
  refine ⟨fun x0 y0 x1 y1 p k q hk hq => Panel.rectStream_keepsOrder hk x0 y0 x1 y1 p hq, ?_⟩
  intro x0 y0 x1 y1 p s hk hp hc hb hx hy hw hh hu hset ho
  obtain ⟨t, ht, h⟩ := exec_fill_completed rfl (validRect_fillRect p hx hy hw hh) hp hb hc
  have hpanel : t.panel = s.panel.onEvents s.cfg (rectStream s.cfg x0 y0 x1 y1 p) := h.panel
  obtain ⟨⟨hknown, -⟩, hwr, hhi, hpainted⟩ := Panel.onEvents_rect hk hx hy hw hh p ⟨hu, hset⟩ ho
  rw [← hpanel] at hknown hwr hhi hpainted
  exact ⟨t, ht, h.answer.1, hknown, hwr, hhi, fun row col hcol => Panel.pixelAt_painted hpainted hcol,
    fun a ha => (hpainted a).trans (if_neg ha)⟩

/-- A first part of a fill's stream, in either variant, stores inside the rectangle only. -/
theorem gram_fill_outside {k : Config} (hk : k.cmdsDistinct = true) {x0 y0 x1 y1 : U16} (hx : x0.toNat ≤ x1.toNat)
    (hy : y0.toNat ≤ y1.toNat) (hw : x1.toNat < k.width) (hh : y1.toNat < k.height) (c : U16) {pre : List Event}
    (hpre : pre <+: rectStream k x0 y0 x1 y1 c) {p : Panel} (hu : (p.takeEvents k pre).unknown = false) {a : Nat}
    (ha : Outside k x0.toNat y0.toNat x1.toNat y1.toNat a) : (p.takeEvents k pre).gram.read a = p.gram.read a := by
  cases hvar : k.fwVariant with
  | singleWindow =>
    rw [rectStream_single hvar] at hpre
    exact gram_rect_outside hk hx hy hw hh _ (by simp) pre hpre p hu a ha
  | rowBitmap =>
    rw [rectStream_rows hvar] at hpre
    have hlast : y0.toNat + (y1.toNat - y0.toNat + 1) - 1 = y1.toNat := by omega
    have hlt := y1.isLt
    exact gram_rows_outside hk hx hw _ _ (by omega) (by omega) pre hpre p hu a (by rwa [hlast])

/-- Settles O52: a valid rectangle's fill leaves what a first part of its stream makes of the receiver, any other fill nothing. -/
theorem fillFrame : Obligations.FillFrame := by
  intro x0 y0 x1 y1 p s t hk _ he hu a ha
  by_cases hv : validRect s.cfg (operandsAfter (.fillRect x0 y0 x1 y1 p) s) = true
  · obtain ⟨hx, hy, hw, hh⟩ := validRect_fillRect_iff.1 hv
    obtain ⟨pre, hpre, hpanel⟩ := (ends_of_exec he).panel_of_known (by simp) hu
    rw [hpanel] at hu ⊢
    obtain ⟨htaken, hgram⟩ := gram_taken hu
    rw [hgram]
    exact gram_fill_outside hk hx hy hw hh p hpre htaken ha
  · rw [exec_fill_refused rfl (fillCheck_invalid (Bool.eq_false_iff.2 hv))] at he
    obtain rfl := Host.Outcome.next.inj he
    rfl

/-! ### The counters -/

theorem Flow.onHung_and {P Q : State → Prop} {f : Flow} (h : f.OnHung P) (g : f.OnHung Q) : f.OnHung fun t => P t ∧ Q t := by
  cases f with
  | done t => trivial
  | raised r t => trivial
  | hung t => exact ⟨h, g⟩
  | reset t => trivial

theorem Flow.OnHung.of_eq {P : State → Prop} {f : Flow} {t : State} (h : f.OnHung P) (e : f = .hung t) : P t := by
  rwa [e] at h

/-- Where a sequence hung, fewer events went out than it has. -/
theorem Flow.Runs.hung_length {K : State → State → Prop} {es : List Event} {s : State} {f : Flow} (h : f.Runs K es s) :
    f.OnHung fun t => K s t ∧ ∃ n < es.length, t.logical.length = s.logical.length + n := by
  cases f with
  | done t => trivial
  | raised r t => trivial
  | hung t =>
    obtain ⟨hk, -, pre, -, hlen, -, hwent⟩ := h
    exact ⟨hk, pre.length, hlen, by rw [hwent.logical, List.length_append]⟩
  | reset t => trivial

theorem Flow.Runs.done_length {K : State → State → Prop} {es : List Event} {s : State} {f : Flow} (h : f.Runs K es s) :
    f.OnDone fun t => K s t ∧ t.logical.length = s.logical.length + es.length :=
  h.done_logical.mono fun t ⟨hk, hl⟩ => ⟨hk, by rw [hl, List.length_append]⟩

/-- Where the bytes of pixels hung: the whole pixels on the logical stream are counted off. -/
theorem streamBytes_hung (k : Config) (ds : List Byte) (s : State) :
    (streamBytes k ds s).OnHung fun t => ∃ n < ds.length, CountedBytes s t n := by
  have hlength : (streamBytes k ds s).OnHung fun t => _ := (streamBytes_runs k ds s).hung_length
  refine (Flow.onHung_and hlength (streamBytes_counts k ds s).2).mono fun t ⟨⟨_, n, hn, hl⟩, m, hm⟩ => ⟨m, ?_, hm⟩
  have hm1 := hm.1
  rw [List.length_map] at hn
  omega

/-- The counter in a fill of one window, where a word of its pixels hung. -/
theorem fillSingle_hung (k : Config) (x : Operands) (s : State) :
    (fillSingle k x s).OnHung fun t => ∃ n, t.logical.length = s.logical.length + n ∧
      (11 ≤ n → t.fwLeft + (n - 11) / 2 = x.pixels) := by
  have hwindow := openWindow_runs k x.x0 x.y0 x.x1 x.y1 s
  refine Flow.onHung_bind_of (hwindow.hung_length.mono fun t ⟨_, n, hn, hl⟩ => ⟨n, hl, fun h => ?_⟩)
    hwindow.done_length fun u hu =>
      (streamBytes_hung k (pixelBytes x.pix x.pixels) (loadCount x u)).mono fun t ⟨n, hn, hl, hleft⟩ =>
        ⟨11 + n, ?_, fun _ => ?_⟩
  · rw [windowStream_length] at hn
    omega
  · rw [hl, show (loadCount x u).logical = u.logical from rfl, hu.2, windowStream_length, Nat.add_assoc]
  · rw [hleft, show (loadCount x u).fwLeft = x.pixels from rfl]
    rw [pixelBytes_length] at hn
    omega

/-- One row's words, all sent: its pixels are counted off, and the registers the row loop runs on are as before. -/
theorem drawBitmap_done (k : Config) (xs ys xe ye : U16) (bs : List Byte) (s : State) :
    (drawBitmap k xs ys xe ye bs s).OnDone fun t =>
      KeptPixels s t ∧ t.logical.length = s.logical.length + (11 + bs.length) ∧ t.fwLeft = s.fwLeft - bs.length / 2 := by
  have hleft : (drawBitmap k xs ys xe ye bs s).OnDone fun t => t.fwLeft = s.fwLeft - bs.length / 2 :=
    Flow.onDone_bind (openWindow_runs k xs ys xe ye s).onDone fun u hu =>
      (streamBytes_counts k bs u).1.mono fun t ht => by rw [ht.2, hu.fwLeft]
  refine (Flow.onDone_and (drawBitmap_runs k xs ys xe ye bs s).done_length hleft).mono fun t ⟨⟨hk, hl⟩, hleft⟩ => ⟨hk, ?_, hleft⟩
  rw [hl, List.length_append, List.length_map, windowStream_length]

/-- One row where a word hung. -/
theorem drawBitmap_hung (k : Config) (xs ys xe ye : U16) (bs : List Byte) (s : State) :
    (drawBitmap k xs ys xe ye bs s).OnHung fun t =>
      t.fwRow = s.fwRow ∧ ∃ n < 11 + bs.length, t.logical.length = s.logical.length + n ∧ t.fwLeft = s.fwLeft - (n - 11) / 2 := by
  have hrow : (drawBitmap k xs ys xe ye bs s).OnHung fun t => t.fwRow = s.fwRow :=
    (drawBitmap_runs k xs ys xe ye bs s).hung_length.mono fun t ht => ht.1.fwRow
  refine Flow.onHung_and hrow ?_
  have hwindow := openWindow_runs k xs ys xe ye s
  refine Flow.onHung_bind_of (hwindow.hung_length.mono fun t ⟨hk, n, hn, hl⟩ => ⟨n, ?_, hl, ?_⟩)
    hwindow.done_length fun u hu => (streamBytes_hung k bs u).mono fun t ⟨n, hn, hl, hleft⟩ => ⟨11 + n, by omega, ?_, ?_⟩
  · rw [windowStream_length] at hn
    omega
  · rw [windowStream_length] at hn
    rw [hk.fwLeft, Nat.sub_eq_zero_of_le (by omega : n ≤ 11)]
    rfl
  · rw [hl, hu.2, windowStream_length, Nat.add_assoc]
  · rw [hleft, hu.1.fwLeft, Nat.add_sub_cancel_left]

/-- `j` whole rows of `c` pixels and `m` events of the next were sent from `s` on: what the counters then are. -/
def CountedRows (c n : Nat) (s t : State) : Prop :=
  ∃ j < n, ∃ m < 11 + 2 * c, t.logical.length = s.logical.length + (j * (11 + 2 * c) + m) ∧
    t.fwRow.toNat = s.fwRow.toNat + j ∧ t.fwLeft + (j * c + (m - 11) / 2) = s.fwLeft

/-- A row further on. -/
theorem CountedRows.next {c n : Nat} {s u t : State} (h : CountedRows c n u t)
    (hl : u.logical.length = s.logical.length + (11 + 2 * c)) (hr : u.fwRow.toNat = s.fwRow.toNat + 1)
    (hf : u.fwLeft + c = s.fwLeft) : CountedRows c (n + 1) s t := by
  obtain ⟨j, hj, m, hm, h1, h2, h3⟩ := h
  refine ⟨j + 1, by omega, m, hm, ?_, by omega, ?_⟩
  · rw [h1, hl]
    ring
  · rw [Nat.succ_mul]
    omega

theorem toNat_add_one {a b : U16} (h : a.toNat < b.toNat) : (a + 1).toNat = a.toNat + 1 := by
  have hb := b.isLt
  rw [BitVec.toNat_add]
  simp
  omega

/-- The counters of a fill by rows, where a word of it hung (42_frame_writer.md R175; 10_state.md R25). -/
theorem rowLoop_hung (k : Config) (x : Operands) (n : Nat) (s : State) (hlb : s.lb = lineBuffer x.pix x.columns)
    (hr : s.fwRow.toNat + n = x.y1.toNat + 1) (hf : s.fwLeft = n * x.columns) :
    (rowLoop k x n s).OnHung (CountedRows x.columns n s) := by
  induction n generalizing s with
  | zero => trivial
  | succ n ih =>
    rw [Nat.succ_mul] at hf
    unfold rowLoop
    rw [hlb, lineBuffer_bytes]
    have hbytes : (pixelBytes x.pix x.columns).length = 2 * x.columns := pixelBytes_length ..
    refine Flow.onHung_bind_of ((drawBitmap_hung k _ _ _ _ _ s).mono fun t ⟨hrow, m, hm, hl, hleft⟩ =>
      ⟨0, by omega, m, by omega, by omega, by rw [hrow]; rfl, by omega⟩) (drawBitmap_done k _ _ _ _ _ s) fun t ⟨hk, hl, hleft⟩ => ?_
    rw [hbytes] at hl hleft
    split
    · trivial
    · next hlast =>
      have hlt : s.fwRow.toNat < x.y1.toNat := by
        have hne : s.fwRow.toNat ≠ x.y1.toNat := fun h => hlast (hk.fwRow.trans (BitVec.eq_of_toNat_eq h))
        omega
      have hnext : (t.fwRow + 1).toNat = s.fwRow.toNat + 1 := by rw [hk.fwRow, toNat_add_one hlt]
      have hleft' : t.fwLeft = n * x.columns := by omega
      refine (ih { t with fwRow := t.fwRow + 1 } (hk.lb.trans hlb) (by show (t.fwRow + 1).toNat + n = _; omega) hleft').mono
        fun u hu => hu.next hl hnext ?_
      show t.fwLeft + _ = _
      omega

/-- A fill that leaves the block busy is one whose sequence hung, after its checks, with its buffer. -/
theorem fill_hung_of_busy {i : Instr} (hi : isFill i = true) {s t : State} (h : exec i s = .next t) (ht : t.busy = true) :
    fillCheck (acceptFill i s) = none ∧ allocDraw (acceptFill i s) = true ∧ fill (acceptFill i s) = .hung t := by
  rw [exec_fill hi] at h
  obtain rfl := Host.Outcome.next.inj h
  cases hc : fillCheck (acceptFill i s) with
  | some r => rw [fill_refused hc] at ht; cases ht
  | none =>
    cases ha : allocDraw (acceptFill i s) with
    | false => rw [fill_noBuffer hc ha] at ht; cases ht
    | true =>
      refine ⟨rfl, rfl, ?_⟩
      cases hf : fill (acceptFill i s) with
      | hung u => rfl
      | done u => rw [hf] at ht; cases ht
      | raised r u => rw [hf] at ht; cases ht
      | reset u => rw [hf] at ht; cases ht

/-- Settles O60: by variant (`fillSingle_hung`, `rowLoop_hung`), with what went out as the number of events. -/
theorem fillCountsItsPixels : Obligations.FillCountsItsPixels := by
  intro x0 y0 x1 y1 p s t pre _ h ht hpre
  obtain ⟨hc, ha, hflow⟩ := fill_hung_of_busy rfl h ht
  have hlength : t.logical.length = s.logical.length + pre.length := by rw [hpre, List.length_append]
  rw [fill_variant hc ha] at hflow
  refine ⟨fun hvar hsent => ?_, fun hvar => ?_⟩
  · rw [show (acceptFill (.fillRect x0 y0 x1 y1 p) s).cfg.fwVariant = .singleWindow from hvar] at hflow
    obtain ⟨n, hl, hleft⟩ := (fillSingle_hung _ _ _).of_eq hflow
    obtain rfl : n = pre.length := Nat.add_left_cancel (hl.symm.trans hlength)
    exact hleft hsent
  · rw [show (acceptFill (.fillRect x0 y0 x1 y1 p) s).cfg.fwVariant = .rowBitmap from hvar] at hflow
    obtain ⟨-, hy, -⟩ := validRect_fillRect_iff.1 (fillCheck_none.1 hc).1
    have hrows : y0.toNat + (y1.toNat - y0.toNat + 1) = y1.toNat + 1 := by omega
    obtain ⟨j, hj, m, hm, hl, hrow, hleft⟩ := (rowLoop_hung _ _ _ _ rfl hrows (Nat.mul_comm ..)).of_eq hflow
    have hpos : 0 < 11 + 2 * (x1.toNat - x0.toNat + 1) := by omega
    have hsent : pre.length = m + (11 + 2 * (x1.toNat - x0.toNat + 1)) * j := by
      rw [Nat.add_comm m, Nat.mul_comm _ j]
      exact Nat.add_left_cancel (hlength.symm.trans hl)
    obtain ⟨hdiv, hmod⟩ := (Nat.div_mod_unique hpos).2 ⟨hsent.symm, hm⟩
    rw [hdiv, hmod]
    exact ⟨hrow, (Nat.add_assoc ..).trans hleft⟩

end Sys2Proof.Machine
end

section
/-! The platform devices (60_exceptions.md R236 to R241): the expander set-up, the backlight and its self-test. -/

namespace Sys2Proof.Machine

namespace Platform

/-! ### The expander -/

theorem enableExpander_sameBacklight (home a b : Bool) (p : Platform) : p.SameBacklight (p.enableExpander home a b) := by
  cases home with
  | false => exact ⟨rfl, rfl, rfl, rfl, rfl, rfl, rfl, rfl⟩
  | true => cases a <;> cases b <;> exact ⟨rfl, rfl, rfl, rfl, rfl, rfl, rfl, rfl⟩

theorem enableExpander_expRsp (home a b : Bool) (p : Platform) :
    (p.enableExpander home a b).expRsp = if a && b then .ok else .busError := by
  cases home with
  | false => rfl
  | true => cases a <;> cases b <;> rfl

/-- At another address the expander's registers are not addressed (log 25). -/
theorem enableExpander_away (a b : Bool) (p : Platform) :
    (p.enableExpander false a b).expDir = p.expDir ∧ (p.enableExpander false a b).expOut = p.expOut := ⟨rfl, rfl⟩

theorem enableExpander_expDir (b : Bool) (p : Platform) : (p.enableExpander true true b).expDir = 0x00#8 := by
  cases b <;> rfl

/-! ### The backlight -/

theorem dutyOf_le (pct : Fin 101) (bits : Nat) : dutyOf pct bits ≤ 2 ^ bits - 1 := by
  have hpct : pct.val ≤ 100 := by omega
  calc fullDuty bits * pct.val / 100 ≤ fullDuty bits * 100 / 100 := Nat.div_le_div_right (Nat.mul_le_mul_left _ hpct)
    _ = 2 ^ bits - 1 := Nat.mul_div_cancel _ (by decide)

theorem pwmConfigured_iff {chan : Nat} {p : Platform} : p.pwmConfigured chan = true ↔ p.pwmOn = true ∧ chan = p.pwmChan := by
  simp [pwmConfigured]

theorem not_pwmConfigured {chan : Nat} {p : Platform} (h : p.pwmOn = false ∨ chan ≠ p.pwmChan) : p.pwmConfigured chan = false := by
  rw [Bool.eq_false_iff, Ne, pwmConfigured_iff]
  rintro ⟨hon, hchan⟩
  obtain h | h := h
  · rw [h] at hon; cases hon
  · exact h hchan

theorem writeDuty_keeps (chan duty : Nat) (p : Platform) :
    p.SameExpander (p.writeDuty chan duty) ∧ p.SameChannel (p.writeDuty chan duty) ∧ (p.writeDuty chan duty).ramp = p.ramp := by
  unfold writeDuty
  split_ifs <;> exact ⟨⟨rfl, rfl, rfl⟩, ⟨rfl, rfl, rfl, rfl, rfl⟩, rfl⟩

theorem writeDuty_configured {chan : Nat} (duty : Nat) {p : Platform} (h : p.pwmConfigured chan = true) :
    (p.writeDuty chan duty).pwmRsp = .ok ∧ (duty ≤ 2 ^ p.pwmBits - 1 → (p.writeDuty chan duty).duty = duty) := by
  rw [writeDuty, if_pos h]
  by_cases hr : p.dutyInRange duty = true
  · rw [if_pos hr]
    exact ⟨rfl, fun _ => rfl⟩
  · rw [if_neg hr]
    exact ⟨rfl, fun hle => absurd (decide_eq_true hle) hr⟩

theorem writeDuty_notConfigured {chan : Nat} (duty : Nat) {p : Platform} (h : p.pwmConfigured chan = false) :
    (p.writeDuty chan duty).pwmRsp = .configurationError := by
  rw [writeDuty, if_neg (by simp [h])]
  rfl

/-- The shape of the self-test's duties, with none above full (60_exceptions.md R240). -/
theorem rampDuties_shape (k : Config) (bits : Nat) :
    ∃ (down : List Nat) (dim : Nat), down.length = k.rampLevels.length ∧ dim = (2 ^ bits - 1) * k.rampDim.val / 100 ∧
      (∀ d ∈ dim :: down, d ≤ 2 ^ bits - 1) ∧
      rampDuties k bits = (2 ^ bits - 1) :: (List.replicate 3 (down ++ dim :: down.reverse ++ [2 ^ bits - 1])).flatten := by
  refine ⟨k.rampLevels.map fun l => dutyOf l bits, dutyOf k.rampDim bits, List.length_map .., rfl, fun d hd => ?_, rfl⟩
  obtain rfl | hd := List.mem_cons.1 hd
  · exact dutyOf_le k.rampDim bits
  · obtain ⟨l, -, rfl⟩ := List.mem_map.1 hd
    exact dutyOf_le l bits

end Platform

/-! ### The steps -/

section
variable {s : State} {r : List Input} (hk : s.cfg.wf = true) (hb : s.busy = false)
include hk hb

/-- A step that takes what the outside world presents first. -/
theorem step_stays {t : State} (h : fetchIdle s = .stay t) : step s = .next t := by
  rw [step_idle hk hb, h]
  rfl

theorem step_expander {addr : BitVec 7} {a b : Bool} (hi : s.inbox = .expander addr a b :: r) :
    step s = .next { s with inbox := r, plat := s.plat.enableExpander (addr == s.cfg.expAddr) a b } :=
  step_stays hk hb (by rw [fetchIdle, hi]; rfl)

theorem step_backlight {pin chan hz bits : Nat} (hi : s.inbox = .backlight pin chan hz bits :: r) :
    step s = .next { s with inbox := r, plat := s.plat.initBacklight s.cfg pin chan hz bits } :=
  step_stays hk hb (by rw [fetchIdle, hi]; rfl)

theorem step_setDuty {chan duty : Nat} (hi : s.inbox = .setDuty chan duty :: r) :
    step s = .next { s with inbox := r, plat := s.plat.writeDuty chan duty } :=
  step_stays hk hb (by rw [fetchIdle, hi]; rfl)

/-- The self-test on the configured channel, which takes time. -/
theorem step_selfTest {chan : Nat} (hi : s.inbox = .selfTest chan :: r) (hc : s.plat.pwmConfigured chan = true) :
    ∃ ns, step s = .next
      { s with inbox := r, plat := s.plat.runSelfTest s.cfg, now := s.now + ns, quietDue := s.quietDue - ns } := by
  refine ⟨s.cfg.rampDelayNs * (rampDuties s.cfg s.plat.pwmBits).length, step_stays hk hb ?_⟩
  rw [fetchIdle, hi]
  exact congrArg Fetched.stay (if_pos hc)

theorem step_selfTest_notConfigured {chan : Nat} (hi : s.inbox = .selfTest chan :: r) (hc : s.plat.pwmConfigured chan = false) :
    step s = .next { s with inbox := r, plat := s.plat.leaveDuty .configurationError } := by
  refine step_stays hk hb ?_
  rw [fetchIdle, hi]
  exact congrArg Fetched.stay (if_neg (by simp [hc]))

end

/-- Settles O59: each input is one operation on the devices. -/
theorem platformDevices : Obligations.PlatformDevices := by
  intro s r hk hb
  refine ⟨fun addr a b hi => ⟨_, step_expander hk hb hi, Platform.enableExpander_sameBacklight _ _ _ _,
      fun ha hb => ⟨?_, fun haddr => ?_⟩, fun haddr => ?_, fun ha hb haddr => ?_, fun hab => ?_⟩,
    fun pin chan hz bits hi => ⟨_, step_backlight hk hb hi, ⟨rfl, rfl, rfl⟩, rfl, rfl, rfl, rfl, rfl, rfl, rfl,
      Platform.dutyOf_le _ _, rfl, fun hpct hbits => ?_⟩,
    fun chan duty hi => ⟨_, step_setDuty hk hb hi, ?_⟩, fun chan hi => ?_⟩
  · rw [Platform.enableExpander_expRsp, ha, hb]
    rfl
  · subst ha hb
    rw [beq_iff_eq.2 haddr]
    exact ⟨rfl, rfl⟩
  · rw [beq_eq_false_iff_ne.2 haddr]
    exact Platform.enableExpander_away a b s.plat
  · subst ha
    rw [beq_iff_eq.2 haddr]
    exact Platform.enableExpander_expDir b s.plat
  · rw [Platform.enableExpander_expRsp, hab]
    rfl
  · show dutyOf s.cfg.backlightPct bits = 204
    rw [hpct, hbits]
    rfl
  · obtain ⟨hexp, hchan, hramp⟩ := Platform.writeDuty_keeps chan duty s.plat
    exact ⟨hexp, hchan, hramp, fun hon hc => Platform.writeDuty_configured duty (Platform.pwmConfigured_iff.2 ⟨hon, hc⟩),
      fun h => Platform.writeDuty_notConfigured duty (Platform.not_pwmConfigured h)⟩
  · cases hon : s.plat.pwmConfigured chan with
    | true =>
      obtain ⟨ns, hstep⟩ := step_selfTest hk hb hi hon
      obtain ⟨down, dim, hdown, hdim, hle, hduties⟩ := Platform.rampDuties_shape s.cfg s.plat.pwmBits
      refine ⟨_, ns, hstep, ⟨rfl, rfl, rfl⟩, ⟨rfl, rfl, rfl, rfl, rfl⟩,
        fun _ _ => ⟨rfl, rfl, down, dim, hdown, hdim, hle, congrArg (s.plat.ramp ++ ·) hduties⟩, fun hnot => ?_⟩
      simp [Platform.not_pwmConfigured hnot] at hon
    | false =>
      refine ⟨s.plat.leaveDuty .configurationError, 0, step_selfTest_notConfigured hk hb hi hon, ⟨rfl, rfl, rfl⟩,
        ⟨rfl, rfl, rfl, rfl, rfl⟩, fun h1 h2 => ?_, fun _ => ⟨rfl, rfl, rfl⟩⟩
      simp [Platform.pwmConfigured_iff.2 ⟨h1, h2⟩] at hon

end Sys2Proof.Machine
end
